-- ==== Sys2Proof/Word.lean ====
section
/-! DEFINITION. The word types of the LD2416: bytes, 32-bit words, host tags, tickets and slot numbers. -/

namespace Sys2Proof

/-- A byte, the unit of system memory (00_scope.md, Sizes and addresses). -/
abbrev Byte := BitVec 8

/-- A 32-bit register value or a 32-bit byte address (00_scope.md, Sizes and addresses). -/
abbrev Word := BitVec 32

/-- The host's 16-bit tag (R44). -/
abbrev Tag := BitVec 16

/-- A ticket, a 32-bit count with wrap (R74). -/
abbrev Ticket := BitVec 32

/-- A slot number, 0 to 63 (R41, R184). -/
abbrev Slot := Fin 64

end Sys2Proof
end

