-- ==== Sys2Proof/Syntax.lean ====
section
/-! DEFINITION. The commands of the LD2416: one constructor of Instr for each row of spec/opcode_table.json, with the
operands its rule needs. -/

namespace Sys2Proof

/-- The priority of a posting (R44): 0 NORMAL, 1 URGENT. -/
inductive Priority where
  | normal
  | urgent
  deriving DecidableEq, Repr

/-- Calculation Unit 0 or 1, and its fetcher Fetch 0 or Fetch 1 (R104). -/
inductive UnitId where
  | unit0
  | unit1
  deriving DecidableEq, Repr

/-- The eight registers of the window, by offset (11.1). -/
inductive Register where
  | ident
  | control
  | configAddress
  | post
  | harvest
  | status
  | fault
  | interruptEnable
  deriving DecidableEq, Repr

/-- The width of a register access: 32 bits, or the narrower ones of 8, 16 and 24 bits (R183). -/
inductive AccessWidth where
  | byte
  | half
  | triple
  | word
  deriving DecidableEq, Repr

/-- The bytes of one register that an access addresses, from the first to the last, 0 the least significant (R183). -/
structure Lanes where
  first : Fin 4
  last : Fin 4
  deriving DecidableEq, Repr

/-- The four bytes of a 32-bit access at a register's offset (R183). -/
def Lanes.whole : Lanes := ⟨0, 3⟩

/-- The host's writes to system memory that landed before a read was made, oldest first (log entry 4). -/
abbrev HostWrites := List (Word × Byte)

/-- The commands: one constructor per row of spec/opcode_table.json, in the table's order. -/
inductive Instr where
  | start
  | stop
  | abortAll
  | abortSlot (slot : Slot)
  | clearFault
  | reset
  | unnamedCommandCode (code : BitVec 4)
  | postArrival (slot : Slot) (priority : Priority)
  | harvestRead (lanes : Lanes)
  | clearFinish
  | clearStoppedFlag
  | clearHaltedFlag
  | clearFaultFlag
  | interruptEnableWrite (value : Word)
  | configAddressWrite (value : Word)
  | ignoredRegisterWrite (register : Register) (lanes : Lanes) (value : Word)
  | lineReset
  | rstRelease
  | commandResetComplete
  | sweepTimerExpiry
  | holdoffExpiry
  | responseTimeout
  | lateResponse
  | loaderReadDone (host : HostWrites)
  | configReadBusError
  | sweepReadDone (host : HostWrites)
  | takeBlock0ReadDone (host : HostWrites)
  | takeBlockReadDone (host : HostWrites)
  | nullTakeReadDone (host : HostWrites)
  | intakeBusError
  | fetchReadDone (host : HostWrites)
  | fetchBusError
  | stateWriteDone
  | destinationWriteDone
  | destinationWriteFail
  | resultAreaWriteDone
  | doneWriteDone
  | writerFatalBus
  | sweepBegin
  | takeBegin
  | nullTakeBegin
  | takenEntryAppend
  | intakeCompletionAppend
  | jobStart
  | jobResume
  | parkRequest
  | dispatcherCompletionAppend
  | iterationIssue (unit : UnitId)
  | unitCompletionAppend (unit : UnitId)
  | unitAbortArrival (unit : UnitId)
  | enterStopped
  deriving DecidableEq, Repr

end Sys2Proof
end

