-- ==== Sys2Proof/WellFormed.lean ====
section
/-! DEFINITION. The well-formed commands: which operands a row of the table can carry. -/

namespace Sys2Proof

/-- A command code that names none of the six commands: 0 and 7 to 15 (11.2, CONTROL; R169). -/
def unnamedCode (code : BitVec 4) : Bool := code.toNat = 0 || 7 ≤ code.toNat

/-- The first byte does not lie above the last. -/
def Lanes.ordered (lanes : Lanes) : Bool := lanes.first ≤ lanes.last

/-- A register write that R183 gives no effect: narrower than 32 bits, or to IDENT, HARVEST or FAULT. -/
def ignoredWrite (register : Register) (lanes : Lanes) : Bool :=
  lanes ≠ .whole ||
    match register with
    | .ident | .harvest | .fault => true
    | .control | .configAddress | .post | .status | .interruptEnable => false

/-- The operands are those the command's row is about; every other operand is bounded by its type. -/
def Instr.wellFormed (c : Instr) : Bool :=
  match c with
  | .unnamedCommandCode code => unnamedCode code
  | .harvestRead lanes => lanes.ordered
  | .ignoredRegisterWrite register lanes _ => lanes.ordered && ignoredWrite register lanes
  | .start | .stop | .abortAll | .abortSlot _ | .clearFault | .reset | .postArrival _ _ | .clearFinish
  | .clearStoppedFlag | .clearHaltedFlag | .clearFaultFlag | .interruptEnableWrite _ | .configAddressWrite _ | .lineReset
  | .rstRelease | .commandResetComplete | .sweepTimerExpiry | .holdoffExpiry | .responseTimeout | .lateResponse
  | .loaderReadDone _ | .configReadBusError | .sweepReadDone _ | .takeBlock0ReadDone _ | .takeBlockReadDone _
  | .nullTakeReadDone _ | .intakeBusError | .fetchReadDone _ | .fetchBusError | .stateWriteDone | .destinationWriteDone
  | .destinationWriteFail | .resultAreaWriteDone | .doneWriteDone | .writerFatalBus | .sweepBegin | .takeBegin
  | .nullTakeBegin | .takenEntryAppend | .intakeCompletionAppend | .jobStart | .jobResume | .parkRequest
  | .dispatcherCompletionAppend | .iterationIssue _ | .unitCompletionAppend _ | .unitAbortArrival _ | .enterStopped => true

end Sys2Proof
end

