-- ==== Sys2Proof/Decode.lean ====
section
/-! DEFINITION. decodeTableWord over the rows that give bits (none does), and the commands that an access to the register
window is (R183, R184, 11.1, 11.2). -/

namespace Sys2Proof

/-- No row of spec/opcode_table.json gives bits, so no word spells a command. -/
def decodeTableWord (_nbits _w : Nat) : Option Instr := none

/-- The command of a 32-bit write to CONTROL: bits 3:0 the code, bits 13:8 the slot number of ABORT SLOT (11.2). -/
def controlWrite (value : Word) : Instr :=
  let code : BitVec 4 := value.setWidth 4
  match code.toNat with
  | 1 => .start
  | 2 => .stop
  | 3 => .abortAll
  | 4 => .abortSlot (value.extractLsb' 8 6).toFin
  | 5 => .clearFault
  | 6 => .reset
  | _ => .unnamedCommandCode code

/-- The POST arrival of a 32-bit write to POST: bits 5:0 the slot number, bit 8 the priority (11.2). -/
def postWrite (value : Word) : Instr :=
  .postArrival (value.extractLsb' 0 6).toFin (if value.getLsbD 8 then .urgent else .normal)

/-- The flag clears of a 32-bit write to STATUS, each by its own rule (R154; 11.2: FAULT 7, HALTED 6, STOPPED 5,
FINISH 4). -/
def statusWrite (value : Word) : List Instr :=
  (if value.getLsbD 4 then [.clearFinish] else []) ++
  (if value.getLsbD 5 then [.clearStoppedFlag] else []) ++
  (if value.getLsbD 6 then [.clearHaltedFlag] else []) ++
  (if value.getLsbD 7 then [.clearFaultFlag] else [])

/-- The commands that a bus write to some bytes of a register is (R183, R184). -/
def registerWrite (register : Register) (lanes : Lanes) (value : Word) : List Instr :=
  if ignoredWrite register lanes then [.ignoredRegisterWrite register lanes value]
  else
    match register with
    | .control => [controlWrite value]
    | .configAddress => [.configAddressWrite value]
    | .post => [postWrite value]
    | .status => statusWrite value
    | .interruptEnable => [.interruptEnableWrite value]
    | .ident | .harvest | .fault => [.ignoredRegisterWrite register lanes value]

/-! ### Accesses by offset (11.1, R183) -/

/-- The register that holds the byte at an offset of the 32-byte window (11.1). -/
def registerAt (offset : Fin 32) : Register :=
  match offset.val / 4 with
  | 0 => .ident
  | 1 => .control
  | 2 => .configAddress
  | 3 => .post
  | 4 => .harvest
  | 5 => .status
  | 6 => .fault
  | _ => .interruptEnable

/-- The bytes of an access of a width. -/
def AccessWidth.bytes : AccessWidth → Nat
  | .byte => 1
  | .half => 2
  | .triple => 3
  | .word => 4

/-- How many bytes of a register are addressed. -/
def Lanes.count (lanes : Lanes) : Nat := lanes.last.val + 1 - lanes.first.val

/-- The bytes that an access addresses, register by register (R183): those from the offset up in its register, and where
the access runs on, the rest in the next register (log entry 29). -/
def accessParts (offset : Fin 32) (width : AccessWidth) : List (Register × Lanes) :=
  let first := offset.val % 4
  let last := first + width.bytes - 1
  (registerAt offset, ⟨Fin.ofNat 4 first, Fin.ofNat 4 (min last 3)⟩) ::
    if last ≤ 3 then []
    else if 28 ≤ offset.val then []
    else [(registerAt (Fin.ofNat 32 (offset.val + 4)), ⟨0, Fin.ofNat 4 (last - 4)⟩)]

/-- The commands that a bus write at an offset is: it takes effect where it is one of 32 bits at a register's offset. -/
def busWrite (offset : Fin 32) (width : AccessWidth) (value : Word) : List Instr :=
  (accessParts offset width).flatMap fun p => registerWrite p.1 p.2 value

/-- The read effect of a register: HARVEST_READ for HARVEST, nothing for the other seven (R183). -/
def registerRead (register : Register) (lanes : Lanes) : List Instr :=
  match register with
  | .harvest => [.harvestRead lanes]
  | .ident | .control | .configAddress | .post | .status | .fault | .interruptEnable => []

/-- The commands that a bus read at an offset is: the whole register's read effect, also of a narrow read (R183). What the
read returns is State.busRead. -/
def busReadCommands (offset : Fin 32) (width : AccessWidth) : List Instr :=
  (accessParts offset width).flatMap fun p => registerRead p.1 p.2

end Sys2Proof
end

