-- ==== Sys2Proof/Config.lean ====
section
/-! DEFINITION. What the part fixes (sizes, limits, identity) and the one free value of the model. -/

namespace Sys2Proof

/-- Places in the writer buffer (R137). -/
def Config.writerPlaces : Nat := 8

/-- Occupancy from which the Writer is in demand (R134). -/
def Config.demandLevel : Nat := 6

/-- Contexts the park buffer holds (R92, R95). -/
def Config.parkPlaces : Nat := 2

/-- Bytes of one block, the unit of containment of a transaction (R131). -/
def Config.blockBytes : Nat := 64

/-- Bytes of one slot (R41). -/
def Config.slotBytes : Nat := 512

/-- Offset of the result area in a slot (R144; 11.5). -/
def Config.resultAreaOffset : Nat := 464

/-- Bytes of the configuration block (R164). -/
def Config.configBlockBytes : Nat := 192

/-- Addresses of system memory are below this bound (00_scope.md, Sizes and addresses). -/
def Config.addressSpace : Nat := 2 ^ 32

/-- IDENT: family code 0x0C24, slot limit 64, unit count 2, revision 1 (11.2). -/
def Config.ident : Word := 0x0C244021#32

/-- FREE VALUE (log entry 6): whether memory took the byte of a write that failed or was abandoned (R131: memory may
have taken all, some or none of the bytes). It is applied to the counter State.freeCount and has no body. -/
opaque Config.memoryTook : Nat → Bool

end Sys2Proof
end

