-- ==== Sys2Proof/Machine/State.lean ====
section
/-! DEFINITION. The state of the LD2416, block by block, as plain data, and its value after reset. -/

namespace Sys2Proof.Machine

/-! ### Values, operands and steps of a job (chapters 1 to 3) -/

/-- A decimal value coef × 10^(−scale); an integer coefficient, so that zero has no sign (R1). -/
structure Decimal where
  coef : Int
  scale : Nat
  deriving DecidableEq, Repr

/-- The sign class of an iteration (R35). -/
inductive SignClass where
  | negative
  | zero
  | positive
  deriving DecidableEq, Repr

/-- The outcome of an iteration (R35). -/
structure IterOutcome where
  sign : SignClass
  inexact : Bool
  deriving DecidableEq, Repr

/-- A set of outcomes: a stop set (R55) or an outcome-seen set (R62). -/
structure OutcomeSet where
  negative : Bool
  zero : Bool
  positive : Bool
  inexact : Bool
  deriving DecidableEq, Repr

/-- The empty set of outcomes. -/
def OutcomeSet.empty : OutcomeSet := ⟨false, false, false, false⟩

/-- The four field formats in memory (1.2). -/
inductive FieldFormat where
  | packed
  | unsignedPacked
  | text
  | binary64
  deriving DecidableEq, Repr

/-- A MEMORY operand entry (R53): format, digit count n, scale s, base address, signed stride. -/
structure MemField where
  format : FieldFormat
  digits : Nat
  scale : Nat
  address : Word
  stride : BitVec 16
  deriving DecidableEq, Repr

/-- An operand entry of a valid job (R53); a literal is held as the value decoded at take (R17). -/
inductive Operand where
  | memory (field : MemField)
  | cell (index : Fin 8) (digits scale : Nat)
  | literal (value : Decimal)
  deriving DecidableEq, Repr

/-- What a destination may name: a MEMORY or a CELL entry (R19). -/
inductive Place where
  | memory (field : MemField)
  | cell (index : Fin 8) (digits scale : Nat)
  deriving DecidableEq, Repr

/-- A source reference: the operand entry's index and the entry (log entry 20). -/
structure Source where
  index : Nat
  operand : Operand
  deriving DecidableEq, Repr

/-- A destination reference: the operand entry's index and the entry (log entry 20). -/
structure Dest where
  index : Nat
  place : Place
  deriving DecidableEq, Repr

/-- An operation with the references it uses (R19). -/
inductive Work where
  | move (x : Source) (w : Dest)
  | add (x y : Source) (w : Dest)
  | subtract (x y : Source) (w : Dest)
  | multiply (x y : Source) (w : Dest)
  | divide (x y : Source) (z : Option Dest) (w : Dest)
  | compare (x y : Source)
  | check (x y z : Source)
  deriving DecidableEq, Repr

/-- The five rounding modes (R24). -/
inductive Rounding where
  | truncate
  | halfUp
  | halfEven
  | ceiling
  | floor
  deriving DecidableEq, Repr

/-- The step flags: at most one of NEGATE and ABSOLUTE (R22). -/
inductive ResultFlag where
  | plain
  | negate
  | absolute
  deriving DecidableEq, Repr

/-- The stop action (R55). -/
inductive StopAction where
  | endJob
  | endRepeat
  deriving DecidableEq, Repr

/-- A step entry of a valid job (R55). -/
structure Step where
  work : Work
  mode : Rounding
  flag : ResultFlag
  stopSet : OutcomeSet
  stopAction : StopAction
  repeats : Nat
  deriving DecidableEq, Repr

/-- The job image (R47): the FENCED flag and the step list, each step carrying the entries it names (log entry 20). -/
structure JobImage where
  fenced : Bool
  steps : List Step
  deriving DecidableEq, Repr

/-! ### How a job ends (R58 to R62) -/

/-- The fault kinds of an iteration (R37). -/
inductive FaultKind where
  | invalidDigit
  | invalidSign
  | overflow
  | divideByZero
  | unsignedNegative
  | window
  | busError
  deriving DecidableEq, Repr

/-- The reject reasons (R56). -/
inductive RejectReason where
  | badVersion
  | badCount
  | badPriority
  | badOperand
  | badStep
  deriving DecidableEq, Repr

/-- The completion status (R58). -/
inductive JobStatus where
  | ok
  | stopped
  | faulted
  | aborted
  | rejected
  deriving DecidableEq, Repr

/-- The completion status with the kind or reason and the index that go with it (R59). -/
inductive JobEnd where
  | ok
  | stopped
  | faulted (kind : FaultKind) (index : Option Nat)
  | aborted
  | rejected (reason : RejectReason) (index : Option Nat)
  deriving DecidableEq, Repr

/-- The end information of a job (R57, R60, R115, R116). -/
structure EndInfo where
  how : JobEnd
  step : Nat
  iterations : Nat
  seen : OutcomeSet
  last : Option IterOutcome
  deriving DecidableEq, Repr

/-- What a COMPLETION entry carries (R137). -/
structure CompletionItem where
  ticket : Ticket
  slot : Slot
  tag : Tag
  priority : Priority
  info : EndInfo
  deriving DecidableEq, Repr

/-- A job taken: its image with the ticket, slot, host tag and priority as used (R86). -/
structure Job where
  ticket : Ticket
  slot : Slot
  tag : Tag
  priority : Priority
  image : JobImage
  deriving DecidableEq, Repr

/-- System memory, or the bytes of a job record read so far: address and byte pairs in canonical form (log entry 4). -/
abbrev Memory := List Host.Cell

/-! ### Control Port (chapter 10) -/

/-- The seven device states (R162). -/
inductive DeviceState where
  | off
  | loading
  | running
  | draining
  | aborting
  | stopped
  | halted
  deriving DecidableEq, Repr

/-- The command outcome (R169). -/
inductive CommandOutcome where
  | none
  | accepted
  | refusedState
  | notFound
  | notActive
  deriving DecidableEq, Repr

/-- An access window (R124). -/
structure Window where
  base : Word
  length : Word
  read : Bool
  write : Bool
  deriving DecidableEq, Repr

/-- The loaded configuration (R167). -/
structure Configuration where
  slotBase : Word
  slotCount : Nat
  sweepInterval : Nat
  threshold : Nat
  holdoff : Nat
  windows : List Window
  deriving DecidableEq, Repr

/-- The Loader: the load address A, the next read and the copy of the block read so far (R164, R165). -/
structure Loader where
  address : Word
  block : Fin 3
  copy : Memory
  deriving DecidableEq, Repr

/-- How a transaction failed (R132). -/
inductive FailKind where
  | error
  | timeout
  deriving DecidableEq, Repr

/-- Why a POST arrival is refused (R65). -/
inductive RefusalReason where
  | notRunning
  | outOfRange
  | duplicate
  deriving DecidableEq, Repr

/-- Where a pending entry came from (R63). -/
inductive PendingSource where
  | post
  | sweep
  | abort
  deriving DecidableEq, Repr

/-- The field a CONFIG_INVALID names (R166, R185). -/
inductive ConfigField where
  | configAddress
  | version
  | slotTableBase
  | slotCount
  | sweepInterval
  | finishThreshold
  | finishHoldoff
  | windowCount
  | windowRights (k : Nat)
  | windowLength (k : Nat)
  | windowBase (k : Nat)
  deriving DecidableEq, Repr

/-- A fault report, the contents of a filled fault record (R177, R185). -/
inductive FaultReport where
  | postRefused (slot : Slot) (reason : RefusalReason)
  | stalePost (slot : Slot) (source : PendingSource)
  | configInvalid (field : ConfigField)
  | configBusError (block : Fin 3) (kind : FailKind)
  | fatalIntake (slot : Slot) (block : Nat) (kind : FailKind)
  | fatalWriter (slot : Slot) (resultArea : Bool) (kind : FailKind)
  deriving DecidableEq, Repr

/-- Four bits, one for each cause flag: the flags (R152, R153) or their enables (R159). -/
structure CauseBits where
  finish : Bool
  stopped : Bool
  halted : Bool
  fault : Bool
  deriving DecidableEq, Repr

/-- All four bits clear. -/
def CauseBits.clear : CauseBits := ⟨false, false, false, false⟩

/-- The Control Port (chapter 10). -/
structure ControlPort where
  state : DeviceState
  rst : Bool
  resetWait : Bool
  config : Option Configuration
  loader : Option Loader
  configAddress : Word
  outcome : CommandOutcome
  faultRecord : Option FaultReport
  more : Bool
  enables : CauseBits
  harvestWord : Word
  deriving DecidableEq, Repr

/-! ### Intake (chapter 4) -/

/-- An entry of a pending list; an abort marker has the source ABORT (R63). -/
structure PendingEntry where
  slot : Slot
  priority : Priority
  source : PendingSource
  deriving DecidableEq, Repr

/-- What the checks of a take found (R73); a null take makes none (R79). -/
inductive Verdict where
  | valid (image : JobImage)
  | rejected (reason : RejectReason) (index : Option Nat)
  | nullTake
  deriving DecidableEq, Repr

/-- How far a take has gone (R72 to R76): a read due or in flight, checks complete and TAKEN entry to append, or
TAKEN entry appended and completion item to append. -/
inductive TakePhase where
  | block0
  | further (block : Nat) (later : List Nat)
  | judged (verdict : Verdict)
  | handing (ticket : Ticket) (verdict : Verdict)
  deriving DecidableEq, Repr

/-- The intake item (R67): slot, priority as used, source, abort mark (R80), the bytes of the slot read so far by their
offset, and the phase. -/
structure IntakeItem where
  slot : Slot
  priority : Priority
  source : PendingSource
  aborted : Bool
  record : Memory
  phase : TakePhase
  deriving DecidableEq, Repr

/-- The four activities of Intake (R67). -/
inductive IntakeActivity where
  | idle
  | sweeping (next : Slot)
  | taking (item : IntakeItem)
  | nullTake (item : IntakeItem)
  deriving DecidableEq, Repr

/-- Intake (chapter 4). A running timer holds the interval it was started with (log entry 17). -/
structure Intake where
  urgent : List PendingEntry
  normal : List PendingEntry
  activity : IntakeActivity
  sweepDue : Bool
  sweepTimer : Option Nat
  takeCounter : Ticket
  deriving DecidableEq, Repr

/-! ### Dispatcher and calculation units (chapters 5 and 6) -/

/-- The eight cells of a unit (R14). -/
abbrev Cells := Vector Decimal 8

/-- Every cell zero with scale 0 (R14). -/
def Cells.zero : Cells := Vector.replicate 8 ⟨0, 0⟩

/-- The staged job; ending when its completion item waits (R96). -/
structure StagedJob where
  job : Job
  ending : Bool
  deriving DecidableEq, Repr

/-- The context of a parked job (R91); ending when its completion item waits (R97, R98). -/
structure ParkedJob where
  job : Job
  step : Nat
  done : Nat
  cells : Cells
  seen : OutcomeSet
  last : Option IterOutcome
  ending : Bool
  deriving DecidableEq, Repr

/-- The Dispatcher (chapter 5): staging place, park buffer, outstanding tickets in order of issue, the park request, the
completion items made and not yet appended (R96), and the units that became free and are still to be served (R90). -/
structure Dispatcher where
  staged : Option StagedJob
  parked : List ParkedJob
  outstanding : List Ticket
  parkRequest : Option (UnitId × Ticket)
  items : List CompletionItem
  freed : List UnitId
  deriving DecidableEq, Repr

/-- One read of the fetch phase (R110): the operand entry it serves, the whole range of its source (R109), and the part
of it that lies in one block. -/
structure FieldRead where
  index : Nat
  rangeStart : Nat
  rangeSize : Nat
  address : Nat
  size : Nat
  deriving DecidableEq, Repr

/-- The bytes of one destination entry (R112). -/
structure DestWrite where
  address : Nat
  bytes : List Byte
  deriving DecidableEq, Repr

/-- The results of an iteration that wait for their issue (R112). -/
structure IterResult where
  writes : List DestWrite
  cellWrites : List (Fin 8 × Decimal)
  outcome : IterOutcome
  deriving DecidableEq, Repr

/-- The phase of the iteration in progress: fetching with the reads still to make and the bytes read so far by operand
entry, or results formed and waiting for the issue act (6.3; log entry 8). -/
inductive IterPhase where
  | fetching (reads : List FieldRead) (got : List (Nat × List Byte))
  | issuing (result : IterResult)
  deriving DecidableEq, Repr

/-- The activity of a unit (R105). -/
inductive UnitActivity where
  | idle
  | iterating (job : Job) (step : Nat) (done : Nat) (phase : IterPhase)
  | ending (item : CompletionItem)
  deriving DecidableEq, Repr

/-- A calculation unit (R104); abortDue is the Control Port's abort on its way to the unit (R121; log entry 14). -/
structure CalcUnit where
  activity : UnitActivity
  parkMark : Bool
  cells : Cells
  seen : OutcomeSet
  last : Option IterOutcome
  abortDue : Bool
  deriving DecidableEq, Repr

/-! ### Memory Port, Result Writer and Completion Notifier (chapters 8 and 9) -/

/-- What a transaction is for, which gives its requester (R131). -/
inductive Purpose where
  | config (block : Fin 3)
  | sweep (slot : Slot)
  | takeBlock0 (slot : Slot)
  | takeBlock (slot : Slot) (block : Nat)
  | nullTake (slot : Slot)
  | source (unit : UnitId)
  | stateWord (slot : Slot)
  | destination
  | resultArea (slot : Slot)
  | doneWord (slot : Slot)
  deriving DecidableEq, Repr

/-- A read of a number of bytes or a write of bytes (R131). -/
inductive Transfer where
  | read (size : Nat)
  | write (bytes : List Byte)
  deriving DecidableEq, Repr

/-- The outstanding transaction (R133); abandoned when its requester has stopped (R118, R132). -/
structure Transaction where
  purpose : Purpose
  address : Nat
  transfer : Transfer
  abandoned : Bool
  deriving DecidableEq, Repr

/-- The Memory Port and the Port Arbiter's memory of the last fetcher granted (R133). -/
structure MemoryPort where
  outstanding : Option Transaction
  lastFetch : Option UnitId
  deriving DecidableEq, Repr

/-- An entry of the writer buffer (R137); areaWritten when the result area of a COMPLETION entry is in memory and its
DONE write is due (R144). -/
inductive WriterEntry where
  | state (ticket : Ticket) (slot : Slot) (priority : Priority) (tag : Tag)
  | destination (ticket : Ticket) (step iteration : Nat) (write : DestWrite)
  | completion (item : CompletionItem) (areaWritten : Bool)
  deriving DecidableEq, Repr

/-- Who may wait for room in the writer buffer (R138). -/
inductive Appender where
  | intake
  | dispatcher
  | unit (unit : UnitId)
  deriving DecidableEq, Repr

/-- A record of the ticket table (R139); the failure is the step and iteration of the failed write. -/
structure TicketRecord where
  ticket : Ticket
  count : Nat
  failure : Option (Nat × Nat)
  deriving DecidableEq, Repr

/-- The Result Writer (chapter 8). joining is the model's own: the appenders whose entries joined the buffer at the moment
at which the port became free, as long as their appends, commands of their own, are still to be made (log entry 30). -/
structure Writer where
  buffer : List WriterEntry
  waiters : List Appender
  table : List TicketRecord
  joining : List Appender
  deriving DecidableEq, Repr

/-- An entry of the harvest queue (R149). -/
structure HarvestEntry where
  slot : Slot
  status : JobStatus
  tag : Tag
  deriving DecidableEq, Repr

/-- The Completion Notifier (chapter 9), with its own threshold T and holdoff H (R155). -/
structure Notifier where
  harvest : List HarvestEntry
  flags : CauseBits
  holdoffTimer : Option Nat
  threshold : Nat
  holdoff : Nat
  deriving DecidableEq, Repr

/-! ### The whole -/

/-- The LD2416 with its queue of commands (log entry 1), system memory (log entry 4) and the counter of the free value
(log entry 6). -/
structure State where
  pending : List Instr
  control : ControlPort
  intake : Intake
  dispatcher : Dispatcher
  unit0 : CalcUnit
  unit1 : CalcUnit
  port : MemoryPort
  writer : Writer
  notifier : Notifier
  memory : Memory
  freeCount : Nat
  deriving DecidableEq, Repr

/-- No meaning raises a fault: a fault of a job or of the device is part of the next state (R37, R177), and HALTED is a
device state (R175). An event whose condition does not hold leaves the state as it is (log entries 2 and 27). -/
inductive Fault where
  deriving DecidableEq, Repr

/-- Why a step has no meaning. -/
inductive Refusal where
  /-- The command is not modelled yet; safe. Raised by an arm of exec only; no arm raises it now. -/
  | notModelled (mnemonic : String)
  deriving DecidableEq, Repr

/-! ### Reset values (R85, R102, R104, R133, R148, R161, R179, R181) -/

/-- The Control Port after a reset, with the CONFIG ADDRESS it keeps or 0 (R179, R180). -/
def ControlPort.resetValue (configAddress : Word) (rst : Bool) : ControlPort where
  state := .off
  rst := rst
  resetWait := false
  config := none
  loader := none
  configAddress := configAddress
  outcome := .none
  faultRecord := none
  more := false
  enables := .clear
  harvestWord := 0#32

/-- Intake after a reset (R85). -/
def Intake.resetValue : Intake where
  urgent := []
  normal := []
  activity := .idle
  sweepDue := false
  sweepTimer := none
  takeCounter := 0#32

/-- The Dispatcher after a reset (R102). -/
def Dispatcher.resetValue : Dispatcher where
  staged := none
  parked := []
  outstanding := []
  parkRequest := none
  items := []
  freed := []

/-- A unit after a reset (R104). -/
def CalcUnit.resetValue : CalcUnit where
  activity := .idle
  parkMark := false
  cells := .zero
  seen := .empty
  last := none
  abortDue := false

/-- The Memory Port after a reset (R133). -/
def MemoryPort.resetValue : MemoryPort where
  outstanding := none
  lastFetch := none

/-- The Result Writer after a reset (R148). -/
def Writer.resetValue : Writer where
  buffer := []
  waiters := []
  table := []
  joining := []

/-- The Completion Notifier after a reset: queue empty, flags clear, timer stopped, T = 1 and H = 0 (R155, R161). -/
def Notifier.resetValue : Notifier where
  harvest := []
  flags := .clear
  holdoffTimer := none
  threshold := 1
  holdoff := 0

/-- The machine right after a line reset, RST released (log entry 16), with no command waiting. -/
def State.reset : State where
  pending := []
  control := .resetValue 0#32 false
  intake := .resetValue
  dispatcher := .resetValue
  unit0 := .resetValue
  unit1 := .resetValue
  port := .resetValue
  writer := .resetValue
  notifier := .resetValue
  memory := []
  freeCount := 0

end Sys2Proof.Machine
end

