-- ==== Sys2Proof/Machine/Ops.lean ====
section
/-! DEFINITION. The named operations over memory, units, slots, the fault record and the waiting appenders. -/

namespace Sys2Proof.Machine

/-! ### Memory -/

/-- What a byte that nothing has written reads as (log entry 5). -/
def unlistedByte : Byte := 0#8

/-- One byte of memory. -/
def Memory.read : Memory → Nat → Byte
  | [], _ => unlistedByte
  | (k, v) :: rest, a => if k = a then v else Memory.read rest a

/-- One byte written, keeping addresses rising and no entry equal to what an unlisted address reads as. -/
def Memory.write : Memory → Nat → Byte → Memory
  | [], a, b => if b = unlistedByte then [] else [(a, b)]
  | (k, v) :: rest, a, b =>
    if a < k then (if b = unlistedByte then (k, v) :: rest else (a, b) :: (k, v) :: rest)
    else if a = k then (if b = unlistedByte then rest else (a, b) :: rest)
    else (k, v) :: Memory.write rest a b

/-- The canonical form: addresses strictly rising, no entry equal to what an unlisted address reads as. -/
abbrev Memory.wf (m : Memory) : Prop :=
  m.Pairwise (fun c d => c.1 < d.1) ∧ ∀ c ∈ m, c.2 ≠ unlistedByte

/-- The bytes at addresses a to a + n − 1. -/
def Memory.readBytes (m : Memory) (a n : Nat) : List Byte :=
  (List.range n).map fun i => Memory.read m (a + i)

/-- The bytes written from address a upward. -/
def Memory.writeBytes (m : Memory) (a : Nat) : List Byte → Memory
  | [] => m
  | b :: bs => Memory.writeBytes (Memory.write m a b) (a + 1) bs

/-- The host's writes, oldest first (log entry 4). -/
def Memory.hostWrote (m : Memory) : HostWrites → Memory
  | [] => m
  | (a, b) :: ws => Memory.hostWrote (Memory.write m a.toNat b) ws

/-- A write that failed or was abandoned: of its bytes memory took all, some or none (R131); the free value says which
(log entry 6). -/
def Memory.writeUnsure (m : Memory) (a free : Nat) : List Byte → Memory
  | [] => m
  | b :: bs => Memory.writeUnsure (if Config.memoryTook free then Memory.write m a b else m) (a + 1) (free + 1) bs

/-- A little-endian number (00_scope.md, Sizes and addresses). -/
def leNat : List Byte → Nat
  | [] => 0
  | b :: bs => b.toNat + 256 * leNat bs

/-- The n little-endian bytes of a number. -/
def leBytes : Nat → Nat → List Byte
  | 0, _ => []
  | n + 1, v => BitVec.ofNat 8 v :: leBytes n (v / 256)

/-- The little-endian field of n bytes at an address or at an offset of a record. -/
def Memory.number (m : Memory) (a n : Nat) : Nat := leNat (Memory.readBytes m a n)

/-- A range divided at the block line it crosses (R110, R112): one part, or the lower part and then the higher. -/
def splitAtBlock (address size : Nat) : List (Nat × Nat) :=
  if address % Config.blockBytes + size ≤ Config.blockBytes then [(address, size)]
  else
    let lower := Config.blockBytes - address % Config.blockBytes
    [(address, lower), (address + lower, size - lower)]

/-- Two byte ranges share a byte. -/
def rangesOverlap (a n b m : Nat) : Bool := a < b + m && b < a + n

/-! ### Units -/

/-- The unit of a number. -/
def State.unit (s : State) : UnitId → CalcUnit
  | .unit0 => s.unit0
  | .unit1 => s.unit1

/-- The state with one unit replaced. -/
def State.setUnit (s : State) (u : UnitId) (c : CalcUnit) : State :=
  match u with
  | .unit0 => { s with unit0 := c }
  | .unit1 => { s with unit1 := c }

/-- The unit is IDLE (R105). -/
def CalcUnit.isIdle (c : CalcUnit) : Bool :=
  match c.activity with
  | .idle => true
  | .iterating .. | .ending .. => false

/-- The slot of the unit's job, in ITERATING or ENDING (R64). -/
def CalcUnit.slot? (c : CalcUnit) : Option Slot :=
  match c.activity with
  | .idle => none
  | .iterating job .. => some job.slot
  | .ending item => some item.slot

/-- The ticket and priority of the unit's job, as the Dispatcher knows them (chapter 5, opening). -/
def CalcUnit.runs? (c : CalcUnit) : Option (Ticket × Priority) :=
  match c.activity with
  | .idle => none
  | .iterating job .. => some (job.ticket, job.priority)
  | .ending item => some (item.ticket, item.priority)

/-- A unit that drops its job (R122): idle, mark clear, no abort on its way; its cells are not observable. -/
def CalcUnit.dropped (c : CalcUnit) : CalcUnit :=
  { c with activity := .idle, parkMark := false, abortDue := false }

/-! ### Slots -/

/-- The slot of the intake item (R67). -/
def Intake.itemSlot? (i : Intake) : Option Slot :=
  match i.activity with
  | .idle | .sweeping _ => none
  | .taking item | .nullTake item => some item.slot

/-- The slots with an entry or marker on a pending list (R63). -/
def Intake.pendingSlots (i : Intake) : List Slot := i.urgent.map (·.slot) ++ i.normal.map (·.slot)

/-- The slot has an ordinary entry, not an abort marker, on a pending list (R65, R78). -/
def Intake.hasOrdinary (i : Intake) (slot : Slot) : Bool :=
  (i.urgent ++ i.normal).any fun e => e.slot = slot && e.source ≠ .abort

/-- The slot has an abort marker on the urgent list (R78). -/
def Intake.hasMarker (i : Intake) (slot : Slot) : Bool :=
  i.urgent.any fun e => e.slot = slot && e.source = .abort

/-- The slots of the COMPLETION entries in the writer buffer (R64). -/
def Writer.completionSlots (w : Writer) : List Slot :=
  w.buffer.filterMap fun
    | .completion item _ => some item.slot
    | .state .. | .destination .. => none

/-- Every place that holds a slot number, place by place (R64). -/
def State.heldSlots (s : State) : List Slot :=
  s.intake.pendingSlots ++ s.intake.itemSlot?.toList ++ (s.dispatcher.staged.map (·.job.slot)).toList ++
  s.unit0.slot?.toList ++ s.unit1.slot?.toList ++ s.dispatcher.parked.map (·.job.slot) ++
  s.writer.completionSlots ++ s.notifier.harvest.map (·.slot)

/-- The slot is held by the device (R64). -/
def State.holds (s : State) (slot : Slot) : Bool := s.heldSlots.contains slot

/-- The slot count of the loaded configuration; without one no slot is configured. -/
def State.slotCount (s : State) : Nat :=
  match s.control.config with
  | some c => c.slotCount
  | none => 0

/-- The address of a slot of a configuration (R41). -/
def Configuration.slotAddress (c : Configuration) (slot : Slot) : Nat :=
  c.slotBase.toNat + Config.slotBytes * slot.val

/-! ### Control Port -/

/-- CONTROL and POST writes reach the device: RST released and no command reset waiting (R179, R180). -/
def State.takesCommands (s : State) : Bool := !s.control.rst && !s.control.resetWait

/-- Internal acts go on: RST released and no command reset waiting (R179, R180). -/
def State.acts (s : State) : Bool := s.takesCommands

/-- The command outcome set (R169). -/
def State.answer (s : State) (outcome : CommandOutcome) : State :=
  { s with control.outcome := outcome }

/-- A fault report fills an empty record and sets the FAULT flag, or sets MORE (R177, R153). -/
def State.report (s : State) (r : FaultReport) : State :=
  match s.control.faultRecord with
  | none => { s with control.faultRecord := some r, notifier.flags.fault := true }
  | some _ => { s with control.more := true }

/-! ### Tickets -/

/-- The ticket was issued before the other, by the order of the outstanding set and not by value (R87). -/
def Dispatcher.earlier (d : Dispatcher) (t u : Ticket) : Bool :=
  d.outstanding.idxOf t < d.outstanding.idxOf u

/-- The record of a ticket (R139). -/
def Writer.record? (w : Writer) (t : Ticket) : Option TicketRecord := w.table.find? (·.ticket = t)

/-- The recorded failure of a ticket (R141). -/
def Writer.failure? (w : Writer) (t : Ticket) : Option (Nat × Nat) := (w.record? t).bind (·.failure)

/-- A record of the ticket changed. -/
def Writer.updateRecord (w : Writer) (t : Ticket) (f : TicketRecord → TicketRecord) : Writer :=
  { w with table := w.table.map fun r => if r.ticket = t then f r else r }

/-! ### Appending to the writer buffer -/

/-- An appender that presents its entries stands behind those that presented before it; one that already waits keeps
its place (R138; log entry 9). -/
def State.present (s : State) (a : Appender) : State :=
  if s.writer.waiters.contains a then s else { s with writer.waiters := s.writer.waiters ++ [a] }

/-- The appender is the earliest waiter and its n entries fit (R138). -/
def State.admits (s : State) (a : Appender) (n : Nat) : Bool :=
  s.acts && s.writer.waiters.head? = some a && s.writer.buffer.length + n ≤ Config.writerPlaces

/-- The intake item whose checks are complete, with its verdict (R75). -/
def Intake.judged? (i : Intake) : Option (IntakeItem × Verdict) :=
  match i.activity with
  | .idle | .sweeping _ => none
  | .taking item | .nullTake item =>
    match item.phase with
    | .judged v => some (item, v)
    | .block0 | .further _ _ | .handing _ _ => none

/-- The intake item whose TAKEN entry is appended, with its ticket and verdict (R76). -/
def Intake.handing? (i : Intake) : Option (IntakeItem × Ticket × Verdict) :=
  match i.activity with
  | .idle | .sweeping _ => none
  | .taking item | .nullTake item =>
    match item.phase with
    | .handing t v => some (item, t, v)
    | .block0 | .further _ _ | .judged _ => none

/-- How many entries the appender has to append now: Intake its TAKEN entry when the ticket is free or its completion item
(R75, R76), the Dispatcher an item (R96 to R98), a unit the entries of its issue or its completion item (R112, R116). -/
def State.entriesDue (s : State) : Appender → Option Nat
  | .intake =>
    if s.intake.handing?.isSome || s.intake.judged?.isSome && !s.dispatcher.outstanding.contains s.intake.takeCounter then
      some 1
    else none
  | .dispatcher => if s.dispatcher.items.isEmpty then none else some 1
  | .unit u =>
    match (s.unit u).activity with
    | .iterating _ _ _ (.issuing r) => some r.writes.length
    | .ending _ => some 1
    | .iterating _ _ _ (.fetching _ _) | .idle => none

/-- The waiters of a list, earliest first, whose entries join a buffer with so much room one after another, for as long as
each fits in turn (R138). -/
def State.joinersOf (s : State) (room : Nat) : List Appender → List Appender
  | [] => []
  | a :: rest =>
    match s.entriesDue a with
    | some n => if n ≤ room then a :: s.joinersOf (room - n) rest else []
    | none => []

/-- The waiters whose entries join the buffer at once (R138). -/
def State.joiners (s : State) : List Appender :=
  s.joinersOf (Config.writerPlaces - s.writer.buffer.length) s.writer.waiters

/-- The entries at the tail of the buffer, and the wait of their appender at its end (R138). -/
def State.append (s : State) (a : Appender) (entries : List WriterEntry) : State :=
  { s with writer.buffer := s.writer.buffer ++ entries, writer.waiters := s.writer.waiters.erase a }

end Sys2Proof.Machine
end

