-- ==== Sys2Proof/Machine/Flags.lean ====
section
/-! DEFINITION. The cause flags, the FINISH rules and the interrupt line (chapter 9). -/

namespace Sys2Proof.Machine

/-- The queue holds T or more entries (R156). -/
def Notifier.reached (n : Notifier) : Bool := n.threshold ≤ n.harvest.length

/-- The holdoff timer started afresh when H is not 0 (R156, R158). -/
def Notifier.startTimer (n : Notifier) : Notifier :=
  if n.holdoff = 0 then n else { n with holdoffTimer := some n.holdoff }

/-- An append to the harvest queue, with the test of the count and the timer's start (R156). -/
def Notifier.append (n : Notifier) (e : HarvestEntry) : Notifier :=
  let n1 := { n with harvest := n.harvest ++ [e] }
  let n2 := if n.harvest.isEmpty then n1.startTimer else n1
  if n1.reached then { n2 with flags.finish := true } else n2

/-- A clear of FINISH with its re-test; a clear of a clear flag does nothing (R154, R158). -/
def Notifier.clearFinish (n : Notifier) : Notifier :=
  if n.flags.finish = false then n
  else if n.reached then n
  else if n.harvest.isEmpty then { n with flags.finish := false }
  else { n with flags.finish := false }.startTimer

/-- Expiry of the holdoff timer (R157). -/
def Notifier.expire (n : Notifier) : Notifier :=
  match n.holdoffTimer with
  | none => n
  | some _ =>
    if n.harvest.isEmpty then { n with holdoffTimer := none }
    else { n with holdoffTimer := none, flags.finish := true }

/-- A successful load: T and H taken in, timer stopped, then the re-test (R155). -/
def Notifier.load (n : Notifier) (threshold holdoff : Nat) : Notifier :=
  let n1 := { n with threshold := threshold, holdoff := holdoff, holdoffTimer := none }
  let n2 := if n1.reached then { n1 with flags.finish := true } else n1
  if n2.harvest.isEmpty then n2 else n2.startTimer

/-- INTR: some cause flag is set whose enable is set (R159). -/
def State.intr (s : State) : Bool :=
  (s.notifier.flags.finish && s.control.enables.finish) || (s.notifier.flags.stopped && s.control.enables.stopped) ||
  (s.notifier.flags.halted && s.control.enables.halted) || (s.notifier.flags.fault && s.control.enables.fault)

/-! ### Outcome sets (R35, R62, R113) -/

/-- The sign class of an integer coefficient (R35). -/
def signClass (coef : Int) : SignClass :=
  if coef < 0 then .negative else if coef = 0 then .zero else .positive

/-- The set has the sign class. -/
def OutcomeSet.hasSign (o : OutcomeSet) : SignClass → Bool
  | .negative => o.negative
  | .zero => o.zero
  | .positive => o.positive

/-- The outcome added to an outcome-seen set (R113). -/
def OutcomeSet.add (o : OutcomeSet) (x : IterOutcome) : OutcomeSet where
  negative := o.negative || x.sign = .negative
  zero := o.zero || x.sign = .zero
  positive := o.positive || x.sign = .positive
  inexact := o.inexact || x.inexact

/-- The stop set fires on the outcome (R113). -/
def OutcomeSet.fires (o : OutcomeSet) (x : IterOutcome) : Bool :=
  o.hasSign x.sign || (o.inexact && x.inexact)

/-- The bits of an outcome set: NEGATIVE 0, ZERO 1, POSITIVE 2, INEXACT 3 (11.5). -/
def OutcomeSet.bits (o : OutcomeSet) : Nat :=
  o.negative.toNat + 2 * o.zero.toNat + 4 * o.positive.toNat + 8 * o.inexact.toNat

/-- The set that bits 0 to 3 of a byte name (11.5). -/
def OutcomeSet.ofByte (b : Byte) : OutcomeSet :=
  ⟨b.getLsbD 0, b.getLsbD 1, b.getLsbD 2, b.getLsbD 3⟩

/-- The last-outcome byte: bit 7 present, the sign class and INEXACT as in a set; 0 for none (11.5). -/
def lastOutcomeByte : Option IterOutcome → Nat
  | none => 0
  | some o => 128 + (OutcomeSet.empty.add o).bits

end Sys2Proof.Machine
end

