-- ==== Sys2Proof/Machine/Operands.lean ====
section
/-! DEFINITION. The four field formats: sizes, addresses, reading and writing (chapter 1; 11.6). -/

namespace Sys2Proof.Machine

/-- The bytes of a field (1.2). -/
def fieldSize (format : FieldFormat) (digits : Nat) : Nat :=
  match format with
  | .packed => digits / 2 + 1
  | .unsignedPacked => (digits + 1) / 2
  | .text => digits + 1
  | .binary64 => 8

/-- The bytes of a MEMORY operand's field. -/
def MemField.size (f : MemField) : Nat := fieldSize f.format f.digits

/-- The address in iteration i: base + i × stride modulo 2^32 (R107). -/
def MemField.addressAt (f : MemField) (i : Nat) : Nat :=
  (f.address + f.stride.signExtend 32 * BitVec.ofNat 32 i).toNat

/-! ### Nibbles and digits -/

/-- The nibbles of bytes, high nibble first (R4). -/
def nibbles : List Byte → List Nat
  | [] => []
  | b :: bs => b.toNat / 16 :: b.toNat % 16 :: nibbles bs

/-- Bytes from nibbles, high nibble first (11.6); a last single nibble would stand high. -/
def packNibbles : List Nat → List Byte
  | [] => []
  | [h] => [BitVec.ofNat 8 (16 * h)]
  | h :: l :: rest => BitVec.ofNat 8 (16 * h + l) :: packNibbles rest

/-- The number that digits spell, most significant first. -/
def digitsValue (ds : List Nat) : Nat := ds.foldl (fun v d => 10 * v + d) 0

/-- The n digits of a coefficient, most significant first, leading zeros included (R10). -/
def digitsOf : Nat → Nat → List Nat
  | 0, _ => []
  | n + 1, c => c / 10 ^ n % 10 :: digitsOf n c

/-- The coefficient with the sign: zero has none (R1). -/
def signed (negative : Bool) (magnitude : Nat) : Int :=
  if negative then -(magnitude : Int) else (magnitude : Int)

/-! ### Reading (R4 to R8) -/

/-- The digit and pad nibbles of a packed form, judged: the pad, when there is one, is 0 and every digit at most 9 (R8). -/
def packedDigits (padded : Bool) (ns : List Nat) : Except FaultKind Nat :=
  let digits := if padded then ns.tail else ns
  if padded && ns.head? ≠ some 0 then .error .invalidDigit
  else if digits.all (· ≤ 9) then .ok (digitsValue digits)
  else .error .invalidDigit

/-- A PACKED field: the sign nibble is judged first (R4, R8). -/
def readPacked (digits : Nat) (bytes : List Byte) : Except FaultKind Int :=
  let ns := nibbles bytes
  let sign := ns.getLastD 0
  if sign ≤ 9 then .error .invalidSign
  else
    match packedDigits (digits % 2 = 0) ns.dropLast with
    | .error k => .error k
    | .ok m => .ok (signed (sign = 0xB || sign = 0xD) m)

/-- An UNSIGNED PACKED field (R5, R8). -/
def readUnsignedPacked (digits : Nat) (bytes : List Byte) : Except FaultKind Int :=
  match packedDigits (digits % 2 = 1) (nibbles bytes) with
  | .error k => .error k
  | .ok m => .ok (m : Int)

/-- A TEXT field: the sign character is judged first (R6, R8). -/
def readText (bytes : List Byte) : Except FaultKind Int :=
  match bytes with
  | [] => .error .invalidSign
  | c :: cs =>
    if c = 0x2B#8 || c = 0x20#8 || c = 0x2D#8 then
      if cs.all (fun d => 0x30 ≤ d.toNat && d.toNat ≤ 0x39) then
        .ok (signed (c = 0x2D#8) (digitsValue (cs.map fun d => d.toNat - 0x30)))
      else .error .invalidDigit
    else .error .invalidSign

/-- A BINARY64 field: two's complement, least significant byte first; it never faults (R7). -/
def readBinary64 (bytes : List Byte) : Int := (BitVec.ofNat 64 (leNat bytes)).toInt

/-- The value of a source field's bytes, or the fault of the read (R8). -/
def readField (format : FieldFormat) (digits scale : Nat) (bytes : List Byte) : Except FaultKind Decimal :=
  let coef :=
    match format with
    | .packed => readPacked digits bytes
    | .unsignedPacked => readUnsignedPacked digits bytes
    | .text => readText bytes
    | .binary64 => .ok (readBinary64 bytes)
  match coef with
  | .error k => .error k
  | .ok c => .ok ⟨c, scale⟩

/-! ### Writing (R10 to R13) -/

/-- A PACKED field: pad 0 when n is even, digits, sign nibble 0xC or 0xD (R11). -/
def writePacked (digits : Nat) (coef : Int) : List Byte :=
  packNibbles ((if digits % 2 = 0 then [0] else []) ++ digitsOf digits coef.natAbs ++ [if coef < 0 then 0xD else 0xC])

/-- An UNSIGNED PACKED field: pad 0 when n is odd, then the digits (R11). -/
def writeUnsignedPacked (digits : Nat) (coef : Int) : List Byte :=
  packNibbles ((if digits % 2 = 1 then [0] else []) ++ digitsOf digits coef.natAbs)

/-- A TEXT field: '+' or '-' and the digit characters (R12). -/
def writeText (digits : Nat) (coef : Int) : List Byte :=
  (if coef < 0 then 0x2D#8 else 0x2B#8) :: (digitsOf digits coef.natAbs).map fun d => BitVec.ofNat 8 (0x30 + d)

/-- A BINARY64 field (R13). -/
def writeBinary64 (coef : Int) : List Byte := leBytes 8 (BitVec.ofInt 64 coef).toNat

/-- The bytes a destination field receives for a rounded coefficient (R10). -/
def writeField (format : FieldFormat) (digits : Nat) (coef : Int) : List Byte :=
  match format with
  | .packed => writePacked digits coef
  | .unsignedPacked => writeUnsignedPacked digits coef
  | .text => writeText digits coef
  | .binary64 => writeBinary64 coef

end Sys2Proof.Machine
end

