-- ==== Sys2Proof/Machine/Arith.lean ====
section
/-! DEFINITION. Exact results, rounding, fit and the arithmetic of one iteration (chapter 2). -/

namespace Sys2Proof.Machine

/-! ### Exact results (R21) -/

/-- The coefficient of a value at a scale not below its own: zero digits appended (R21). -/
def Decimal.coefAt (v : Decimal) (scale : Nat) : Int := v.coef * 10 ^ (scale - v.scale)

/-- The exact sum, at the larger of the scales (R21). -/
def Decimal.add (x y : Decimal) : Decimal :=
  let scale := max x.scale y.scale
  ⟨x.coefAt scale + y.coefAt scale, scale⟩

/-- The negation (R22). -/
def Decimal.neg (x : Decimal) : Decimal := ⟨-x.coef, x.scale⟩

/-- The magnitude (R22). -/
def Decimal.abs (x : Decimal) : Decimal := ⟨x.coef.natAbs, x.scale⟩

/-- The exact difference (R21). -/
def Decimal.sub (x y : Decimal) : Decimal := x.add y.neg

/-- The exact product, at the sum of the scales (R21). -/
def Decimal.mul (x y : Decimal) : Decimal := ⟨x.coef * y.coef, x.scale + y.scale⟩

/-- The flag on an exact result, before rounding (R22). -/
def ResultFlag.apply : ResultFlag → Decimal → Decimal
  | .plain, v => v
  | .negate, v => v.neg
  | .absolute, v => v.abs

/-! ### Rounding (R23, R24, R29) -/

/-- A rounded coefficient, and whether a non-zero part was discarded (R25). -/
structure Rounded where
  coef : Int
  inexact : Bool
  deriving DecidableEq, Repr

/-- The mode chooses the retained part plus one unit (R24); the retained part is retained units, and the discarded part
is rest out of unit, not zero. -/
def Rounding.choosesNext (mode : Rounding) (negative : Bool) (retained rest unit : Nat) : Bool :=
  match mode with
  | .truncate => false
  | .halfUp => unit ≤ 2 * rest
  | .halfEven => unit < 2 * rest || (2 * rest = unit && retained % 2 = 1)
  | .ceiling => !negative
  | .floor => negative

/-- The rational number / unit rounded to a whole number (R23, R24, R29). -/
def roundRatio (mode : Rounding) (number : Int) (unit : Nat) : Rounded :=
  let negative : Bool := number < 0
  let retained := number.natAbs / unit
  let rest := number.natAbs % unit
  if rest = 0 then ⟨signed negative retained, false⟩
  else ⟨signed negative (if mode.choosesNext negative retained rest unit then retained + 1 else retained), true⟩

/-- An exact value rounded to a scale (R23). -/
def roundTo (mode : Rounding) (v : Decimal) (scale : Nat) : Rounded :=
  if v.scale ≤ scale then ⟨v.coefAt scale, false⟩
  else roundRatio mode v.coef (10 ^ (v.scale - scale))

/-- The exact quotient x / y, for y not zero, rounded to a scale (R29). -/
def roundQuotient (mode : Rounding) (x y : Decimal) (scale : Nat) : Rounded :=
  let number := x.coef * 10 ^ (scale + y.scale)
  roundRatio mode (if y.coef < 0 then -number else number) (y.coef.natAbs * 10 ^ x.scale)

/-! ### Checks of a destination (R26, R27) -/

/-- The rounded coefficient at scale s fits n digits: its integer part has at most n − s digits (R26). -/
def fits (digits scale : Nat) (coef : Int) : Bool := coef.natAbs / 10 ^ scale < 10 ^ (digits - scale)

/-- The integer lies in the signed 64-bit range (R13). -/
def inBinary64 (coef : Int) : Bool := -9223372036854775808 ≤ coef && coef ≤ 9223372036854775807

/-- The scale of a destination. -/
def Place.scale : Place → Nat
  | .memory f => f.scale
  | .cell _ _ scale => scale

/-- The first check of a destination that fails (R27). -/
def Place.check (place : Place) (coef : Int) : Option FaultKind :=
  match place with
  | .cell _ digits scale => if fits digits scale coef then none else some .overflow
  | .memory f =>
    if !fits f.digits f.scale coef then some .overflow
    else
      match f.format with
      | .unsignedPacked => if coef < 0 then some .unsignedNegative else none
      | .binary64 => if inBinary64 coef then none else some .overflow
      | .packed | .text => none

/-! ### One iteration's computation (R19 to R38) -/

/-- A fault of an iteration with the operand entry it names (R37). -/
structure IterFault where
  kind : FaultKind
  index : Nat
  deriving DecidableEq, Repr

/-- A coefficient for a destination. -/
structure Delivery where
  dest : Dest
  coef : Int
  deriving DecidableEq, Repr

/-- What the computation of an iteration gives: the deliveries in the order of their issue, and the outcome. -/
structure Computed where
  deliveries : List Delivery
  outcome : IterOutcome
  deriving DecidableEq, Repr

/-- A destination's coefficient after its checks, or the fault naming it (R27). -/
def deliver (dest : Dest) (r : Rounded) : Except IterFault Delivery :=
  match dest.place.check r.coef with
  | some kind => .error ⟨kind, dest.index⟩
  | none => .ok ⟨dest, r.coef⟩

/-- The exact result flagged, rounded to W and checked (R21 to R27); the sign class is that of the written value (R35). -/
def deliverExact (step : Step) (exact : Decimal) (w : Dest) : Except IterFault Computed := do
  let r := roundTo step.mode (step.flag.apply exact) w.place.scale
  let d ← deliver w r
  return ⟨[d], ⟨signClass r.coef, r.inexact⟩⟩

/-- The adjusted operands of a flagged DIVIDE (R32). -/
def adjustOperands (flag : ResultFlag) (x y : Decimal) : Decimal × Decimal :=
  match flag with
  | .plain => (x, y)
  | .negate => (x.neg, y)
  | .absolute => (x.abs, y.abs)

/-- DIVIDE on a divisor that is not zero: W checked before Z, Z issued before W (R29 to R32). -/
def divideValues (step : Step) (x y : Decimal) (z : Option Dest) (w : Dest) : Except IterFault Computed := do
  let (ax, ay) := adjustOperands step.flag x y
  let q := roundQuotient step.mode ax ay w.place.scale
  let dw ← deliver w q
  match z with
  | none => return ⟨[dw], ⟨signClass q.coef, q.inexact⟩⟩
  | some zd =>
    let r := roundTo step.mode (ax.sub (ay.mul ⟨q.coef, w.place.scale⟩)) zd.place.scale
    let dz ← deliver zd r
    return ⟨[dz, dw], ⟨signClass q.coef, q.inexact || r.inexact⟩⟩

/-- The sign class of CHECK: the low bound first, both inclusive (R34). -/
def checkClass (x low high : Decimal) : SignClass :=
  if (x.sub low).coef < 0 then .negative
  else if 0 < (x.sub high).coef then .positive
  else .zero

/-- The computation of a step on the values its sources give, sources in the order X, Y, Z (R8, R38). -/
def computeStep (step : Step) (value : Source → Except IterFault Decimal) : Except IterFault Computed :=
  match step.work with
  | .move x w => do
    let vx ← value x
    deliverExact step vx w
  | .add x y w => do
    let vx ← value x
    let vy ← value y
    deliverExact step (vx.add vy) w
  | .subtract x y w => do
    let vx ← value x
    let vy ← value y
    deliverExact step (vx.sub vy) w
  | .multiply x y w => do
    let vx ← value x
    let vy ← value y
    deliverExact step (vx.mul vy) w
  | .divide x y z w => do
    let vx ← value x
    let vy ← value y
    if vy.coef = 0 then .error ⟨.divideByZero, y.index⟩
    else divideValues step vx vy z w
  | .compare x y => do
    let vx ← value x
    let vy ← value y
    return ⟨[], ⟨signClass (vx.sub vy).coef, false⟩⟩
  | .check x y z => do
    let vx ← value x
    let vy ← value y
    let vz ← value z
    return ⟨[], ⟨checkClass vx vy vz, false⟩⟩

/-- The sources of a step in reference order (R19). -/
def Work.sources : Work → List Source
  | .move x _ => [x]
  | .add x y _ | .subtract x y _ | .multiply x y _ => [x, y]
  | .divide x y _ _ => [x, y]
  | .compare x y => [x, y]
  | .check x y z => [x, y, z]

/-- The destinations of a step, W first and then Z of DIVIDE (R108). -/
def Work.dests : Work → List Dest
  | .move _ w | .add _ _ w | .subtract _ _ w | .multiply _ _ w => [w]
  | .divide _ _ none w => [w]
  | .divide _ _ (some z) w => [w, z]
  | .compare _ _ | .check _ _ _ => []

end Sys2Proof.Machine
end

