-- ==== Sys2Proof/Machine/Record.lean ====
section
/-! DEFINITION. The job record: the blocks a take reads, the checks it makes and their order, and the job image
(chapter 3, 11.5). A record is read by offset from the slot's first byte. -/

namespace Sys2Proof.Machine

/-- The state code POSTED (R43). -/
def postedCode : Nat := 1

/-- The state code of a slot's first block (R43). -/
def recordState (r : Memory) : Nat := (Memory.read r 0).toNat

/-- The priority byte (R44). -/
def recordPriority (r : Memory) : Nat := (Memory.read r 1).toNat

/-- The host tag (R44). -/
def recordTag (r : Memory) : Tag := BitVec.ofNat 16 (Memory.number r 2 2)

/-- The format version (R51). -/
def recordVersion (r : Memory) : Nat := (Memory.read r 4).toNat

/-- The step count (R51). -/
def recordSteps (r : Memory) : Nat := (Memory.read r 5).toNat

/-- The operand count (R51). -/
def recordOperands (r : Memory) : Nat := (Memory.read r 6).toNat

/-- The FENCED flag (R51). -/
def recordFenced (r : Memory) : Bool := (Memory.read r 7).getLsbD 0

/-- The blocks a record of k operands and m steps needs besides block 0, in the order of their reads (R52). -/
def neededBlocks (k m : Nat) : List Nat :=
  (if 4 ≤ k then [1] else []) ++ (if 8 ≤ k then [2] else []) ++ [3] ++ (if 4 ≤ m then [4] else []) ++
  (if 8 ≤ m then [5] else []) ++ (if 12 ≤ m then [6] else []) ++ (if m = 16 then [7] else [])

/-- The checks made on block 0, in their order (R56, items 1 to 3). -/
def rejectHeader (r : Memory) : Option RejectReason :=
  if recordVersion r ≠ 1 then some .badVersion
  else if recordSteps r = 0 ∨ 16 < recordSteps r then some .badCount
  else if 12 < recordOperands r then some .badCount
  else if 1 < recordPriority r then some .badPriority
  else none

/-! ### Operand entries (R53, R54) -/

/-- The format a code names (11.5). -/
def formatOfCode : Nat → Option FieldFormat
  | 1 => some .packed
  | 2 => some .unsignedPacked
  | 3 => some .text
  | 4 => some .binary64
  | _ => none

/-- Digit count and scale in range: n from 1 to the limit, s at most n (R2). -/
def descriptorValid (limit digits scale : Nat) : Bool := 1 ≤ digits && digits ≤ limit && scale ≤ digits

/-- A MEMORY entry at an offset of the record (R54). -/
def readMemoryEntry (r : Memory) (at_ digits scale : Nat) : Option Operand :=
  match formatOfCode (Memory.read r (at_ + 1)).toNat with
  | none => none
  | some format =>
    if !descriptorValid 63 digits scale then none
    else if format = .binary64 ∧ digits ≠ 19 then none
    else
      some (.memory ⟨format, digits, scale, BitVec.ofNat 32 (Memory.number r (at_ + 4) 4),
        BitVec.ofNat 16 (Memory.number r (at_ + 8) 2)⟩)

/-- A CELL entry (R54). -/
def readCellEntry (r : Memory) (at_ digits scale : Nat) : Option Operand :=
  let index := (Memory.read r (at_ + 4)).toNat
  if !descriptorValid 63 digits scale then none
  else if h : index < 8 then some (.cell ⟨index, h⟩ digits scale)
  else none

/-- A LITERAL entry, its PACKED digits decoded (R17, R54). -/
def readLiteralEntry (r : Memory) (at_ digits scale : Nat) : Option Operand :=
  if !descriptorValid 15 digits scale then none
  else
    match readPacked digits (Memory.readBytes r (at_ + 8) (digits / 2 + 1)) with
    | .ok coef => some (.literal ⟨coef, scale⟩)
    | .error _ => none

/-- Operand entry j, or nothing when a check fails (R54). -/
def readOperand (r : Memory) (j : Nat) : Option Operand :=
  let at_ := 16 + 16 * j
  let digits := (Memory.read r (at_ + 2)).toNat
  let scale := (Memory.read r (at_ + 3)).toNat
  match (Memory.read r at_).toNat with
  | 1 => readMemoryEntry r at_ digits scale
  | 2 => readCellEntry r at_ digits scale
  | 3 => readLiteralEntry r at_ digits scale
  | _ => none

/-! ### Step entries (R55) -/

/-- The rounding mode a code names (11.5). -/
def roundingOfCode : Nat → Option Rounding
  | 0 => some .truncate
  | 1 => some .halfUp
  | 2 => some .halfEven
  | 3 => some .ceiling
  | 4 => some .floor
  | _ => none

/-- The flag of a flags byte; both NEGATE and ABSOLUTE name none (R22). -/
def flagOfByte (b : Byte) : Option ResultFlag :=
  match b.getLsbD 0, b.getLsbD 1 with
  | false, false => some .plain
  | true, false => some .negate
  | false, true => some .absolute
  | true, true => none

/-- The stop action, examined only when the stop set is not empty (R55; log entry 23). -/
def stopActionOf (stopSet : OutcomeSet) (code : Nat) : Option StopAction :=
  if stopSet = .empty then some .endJob
  else if code = 1 then some .endJob
  else if code = 2 then some .endRepeat
  else none

/-- A required source reference: NONE (0xFF) and an index at or beyond the count name nothing (R19). -/
def sourceRef (operands : List Operand) (ref : Nat) : Option Source :=
  (operands[ref]?).map fun o => ⟨ref, o⟩

/-- A destination reference: it may not name a LITERAL entry (R19). -/
def destRef (operands : List Operand) (ref : Nat) : Option Dest :=
  match operands[ref]? with
  | some (.memory f) => some ⟨ref, .memory f⟩
  | some (.cell i n s) => some ⟨ref, .cell i n s⟩
  | some (.literal _) => none
  | none => none

/-- Reference code of NONE (11.5). -/
def noReference : Nat := 0xFF

/-- The optional Z of DIVIDE: absent when NONE, else a destination other than W (R19, R20). -/
def remainderRef (operands : List Operand) (ref wRef : Nat) : Option (Option Dest) :=
  if ref = noReference then some none
  else if ref = wRef then none
  else (destRef operands ref).map some

/-- The operation a code names with the references it uses; unused references are not examined (R19, R20). -/
def workOf (operands : List Operand) (code x y z w : Nat) : Option Work :=
  match code with
  | 1 => do return .move (← sourceRef operands x) (← destRef operands w)
  | 2 => do return .add (← sourceRef operands x) (← sourceRef operands y) (← destRef operands w)
  | 3 => do return .subtract (← sourceRef operands x) (← sourceRef operands y) (← destRef operands w)
  | 4 => do return .multiply (← sourceRef operands x) (← sourceRef operands y) (← destRef operands w)
  | 5 => do
    return .divide (← sourceRef operands x) (← sourceRef operands y) (← remainderRef operands z w) (← destRef operands w)
  | 6 => do return .compare (← sourceRef operands x) (← sourceRef operands y)
  | 7 => do return .check (← sourceRef operands x) (← sourceRef operands y) (← sourceRef operands z)
  | _ => none

/-- COMPARE and CHECK take no flag (R22). -/
def flagAllowed (work : Work) (flag : ResultFlag) : Bool :=
  match work with
  | .compare _ _ | .check _ _ _ => flag = .plain
  | .move _ _ | .add _ _ _ | .subtract _ _ _ | .multiply _ _ _ | .divide _ _ _ _ => true

/-- Step entry m, or nothing when a check fails (R55). -/
def readStep (r : Memory) (operands : List Operand) (m : Nat) : Option Step :=
  let at_ := 208 + 16 * m
  let byte := fun k => (Memory.read r (at_ + k)).toNat
  let stopSet := OutcomeSet.ofByte (Memory.read r (at_ + 3))
  let repeats := Memory.number r (at_ + 6) 2
  match workOf operands (byte 0) (byte 8) (byte 9) (byte 10) (byte 11), roundingOfCode (byte 1),
      flagOfByte (Memory.read r (at_ + 2)), stopActionOf stopSet (byte 4) with
  | some work, some mode, some flag, some action =>
    if flagAllowed work flag && 1 ≤ repeats && repeats ≤ 4096 then some ⟨work, mode, flag, stopSet, action, repeats⟩
    else none
  | _, _, _, _ => none

/-! ### Validation (R56) -/

/-- Entries read from index i on, as many as count says; the first that fails is named. -/
def readAll {α : Type} (readOne : Nat → Option α) : (i count : Nat) → Except Nat (List α)
  | _, 0 => .ok []
  | i, count + 1 =>
    match readOne i with
    | none => .error i
    | some a =>
      match readAll readOne (i + 1) count with
      | .error j => .error j
      | .ok rest => .ok (a :: rest)

/-- The verdict on a complete record: header, then operand entries, then step entries, the first failure named (R56). -/
def judgeRecord (r : Memory) : Verdict :=
  match rejectHeader r with
  | some reason => .rejected reason none
  | none =>
    match readAll (readOperand r) 0 (recordOperands r) with
    | .error j => .rejected .badOperand (some j)
    | .ok operands =>
      match readAll (readStep r operands) 0 (recordSteps r) with
      | .error m => .rejected .badStep (some m)
      | .ok steps => .valid ⟨recordFenced r, steps⟩

end Sys2Proof.Machine
end

