-- ==== Sys2Proof/Machine/Windows.lean ====
section
/-! DEFINITION. The Window Checker and the order of a unit's questions (chapter 7, R108). -/

namespace Sys2Proof.Machine

/-- The two kinds of access a window grants (R124). -/
inductive Access where
  | read
  | write
  deriving DecidableEq, Repr

/-- The window grants the access. -/
def Window.grants (w : Window) : Access → Bool
  | .read => w.read
  | .write => w.write

/-- The window holds every byte of the range, which does not wrap past 0xFFFFFFFF (R127). -/
def Window.covers (w : Window) (address size : Nat) : Bool :=
  w.base.toNat ≤ address && address + size ≤ w.base.toNat + w.length.toNat && address + size ≤ Config.addressSpace

/-- The range is accepted: one window alone grants the access and holds every byte (R127). -/
def windowsAccept (windows : List Window) (access : Access) (address size : Nat) : Bool :=
  windows.any fun w => w.grants access && w.covers address size

/-- A question to the Window Checker: the operand entry, the range and the access (R128). -/
structure Question where
  index : Nat
  address : Nat
  size : Nat
  access : Access
  deriving DecidableEq, Repr

/-- The memory sources in reference order, an entry named twice at its first reference only (R108, R110). -/
def memorySources : List Nat → List Source → List (Nat × MemField)
  | _, [] => []
  | seen, src :: rest =>
    match src.operand with
    | .memory f =>
      if seen.contains src.index then memorySources seen rest
      else (src.index, f) :: memorySources (src.index :: seen) rest
    | .cell _ _ _ | .literal _ => memorySources seen rest

/-- The memory destinations in the order given. -/
def memoryDests : List Dest → List (Nat × MemField)
  | [] => []
  | d :: rest =>
    match d.place with
    | .memory f => (d.index, f) :: memoryDests rest
    | .cell _ _ _ => memoryDests rest

/-- The questions of iteration i, in the order of R108: reads X, Y, Z, then writes W and Z. -/
def questions (work : Work) (i : Nat) : List Question :=
  (memorySources [] work.sources).map (fun p => ⟨p.1, p.2.addressAt i, p.2.size, .read⟩) ++
  (memoryDests work.dests).map (fun p => ⟨p.1, p.2.addressAt i, p.2.size, .write⟩)

/-- The operand entry whose range is refused first (R129). -/
def firstRefused (windows : List Window) (qs : List Question) : Option Nat :=
  (qs.find? fun q => !windowsAccept windows q.access q.address q.size).map (·.index)

/-- The window table in force (R124). -/
def State.windows (s : State) : List Window :=
  match s.control.config with
  | some c => c.windows
  | none => []

end Sys2Proof.Machine
end

