-- ==== Sys2Proof/Machine/Loading.lean ====
section
/-! DEFINITION. The configuration block: its fields, the Loader's checks and their order (chapter 10, R125, R126, 11.4). -/

namespace Sys2Proof.Machine

/-- The load address is a multiple of 64 and its 192 bytes do not wrap (R164). -/
def loadAddressValid (a : Word) : Bool :=
  a.toNat % 64 = 0 && a.toNat + Config.configBlockBytes ≤ Config.addressSpace

/-- Window entry k of the copy (11.4). -/
def blockWindow (copy : Memory) (k : Nat) : Window :=
  let at_ := 64 + 16 * k
  let rights := Memory.read copy (at_ + 8)
  ⟨BitVec.ofNat 32 (Memory.number copy at_ 4), BitVec.ofNat 32 (Memory.number copy (at_ + 4) 4), rights.getLsbD 0,
    rights.getLsbD 1⟩

/-- Window count of the copy (11.4). -/
def blockWindowCount (copy : Memory) : Nat := (Memory.read copy 10).toNat

/-- The configuration a copy spells (11.4). -/
def blockConfiguration (copy : Memory) : Configuration where
  slotBase := BitVec.ofNat 32 (Memory.number copy 4 4)
  slotCount := (Memory.read copy 8).toNat
  sweepInterval := Memory.number copy 12 2
  threshold := (Memory.read copy 9).toNat
  holdoff := Memory.number copy 16 4
  windows := (List.range (blockWindowCount copy)).map (blockWindow copy)

/-- The first check of window k that fails: rights, then length, then end (R125). -/
def windowFault (k : Nat) (w : Window) : Option ConfigField :=
  if !w.read && !w.write then some (.windowRights k)
  else if w.length = 0#32 then some (.windowLength k)
  else if Config.addressSpace < w.base.toNat + w.length.toNat then some (.windowLength k)
  else none

/-- A WRITE window that shares a byte with the slot table (R126). -/
def windowOverTable (c : Configuration) (k : Nat) (w : Window) : Option ConfigField :=
  if w.write && rangesOverlap w.base.toNat w.length.toNat c.slotBase.toNat (Config.slotBytes * c.slotCount) then
    some (.windowBase k)
  else none

/-- The first fault of the windows from index k on. -/
def firstWindowFault (check : Nat → Window → Option ConfigField) : Nat → List Window → Option ConfigField
  | _, [] => none
  | k, w :: ws =>
    match check k w with
    | some f => some f
    | none => firstWindowFault check (k + 1) ws

/-- The Loader's checks of a complete copy loaded from address a, in the order of R166; none when all pass. -/
def checkConfiguration (a : Word) (copy : Memory) : Option ConfigField :=
  let c := blockConfiguration copy
  let tableBytes := Config.slotBytes * c.slotCount
  if Memory.number copy 0 4 ≠ 1 then some .version
  else if c.slotBase.toNat % 512 ≠ 0 then some .slotTableBase
  else if c.slotCount = 0 ∨ 64 < c.slotCount then some .slotCount
  else if Config.addressSpace < c.slotBase.toNat + tableBytes then some .slotCount
  else if 1000 < c.sweepInterval then some .sweepInterval
  else if c.threshold = 0 ∨ c.slotCount < c.threshold then some .finishThreshold
  else if 65535 < c.holdoff then some .finishHoldoff
  else if 8 < blockWindowCount copy then some .windowCount
  else
    match firstWindowFault windowFault 0 c.windows with
    | some f => some f
    | none =>
      match firstWindowFault (windowOverTable c) 0 c.windows with
      | some f => some f
      | none =>
        if rangesOverlap a.toNat Config.configBlockBytes c.slotBase.toNat tableBytes then some .slotTableBase else none

end Sys2Proof.Machine
end

