-- ==== Sys2Proof/Machine/Composing.lean ====
section
/-! DEFINITION. The state word and the result area: composition and bytes (R45, R58 to R61, R143, 11.5). -/

namespace Sys2Proof.Machine

/-- The completion status of an end (R59). -/
def JobEnd.status : JobEnd → JobStatus
  | .ok => .ok
  | .stopped => .stopped
  | .faulted _ _ => .faulted
  | .aborted => .aborted
  | .rejected _ _ => .rejected

/-- Status codes (11.5). -/
def JobStatus.code : JobStatus → Nat
  | .ok => 1
  | .stopped => 2
  | .faulted => 3
  | .aborted => 4
  | .rejected => 5

/-- Fault kind codes (11.5). -/
def FaultKind.code : FaultKind → Nat
  | .invalidDigit => 1
  | .invalidSign => 2
  | .overflow => 3
  | .divideByZero => 4
  | .unsignedNegative => 5
  | .window => 6
  | .busError => 7

/-- Reject reason codes (11.5). -/
def RejectReason.code : RejectReason → Nat
  | .badVersion => 16
  | .badCount => 17
  | .badPriority => 18
  | .badOperand => 19
  | .badStep => 20

/-- Fault kind or reject reason, 0 for none (11.5). -/
def JobEnd.reasonCode : JobEnd → Nat
  | .faulted kind _ => kind.code
  | .rejected reason _ => reason.code
  | .ok | .stopped | .aborted => 0

/-- Fault index, 0xFF for none (11.5). -/
def JobEnd.indexCode : JobEnd → Nat
  | .faulted _ index | .rejected _ index => index.getD 0xFF
  | .ok | .stopped | .aborted => 0xFF

/-- End information that carries no outcome (R57, R60): end step 0, iterations 0. -/
def EndInfo.unrun (how : JobEnd) : EndInfo := ⟨how, 0, 0, .empty, none⟩

/-- The end information with a recorded failure applied, and WRITE_LOST (R61, R143). -/
def composeEnd (info : EndInfo) (failure : Option (Nat × Nat)) : EndInfo × Bool :=
  match failure with
  | none => (info, false)
  | some (step, iteration) =>
    match info.how with
    | .ok | .stopped | .faulted _ _ =>
      ({ info with how := .faulted .busError none, step := step, iterations := iteration }, false)
    | .aborted => (info, true)
    | .rejected _ _ => (info, false)

/-- The 48 bytes of a result area (11.5). -/
def resultAreaBytes (info : EndInfo) (writeLost : Bool) (ticket : Ticket) (count : Nat) (tag : Tag) : List Byte :=
  [BitVec.ofNat 8 info.how.status.code, BitVec.ofNat 8 info.how.reasonCode, BitVec.ofNat 8 info.how.indexCode,
    BitVec.ofNat 8 info.step] ++ leBytes 2 info.iterations ++
  [BitVec.ofNat 8 info.seen.bits, BitVec.ofNat 8 (lastOutcomeByte info.last), BitVec.ofNat 8 writeLost.toNat] ++
  leBytes 3 0 ++ leBytes 4 ticket.toNat ++ leBytes 4 count ++ leBytes 2 tag.toNat ++ List.replicate 26 0#8

/-- The result area of a COMPLETION entry (R143). -/
def Writer.resultArea (w : Writer) (item : CompletionItem) : List Byte :=
  let composed := composeEnd item.info (w.failure? item.ticket)
  let count :=
    match w.record? item.ticket with
    | some r => r.count
    | none => 0
  resultAreaBytes composed.1 composed.2 item.ticket count item.tag

/-- The status written for a COMPLETION entry (R143, R149). -/
def Writer.writtenStatus (w : Writer) (item : CompletionItem) : JobStatus :=
  (composeEnd item.info (w.failure? item.ticket)).1.how.status

/-- Priority byte of a state word (R44). -/
def priorityCode : Priority → Nat
  | .normal => 0
  | .urgent => 1

/-- State code TAKEN (R43). -/
def takenCode : Nat := 2

/-- State code DONE (R43). -/
def doneCode : Nat := 3

/-- The 4 bytes of a state word (R45, 11.5). -/
def stateWordBytes (code : Nat) (priority : Priority) (tag : Tag) : List Byte :=
  [BitVec.ofNat 8 code, BitVec.ofNat 8 (priorityCode priority)] ++ leBytes 2 tag.toNat

end Sys2Proof.Machine
end

