-- ==== Sys2Proof/Machine/Port.lean ====
section
/-! DEFINITION. The Memory Port: who waits, whom the Port Arbiter grants, and how a transaction ends (R131 to R136, R141). -/

namespace Sys2Proof.Machine

/-- The transaction a requester has ready. -/
def Transaction.ofRead (purpose : Purpose) (address size : Nat) : Transaction := ⟨purpose, address, .read size, false⟩

/-- A write the Writer has ready. -/
def Transaction.ofWrite (purpose : Purpose) (address : Nat) (bytes : List Byte) : Transaction :=
  ⟨purpose, address, .write bytes, false⟩

/-- The Writer's transaction for an entry at the head; none for an entry to be discarded (R135, R140, R141, R144). -/
def entryRequest (c : Configuration) (w : Writer) : WriterEntry → Option Transaction
  | .state _ slot priority tag =>
    some (.ofWrite (.stateWord slot) (c.slotAddress slot) (stateWordBytes takenCode priority tag))
  | .destination ticket _ _ write =>
    if (w.failure? ticket).isSome then none else some (.ofWrite .destination write.address write.bytes)
  | .completion item false =>
    some (.ofWrite (.resultArea item.slot) (c.slotAddress item.slot + Config.resultAreaOffset) (w.resultArea item))
  | .completion item true =>
    some (.ofWrite (.doneWord item.slot) (c.slotAddress item.slot) (stateWordBytes doneCode item.priority item.tag))

/-- The Writer waits with its head entry's transaction (R135); its address comes from the loaded configuration (R140;
log entry 25). -/
def State.writerRequest (s : State) : Option Transaction :=
  match s.control.config, s.writer.buffer with
  | some c, entry :: _ => entryRequest c s.writer entry
  | _, _ => none

/-- The Loader waits with its next configuration read (R165). -/
def State.loaderRequest (s : State) : Option Transaction :=
  match s.control.loader with
  | some l =>
    some (.ofRead (.config l.block) (l.address.toNat + Config.blockBytes * l.block.val) Config.blockBytes)
  | none => none

/-- The read a take has due in its phase (R72, R73). -/
def takeRead (c : Configuration) (item : IntakeItem) : Option Transaction :=
  match item.phase with
  | .block0 => some (.ofRead (.takeBlock0 item.slot) (c.slotAddress item.slot) Config.blockBytes)
  | .further block _ =>
    some (.ofRead (.takeBlock item.slot block) (c.slotAddress item.slot + Config.blockBytes * block) Config.blockBytes)
  | .judged _ | .handing _ _ => none

/-- Intake waits with the next read of its sweep, take or null take (R135). -/
def State.intakeRequest (s : State) : Option Transaction :=
  match s.control.config with
  | none => none
  | some c =>
    match s.intake.activity with
    | .idle => none
    | .sweeping next => some (.ofRead (.sweep next) (c.slotAddress next) Config.blockBytes)
    | .taking item => takeRead c item
    | .nullTake item =>
      match item.phase with
      | .block0 => some (.ofRead (.nullTake item.slot) (c.slotAddress item.slot) Config.blockBytes)
      | .further _ _ | .judged _ | .handing _ _ => none

/-- A read hazard: the buffer holds a DESTINATION entry of the ticket that overlaps the source's range (R109). -/
def Writer.hazard (w : Writer) (ticket : Ticket) (start size : Nat) : Bool :=
  w.buffer.any fun
    | .destination t _ _ write => t = ticket && rangesOverlap write.address write.bytes.length start size
    | .state .. | .completion .. => false

/-- A fetcher waits with its next read when its source has no hazard (R135). -/
def State.fetchRequest (s : State) (u : UnitId) : Option Transaction :=
  match (s.unit u).activity with
  | .iterating job _ _ (.fetching (r :: _) _) =>
    if s.writer.hazard job.ticket r.rangeStart r.rangeSize then none
    else some (.ofRead (.source u) r.address r.size)
  | .iterating _ _ _ (.fetching [] _) | .iterating _ _ _ (.issuing _) | .idle | .ending _ => none

/-- The fetchers' turn: when both wait, the one not granted last, and Fetch 0 when none has been granted (R134). -/
def State.fetchersRequest (s : State) : Option Transaction :=
  match s.fetchRequest .unit0, s.fetchRequest .unit1 with
  | some t0, some t1 => if s.port.lastFetch = some .unit0 then some t1 else some t0
  | some t0, none => some t0
  | none, t1 => t1

/-- The Writer is in demand (R134). -/
def State.writerInDemand (s : State) : Bool := Config.demandLevel ≤ s.writer.buffer.length

/-- The Port Arbiter's choice among the waiting requesters (R134). -/
def State.arbiterChoice (s : State) : Option Transaction :=
  let writer := s.writerRequest
  if writer.isSome && s.writerInDemand then writer
  else (s.loaderRequest).or ((s.intakeRequest).or ((s.fetchersRequest).or writer))

/-- Head DESTINATION entries of tickets with a recorded failure leave without a transaction (R141). -/
def discardFailed (w : Writer) : List WriterEntry → List WriterEntry
  | [] => []
  | .destination t i j write :: rest =>
    if (w.failure? t).isSome then discardFailed w rest else .destination t i j write :: rest
  | .state t slot p tag :: rest => .state t slot p tag :: rest
  | .completion item d :: rest => .completion item d :: rest

/-- The transaction is the Writer's, for the entry at the head of its buffer (R131). -/
def Purpose.isWriter : Purpose → Bool
  | .stateWord _ | .destination | .resultArea _ | .doneWord _ => true
  | .config _ | .sweep _ | .takeBlock0 _ | .takeBlock _ _ | .nullTake _ | .source _ => false

/-- The Writer starts on its head entry at once (8.6): one to be discarded leaves without the port, whoever has it
(R135, R141); while a write of the Writer's own is outstanding its entry stays. -/
def State.discardHead (s : State) : State :=
  if s.port.outstanding.any (·.purpose.isWriter) then s
  else { s with writer.buffer := discardFailed s.writer s.writer.buffer }

/-- The free port is granted to the choice of the arbiter (R134), once the entries that joined the buffer as the port became
free are in it (log entry 30). -/
def State.grant (s : State) : State :=
  if s.port.outstanding.isSome || !s.writer.joining.isEmpty then s
  else
    match s.arbiterChoice with
    | none => s
    | some t =>
      match t.purpose with
      | .source u => { s with port := ⟨some t, some u⟩ }
      | .config _ | .sweep _ | .takeBlock0 _ | .takeBlock _ _ | .nullTake _ | .stateWord _ | .destination | .resultArea _
      | .doneWord _ => { s with port.outstanding := some t }

/-- The Writer discards, then the port is granted if it is free, to a requester that begins to wait on it too (R134); neither
while a command reset waits (R133) or while RST is asserted. -/
def State.arbitrate (s : State) : State := if s.acts then s.discardHead.grant else s

/-- The port has become free, in a state before: the grant uses the occupancy at that moment (R134), so it waits for the
entries that join the buffer at that moment (R138), those of a waiter that could not join before and of every waiter ahead
of it (log entry 30). -/
def State.portFreed (before s : State) : State :=
  let joiners := s.discardHead.joiners
  { s with writer.joining := if before.joiners.length < joiners.length then joiners else [] }.arbitrate

/-- The appender's entries are in the buffer: the port, if it is free, is granted at once, but for other entries that joined
as it became free (R134; log entry 30). -/
def State.appended (a : Appender) (s : State) : State :=
  { s with writer.joining := s.writer.joining.erase a }.arbitrate

/-- The transaction ends OK: a write leaves all its bytes in memory, a read sees memory after the host's writes (R131),
and the port is free. -/
def State.endedOk (s : State) (host : HostWrites) (t : Transaction) : State :=
  let memory := Memory.hostWrote s.memory host
  match t.transfer with
  | .read _ => { s with port.outstanding := none, memory := memory }
  | .write bytes => { s with port.outstanding := none, memory := Memory.writeBytes memory t.address bytes }

/-- The bytes a successful read delivers (R131). -/
def State.dataOf (s : State) (t : Transaction) : List Byte :=
  match t.transfer with
  | .read size => Memory.readBytes s.memory t.address size
  | .write _ => []

/-- A write of which memory may have taken all, some or none of the bytes (R131; log entry 6). -/
def State.unsureWrite (s : State) (t : Transaction) : State :=
  match t.transfer with
  | .read _ => s
  | .write bytes =>
    { s with memory := Memory.writeUnsure s.memory t.address s.freeCount bytes, freeCount := s.freeCount + bytes.length }

/-- The transaction ends in failure, or is abandoned, and the port is free (R131, R132). -/
def State.endedFailed (s : State) (t : Transaction) : State :=
  { s.unsureWrite t with port.outstanding := none }

/-- A success response to an outstanding transaction of the purposes given is acted on, with the port free; during a command
reset's wait its result is discarded (R180). Where none such is outstanding the event does not come about (log entry 2). -/
def State.respondOk (s : State) (isFor : Purpose → Bool) (host : HostWrites) (act : Transaction → State → State) : State :=
  match s.port.outstanding with
  | none => s
  | some t =>
    if isFor t.purpose then
      if s.control.resetWait then s.endedOk host t else s.portFreed (act t (s.endedOk host t))
    else s

end Sys2Proof.Machine
end

