-- ==== Sys2Proof/Machine/Iterating.lean ====
section
/-! DEFINITION. A calculation unit's iteration, the end of its job and its park (chapter 6), and the Dispatcher's part in
them (chapter 5). -/

namespace Sys2Proof.Machine

/-! ### Units becoming free (R90) -/

/-- The staged job is eligible and not ending (R88, R96). -/
def Dispatcher.eligible (d : Dispatcher) : Bool :=
  match d.staged with
  | none => false
  | some st => !st.ending && (!st.job.image.fenced || d.outstanding.head? = some st.job.ticket)

/-- The staged job is eligible and URGENT (R90, R92). -/
def Dispatcher.urgentReady (d : Dispatcher) : Bool :=
  d.eligible && (d.staged.any fun st => st.job.priority = .urgent)

/-- The parked job with the earlier ticket among those not marked ending (R90). -/
def Dispatcher.nextParked (d : Dispatcher) : Option ParkedJob :=
  (d.parked.filter (!·.ending)).foldl
    (fun best p =>
      match best with
      | none => some p
      | some b => if d.earlier p.job.ticket b.job.ticket then some p else some b) none

/-- How many jobs a freed unit could be given (R90). -/
def Dispatcher.available (d : Dispatcher) : Nat :=
  (d.parked.filter (!·.ending)).length + d.eligible.toNat

/-- Freed units for which nothing is available are idle and no longer wait (R90, choice 4; log entry 12). Applied before a
job becomes available. -/
def Dispatcher.settleFreed (d : Dispatcher) : Dispatcher := { d with freed := d.freed.take d.available }

/-- A unit has become free: its park request is answered (R93), and it waits to be served if a job is available for it
(R90). -/
def Dispatcher.unitFreed (d : Dispatcher) (u : UnitId) : Dispatcher :=
  { d with
    parkRequest := if d.parkRequest.any (·.1 = u) then none else d.parkRequest
    freed := (d.freed ++ [u]).take d.available }

/-! ### The end of a job in a unit (R115 to R120) -/

/-- The iteration in progress is abandoned: a fetch in flight ends without effect (R118). -/
def State.abandonFetch (s : State) (u : UnitId) : State :=
  match s.port.outstanding with
  | none => s
  | some t => if t.purpose = .source u then { s with port.outstanding := some { t with abandoned := true } } else s

/-- The unit passes to ENDING with its pending end, and presents its completion item; a park mark lapses (R116). -/
def State.finishJob (s : State) (u : UnitId) (job : Job) (how : JobEnd) (step done : Nat) : State :=
  let c := s.unit u
  let item : CompletionItem := ⟨job.ticket, job.slot, job.tag, job.priority, ⟨how, step, done, c.seen, c.last⟩⟩
  (s.setUnit u { c with activity := .ending item, parkMark := false }).present (.unit u)

/-- An abort taken by a unit (R118, R120). -/
def State.abortUnit (s : State) (u : UnitId) : State :=
  match (s.unit u).activity with
  | .idle => s
  | .iterating job step done _ => (s.abandonFetch u).finishJob u job .aborted step done
  | .ending item => s.setUnit u { s.unit u with activity := .ending { item with info := { item.info with how := .aborted } } }

/-- A bus-error report taken by a unit (R119, R120). -/
def State.reportToUnit (s : State) (u : UnitId) (ticket : Ticket) : State :=
  match (s.unit u).activity with
  | .idle | .ending _ => s
  | .iterating job step done _ =>
    if job.ticket = ticket then (s.abandonFetch u).finishJob u job (.faulted .busError none) step done else s

/-! ### Completion items of the Dispatcher (R96 to R100) -/

/-- The Dispatcher makes a completion item and presents it (R96). -/
def State.dispatcherItem (s : State) (item : CompletionItem) : State :=
  { s with dispatcher.items := s.dispatcher.items ++ [item] }.present .dispatcher

/-- The staged job is ended ABORTED; one already ending stays as it is (R96). -/
def State.endStaged (s : State) : State :=
  match s.dispatcher.staged with
  | none => s
  | some st =>
    if st.ending then s
    else
      { s with dispatcher.staged := some { st with ending := true } }.dispatcherItem
        ⟨st.job.ticket, st.job.slot, st.job.tag, st.job.priority, .unrun .aborted⟩

/-- The parked contexts of the ticket marked ending. -/
def markEnding (ticket : Ticket) (parked : List ParkedJob) : List ParkedJob :=
  parked.map fun p => if p.job.ticket = ticket then { p with ending := true } else p

/-- The parked job is ended at its parked position (R97, R98); one already ending has its item changed to ABORTED by an
abort, and is unchanged by a report. -/
def State.endParked (s : State) (how : JobEnd) (p : ParkedJob) : State :=
  if p.ending then
    if how = .aborted then
      { s with dispatcher.items := s.dispatcher.items.map fun item =>
          if item.ticket = p.job.ticket then { item with info := { item.info with how := .aborted } } else item }
    else s
  else
    { s with dispatcher.parked := markEnding p.job.ticket s.dispatcher.parked }.dispatcherItem
      ⟨p.job.ticket, p.job.slot, p.job.tag, p.job.priority, ⟨how, p.step, p.done, p.seen, p.last⟩⟩

/-- A parked job put in its place by order of issue. -/
def Dispatcher.insertParked (d : Dispatcher) (p : ParkedJob) : List ParkedJob → List ParkedJob
  | [] => [p]
  | q :: rest => if d.earlier q.job.ticket p.job.ticket then q :: d.insertParked p rest else p :: q :: rest

/-- Parked jobs, the earlier ticket first (R100). -/
def Dispatcher.parkedInOrder (d : Dispatcher) : List ParkedJob := d.parked.foldr d.insertParked []

/-! ### One iteration (R106 to R114) -/

/-- The reads of the fetch phase of iteration i: each memory source once, each part in its block (R110). -/
def fetchReads (work : Work) (i : Nat) : List FieldRead :=
  (memorySources [] work.sources).flatMap fun p =>
    (splitAtBlock (p.2.addressAt i) p.2.size).map fun part =>
      ⟨p.1, p.2.addressAt i, p.2.size, part.1, part.2⟩

/-- The bytes read so far for an operand entry, with a further part at their end. -/
def addRead (got : List (Nat × List Byte)) (index : Nat) (bytes : List Byte) : List (Nat × List Byte) :=
  match got with
  | [] => [(index, bytes)]
  | (k, bs) :: rest => if k = index then (k, bs ++ bytes) :: rest else (k, bs) :: addRead rest index bytes

/-- The bytes read for an operand entry. -/
def readBytesOf (got : List (Nat × List Byte)) (index : Nat) : List Byte :=
  match got.find? (·.1 = index) with
  | some (_, bs) => bs
  | none => []

/-- The value a source gives (R16, R18, R8), or its fault; failed names the source whose read failed (R111). -/
def sourceValue (cells : Cells) (got : List (Nat × List Byte)) (failed : Option Nat) (src : Source) :
    Except IterFault Decimal :=
  match src.operand with
  | .literal v => .ok v
  | .cell index _ _ => .ok cells[index]
  | .memory f =>
    if failed = some src.index then .error ⟨.busError, src.index⟩
    else
      match readField f.format f.digits f.scale (readBytesOf got src.index) with
      | .ok v => .ok v
      | .error kind => .error ⟨kind, src.index⟩

/-- A field's bytes as destination entries, one for each block they lie in (R112). -/
def destWrites (address : Nat) (bytes : List Byte) : List DestWrite :=
  match splitAtBlock address bytes.length with
  | [_, (higher, _)] => [⟨address, bytes.take (higher - address)⟩, ⟨higher, bytes.drop (higher - address)⟩]
  | _ => [⟨address, bytes⟩]

/-- The destination entries of a delivery in iteration i; a cell has none. -/
def Delivery.writes (d : Delivery) (i : Nat) : List DestWrite :=
  match d.dest.place with
  | .memory f => destWrites (f.addressAt i) (writeField f.format f.digits d.coef)
  | .cell _ _ _ => []

/-- The new value of a cell destination, with the entry's scale (R15). -/
def Delivery.cellWrite (d : Delivery) : Option (Fin 8 × Decimal) :=
  match d.dest.place with
  | .memory _ => none
  | .cell index _ scale => some (index, ⟨d.coef, scale⟩)

/-- The prepared results of iteration i, in the order of issue (R112). -/
def Computed.result (c : Computed) (i : Nat) : IterResult :=
  ⟨c.deliveries.flatMap (·.writes i), c.deliveries.filterMap (·.cellWrite), c.outcome⟩

/-- What the sequencer decides at an iteration's end (R113). -/
inductive Decision where
  | ends (how : JobEnd)
  | goesOn (step done : Nat)
  deriving DecidableEq, Repr

/-- The stop test and the repeat count, in that order; done counts the iteration just made (R106, R113, R115). -/
def sequence (image : JobImage) (st : Step) (step done : Nat) (o : IterOutcome) : Decision :=
  if st.stopSet.fires o && st.stopAction = .endJob then .ends .stopped
  else if st.stopSet.fires o || st.repeats ≤ done then
    if step + 1 < image.steps.length then .goesOn (step + 1) 0 else .ends .ok
  else .goesOn step done

/-- The job's context moves to the park buffer and the unit becomes free (R94, R117); in ABORTING the parked job is at
once ended ABORTED (R100). -/
def State.park (s : State) (u : UnitId) (job : Job) (step done : Nat) : State :=
  let c := s.unit u
  let p : ParkedJob := ⟨job, step, done, c.cells, c.seen, c.last, false⟩
  let d := s.dispatcher.settleFreed
  let s1 := { s with dispatcher := { d with parked := d.parked ++ [p] }.unitFreed u }
  let s2 := s1.setUnit u { c with activity := .idle, parkMark := false }
  if s.control.state = .aborting then s2.endParked .aborted p else s2

/-- The unit after an issue act: cells given their values, the outcome added to the set and kept as the last (R112,
R113). -/
def CalcUnit.issued (c : CalcUnit) (r : IterResult) : CalcUnit :=
  { c with
    cells := r.cellWrites.foldl (fun (cs : Cells) (w : Fin 8 × Decimal) => cs.set w.1 w.2) c.cells
    seen := c.seen.add r.outcome
    last := some r.outcome }

/-- The issue act: entries appended, cells given their values, the iteration counted, the outcome added (R112, R113),
then the boundary: end before park before the next iteration, which goOn begins at the job, step and iteration count
decided (R114). -/
def State.issueThen (s : State) (u : UnitId) (job : Job) (step done : Nat) (st : Step) (r : IterResult)
    (goOn : State → Nat → Nat → State) : State :=
  let s1 := s.append (.unit u) (r.writes.map (.destination job.ticket step done))
  let s2 := s1.setUnit u ((s1.unit u).issued r)
  match sequence job.image st step (done + 1) r.outcome with
  | .ends how => s2.finishJob u job how step (done + 1)
  | .goesOn step' done' => if (s.unit u).parkMark then s2.park u job step' done' else goOn s2 step' done'

/-- The computation's end: a fault ends the job at once (R116); results that need no entry are issued as soon as the
computation ends; else they wait for room in the writer buffer, in the order of presentation (R112, R138;
log entry 8). -/
def State.computedThen (s : State) (u : UnitId) (job : Job) (step done : Nat) (st : Step)
    (r : Except IterFault Computed) (goOn : State → Nat → Nat → State) : State :=
  match r with
  | .error f => s.finishJob u job (.faulted f.kind (some f.index)) step done
  | .ok c =>
    let result := c.result done
    if result.writes.isEmpty then s.issueThen u job step done st result goOn
    else
      (s.setUnit u { s.unit u with activity := .iterating job step done (.issuing result) }).present (.unit u)

/-- Iterations from a position on: window check, then the fetch phase, or the computation when no source lies in memory
(R108 to R112), and so on while each is issued at once (R114; log entry 8). The fuel bounds their number; from
JobImage.iterationBound it is never used up (iterate_enough). A position with no step is past the list's end, where
the job ends OK (log entry 23). -/
def State.iterate (u : UnitId) (job : Job) : Nat → State → Nat → Nat → State
  | 0, s, step, done => s.finishJob u job .ok step done
  | fuel + 1, s, step, done =>
    match job.image.steps[step]? with
    | none => s.finishJob u job .ok step done
    | some st =>
      match firstRefused s.windows (questions st.work done) with
      | some index => s.finishJob u job (.faulted .window (some index)) step done
      | none =>
        match fetchReads st.work done with
        | [] =>
          s.computedThen u job step done st (computeStep st (sourceValue (s.unit u).cells [] none))
            (State.iterate u job fuel)
        | r :: rs => s.setUnit u { s.unit u with activity := .iterating job step done (.fetching (r :: rs) []) }

/-- More iterations than the steps of a job have, all together (R106). -/
def JobImage.iterationBound (image : JobImage) : Nat := (image.steps.map (·.repeats + 1)).sum + 1

/-- An iteration begins (R108). -/
def State.beginIteration (s : State) (u : UnitId) (job : Job) (step done : Nat) : State :=
  State.iterate u job job.image.iterationBound s step done

/-- The end of the computation of a fetched iteration (R110 to R112). -/
def State.computed (s : State) (u : UnitId) (job : Job) (step done : Nat) (st : Step)
    (r : Except IterFault Computed) : State :=
  s.computedThen u job step done st r (·.beginIteration u job)

/-- The issue act of an iteration whose entries have room (R112). -/
def State.issue (s : State) (u : UnitId) (job : Job) (step done : Nat) (st : Step) (r : IterResult) : State :=
  s.issueThen u job step done st r (·.beginIteration u job)

end Sys2Proof.Machine
end

