-- ==== Sys2Proof/Machine/Changing.lean ====
section
/-! DEFINITION. Changes of device state that concern every block: a failed load, HALTED, and the two resets; and the
routing of a failed transaction (R136, R168, R175, R179, R180). -/

namespace Sys2Proof.Machine

/-- A load fails: the report is passed on and the device enters OFF without a configuration (R168). -/
def State.loadFailed (s : State) (r : FaultReport) : State :=
  { s with control.state := .off, control.config := none, control.loader := none }.report r

/-- Entry into HALTED on a fatal report: every block stops at once; harvest queue, configuration, take counter and timers
of the Notifier are kept (R84, R101, R122, R147, R152, R175). -/
def State.halt (s : State) (r : FaultReport) : State :=
  { s with
    control.state := .halted
    intake := { s.intake with urgent := [], normal := [], activity := .idle, sweepDue := false, sweepTimer := none }
    dispatcher := .resetValue
    unit0 := s.unit0.dropped
    unit1 := s.unit1.dropped
    writer := .resetValue
    notifier.flags.halted := true }.report r

/-- Every block takes its reset values, with the CONFIG ADDRESS and the level of RST given; memory and the waiting commands
are not the reset's (R179, R180). -/
def State.resetBlocks (s : State) (configAddress : Word) (rst : Bool) : State :=
  { s with
    control := .resetValue configAddress rst
    intake := .resetValue
    dispatcher := .resetValue
    unit0 := .resetValue
    unit1 := .resetValue
    port := .resetValue
    writer := .resetValue
    notifier := .resetValue }

/-- A failed read of a fetcher: the sources read so far are decoded, and the iteration faults (R111). -/
def State.fetchFailed (s : State) (u : UnitId) : State :=
  match (s.unit u).activity with
  | .iterating job step done (.fetching (r :: _) got) =>
    match job.image.steps[step]? with
    | none => s
    | some st => s.computed u job step done st (computeStep st (sourceValue (s.unit u).cells got (some r.index)))
  | .iterating _ _ _ (.fetching [] _) | .iterating _ _ _ (.issuing _) | .idle | .ending _ => s

/-- Another DESTINATION entry of the ticket. -/
def WriterEntry.isDestinationOf (t : Ticket) : WriterEntry → Bool
  | .destination t' _ _ _ => t' = t
  | .state .. | .completion .. => false

/-- The report for a ticket whose destination write failed, taken by whichever block holds the job (R142). -/
def State.busErrorReport (s : State) (ticket : Ticket) : State :=
  let s1 := (s.reportToUnit .unit0 ticket).reportToUnit .unit1 ticket
  match s1.dispatcher.parked.find? (·.job.ticket = ticket) with
  | none => s1
  | some p => s1.endParked (.faulted .busError none) p

/-- A failed destination write: failure recorded, the ticket's other DESTINATION entries removed, report sent (R142). -/
def State.destinationFailed (s : State) : State :=
  match s.writer.buffer with
  | .destination t step iteration _ :: rest =>
    let w := s.writer.updateRecord t fun r => { r with failure := r.failure.or (some (step, iteration)) }
    { s with writer := { w with buffer := rest.filter fun e => !e.isDestinationOf t } }.busErrorReport t
  | .state .. :: _ | .completion .. :: _ | [] => s

/-- A transaction that ended in failure is routed by its requester (R136). -/
def State.routeFailure (s : State) (kind : FailKind) (t : Transaction) : State :=
  match t.purpose with
  | .config block => s.loadFailed (.configBusError block kind)
  | .sweep slot => s.halt (.fatalIntake slot 0 kind)
  | .takeBlock0 slot => s.halt (.fatalIntake slot 0 kind)
  | .takeBlock slot block => s.halt (.fatalIntake slot block kind)
  | .nullTake slot => s.halt (.fatalIntake slot 0 kind)
  | .source u => if t.abandoned then s else s.fetchFailed u
  | .destination => s.destinationFailed
  | .stateWord slot => s.halt (.fatalWriter slot false kind)
  | .resultArea slot => s.halt (.fatalWriter slot true kind)
  | .doneWord slot => s.halt (.fatalWriter slot false kind)

/-- The end in failure of the outstanding transaction, when its purpose is one of those given: routed, or discarded during
a command reset's wait (R132, R180). Where none such is outstanding the event does not come about (log entry 2). -/
def State.respondFail (s : State) (isFor : Purpose → Bool) (kind : FailKind) : State :=
  match s.port.outstanding with
  | none => s
  | some t =>
    if isFor t.purpose then
      if s.control.resetWait then s.endedFailed t else s.portFreed ((s.endedFailed t).routeFailure kind t)
    else s

end Sys2Proof.Machine
end

