-- ==== Sys2Proof/Machine/Commands.lean ====
section
/-! DEFINITION. The commands written to CONTROL, and the end of a drain or an abort (chapter 10). -/

namespace Sys2Proof.Machine

/-- A command taken: accepted with its effect, or refused with REFUSED_STATE (R169); not taken while RST is asserted or a
command reset waits (R179, R180). -/
def State.command (s : State) (accepted : Bool) (effect : State → State) : State :=
  if s.takesCommands then
    if accepted then effect (s.answer .accepted) else s.answer .refusedState
  else s

/-- START in OFF or STOPPED: configuration discarded, load address fixed and examined (R164). -/
def State.beginLoad (s : State) : State :=
  let a := s.control.configAddress
  let s1 := { s with control.state := .loading, control.config := none }
  if loadAddressValid a then { s1 with control.loader := some ⟨a, 0, []⟩ }.arbitrate
  else s1.loadFailed (.configInvalid .configAddress)

/-- START (R164). -/
def execStart (s : State) : Host.Outcome State Fault Refusal :=
  .next (s.command (s.control.state = .off || s.control.state = .stopped) State.beginLoad)

/-- A sweep in progress ends at once unless its read is in flight, whose result is then not acted on (R82, R83;
log entry 21). -/
def State.endSweep (s : State) : IntakeActivity :=
  match s.intake.activity with
  | .sweeping next =>
    match s.port.outstanding with
    | some ⟨.sweep _, _, _, _⟩ => .sweeping next
    | _ => .idle
  | .idle => .idle
  | .taking item => .taking item
  | .nullTake item => .nullTake item

/-- STOP in RUNNING: the drain (R82, R170). -/
def State.drain (s : State) : State :=
  { s with
    control.state := .draining
    intake := { s.intake with sweepDue := false, sweepTimer := none, activity := s.endSweep } }

/-- STOP (R170). -/
def execStop (s : State) : Host.Outcome State Fault Refusal :=
  .next (s.command (s.control.state = .running) State.drain)

/-- A take in progress is marked aborted; a null take goes on (R80, R83). -/
def markAborted : IntakeActivity → IntakeActivity
  | .taking item => .taking { item with aborted := true }
  | .idle => .idle
  | .sweeping next => .sweeping next
  | .nullTake item => .nullTake item

/-- ABORT ALL: lists emptied, the take marked, staged and parked jobs ended, the abort sent to each unit (R83, R100,
R121, R171). -/
def State.abortAll (s : State) : State :=
  let s1 := { s with
    control.state := .aborting
    intake := { s.intake with
      urgent := [], normal := [], sweepDue := false, sweepTimer := none, activity := markAborted s.endSweep }
    unit0 := { s.unit0 with abortDue := true }
    unit1 := { s.unit1 with abortDue := true } }
  s1.dispatcher.parkedInOrder.foldl (State.endParked · .aborted) s1.endStaged

/-- ABORT_ALL (R171). -/
def execAbortAll (s : State) : Host.Outcome State Fault Refusal :=
  .next (s.command (s.control.state = .running || s.control.state = .draining) State.abortAll)

/-- The first entry of a slot with the rest of the list. -/
def takeEntry (slot : Slot) : List PendingEntry → Option (PendingEntry × List PendingEntry)
  | [] => none
  | e :: es =>
    if e.slot = slot then some (e, es)
    else (takeEntry slot es).map fun r => (r.1, e :: r.2)

/-- An ordinary pending entry becomes an abort marker at the head of the urgent list (R78). -/
def Intake.placeMarker (i : Intake) (slot : Slot) : Intake :=
  match takeEntry slot i.urgent with
  | some (e, rest) => { i with urgent := ⟨slot, e.priority, .abort⟩ :: rest }
  | none =>
    match takeEntry slot i.normal with
    | some (e, rest) => { i with urgent := ⟨slot, e.priority, .abort⟩ :: i.urgent, normal := rest }
    | none => i

/-- ABORT SLOT routed to the place that holds the slot, which sets the outcome (R173). -/
def State.abortSlot (s : State) (slot : Slot) : State :=
  if s.intake.hasOrdinary slot then { s with intake := s.intake.placeMarker slot }.answer .accepted
  else if s.intake.hasMarker slot then s.answer .accepted
  else if s.intake.itemSlot? = some slot then
    { s with intake.activity := markAborted s.intake.activity }.answer .accepted
  else if s.dispatcher.staged.any (·.job.slot = slot) then s.endStaged.answer .accepted
  else
    match s.dispatcher.parked.find? (·.job.slot = slot) with
    | some p => (s.endParked .aborted p).answer .accepted
    | none =>
      if s.unit0.slot? = some slot then (s.abortUnit .unit0).answer .accepted
      else if s.unit1.slot? = some slot then (s.abortUnit .unit1).answer .accepted
      else if s.writer.completionSlots.contains slot then s.answer .notActive
      else s.answer .notFound

/-- ABORT_SLOT (R173). -/
def execAbortSlot (slot : Slot) (s : State) : Host.Outcome State Fault Refusal :=
  .next (s.command (s.control.state = .running || s.control.state = .draining) (State.abortSlot · slot))

/-- CLEAR_FAULT: record emptied and MORE cleared; the FAULT flag is not touched (R178). -/
def execClearFault (s : State) : Host.Outcome State Fault Refusal :=
  .next (s.command true fun t => { t with control.faultRecord := none, control.more := false })

/-- RESET: units drop their jobs, every block stops, and the wait for the outstanding transaction begins (R180). -/
def State.beginReset (s : State) : State :=
  { s with
    control.resetWait := true
    unit0 := s.unit0.dropped
    unit1 := s.unit1.dropped
    writer.waiters := []
    writer.joining := [] }

/-- RESET (R180). -/
def execReset (s : State) : Host.Outcome State Fault Refusal :=
  .next (s.command true State.beginReset)

/-- UNNAMED_COMMAND_CODE: accepted in no state (R169). -/
def execUnnamedCommandCode (_code : BitVec 4) (s : State) : Host.Outcome State Fault Refusal :=
  .next (s.command false id)

/-- Intake reports itself idle: IDLE with no abort marker on the urgent list (R67). -/
def Intake.reportsIdle (i : Intake) : Bool :=
  i.activity = .idle && !(i.urgent.any fun e => e.source = .abort)

/-- The Dispatcher reports itself empty (R99). -/
def State.dispatcherEmpty (s : State) : Bool :=
  s.dispatcher.staged.isNone && s.dispatcher.parked.isEmpty && s.unit0.isIdle && s.unit1.isIdle &&
  s.dispatcher.items.isEmpty

/-- The completion condition of a drain or an abort (R170, R171). -/
def State.drained (s : State) : Bool :=
  s.acts && (s.control.state = .draining || s.control.state = .aborting) && s.intake.reportsIdle && s.dispatcherEmpty &&
  s.writer.buffer.isEmpty

/-- Entry into STOPPED (R172): lists emptied, timer stopped, STOPPED flag set; an abort still on its way meets idle
units (log entry 14). -/
def State.stopDevice (s : State) : State :=
  { s with
    control.state := .stopped
    intake := { s.intake with urgent := [], normal := [], sweepDue := false, sweepTimer := none }
    unit0 := { s.unit0 with abortDue := false }
    unit1 := { s.unit1 with abortDue := false }
    notifier.flags.stopped := true }

/-- ENTER_STOPPED (R170, R171, R172). -/
def execEnterStopped (s : State) : Host.Outcome State Fault Refusal :=
  .next (if s.drained then s.stopDevice else s)

end Sys2Proof.Machine
end

