-- ==== Sys2Proof/Machine/Registers.lean ====
section
/-! DEFINITION. The values the registers read as (R181, R184, R185, 11.2). A read of a register other than HARVEST changes
nothing; HARVEST's read effect is HARVEST_READ. -/

namespace Sys2Proof.Machine

/-- Device state codes (11.2). -/
def DeviceState.code : DeviceState → Nat
  | .off => 0
  | .loading => 1
  | .running => 2
  | .draining => 3
  | .aborting => 4
  | .stopped => 5
  | .halted => 6

/-- Command outcome codes (11.2). -/
def CommandOutcome.code : CommandOutcome → Nat
  | .none => 0
  | .accepted => 1
  | .refusedState => 2
  | .notFound => 3
  | .notActive => 4

/-- A value placed at a bit position of a register. -/
def field (value position : Nat) : Word := BitVec.ofNat 32 value <<< position

/-- CONTROL as read: outcome 10:8, state 2:0. -/
def State.readControl (s : State) : Word := field s.control.outcome.code 8 ||| field s.control.state.code 0

/-- The four flag bits: FAULT 7, HALTED 6, STOPPED 5, FINISH 4. -/
def CauseBits.word (c : CauseBits) : Word :=
  field c.fault.toNat 7 ||| field c.halted.toNat 6 ||| field c.stopped.toNat 5 ||| field c.finish.toNat 4

/-- The four bits of a written word. -/
def CauseBits.ofWord (v : Word) : CauseBits := ⟨v.getLsbD 4, v.getLsbD 5, v.getLsbD 6, v.getLsbD 7⟩

/-- The pending count: both lists, markers included (R63). -/
def State.pendingCount (s : State) : Nat := s.intake.urgent.length + s.intake.normal.length

/-- The units in ITERATING or ENDING (R105). -/
def State.unitsBusy (s : State) : Nat := (!s.unit0.isIdle).toNat + (!s.unit1.isIdle).toNat

/-- STATUS as read. -/
def State.readStatus (s : State) : Word :=
  field s.notifier.harvest.length 24 ||| field s.writer.buffer.length 20 ||| field s.dispatcher.parked.length 18 |||
  field s.unitsBusy 16 ||| field s.pendingCount 8 ||| s.notifier.flags.word ||| field s.control.state.code 0

/-- Detail codes of a failure: 1 ERROR, 2 TIMEOUT (R185). -/
def FailKind.code : FailKind → Nat
  | .error => 1
  | .timeout => 2

/-- Detail codes of a refusal (R185). -/
def RefusalReason.code : RefusalReason → Nat
  | .notRunning => 1
  | .outOfRange => 2
  | .duplicate => 3

/-- Detail codes of an entry's source (R185). -/
def PendingSource.code : PendingSource → Nat
  | .post => 1
  | .sweep => 2
  | .abort => 3

/-- Field codes of CONFIG_INVALID (R185). -/
def ConfigField.code : ConfigField → Nat
  | .configAddress => 1
  | .version => 2
  | .slotTableBase => 3
  | .slotCount => 4
  | .sweepInterval => 5
  | .finishThreshold => 6
  | .finishHoldoff => 7
  | .windowCount => 8
  | .windowRights _ => 9
  | .windowLength _ => 10
  | .windowBase _ => 11

/-- The window index of the three window fields, otherwise 0 (R185). -/
def ConfigField.windowIndex : ConfigField → Nat
  | .windowRights k | .windowLength k | .windowBase k => k
  | .configAddress | .version | .slotTableBase | .slotCount | .sweepInterval | .finishThreshold | .finishHoldoff
  | .windowCount => 0

/-- The fields kind, requester, slot, position, detail and field code of a filled record (R185). -/
structure FaultFields where
  kind : Nat
  requester : Nat
  slot : Nat
  position : Nat
  detail : Nat
  fieldCode : Nat
  deriving DecidableEq, Repr

/-- The table of R185. -/
def FaultReport.fields : FaultReport → FaultFields
  | .postRefused slot reason => ⟨1, 0, slot.val, 0, reason.code, 0⟩
  | .stalePost slot source => ⟨2, 0, slot.val, 0, source.code, 0⟩
  | .configInvalid f => ⟨3, 1, 0, 0, f.windowIndex, f.code⟩
  | .configBusError block kind => ⟨4, 1, 0, 4 * block.val, kind.code, 0⟩
  | .fatalIntake slot block kind => ⟨5, 2, slot.val, 4 * block, kind.code, 0⟩
  | .fatalWriter slot resultArea kind => ⟨5, 3, slot.val, if resultArea then 29 else 0, kind.code, 0⟩

/-- FAULT as read; an empty record reads 0 in every field (11.2). -/
def State.readFault (s : State) : Word :=
  match s.control.faultRecord with
  | none => 0#32
  | some r =>
    let f := r.fields
    field 1 31 ||| field s.control.more.toNat 30 ||| field f.kind 26 ||| field f.requester 24 ||| field f.slot 18 |||
    field f.position 13 ||| field f.detail 8 ||| field f.fieldCode 0

/-- The HARVEST word of the head of the queue, or of an empty queue (R150, 11.2). -/
def harvestWordOf : List HarvestEntry → Word
  | [] => 0#32
  | e :: _ => field 1 31 ||| field e.status.code 24 ||| field e.slot.val 16 ||| field e.tag.toNat 0

/-- The value a 32-bit read of a register returns; for HARVEST the word its read hands over (R183). -/
def State.readRegister (s : State) : Register → Word
  | .ident => Config.ident
  | .control => s.readControl
  | .configAddress => s.control.configAddress
  | .post => 0#32
  | .harvest => harvestWordOf s.notifier.harvest
  | .status => s.readStatus
  | .fault => s.readFault
  | .interruptEnable => s.control.enables.word

/-- The bytes of a register's value that a read of some lanes returns (R183). -/
def laneValue (value : Word) (lanes : Lanes) : Word :=
  (value.extractLsb' (8 * lanes.first.val) (8 * lanes.count)).setWidth 32

/-- What a bus read of a width at an offset returns (R183): the bytes addressed, of each whole register read. -/
def State.busRead (s : State) (offset : Fin 32) (width : AccessWidth) : Word :=
  (accessParts offset width).foldr
    (fun p higher => laneValue (s.readRegister p.1) p.2 ||| higher <<< (8 * p.2.count)) 0#32

end Sys2Proof.Machine
end

