-- ==== Sys2Proof/Machine/RegisterAccess.lean ====
section
/-! DEFINITION. The register accesses other than CONTROL writes: POST, HARVEST, STATUS, INTERRUPT ENABLE, CONFIG ADDRESS and
the writes without effect (R65, R150, R154, R160, R174, R183). -/

namespace Sys2Proof.Machine

/-- What Intake decides on a POST arrival (R65). -/
inductive PostDecision where
  | refuse (reason : RefusalReason)
  | ignore
  | append
  deriving DecidableEq, Repr

/-- The first case of R65's table that applies. -/
def State.decidePost (s : State) (slot : Slot) : PostDecision :=
  if s.control.state ≠ .running then .refuse .notRunning
  else if s.slotCount ≤ slot.val then .refuse .outOfRange
  else if s.intake.hasOrdinary slot then .ignore
  else if s.holds slot then .refuse .duplicate
  else .append

/-- An entry at the tail of the list of its priority (R63). -/
def Intake.append (i : Intake) (e : PendingEntry) : Intake :=
  match e.priority with
  | .urgent => { i with urgent := i.urgent ++ [e] }
  | .normal => { i with normal := i.normal ++ [e] }

/-- POST_ARRIVAL (R65, R66); not handed to Intake while RST is asserted or a command reset waits (R179, R180). -/
def execPostArrival (slot : Slot) (priority : Priority) (s : State) : Host.Outcome State Fault Refusal :=
  .next (
    if s.takesCommands then
      match s.decidePost slot with
      | .refuse reason => s.report (.postRefused slot reason)
      | .ignore => s
      | .append => { s with intake := s.intake.append ⟨slot, priority, .post⟩ }
    else s)

/-- HARVEST_READ: the head entry is removed and its word returned, of which a narrow read sees its lanes (R150, R183). -/
def execHarvestRead (lanes : Lanes) (s : State) : Host.Outcome State Fault Refusal :=
  .next { s with
    control.harvestWord := laneValue (harvestWordOf s.notifier.harvest) lanes
    notifier.harvest := s.notifier.harvest.tail }

/-- A register write that takes effect: not while RST is asserted (R179); during a command reset's wait it does (R180). -/
def State.registerWritten (s : State) (effect : State → State) : State := if s.control.rst then s else effect s

/-- CLEAR_FINISH (R158). -/
def execClearFinish (s : State) : Host.Outcome State Fault Refusal :=
  .next (s.registerWritten fun t => { t with notifier := t.notifier.clearFinish })

/-- CLEAR_STOPPED_FLAG (R154). -/
def execClearStoppedFlag (s : State) : Host.Outcome State Fault Refusal :=
  .next (s.registerWritten fun t => { t with notifier.flags.stopped := false })

/-- CLEAR_HALTED_FLAG (R154). -/
def execClearHaltedFlag (s : State) : Host.Outcome State Fault Refusal :=
  .next (s.registerWritten fun t => { t with notifier.flags.halted := false })

/-- CLEAR_FAULT_FLAG (R154). -/
def execClearFaultFlag (s : State) : Host.Outcome State Fault Refusal :=
  .next (s.registerWritten fun t => { t with notifier.flags.fault := false })

/-- INTERRUPT_ENABLE_WRITE: the four enables in one act (R160, R184). -/
def execInterruptEnableWrite (value : Word) (s : State) : Host.Outcome State Fault Refusal :=
  .next (s.registerWritten fun t => { t with control.enables := .ofWord value })

/-- CONFIG_ADDRESS_WRITE: stored in OFF and STOPPED, ignored elsewhere (R174). -/
def execConfigAddressWrite (value : Word) (s : State) : Host.Outcome State Fault Refusal :=
  .next (s.registerWritten fun t =>
    if t.control.state = .off ∨ t.control.state = .stopped then { t with control.configAddress := value } else t)

/-- IGNORED_REGISTER_WRITE: answered with success and without effect (R183). -/
def execIgnoredRegisterWrite (_register : Register) (_lanes : Lanes) (_value : Word) (s : State) :
    Host.Outcome State Fault Refusal :=
  .next s

end Sys2Proof.Machine
end

