-- ==== Sys2Proof/Machine/Resets.lean ====
section
/-! DEFINITION. The resets, the timers' expiries and the late response (R68, R132, R157, R179, R180). -/

namespace Sys2Proof.Machine

/-- LINE_RESET: every block at its reset values, CONFIG ADDRESS 0, RST asserted; of an outstanding write memory took all,
some or none (R179, R148, R182). -/
def execLineReset (s : State) : Host.Outcome State Fault Refusal :=
  let s1 :=
    match s.port.outstanding with
    | none => s
    | some t => s.unsureWrite t
  .next (s1.resetBlocks 0#32 true)

/-- RST_RELEASE (R179). -/
def execRstRelease (s : State) : Host.Outcome State Fault Refusal :=
  .next { s with control.rst := false }

/-- COMMAND_RESET_COMPLETE: once no transaction is outstanding every block takes its reset values, CONFIG ADDRESS kept
(R180). -/
def execCommandResetComplete (s : State) : Host.Outcome State Fault Refusal :=
  .next (
    if s.control.resetWait && s.port.outstanding.isNone then s.resetBlocks s.control.configAddress s.control.rst else s)

/-- SWEEP_TIMER_EXPIRY: in RUNNING a sweep falls due (R68). -/
def execSweepTimerExpiry (s : State) : Host.Outcome State Fault Refusal :=
  .next (
    if s.control.state = .running ∧ s.intake.sweepTimer.isSome then
      { s with intake.sweepTimer := none, intake.sweepDue := true }
    else s)

/-- HOLDOFF_EXPIRY (R157). -/
def execHoldoffExpiry (s : State) : Host.Outcome State Fault Refusal :=
  .next { s with notifier := s.notifier.expire }

/-- RESPONSE_TIMEOUT: the outstanding transaction ends as TIMEOUT and is routed by its requester (R132, R136). -/
def execResponseTimeout (s : State) : Host.Outcome State Fault Refusal :=
  .next (s.respondFail (fun _ => true) .timeout)

/-- LATE_RESPONSE: discarded without effect (R132). -/
def execLateResponse (s : State) : Host.Outcome State Fault Refusal := .next s

end Sys2Proof.Machine
end

