-- ==== Sys2Proof/Machine/ReadEnds.lean ====
section
/-! DEFINITION. The ends of reads: the Loader's, Intake's and the fetchers' (R69, R72, R73, R79, R110, R165). -/

namespace Sys2Proof.Machine

/-! ### Loader -/

/-- The load succeeds: the checked copy becomes the loaded configuration and the device enters RUNNING (R167, R68, R155). -/
def State.loadSucceeded (s : State) (c : Configuration) : State :=
  { s with
    control.state := .running
    control.config := some c
    control.loader := none
    intake.sweepDue := c.sweepInterval ≠ 0
    notifier := s.notifier.load c.threshold c.holdoff }

/-- A configuration block has been read: into the copy, and after the third the checks (R165, R166). -/
def State.loaderRead (s : State) (data : List Byte) : State :=
  match s.control.loader with
  | none => s
  | some l =>
    let copy := Memory.writeBytes l.copy (Config.blockBytes * l.block.val) data
    if h : l.block.val + 1 < 3 then { s with control.loader := some ⟨l.address, ⟨l.block.val + 1, h⟩, copy⟩ }
    else
      match checkConfiguration l.address copy with
      | some f => s.loadFailed (.configInvalid f)
      | none => s.loadSucceeded (blockConfiguration copy)

/-- The transaction is a configuration read. -/
def Purpose.isConfig : Purpose → Bool
  | .config _ => true
  | .sweep _ | .takeBlock0 _ | .takeBlock _ _ | .nullTake _ | .source _ | .stateWord _ | .destination | .resultArea _
  | .doneWord _ => false

/-- LOADER_READ_DONE (R165). -/
def execLoaderReadDone (host : HostWrites) (s : State) : Host.Outcome State Fault Refusal :=
  .next (s.respondOk Purpose.isConfig host fun t s1 => s1.loaderRead (s1.dataOf t))

/-- CONFIG_READ_BUS_ERROR (R165). -/
def execConfigReadBusError (s : State) : Host.Outcome State Fault Refusal :=
  .next (s.respondFail Purpose.isConfig .error)

/-! ### Intake -/

/-- The next slot of a sweep, below the slot count. -/
def nextSlot (count : Nat) (slot : Slot) : Option Slot :=
  if h : slot.val + 1 < 64 then (if slot.val + 1 < count then some ⟨slot.val + 1, h⟩ else none) else none

/-- The entry a sweep read yields: a POSTED slot that is not held, URGENT when the priority byte is 1 (R69). -/
def State.sweepEntry (s : State) (slot : Slot) (block : Memory) : Option PendingEntry :=
  if recordState block = postedCode && !s.holds slot then
    some ⟨slot, if recordPriority block = 1 then .urgent else .normal, .sweep⟩
  else none

/-- The sweep timer at the completion of a sweep (R68). -/
def State.sweepPeriod (s : State) : Option Nat :=
  match s.control.config with
  | some c => if c.sweepInterval = 0 then none else some c.sweepInterval
  | none => none

/-- A sweep read is acted on in RUNNING and the sweep goes on or completes; elsewhere it is not acted on and the sweep
ends (R69, R82). -/
def State.sweepRead (s : State) (data : List Byte) : State :=
  match s.intake.activity with
  | .sweeping slot =>
    if s.control.state = .running then
      let s1 :=
        match s.sweepEntry slot (Memory.writeBytes [] 0 data) with
        | some e => { s with intake := s.intake.append e }
        | none => s
      match nextSlot s.slotCount slot with
      | some next => { s1 with intake.activity := .sweeping next }
      | none => { s1 with intake.activity := .idle, intake.sweepTimer := s.sweepPeriod }
    else { s with intake.activity := .idle }
  | .idle | .taking _ | .nullTake _ => s

/-- The transaction is a sweep read. -/
def Purpose.isSweep : Purpose → Bool
  | .sweep _ => true
  | .config _ | .takeBlock0 _ | .takeBlock _ _ | .nullTake _ | .source _ | .stateWord _ | .destination | .resultArea _
  | .doneWord _ => false

/-- SWEEP_READ_DONE (R69). -/
def execSweepReadDone (host : HostWrites) (s : State) : Host.Outcome State Fault Refusal :=
  .next (s.respondOk Purpose.isSweep host fun t s1 => s1.sweepRead (s1.dataOf t))

/-- Intake presents its TAKEN entry once the checks are complete and the counter's value is no outstanding ticket (R74,
R75; log entry 10). -/
def State.presentTaken (s : State) : State :=
  match s.intake.activity with
  | .taking ⟨_, _, _, _, _, .judged _⟩ | .nullTake ⟨_, _, _, _, _, .judged _⟩ =>
    if s.dispatcher.outstanding.contains s.intake.takeCounter then s else s.present .intake
  | .taking ⟨_, _, _, _, _, .block0⟩ | .taking ⟨_, _, _, _, _, .further _ _⟩ | .taking ⟨_, _, _, _, _, .handing _ _⟩
  | .nullTake ⟨_, _, _, _, _, .block0⟩ | .nullTake ⟨_, _, _, _, _, .further _ _⟩ | .nullTake ⟨_, _, _, _, _, .handing _ _⟩
  | .idle | .sweeping _ => s

/-- A stale slot is dropped and reported with the source of its entry (R72). -/
def State.dropStale (s : State) (item : IntakeItem) : State :=
  { s with intake.activity := .idle }.report (.stalePost item.slot item.source)

/-- The checks of a take are complete, with what they found (R73). -/
def State.judge (s : State) (item : IntakeItem) (record : Memory) (verdict : Verdict) : State :=
  { s with intake.activity := .taking { item with record := record, phase := .judged verdict } }

/-- The first read of a take: stale, rejected on block 0, or on to the further blocks (R72, R73). -/
def State.takeRead0 (s : State) (data : List Byte) : State :=
  match s.intake.activity with
  | .taking item =>
    let record := Memory.writeBytes [] 0 data
    if recordState record ≠ postedCode then s.dropStale item
    else
      match rejectHeader record with
      | some reason => (s.judge item record (.rejected reason none)).presentTaken
      | none =>
        match neededBlocks (recordOperands record) (recordSteps record) with
        | block :: later =>
          { s with intake.activity := .taking { item with record := record, phase := .further block later } }
        | [] => (s.judge item record (judgeRecord record)).presentTaken
  | .idle | .sweeping _ | .nullTake _ => s

/-- The transaction is the first read of a take. -/
def Purpose.isTakeBlock0 : Purpose → Bool
  | .takeBlock0 _ => true
  | .config _ | .sweep _ | .takeBlock _ _ | .nullTake _ | .source _ | .stateWord _ | .destination | .resultArea _
  | .doneWord _ => false

/-- TAKE_BLOCK0_READ_DONE (R72). -/
def execTakeBlock0ReadDone (host : HostWrites) (s : State) : Host.Outcome State Fault Refusal :=
  .next (s.respondOk Purpose.isTakeBlock0 host fun t s1 => s1.takeRead0 (s1.dataOf t))

/-- A further read of a take; after the last needed block the record is judged (R73). -/
def State.takeRead (s : State) (data : List Byte) : State :=
  match s.intake.activity with
  | .taking item =>
    match item.phase with
    | .further block later =>
      let record := Memory.writeBytes item.record (Config.blockBytes * block) data
      match later with
      | next :: rest =>
        { s with intake.activity := .taking { item with record := record, phase := .further next rest } }
      | [] => (s.judge item record (judgeRecord record)).presentTaken
    | .block0 | .judged _ | .handing _ _ => s
  | .idle | .sweeping _ | .nullTake _ => s

/-- The transaction is a further read of a take. -/
def Purpose.isTakeBlock : Purpose → Bool
  | .takeBlock _ _ => true
  | .config _ | .sweep _ | .takeBlock0 _ | .nullTake _ | .source _ | .stateWord _ | .destination | .resultArea _
  | .doneWord _ => false

/-- TAKE_BLOCK_READ_DONE (R73). -/
def execTakeBlockReadDone (host : HostWrites) (s : State) : Host.Outcome State Fault Refusal :=
  .next (s.respondOk Purpose.isTakeBlock host fun t s1 => s1.takeRead (s1.dataOf t))

/-- The read of a null take: stale, or on to the TAKEN entry with nothing further examined (R79). -/
def State.nullTakeRead (s : State) (data : List Byte) : State :=
  match s.intake.activity with
  | .nullTake item =>
    let record := Memory.writeBytes [] 0 data
    if recordState record ≠ postedCode then s.dropStale item
    else
      { s with intake.activity := .nullTake { item with record := record, phase := .judged .nullTake } }.presentTaken
  | .idle | .sweeping _ | .taking _ => s

/-- The transaction is the read of a null take. -/
def Purpose.isNullTake : Purpose → Bool
  | .nullTake _ => true
  | .config _ | .sweep _ | .takeBlock0 _ | .takeBlock _ _ | .source _ | .stateWord _ | .destination | .resultArea _
  | .doneWord _ => false

/-- NULL_TAKE_READ_DONE (R79). -/
def execNullTakeReadDone (host : HostWrites) (s : State) : Host.Outcome State Fault Refusal :=
  .next (s.respondOk Purpose.isNullTake host fun t s1 => s1.nullTakeRead (s1.dataOf t))

/-- The transaction is a read of Intake's. -/
def Purpose.isIntake (p : Purpose) : Bool := p.isSweep || p.isTakeBlock0 || p.isTakeBlock || p.isNullTake

/-- INTAKE_BUS_ERROR (R77). -/
def execIntakeBusError (s : State) : Host.Outcome State Fault Refusal :=
  .next (s.respondFail Purpose.isIntake .error)

/-! ### Fetchers -/

/-- A read of a fetcher: the next read is requested, or the computation begins after the last (R110, R112). -/
def State.fetchRead (s : State) (u : UnitId) (data : List Byte) : State :=
  match (s.unit u).activity with
  | .iterating job step done (.fetching (r :: rs) got) =>
    let got1 := addRead got r.index data
    match rs, job.image.steps[step]? with
    | [], some st => s.computed u job step done st (computeStep st (sourceValue (s.unit u).cells got1 none))
    | [], none => s
    | r2 :: rest, _ =>
      s.setUnit u { s.unit u with activity := .iterating job step done (.fetching (r2 :: rest) got1) }
  | .iterating _ _ _ (.fetching [] _) | .iterating _ _ _ (.issuing _) | .idle | .ending _ => s

/-- The data of an iteration abandoned while its read was in flight are discarded (R118). -/
def State.fetchEnded (s : State) (t : Transaction) : State :=
  match t.purpose with
  | .source u => if t.abandoned then s else s.fetchRead u (s.dataOf t)
  | .config _ | .sweep _ | .takeBlock0 _ | .takeBlock _ _ | .nullTake _ | .stateWord _ | .destination | .resultArea _
  | .doneWord _ => s

/-- The transaction is a read of a fetcher's. -/
def Purpose.isSource : Purpose → Bool
  | .source _ => true
  | .config _ | .sweep _ | .takeBlock0 _ | .takeBlock _ _ | .nullTake _ | .stateWord _ | .destination | .resultArea _
  | .doneWord _ => false

/-- FETCH_READ_DONE (R110). The port that the read's end frees is granted after all that the end leads to within this
command (the next read, an issue without entries and the next iteration's reads: log entry 28). The entries of an issue
that join at that moment count before the grant (R112, R138, R134), which ITERATION_ISSUE makes then (log entry 30). -/
def execFetchReadDone (host : HostWrites) (s : State) : Host.Outcome State Fault Refusal :=
  .next (s.respondOk Purpose.isSource host fun t s1 => s1.fetchEnded t)

/-- FETCH_BUS_ERROR (R111). -/
def execFetchBusError (s : State) : Host.Outcome State Fault Refusal :=
  .next (s.respondFail Purpose.isSource .error)

end Sys2Proof.Machine
end

