-- ==== Sys2Proof/Machine/WriteEnds.lean ====
section
/-! DEFINITION. The ends of writes: state word, destination, result area and DONE (R140 to R145). -/

namespace Sys2Proof.Machine

/-- The transaction writes a TAKEN state word. -/
def Purpose.isStateWord : Purpose → Bool
  | .stateWord _ => true
  | .config _ | .sweep _ | .takeBlock0 _ | .takeBlock _ _ | .nullTake _ | .source _ | .destination | .resultArea _
  | .doneWord _ => false

/-- The transaction writes a destination entry. -/
def Purpose.isDestination : Purpose → Bool
  | .destination => true
  | .config _ | .sweep _ | .takeBlock0 _ | .takeBlock _ _ | .nullTake _ | .source _ | .stateWord _ | .resultArea _
  | .doneWord _ => false

/-- The transaction writes a result area. -/
def Purpose.isResultArea : Purpose → Bool
  | .resultArea _ => true
  | .config _ | .sweep _ | .takeBlock0 _ | .takeBlock _ _ | .nullTake _ | .source _ | .stateWord _ | .destination
  | .doneWord _ => false

/-- The transaction writes a DONE state word. -/
def Purpose.isDoneWord : Purpose → Bool
  | .doneWord _ => true
  | .config _ | .sweep _ | .takeBlock0 _ | .takeBlock _ _ | .nullTake _ | .source _ | .stateWord _ | .destination
  | .resultArea _ => false

/-- A STATE entry written leaves the buffer (R140). -/
def State.stateWritten (s : State) : State :=
  match s.writer.buffer with
  | .state .. :: rest => { s with writer.buffer := rest }
  | .destination .. :: _ | .completion .. :: _ | [] => s

/-- STATE_WRITE_DONE (R140). -/
def execStateWriteDone (s : State) : Host.Outcome State Fault Refusal :=
  .next (s.respondOk Purpose.isStateWord [] fun _ s1 => s1.stateWritten)

/-- A DESTINATION entry written: the ticket's count rises by one and the entry leaves the buffer (R141). -/
def State.destinationWritten (s : State) : State :=
  match s.writer.buffer with
  | .destination t _ _ _ :: rest =>
    let w := s.writer.updateRecord t fun r => { r with count := r.count + 1 }
    { s with writer := { w with buffer := rest } }
  | .state .. :: _ | .completion .. :: _ | [] => s

/-- DESTINATION_WRITE_DONE (R141). -/
def execDestinationWriteDone (s : State) : Host.Outcome State Fault Refusal :=
  .next (s.respondOk Purpose.isDestination [] fun _ s1 => s1.destinationWritten)

/-- DESTINATION_WRITE_FAIL (R142). -/
def execDestinationWriteFail (s : State) : Host.Outcome State Fault Refusal :=
  .next (s.respondFail Purpose.isDestination .error)

/-- The result area of the head COMPLETION entry is in memory, and its DONE write is due (R144). -/
def State.areaWritten (s : State) : State :=
  match s.writer.buffer with
  | .completion item _ :: rest => { s with writer.buffer := .completion item true :: rest }
  | .state .. :: _ | .destination .. :: _ | [] => s

/-- RESULT_AREA_WRITE_DONE (R144). -/
def execResultAreaWriteDone (s : State) : Host.Outcome State Fault Refusal :=
  .next (s.respondOk Purpose.isResultArea [] fun _ s1 => s1.areaWritten)

/-- The DONE word is in memory: entry and record removed, ticket released, slot appended to the harvest queue (R144). -/
def State.jobDone (s : State) : State :=
  match s.writer.buffer with
  | .completion item _ :: rest =>
    let status := s.writer.writtenStatus item
    let d := s.dispatcher.settleFreed
    { s with
      writer.buffer := rest
      writer.table := s.writer.table.filter fun r => r.ticket ≠ item.ticket
      dispatcher := { d with outstanding := d.outstanding.erase item.ticket }
      notifier := s.notifier.append ⟨item.slot, status, item.tag⟩ }.presentTaken
  | .state .. :: _ | .destination .. :: _ | [] => s

/-- DONE_WRITE_DONE (R144). -/
def execDoneWriteDone (s : State) : Host.Outcome State Fault Refusal :=
  .next (s.respondOk Purpose.isDoneWord [] fun _ s1 => s1.jobDone)

/-- The transaction is a state-word or result-area write, whose failure is fatal (R145). -/
def Purpose.isFatalWrite (p : Purpose) : Bool := p.isStateWord || p.isResultArea || p.isDoneWord

/-- WRITER_FATAL_BUS (R145). -/
def execWriterFatalBus (s : State) : Host.Outcome State Fault Refusal :=
  .next (s.respondFail Purpose.isFatalWrite .error)

end Sys2Proof.Machine
end

