-- ==== Sys2Proof/Machine/IntakeActs.lean ====
section
/-! DEFINITION. Intake's acts: the begin of a sweep, a take and a null take, the TAKEN entry and the completion item (R67 to
R80). -/

namespace Sys2Proof.Machine

/-- An abort marker stands at the head of the urgent list (R67). -/
def Intake.markerAtHead (i : Intake) : Bool :=
  match i.urgent with
  | e :: _ => e.source = .abort
  | [] => false

/-- A sweep may begin (R67, R68). -/
def State.sweepMayBegin (s : State) : Bool :=
  s.acts && s.intake.activity = .idle && s.intake.sweepDue && s.control.state = .running

/-- SWEEP_BEGIN (R68). -/
def execSweepBegin (s : State) : Host.Outcome State Fault Refusal :=
  .next (
    if s.sweepMayBegin then { s with intake.activity := .sweeping 0, intake.sweepDue := false }.arbitrate else s)

/-- A take may begin (R67, R71). -/
def State.takeMayBegin (s : State) : Bool :=
  s.acts && s.intake.activity = .idle && !s.intake.sweepDue && s.control.state = .running && s.dispatcher.staged.isNone &&
  !s.intake.markerAtHead && !(s.intake.urgent.isEmpty && s.intake.normal.isEmpty)

/-- The intake item of an entry, with nothing read yet (R71). -/
def IntakeItem.ofEntry (e : PendingEntry) : IntakeItem := ⟨e.slot, e.priority, e.source, false, [], .block0⟩

/-- The head entry of the urgent list, else of the normal list, becomes the intake item (R71). -/
def Intake.beginTake (i : Intake) : Intake :=
  match i.urgent, i.normal with
  | e :: rest, _ => { i with urgent := rest, activity := .taking (.ofEntry e) }
  | [], e :: rest => { i with normal := rest, activity := .taking (.ofEntry e) }
  | [], [] => i

/-- TAKE_BEGIN (R71). -/
def execTakeBegin (s : State) : Host.Outcome State Fault Refusal :=
  .next (if s.takeMayBegin then { s with intake := s.intake.beginTake }.arbitrate else s)

/-- A null take may begin: RUNNING or DRAINING, and no free staging place is needed (R67, R79). -/
def State.nullTakeMayBegin (s : State) : Bool :=
  s.acts && s.intake.activity = .idle && !s.intake.sweepDue &&
  (s.control.state = .running || s.control.state = .draining) && s.intake.markerAtHead

/-- The marker at the head of the urgent list becomes the intake item (R79). -/
def Intake.beginNullTake (i : Intake) : Intake :=
  match i.urgent with
  | e :: rest => { i with urgent := rest, activity := .nullTake (.ofEntry e) }
  | [] => i

/-- NULL_TAKE_BEGIN (R79). -/
def execNullTakeBegin (s : State) : Host.Outcome State Fault Refusal :=
  .next (if s.nullTakeMayBegin then { s with intake := s.intake.beginNullTake }.arbitrate else s)

/-- The same activity with its item in another phase. -/
def IntakeActivity.inPhase (a : IntakeActivity) (phase : TakePhase) : IntakeActivity :=
  match a with
  | .idle => .idle
  | .sweeping next => .sweeping next
  | .taking item => .taking { item with phase := phase }
  | .nullTake item => .nullTake { item with phase := phase }

/-- One act: ticket assigned and counter advanced, ticket outstanding, ticket record made, TAKEN entry appended (R74, R75,
R87, R139). -/
def State.assignTicket (s : State) (item : IntakeItem) : State :=
  let t := s.intake.takeCounter
  let s1 := s.append .intake [.state t item.slot item.priority (recordTag item.record)]
  { s1 with
    intake.takeCounter := t + 1#32
    dispatcher.outstanding := s1.dispatcher.outstanding ++ [t]
    writer.table := s1.writer.table ++ [⟨t, 0, none⟩] }

/-- A valid job that has not been aborted is staged (R76). -/
def State.stage (s : State) (item : IntakeItem) (ticket : Ticket) (image : JobImage) : State :=
  let d := s.dispatcher.settleFreed
  { s with
    intake.activity := .idle
    dispatcher := { d with
      staged := some ⟨⟨ticket, item.slot, recordTag item.record, item.priority, image⟩, false⟩ } }

/-- The hand-over that follows the TAKEN entry: staging, or a completion item to append (R76). -/
def State.handOver (s : State) (item : IntakeItem) (ticket : Ticket) (verdict : Verdict) : State :=
  match verdict, item.aborted with
  | .valid image, false => s.stage item ticket image
  | .valid _, true | .rejected _ _, _ | .nullTake, _ =>
    { s with intake.activity := s.intake.activity.inPhase (.handing ticket verdict) }.present .intake

/-- TAKEN_ENTRY_APPEND (R74, R75, R76); Intake waits while the buffer has no room for it or the ticket is not free. -/
def execTakenEntryAppend (s : State) : Host.Outcome State Fault Refusal :=
  .next (
    match s.intake.judged? with
    | none => s
    | some (item, verdict) =>
      if s.admits .intake 1 && !s.dispatcher.outstanding.contains s.intake.takeCounter then
        ((s.assignTicket item).handOver item s.intake.takeCounter verdict).appended .intake
      else s)

/-- The end of an item that is not staged: REJECTED, or ABORTED when it was marked aborted or is a null take (R57, R76,
R80). -/
def handedEnd (aborted : Bool) (verdict : Verdict) : JobEnd :=
  match verdict with
  | .rejected reason index => if aborted then .aborted else .rejected reason index
  | .valid _ | .nullTake => .aborted

/-- INTAKE_COMPLETION_APPEND (R76); Intake waits while the buffer has no room for it. -/
def execIntakeCompletionAppend (s : State) : Host.Outcome State Fault Refusal :=
  .next (
    match s.intake.handing? with
    | none => s
    | some (item, t, verdict) =>
      if s.admits .intake 1 then
        let entry : CompletionItem :=
          ⟨t, item.slot, recordTag item.record, item.priority, .unrun (handedEnd item.aborted verdict)⟩
        { s.append .intake [.completion entry false] with intake.activity := .idle }.appended .intake
      else s)

end Sys2Proof.Machine
end

