-- ==== Sys2Proof/Machine/DispatcherActs.lean ====
section
/-! DEFINITION. The Dispatcher's acts: starts, resumptions, park requests and its completion items (R89 to R98). -/

namespace Sys2Proof.Machine

/-- Assignments are made in RUNNING and DRAINING (R89, R90). -/
def State.assigns (s : State) : Bool :=
  s.acts && (s.control.state = .running || s.control.state = .draining)

/-- The idle unit that is served next: the freed units in the order in which they became free (R90), else Unit 0 before
Unit 1 (R89). -/
def State.servedUnit (s : State) : Option UnitId :=
  ((s.dispatcher.settleFreed.freed ++ [UnitId.unit0, UnitId.unit1]).filter fun u => (s.unit u).isIdle).head?

/-- A job begins in a unit with the position, cells and outcomes given; the unit's mark is clear (R104). -/
def State.occupy (s : State) (u : UnitId) (job : Job) (step done : Nat) (cells : Cells) (seen : OutcomeSet)
    (last : Option IterOutcome) : State :=
  let c := { s.unit u with parkMark := false, cells := cells, seen := seen, last := last }
  ({ s with dispatcher.freed := s.dispatcher.freed.erase u }.setUnit u c).beginIteration u job step done

/-- The staged job that may start now: eligible, and not a NORMAL one while a parked job waits (R89, R90). -/
def State.startable (s : State) : Option Job :=
  if s.assigns && s.dispatcher.eligible && (s.dispatcher.urgentReady || s.dispatcher.nextParked.isNone) then
    s.dispatcher.staged.map (·.job)
  else none

/-- JOB_START (R89): step 0, iteration 0, cells zero, outcome-seen set empty, no last outcome. -/
def execJobStart (s : State) : Host.Outcome State Fault Refusal :=
  .next (
    match s.startable, s.servedUnit with
    | some job, some u =>
      (({ s with dispatcher.staged := none }.occupy u job 0 0 .zero .empty none)).arbitrate
    | some _, none | none, _ => s)

/-- The parked job that may resume now: no eligible URGENT job is staged (R90, R91). -/
def State.resumable (s : State) : Option ParkedJob :=
  if s.assigns && !s.dispatcher.urgentReady then s.dispatcher.nextParked else none

/-- JOB_RESUME (R91): the whole context goes to the unit. -/
def execJobResume (s : State) : Host.Outcome State Fault Refusal :=
  .next (
    match s.resumable, s.servedUnit with
    | some p, some u =>
      ({ s with dispatcher.parked := s.dispatcher.parked.erase p }.occupy u p.job p.step p.done p.cells p.seen
        p.last).arbitrate
    | some _, none | none, _ => s)

/-- The unit running a NORMAL job, and of two the one whose job has the later ticket (R92). -/
def State.unitToPark (s : State) : Option (UnitId × Ticket) :=
  match s.unit0.runs?, s.unit1.runs? with
  | some (t0, .normal), some (t1, .normal) =>
    if s.dispatcher.earlier t0 t1 then some (.unit1, t1) else some (.unit0, t0)
  | some (t0, .normal), some (_, .urgent) => some (.unit0, t0)
  | some (_, .urgent), some (t1, .normal) => some (.unit1, t1)
  | some (_, .urgent), some (_, .urgent) => none
  | none, _ => none
  | some _, none => none

/-- The conditions of a park request, with the unit and ticket it names; no unit is idle (R92). -/
def State.parkTarget (s : State) : Option (UnitId × Ticket) :=
  if s.assigns && s.dispatcher.urgentReady && s.dispatcher.parkRequest.isNone &&
      s.dispatcher.parked.length < Config.parkPlaces then s.unitToPark
  else none

/-- The request reaches its unit: the park mark is set in ITERATING with that ticket, else the request lapses (R117). -/
def CalcUnit.requestPark (c : CalcUnit) (ticket : Ticket) : CalcUnit :=
  match c.activity with
  | .iterating job _ _ _ => if job.ticket = ticket ∧ job.priority = .normal then { c with parkMark := true } else c
  | .idle | .ending _ => c

/-- PARK_REQUEST (R92, R117). -/
def execParkRequest (s : State) : Host.Outcome State Fault Refusal :=
  .next (
    match s.parkTarget with
    | none => s
    | some (u, t) => { s with dispatcher.parkRequest := some (u, t) }.setUnit u ((s.unit u).requestPark t))

/-- The staged job leaves when its completion item is appended (R96). -/
def leaveStaging (ticket : Ticket) (staged : Option StagedJob) : Option StagedJob :=
  staged.filter fun st => !(st.ending && st.job.ticket = ticket)

/-- A context leaves when its completion item is appended (R97, R98). -/
def leavePark (ticket : Ticket) (parked : List ParkedJob) : List ParkedJob :=
  parked.filter fun p => !(p.ending && p.job.ticket = ticket)

/-- DISPATCHER_COMPLETION_APPEND (R96, R97, R98): one item, its job leaves its place, and the next item is presented. -/
def execDispatcherCompletionAppend (s : State) : Host.Outcome State Fault Refusal :=
  .next (
    match s.dispatcher.items with
    | [] => s
    | item :: rest =>
      if s.admits .dispatcher 1 then
        let s1 := s.append .dispatcher [.completion item false]
        let s2 := { s1 with
          dispatcher.items := rest
          dispatcher.staged := leaveStaging item.ticket s1.dispatcher.staged
          dispatcher.parked := leavePark item.ticket s1.dispatcher.parked }
        (if rest.isEmpty then s2 else s2.present .dispatcher).appended .dispatcher
      else s)

end Sys2Proof.Machine
end

