-- ==== Sys2Proof/Machine/UnitActs.lean ====
section
/-! DEFINITION. The units' acts: the issue of an iteration, the completion item of an ended job, the arrival of the
Control Port's abort (R112 to R121). -/

namespace Sys2Proof.Machine

/-- The issue may be made: no entry is needed, or the unit is the earliest waiter and its entries fit (R112, R138). -/
def State.mayIssue (s : State) (u : UnitId) (r : IterResult) : Bool :=
  s.acts && (r.writes.isEmpty || s.admits (.unit u) r.writes.length)

/-- ITERATION_ISSUE (R112); the unit waits while the writer buffer lacks room for its entries. The free port is granted by
the occupancy with these entries (R134), whatever the next iteration has to append. The issue makes the Writer wait and
begins the next iteration's fetch in one act; the spec gives the two no order, and the port is granted once, at the
command's end, among both (log entry 28). -/
def execIterationIssue (u : UnitId) (s : State) : Host.Outcome State Fault Refusal :=
  .next (
    match (s.unit u).activity with
    | .iterating job step done (.issuing r) =>
      match job.image.steps[step]? with
      | some st => if s.mayIssue u r then (s.issue u job step done st r).appended (.unit u) else s
      | none => s
    | .iterating _ _ _ (.fetching _ _) | .idle | .ending _ => s)

/-- UNIT_COMPLETION_APPEND (R116): the COMPLETION entry enters the buffer and the unit becomes free. -/
def execUnitCompletionAppend (u : UnitId) (s : State) : Host.Outcome State Fault Refusal :=
  .next (
    match (s.unit u).activity with
    | .ending item =>
      if s.admits (.unit u) 1 then
        let s1 := s.append (.unit u) [.completion item false]
        let s2 := s1.setUnit u { s1.unit u with activity := .idle }
        { s2 with dispatcher := s2.dispatcher.unitFreed u }.appended (.unit u)
      else s
    | .iterating _ _ _ _ | .idle => s)

/-- UNIT_ABORT_ARRIVAL (R118, R120, R121): the abort sent on entering ABORTING reaches the unit. -/
def execUnitAbortArrival (u : UnitId) (s : State) : Host.Outcome State Fault Refusal :=
  .next (
    if s.acts && (s.unit u).abortDue then
      (s.setUnit u { s.unit u with abortDue := false }).abortUnit u
    else s)

end Sys2Proof.Machine
end

