-- ==== Sys2Proof/Machine/Dispatch.lean ====
section
/-! DEFINITION. exec: one arm per command, each a direct call of its meaning. -/

namespace Sys2Proof.Machine

/-- The effect of a command on everything but the queue. -/
def exec (i : Instr) (s : State) : Host.Outcome State Fault Refusal :=
  match i with
  | .start => Sys2Proof.Machine.execStart s
  | .stop => Sys2Proof.Machine.execStop s
  | .abortAll => Sys2Proof.Machine.execAbortAll s
  | .abortSlot slot => Sys2Proof.Machine.execAbortSlot slot s
  | .clearFault => Sys2Proof.Machine.execClearFault s
  | .reset => Sys2Proof.Machine.execReset s
  | .unnamedCommandCode code => Sys2Proof.Machine.execUnnamedCommandCode code s
  | .postArrival slot priority => Sys2Proof.Machine.execPostArrival slot priority s
  | .harvestRead lanes => Sys2Proof.Machine.execHarvestRead lanes s
  | .clearFinish => Sys2Proof.Machine.execClearFinish s
  | .clearStoppedFlag => Sys2Proof.Machine.execClearStoppedFlag s
  | .clearHaltedFlag => Sys2Proof.Machine.execClearHaltedFlag s
  | .clearFaultFlag => Sys2Proof.Machine.execClearFaultFlag s
  | .interruptEnableWrite value => Sys2Proof.Machine.execInterruptEnableWrite value s
  | .configAddressWrite value => Sys2Proof.Machine.execConfigAddressWrite value s
  | .ignoredRegisterWrite register lanes value => Sys2Proof.Machine.execIgnoredRegisterWrite register lanes value s
  | .lineReset => Sys2Proof.Machine.execLineReset s
  | .rstRelease => Sys2Proof.Machine.execRstRelease s
  | .commandResetComplete => Sys2Proof.Machine.execCommandResetComplete s
  | .sweepTimerExpiry => Sys2Proof.Machine.execSweepTimerExpiry s
  | .holdoffExpiry => Sys2Proof.Machine.execHoldoffExpiry s
  | .responseTimeout => Sys2Proof.Machine.execResponseTimeout s
  | .lateResponse => Sys2Proof.Machine.execLateResponse s
  | .loaderReadDone host => Sys2Proof.Machine.execLoaderReadDone host s
  | .configReadBusError => Sys2Proof.Machine.execConfigReadBusError s
  | .sweepReadDone host => Sys2Proof.Machine.execSweepReadDone host s
  | .takeBlock0ReadDone host => Sys2Proof.Machine.execTakeBlock0ReadDone host s
  | .takeBlockReadDone host => Sys2Proof.Machine.execTakeBlockReadDone host s
  | .nullTakeReadDone host => Sys2Proof.Machine.execNullTakeReadDone host s
  | .intakeBusError => Sys2Proof.Machine.execIntakeBusError s
  | .fetchReadDone host => Sys2Proof.Machine.execFetchReadDone host s
  | .fetchBusError => Sys2Proof.Machine.execFetchBusError s
  | .stateWriteDone => Sys2Proof.Machine.execStateWriteDone s
  | .destinationWriteDone => Sys2Proof.Machine.execDestinationWriteDone s
  | .destinationWriteFail => Sys2Proof.Machine.execDestinationWriteFail s
  | .resultAreaWriteDone => Sys2Proof.Machine.execResultAreaWriteDone s
  | .doneWriteDone => Sys2Proof.Machine.execDoneWriteDone s
  | .writerFatalBus => Sys2Proof.Machine.execWriterFatalBus s
  | .sweepBegin => Sys2Proof.Machine.execSweepBegin s
  | .takeBegin => Sys2Proof.Machine.execTakeBegin s
  | .nullTakeBegin => Sys2Proof.Machine.execNullTakeBegin s
  | .takenEntryAppend => Sys2Proof.Machine.execTakenEntryAppend s
  | .intakeCompletionAppend => Sys2Proof.Machine.execIntakeCompletionAppend s
  | .jobStart => Sys2Proof.Machine.execJobStart s
  | .jobResume => Sys2Proof.Machine.execJobResume s
  | .parkRequest => Sys2Proof.Machine.execParkRequest s
  | .dispatcherCompletionAppend => Sys2Proof.Machine.execDispatcherCompletionAppend s
  | .iterationIssue u => Sys2Proof.Machine.execIterationIssue u s
  | .unitCompletionAppend u => Sys2Proof.Machine.execUnitCompletionAppend u s
  | .unitAbortArrival u => Sys2Proof.Machine.execUnitAbortArrival u s
  | .enterStopped => Sys2Proof.Machine.execEnterStopped s

end Sys2Proof.Machine
end

