-- ==== Sys2Proof/Safety.lean ====
section
/-! DEFINITION. The words the statements use: values as rationals, the commands of CONTROL, what the registers read as
after a reset, and the invariants. -/

namespace Sys2Proof.Machine

/-! ### Values -/

/-- The number a decimal stands for: coefficient × 10^(−scale) (R1). -/
def Decimal.value (v : Decimal) : ℚ := (v.coef : ℚ) / 10 ^ v.scale

/-- x rounded to a whole number, as the number line column of R24's table says for each mode. -/
def Rounding.isWholeNear (mode : Rounding) (x : ℚ) (k : Int) : Prop :=
  match mode with
  | .truncate => if 0 ≤ x then k = ⌊x⌋ else k = ⌈x⌉
  | .halfUp => if 0 ≤ x then k = ⌊x + 1 / 2⌋ else k = ⌈x - 1 / 2⌉
  | .halfEven => |x - k| ≤ 1 / 2 ∧ (|x - k| = 1 / 2 → Even k)
  | .ceiling => k = ⌈x⌉
  | .floor => k = ⌊x⌋

/-- The sign class of a number. -/
def classOf (x : ℚ) : SignClass := if x < 0 then .negative else if x = 0 then .zero else .positive

/-! ### Commands of CONTROL (R169) -/

/-- A write to CONTROL: one of the six commands, or a code that names none. -/
def isCommand : Instr → Bool
  | .start | .stop | .abortAll | .abortSlot _ | .clearFault | .reset | .unnamedCommandCode _ => true
  | .postArrival _ _ | .harvestRead _ | .clearFinish | .clearStoppedFlag | .clearHaltedFlag | .clearFaultFlag
  | .interruptEnableWrite _ | .configAddressWrite _ | .ignoredRegisterWrite _ _ _ | .lineReset | .rstRelease
  | .commandResetComplete | .sweepTimerExpiry | .holdoffExpiry | .responseTimeout | .lateResponse | .loaderReadDone _
  | .configReadBusError | .sweepReadDone _ | .takeBlock0ReadDone _ | .takeBlockReadDone _ | .nullTakeReadDone _
  | .intakeBusError | .fetchReadDone _ | .fetchBusError | .stateWriteDone | .destinationWriteDone
  | .destinationWriteFail | .resultAreaWriteDone | .doneWriteDone | .writerFatalBus | .sweepBegin | .takeBegin
  | .nullTakeBegin | .takenEntryAppend | .intakeCompletionAppend | .jobStart | .jobResume | .parkRequest
  | .dispatcherCompletionAppend | .iterationIssue _ | .unitCompletionAppend _ | .unitAbortArrival _
  | .enterStopped => false

/-! ### After a reset (R181) -/

/-- The register reads of R181, with the given CONFIG ADDRESS. -/
def State.readsAsReset (s : State) (configAddress : Word) : Prop :=
  s.readRegister .ident = 0x0C244021#32 ∧ s.readRegister .control = 0#32 ∧
  s.readRegister .configAddress = configAddress ∧ s.readRegister .post = 0#32 ∧ s.readRegister .harvest = 0#32 ∧
  s.readRegister .status = 0#32 ∧ s.readRegister .fault = 0#32 ∧ s.readRegister .interruptEnable = 0#32

/-! ### Memory after a failure (R131) -/

/-- What memory may be after the transaction failed, timed out or was abandoned: as before for a read; for a write no byte
outside its own changes, and each of its own is as before or as written. -/
def Transaction.mayLeave (tr : Transaction) (before after : Memory) : Prop :=
  match tr.transfer with
  | .read _ => after = before
  | .write bytes =>
    (∀ a, a < tr.address ∨ tr.address + bytes.length ≤ a → Memory.read after a = Memory.read before a) ∧
    (Memory.wf before → ∀ i, (h : i < bytes.length) →
      Memory.read after (tr.address + i) = Memory.read before (tr.address + i) ∨
      Memory.read after (tr.address + i) = bytes[i])

/-- Nibble k of some bytes, the high nibble of each byte first (11.6). -/
def nibbleAt (bytes : List Byte) (k : Nat) : Nat :=
  let b := (bytes.getD (k / 2) 0).toNat
  if k % 2 = 0 then b / 16 else b % 16

/-! ### Invariants -/

/-- Memory is in canonical form (log entry 4). -/
def State.memoryCanonical (s : State) : Prop := Memory.wf s.memory

/-- The writer buffer holds at most 8 entries (R137). -/
def State.bufferFits (s : State) : Prop := s.writer.buffer.length ≤ 8

/-- FINISH is set whenever the harvest queue holds T or more entries (R158). -/
def State.finishFollows (s : State) : Prop :=
  s.notifier.threshold ≤ s.notifier.harvest.length → s.notifier.flags.finish = true

/-- No two outstanding jobs share a ticket (R74). -/
def State.ticketsDistinct (s : State) : Prop := s.dispatcher.outstanding.Nodup

/-- No marker on the normal list, and every ordinary entry on the list of its priority (R63). -/
def State.listsOrdered (s : State) : Prop :=
  (∀ e ∈ s.intake.normal, e.source ≠ .abort ∧ e.priority = .normal) ∧
  ∀ e ∈ s.intake.urgent, e.source ≠ .abort → e.priority = .urgent

/-- No slot has two entries or markers on the pending lists (R63, R65, R78). -/
def State.pendingDistinct (s : State) : Prop := s.intake.pendingSlots.Nodup

/-- MORE is set only in a filled record (R177). -/
def State.moreNeedsRecord (s : State) : Prop := s.control.more = true → s.control.faultRecord.isSome = true

/-- The park buffer holds at most two jobs, all NORMAL, with room for the one that a mark will park (R92, R95, R117). -/
def State.parkBounded (s : State) : Prop :=
  s.dispatcher.parked.length ≤ 2 ∧ (∀ p ∈ s.dispatcher.parked, p.job.priority = .normal) ∧
  (s.dispatcher.parkRequest.isSome = true → s.dispatcher.parked.length ≤ 1) ∧
  ∀ u, (s.unit u).parkMark = true →
    (∃ job step done phase, (s.unit u).activity = .iterating job step done phase ∧ job.priority = .normal) ∧
    ∃ ticket, s.dispatcher.parkRequest = some (u, ticket)

end Sys2Proof.Machine
end

