-- ==== Sys2Proof/Certificates/Slice0/Obligations.lean ====
section
/-! DEFINITION. The statements for the provers. Where an event ends with State.arbitrate, State.portFreed or State.appended,
that is the grant of the free port, which PortArbiter states. -/

open Sys2Proof Sys2Proof.Machine

/-! ### The queue and the resets -/

/-- A step takes the command at the front of the queue and is exec of it on the rest; an empty queue idles. -/
def Obligations.StepRunsTheFrontCommand : Prop :=
  (∀ (c : Instr) (rest : List Instr) (s : State),
    step { s with pending := c :: rest } = exec c { s with pending := rest }) ∧
  ∀ s : State, s.pending = [] → step s = .next s

/-- Every command answers a next state, and leaves the queue's rest alone. -/
def Obligations.EveryCommandAnswersNext : Prop :=
  ∀ (c : Instr) (s : State), ∃ t, exec c s = .next t ∧ t.pending = s.pending

/-- The state after reset, block by block, and the invariants hold there. -/
def Obligations.ResetStateAndInvariants : Prop :=
  (State.reset.control.state = .off ∧ State.reset.control.outcome = .none ∧ State.reset.control.config = none ∧
   State.reset.control.configAddress = 0#32 ∧ State.reset.control.faultRecord = none ∧
   State.reset.control.more = false ∧ State.reset.control.enables = ⟨false, false, false, false⟩ ∧
   State.reset.control.loader = none ∧ State.reset.control.resetWait = false ∧
   State.reset.intake = ⟨[], [], .idle, false, none, 0#32⟩ ∧
   State.reset.dispatcher.staged = none ∧ State.reset.dispatcher.parked = [] ∧
   State.reset.dispatcher.outstanding = [] ∧ State.reset.dispatcher.parkRequest = none ∧
   (∀ u, (State.reset.unit u).activity = .idle ∧ (State.reset.unit u).parkMark = false ∧
     (∀ i : Fin 8, (State.reset.unit u).cells[i] = ⟨0, 0⟩) ∧
     (State.reset.unit u).seen = ⟨false, false, false, false⟩ ∧ (State.reset.unit u).last = none) ∧
   State.reset.port.outstanding = none ∧ State.reset.port.lastFetch = none ∧
   State.reset.writer = ⟨[], [], [], []⟩ ∧
   State.reset.notifier = ⟨[], ⟨false, false, false, false⟩, none, 1, 0⟩ ∧ State.reset.intr = false) ∧
  (State.reset.memoryCanonical ∧ State.reset.bufferFits ∧ State.reset.finishFollows ∧ State.reset.ticketsDistinct ∧
   State.reset.listsOrdered ∧ State.reset.pendingDistinct ∧ State.reset.moreNeedsRecord ∧ State.reset.parkBounded)

/-- R181: what the registers read as after a line reset and after a command reset. -/
def Obligations.RegistersAfterReset : Prop :=
  ∀ s : State,
    (∃ t, exec .lineReset s = .next t ∧ t.readsAsReset 0#32) ∧
    (s.control.resetWait = true → s.port.outstanding = none →
      ∃ t, exec .commandResetComplete s = .next t ∧ t.readsAsReset s.control.configAddress)

/-- R179: a line reset gives every block its reset values at once, and an outstanding write may have reached memory; while
RST stays asserted no command, POST arrival or register write is taken, and its release lets them be taken again. -/
def Obligations.LineReset : Prop :=
  (∀ s : State, ∃ t, exec .lineReset s = .next t ∧
     t = { State.reset with pending := s.pending, control.rst := true, memory := t.memory, freeCount := t.freeCount } ∧
     (∀ a, (∀ tr bytes, s.port.outstanding = some tr → tr.transfer = .write bytes →
         ¬(tr.address ≤ a ∧ a < tr.address + bytes.length)) →
       Memory.read t.memory a = Memory.read s.memory a) ∧
     (Memory.wf s.memory → ∀ tr bytes i, s.port.outstanding = some tr → tr.transfer = .write bytes →
       (h : i < bytes.length) →
       Memory.read t.memory (tr.address + i) = Memory.read s.memory (tr.address + i) ∨
       Memory.read t.memory (tr.address + i) = bytes[i])) ∧
  ((∀ s : State, exec .rstRelease s = .next { s with control.rst := false }) ∧
   ∀ (s : State) (c : Instr), s.control.rst = true →
     (isCommand c = true ∨ (∃ n p, c = .postArrival n p) ∨ c = .clearFinish ∨ c = .clearStoppedFlag ∨
       c = .clearHaltedFlag ∨ c = .clearFaultFlag ∨ (∃ v, c = .interruptEnableWrite v) ∨
       ∃ v, c = .configAddressWrite v) →
     exec c s = .next s)

/-- R180: RESET is answered ACCEPTED, the units drop their jobs and the device waits; during the wait no CONTROL write and no
POST write is taken, no block acts, an outstanding transaction ends with its result discarded (stated of a timeout and of
a destination write; a write timed out changes its own bytes of memory at most), and then every block takes its reset values with CONFIG ADDRESS kept. -/
def Obligations.CommandReset : Prop :=
  (∀ s : State, s.control.rst = false → s.control.resetWait = false →
     exec .reset s = .next { s with
       control.outcome := .accepted, control.resetWait := true
       unit0 := { s.unit0 with activity := .idle, parkMark := false, abortDue := false }
       unit1 := { s.unit1 with activity := .idle, parkMark := false, abortDue := false }
       writer.waiters := [], writer.joining := [] }) ∧
  (∀ s : State, s.control.resetWait = true →
     (∀ c, isCommand c = true ∨ (∃ n p, c = .postArrival n p) ∨ c = .sweepBegin ∨ c = .takeBegin ∨ c = .nullTakeBegin ∨
         c = .takenEntryAppend ∨ c = .intakeCompletionAppend ∨ c = .jobStart ∨ c = .jobResume ∨ c = .parkRequest ∨
         c = .dispatcherCompletionAppend ∨ (∃ u, c = .iterationIssue u) ∨ (∃ u, c = .unitCompletionAppend u) ∨
         (∃ u, c = .unitAbortArrival u) ∨ c = .enterStopped →
       exec c s = .next s) ∧
     (∀ tr, s.port.outstanding = some tr →
       ∃ t, exec .responseTimeout s = .next t ∧
         t = { s with port.outstanding := none, memory := t.memory, freeCount := t.freeCount } ∧
         tr.mayLeave s.memory t.memory) ∧
     (∀ tr bytes, s.port.outstanding = some tr → tr.purpose = .destination → tr.transfer = .write bytes →
       exec .destinationWriteDone s =
         .next { s with port.outstanding := none, memory := Memory.writeBytes s.memory tr.address bytes }) ∧
     (s.port.outstanding = none →
       exec .commandResetComplete s = .next { State.reset with
         pending := s.pending, control.rst := s.control.rst, control.configAddress := s.control.configAddress
         memory := s.memory, freeCount := s.freeCount }) ∧
     ∀ tr, s.port.outstanding = some tr → exec .commandResetComplete s = .next s)

/-! ### Commands -/

/-- R169: where each command is accepted, what it answers, and that nothing else touches the outcome. -/
def Obligations.CommandsAcceptedByState : Prop :=
  (∀ s : State, s.control.rst = false → s.control.resetWait = false →
    (∀ c, ((c = .start ∧ s.control.state ≠ .off ∧ s.control.state ≠ .stopped) ∨
          (c = .stop ∧ s.control.state ≠ .running) ∨
          ((c = .abortAll ∨ ∃ n, c = .abortSlot n) ∧ s.control.state ≠ .running ∧ s.control.state ≠ .draining) ∨
          ∃ k, c = .unnamedCommandCode k) →
      exec c s = .next { s with control.outcome := .refusedState }) ∧
    (∀ c, ((c = .start ∧ (s.control.state = .off ∨ s.control.state = .stopped)) ∨
          (c = .stop ∧ s.control.state = .running) ∨
          (c = .abortAll ∧ (s.control.state = .running ∨ s.control.state = .draining)) ∨
          c = .clearFault ∨ c = .reset) →
      ∃ t, exec c s = .next t ∧ t.control.outcome = .accepted) ∧
    ∀ n, s.control.state = .running ∨ s.control.state = .draining →
      ∃ t, exec (.abortSlot n) s = .next t ∧
        (t.control.outcome = .accepted ∨ t.control.outcome = .notFound ∨ t.control.outcome = .notActive)) ∧
  (∀ (s : State) (c : Instr), s.control.rst = true ∨ s.control.resetWait = true → isCommand c = true →
    exec c s = .next s) ∧
  (∀ s : State, ((s.readRegister .control).extractLsb' 8 3).toNat = s.control.outcome.code ∧
    ((s.readRegister .control).extractLsb' 0 3).toNat = s.control.state.code) ∧
  (∀ (s t : State) (c : Instr), exec c s = .next t → isCommand c = false → c ≠ .lineReset → c ≠ .commandResetComplete →
    t.control.outcome = s.control.outcome) ∧
  (∀ s t : State, exec .lineReset s = .next t → t.control.outcome = .none) ∧
  ∀ s t : State, s.control.resetWait = true → s.port.outstanding = none → exec .commandResetComplete s = .next t →
    t.control.outcome = .none

/-- R164, R165, R167 and R168: START fixes the load address and begins LOADING, or fails at once on a bad address; the three
reads of a load, its success and its failure. -/
def Obligations.LoadReadsThreeBlocks : Prop :=
  (∀ s : State, s.control.rst = false → s.control.resetWait = false →
     (s.control.state = .off ∨ s.control.state = .stopped) →
     (s.control.configAddress.toNat % 64 = 0 → s.control.configAddress.toNat + 191 ≤ 0xFFFFFFFF →
       exec .start s = .next (State.arbitrate { s with
         control.outcome := .accepted, control.state := .loading, control.config := none
         control.loader := some ⟨s.control.configAddress, 0, []⟩ }) ∧
       (s.port.outstanding = none → s.writer.buffer = [] → s.writer.joining = [] →
         exec .start s = .next { s with
           control.outcome := .accepted, control.state := .loading, control.config := none
           control.loader := some ⟨s.control.configAddress, 0, []⟩
           port.outstanding := some ⟨.config 0, s.control.configAddress.toNat, .read 64, false⟩ })) ∧
     (s.control.configAddress.toNat % 64 ≠ 0 ∨ 0xFFFFFFFF < s.control.configAddress.toNat + 191 →
       exec .start s = .next (State.report { s with
         control.outcome := .accepted, control.state := .off, control.config := none, control.loader := none }
         (.configInvalid .configAddress)))) ∧
  (∀ (s : State) (host : HostWrites) (l : Loader) (tr : Transaction), s.control.resetWait = false →
     s.port.outstanding = some tr → tr.purpose = .config l.block → tr.transfer = .read 64 →
     s.control.loader = some l →
     let memory := Memory.hostWrote s.memory host
     let copy := Memory.writeBytes l.copy (64 * l.block.val) (Memory.readBytes memory tr.address 64)
     let s1 : State := { s with port.outstanding := none, memory := memory }
     (l.block = 0 → exec (.loaderReadDone host) s =
       .next (s.portFreed { s1 with control.loader := some ⟨l.address, 1, copy⟩ })) ∧
     (l.block = 1 → exec (.loaderReadDone host) s =
       .next (s.portFreed { s1 with control.loader := some ⟨l.address, 2, copy⟩ })) ∧
     (l.block = 2 → ∀ f, checkConfiguration l.address copy = some f →
       exec (.loaderReadDone host) s = .next (s.portFreed (State.report { s1 with
         control.state := .off, control.config := none, control.loader := none } (.configInvalid f)))) ∧
     (l.block = 2 → checkConfiguration l.address copy = none →
       let c := blockConfiguration copy
       exec (.loaderReadDone host) s = .next (s.portFreed { s1 with
         control.state := .running, control.config := some c, control.loader := none
         intake.sweepDue := c.sweepInterval ≠ 0
         notifier := { s.notifier with
           threshold := c.threshold, holdoff := c.holdoff
           flags.finish := s.notifier.flags.finish || decide (c.threshold ≤ s.notifier.harvest.length)
           holdoffTimer :=
             if s.notifier.harvest ≠ [] ∧ c.holdoff ≠ 0 then some c.holdoff else none } })) ∧
     exec .configReadBusError s = .next (s.portFreed (State.report { s with
       port.outstanding := none, control.state := .off, control.config := none, control.loader := none }
       (.configBusError l.block .error))))

/-- R170, R82, R171 and R172: STOP in RUNNING begins the drain; a drain or an abort completes in STOPPED. The model's
readings: a sweep whose read is not in flight ends at once (log entry 21), and an abort still on its way to a unit is
dropped at STOPPED (log entry 14). -/
def Obligations.DrainBeginsAndCompletes : Prop :=
  (∀ s : State, s.control.rst = false → s.control.resetWait = false → s.control.state = .running →
     ∃ activity,
       exec .stop s = .next { s with
         control.outcome := .accepted, control.state := .draining
         intake := { s.intake with sweepDue := false, sweepTimer := none, activity := activity } } ∧
       ((∀ k, s.intake.activity ≠ .sweeping k) → activity = s.intake.activity) ∧
       (∀ k, s.intake.activity = .sweeping k →
         ((∃ tr j, s.port.outstanding = some tr ∧ tr.purpose = .sweep j) → activity = .sweeping k) ∧
         ((∀ tr j, s.port.outstanding = some tr → tr.purpose ≠ .sweep j) → activity = .idle))) ∧
  (∀ s : State, s.control.rst = false → s.control.resetWait = false →
     (s.control.state = .draining ∨ s.control.state = .aborting) →
     if s.intake.activity = .idle ∧ (∀ e ∈ s.intake.urgent, e.source ≠ .abort) ∧ s.dispatcher.staged = none ∧
         s.dispatcher.parked = [] ∧ s.unit0.activity = .idle ∧ s.unit1.activity = .idle ∧ s.dispatcher.items = [] ∧
         s.writer.buffer = [] then
       exec .enterStopped s = .next { s with
         control.state := .stopped, intake.urgent := [], intake.normal := [], intake.sweepDue := false
         intake.sweepTimer := none, notifier.flags.stopped := true, unit0.abortDue := false, unit1.abortDue := false }
     else exec .enterStopped s = .next s)

/-- R171, R83, R100 and R121: ABORT ALL empties the lists, ends the staged and parked jobs and sends the abort to the
units; the new completion items stand in the order of R100, the staged job's first and then the parked jobs', the
earlier ticket first, and the item of a parked job already ending becomes ABORTED; port, writer buffer, tickets, harvest
queue, flags and memory are as before. The model's reading: a sweep whose read is not in flight ends at once (log
entry 21). -/
def Obligations.AbortAllEndsEveryJob : Prop :=
  ∀ s : State, s.control.rst = false → s.control.resetWait = false →
    (s.control.state = .running ∨ s.control.state = .draining) →
    ∃ t, exec .abortAll s = .next t ∧
      t.control = { s.control with outcome := .accepted, state := .aborting } ∧
      t.intake.urgent = [] ∧ t.intake.normal = [] ∧ t.intake.sweepDue = false ∧ t.intake.sweepTimer = none ∧
      t.intake.takeCounter = s.intake.takeCounter ∧
      (∀ item, s.intake.activity = .taking item → t.intake.activity = .taking { item with aborted := true }) ∧
      (∀ item, s.intake.activity = .nullTake item → t.intake.activity = .nullTake item) ∧
      (s.intake.activity = .idle → t.intake.activity = .idle) ∧
      (∀ k, s.intake.activity = .sweeping k →
        ((∃ tr j, s.port.outstanding = some tr ∧ tr.purpose = .sweep j) → t.intake.activity = .sweeping k) ∧
        ((∀ tr j, s.port.outstanding = some tr → tr.purpose ≠ .sweep j) → t.intake.activity = .idle)) ∧
      (∀ st, s.dispatcher.staged = some st → t.dispatcher.staged = some { st with ending := true }) ∧
      (s.dispatcher.staged = none → t.dispatcher.staged = none) ∧
      (t.dispatcher.parked = s.dispatcher.parked.map fun p => { p with ending := true }) ∧
      (∃ order : List ParkedJob, order.Perm s.dispatcher.parked ∧
        order.Pairwise (fun p q =>
          s.dispatcher.outstanding.idxOf p.job.ticket ≤ s.dispatcher.outstanding.idxOf q.job.ticket) ∧
        t.dispatcher.items =
          (s.dispatcher.items.map fun item =>
            if s.dispatcher.parked.any fun p => p.ending && p.job.ticket = item.ticket then
              { item with info := { item.info with how := .aborted } }
            else item) ++
          (match s.dispatcher.staged with
            | some st =>
              if st.ending then []
              else [⟨st.job.ticket, st.job.slot, st.job.tag, st.job.priority, ⟨.aborted, 0, 0, .empty, none⟩⟩]
            | none => []) ++
          (order.filter fun p => !p.ending).map fun p =>
            ⟨p.job.ticket, p.job.slot, p.job.tag, p.job.priority, ⟨.aborted, p.step, p.done, p.seen, p.last⟩⟩) ∧
      t.dispatcher.outstanding = s.dispatcher.outstanding ∧ t.dispatcher.parkRequest = s.dispatcher.parkRequest ∧
      t.unit0 = { s.unit0 with abortDue := true } ∧ t.unit1 = { s.unit1 with abortDue := true } ∧
      t.port = s.port ∧ t.writer.buffer = s.writer.buffer ∧ t.writer.table = s.writer.table ∧
      t.notifier = s.notifier ∧ t.memory = s.memory

/-- R173, R80, R96 to R98, R118 and R120: ABORT SLOT is routed to the place that holds the slot, which sets the outcome and
takes the abort: a take is marked, a staged or parked job is ended with its completion item, the item of a parked job
already ending becomes ABORTED, and a unit's job ends or changes its pending end. (A pending entry:
AbortMarkerReplacesTheEntry.) -/
def Obligations.AbortSlotOutcome : Prop :=
  ∀ (s : State) (n : Slot), s.control.rst = false → s.control.resetWait = false →
    (s.control.state = .running ∨ s.control.state = .draining) →
    (∃ t, exec (.abortSlot n) s = .next t ∧ t.control.state = s.control.state ∧
      t.writer.buffer = s.writer.buffer ∧ t.notifier = s.notifier ∧ t.memory = s.memory ∧
      (if s.intake.hasOrdinary n ∨ s.intake.hasMarker n ∨ s.intake.itemSlot? = some n ∨
          s.dispatcher.staged.any (·.job.slot = n) ∨ s.dispatcher.parked.any (·.job.slot = n) ∨
          s.unit0.slot? = some n ∨ s.unit1.slot? = some n then
        t.control.outcome = .accepted
      else if n ∈ s.writer.completionSlots then t = { s with control.outcome := .notActive }
      else t = { s with control.outcome := .notFound })) ∧
    let s1 : State := { s with control.outcome := .accepted }
    (n ∉ s.intake.pendingSlots →
      (∀ item, s.intake.activity = .taking item → item.slot = n →
        exec (.abortSlot n) s = .next { s1 with intake.activity := .taking { item with aborted := true } }) ∧
      (∀ item, s.intake.activity = .nullTake item → item.slot = n → exec (.abortSlot n) s = .next s1) ∧
      (s.intake.itemSlot? ≠ some n →
        (∀ st, s.dispatcher.staged = some st → st.job.slot = n →
          (st.ending = true → exec (.abortSlot n) s = .next s1) ∧
          (st.ending = false → exec (.abortSlot n) s = .next (State.present { s1 with
            dispatcher.staged := some { st with ending := true }
            dispatcher.items := s.dispatcher.items ++
              [⟨st.job.ticket, n, st.job.tag, st.job.priority, ⟨.aborted, 0, 0, .empty, none⟩⟩] } .dispatcher))) ∧
        ((∀ st, s.dispatcher.staged = some st → st.job.slot ≠ n) →
          (∀ before p after, s.dispatcher.parked = before ++ p :: after → (∀ q ∈ before, q.job.slot ≠ n) →
            p.job.slot = n →
            (p.ending = true → exec (.abortSlot n) s = .next { s1 with
              dispatcher.items := s.dispatcher.items.map fun item =>
                if item.ticket = p.job.ticket then { item with info := { item.info with how := .aborted } }
                else item }) ∧
            (p.ending = false → exec (.abortSlot n) s = .next (State.present { s1 with
              dispatcher.parked := s.dispatcher.parked.map fun q =>
                if q.job.ticket = p.job.ticket then { q with ending := true } else q
              dispatcher.items := s.dispatcher.items ++
                [⟨p.job.ticket, n, p.job.tag, p.job.priority, ⟨.aborted, p.step, p.done, p.seen, p.last⟩⟩] }
              .dispatcher))) ∧
          ((∀ p ∈ s.dispatcher.parked, p.job.slot ≠ n) →
            ∀ u, (u = .unit1 → s.unit0.slot? ≠ some n) →
              (∀ item, (s.unit u).activity = .ending item → item.slot = n →
                exec (.abortSlot n) s = .next (s1.setUnit u { s.unit u with
                  activity := .ending { item with info := { item.info with how := .aborted } } })) ∧
              ∀ job step done phase, (s.unit u).activity = .iterating job step done phase → job.slot = n →
                ∃ o, exec (.abortSlot n) s = .next (State.present
                    (State.setUnit { s1 with port.outstanding := o } u { s.unit u with
                      parkMark := false
                      activity := .ending ⟨job.ticket, n, job.tag, job.priority,
                        ⟨.aborted, step, done, (s.unit u).seen, (s.unit u).last⟩⟩ }) (.unit u)) ∧
                  (∀ tr, s.port.outstanding = some tr → tr.purpose = .source u →
                    o = some { tr with abandoned := true }) ∧
                  ((∀ tr, s.port.outstanding = some tr → tr.purpose ≠ .source u) →
                    o = s.port.outstanding)))))

/-- R78: an ordinary pending entry gives its place to an abort marker at the head of the urgent list; a slot that has a
marker is left as it is. -/
def Obligations.AbortMarkerReplacesTheEntry : Prop :=
  ∀ (s : State) (n : Slot) (e : PendingEntry) (before after : List PendingEntry), s.control.rst = false →
    s.control.resetWait = false → (s.control.state = .running ∨ s.control.state = .draining) →
    s.intake.pendingSlots.Nodup → e.slot = n →
    (e.source ≠ .abort → s.intake.urgent = before ++ e :: after →
      exec (.abortSlot n) s = .next { s with
        control.outcome := .accepted, intake.urgent := ⟨n, e.priority, .abort⟩ :: (before ++ after) }) ∧
    (e.source ≠ .abort → s.intake.normal = before ++ e :: after →
      exec (.abortSlot n) s = .next { s with
        control.outcome := .accepted, intake.urgent := ⟨n, e.priority, .abort⟩ :: s.intake.urgent
        intake.normal := before ++ after }) ∧
    (e.source = .abort → s.intake.urgent = before ++ e :: after →
      exec (.abortSlot n) s = .next { s with control.outcome := .accepted })

/-- R178: CLEAR FAULT empties the record and clears MORE in every state, and leaves the FAULT flag and all else. -/
def Obligations.ClearFaultEmptiesTheRecord : Prop :=
  ∀ s : State, s.control.rst = false → s.control.resetWait = false →
    exec .clearFault s =
      .next { s with control.outcome := .accepted, control.faultRecord := none, control.more := false } ∧
    (∀ r, exec .clearFault (s.report r) =
      .next { s.report r with control.outcome := .accepted, control.faultRecord := none, control.more := false }) ∧
    ∀ r t, exec .clearFault s = .next t →
      t.report r = { t with control.faultRecord := some r, notifier.flags.fault := true }

/-- R177 and R153: a report fills an empty record and sets FAULT, or sets MORE; a filled record keeps its contents until
CLEAR FAULT or a reset. -/
def Obligations.FaultRecordKeepsTheFirst : Prop :=
  (∀ (s : State) (r : FaultReport), s.control.faultRecord = none →
    s.report r = { s with control.faultRecord := some r, notifier.flags.fault := true }) ∧
  (∀ (s : State) (r q : FaultReport), s.control.faultRecord = some q →
    s.report r = { s with control.more := true }) ∧
  ∀ (s t : State) (c : Instr) (q : FaultReport), exec c s = .next t → c ≠ .clearFault → c ≠ .lineReset →
    c ≠ .commandResetComplete → s.control.faultRecord = some q →
    t.control.faultRecord = some q ∧ (s.control.more = true → t.control.more = true)

/-! ### Register accesses -/

/-- R65, R66 and R64: the first case of the table that applies decides a POST arrival; a slot is held in the places of R64. -/
def Obligations.PostArrivalDecided : Prop :=
  (∀ (s : State) (n : Slot), n ∈ s.heldSlots ↔
    (∃ e ∈ s.intake.urgent ++ s.intake.normal, e.slot = n) ∨
    (∃ item, (s.intake.activity = .taking item ∨ s.intake.activity = .nullTake item) ∧ item.slot = n) ∨
    (∃ st, s.dispatcher.staged = some st ∧ st.job.slot = n) ∨
    (∃ u job step done phase, (s.unit u).activity = .iterating job step done phase ∧ job.slot = n) ∨
    (∃ u item, (s.unit u).activity = .ending item ∧ item.slot = n) ∨
    (∃ q ∈ s.dispatcher.parked, q.job.slot = n) ∨
    (∃ item area, .completion item area ∈ s.writer.buffer ∧ item.slot = n) ∨
    ∃ e ∈ s.notifier.harvest, e.slot = n) ∧
  ∀ (s : State) (n : Slot) (p : Priority), s.control.rst = false → s.control.resetWait = false →
    exec (.postArrival n p) s = .next (
      if s.control.state ≠ .running then s.report (.postRefused n .notRunning)
      else if s.slotCount ≤ n.val then s.report (.postRefused n .outOfRange)
      else if ∃ e ∈ s.intake.urgent ++ s.intake.normal, e.slot = n ∧ e.source ≠ .abort then s
      else if n ∈ s.heldSlots then s.report (.postRefused n .duplicate)
      else if p = .urgent then { s with intake.urgent := s.intake.urgent ++ [⟨n, .urgent, .post⟩] }
      else { s with intake.normal := s.intake.normal ++ [⟨n, .normal, .post⟩] })

/-- R150, R183 and 11.2: a HARVEST read removes the head entry and returns it, in every state, a narrow read its bytes of
the word; an empty queue reads valid clear; the status codes are 1 to 5. The field harvestWord that holds the word is the model's (log entry 19). -/
def Obligations.HarvestReadTakesTheHead : Prop :=
  (∀ (s : State) (e : HarvestEntry) (rest : List HarvestEntry), s.notifier.harvest = e :: rest →
    ∃ w : Word,
      exec (.harvestRead .whole) s = .next { s with control.harvestWord := w, notifier.harvest := rest } ∧
      (∀ lanes : Lanes, exec (.harvestRead lanes) s = .next { s with
        control.harvestWord :=
          (w.extractLsb' (8 * lanes.first.val) (8 * (lanes.last.val + 1 - lanes.first.val))).setWidth 32
        notifier.harvest := rest }) ∧
      w.getLsbD 31 = true ∧ (w.extractLsb' 24 3).toNat = e.status.code ∧ (w.extractLsb' 16 6).toNat = e.slot.val ∧
      w.extractLsb' 0 16 = e.tag ∧ w.extractLsb' 22 2 = 0 ∧ w.extractLsb' 27 4 = 0 ∧
      (s.heldSlots.Nodup → e.slot ∉ State.heldSlots { s with control.harvestWord := w, notifier.harvest := rest })) ∧
  (∀ (s : State) (lanes : Lanes), s.notifier.harvest = [] →
    exec (.harvestRead lanes) s = .next { s with control.harvestWord := 0#32 }) ∧
  (∀ (s : State) (lanes : Lanes) (v : Word) (c : Instr), c ∈ registerWrite .harvest lanes v →
    exec c s = .next s) ∧
  [JobStatus.ok, .stopped, .faulted, .aborted, .rejected].map JobStatus.code = [1, 2, 3, 4, 5] ∧
  ∀ (s : State) (lanes : Lanes) (t : State), exec (.harvestRead lanes) s = .next t →
    t.notifier.harvest = s.notifier.harvest.tail ∧ t.notifier.flags = s.notifier.flags ∧
    t.notifier.holdoffTimer = s.notifier.holdoffTimer

/-- R154 and R158: each 1 in a STATUS write clears its flag by its own rule, FINISH with the re-test, and nothing else
changes. -/
def Obligations.StatusWriteClearsFlags : Prop :=
  (∀ (v : Word) (c : Instr), c ∈ registerWrite .status .whole v ↔
    (c = .clearFinish ∧ v.getLsbD 4 = true) ∨ (c = .clearStoppedFlag ∧ v.getLsbD 5 = true) ∨
    (c = .clearHaltedFlag ∧ v.getLsbD 6 = true) ∨ (c = .clearFaultFlag ∧ v.getLsbD 7 = true)) ∧
  ∀ s : State, s.control.rst = false →
    exec .clearStoppedFlag s = .next { s with notifier.flags.stopped := false } ∧
    exec .clearHaltedFlag s = .next { s with notifier.flags.halted := false } ∧
    exec .clearFaultFlag s = .next { s with notifier.flags.fault := false } ∧
    exec .clearFinish s = .next (
      if s.notifier.flags.finish = false then s
      else if s.notifier.threshold ≤ s.notifier.harvest.length then s
      else if s.notifier.harvest ≠ [] ∧ s.notifier.holdoff ≠ 0 then
        { s with notifier.flags.finish := false, notifier.holdoffTimer := some s.notifier.holdoff }
      else { s with notifier.flags.finish := false })

/-- R160 and R159: the enables are written in one act in any device state, kept by every other command but a reset, read
as last written, and INTR is asserted exactly while a set flag has its enable set. -/
def Obligations.InterruptEnables : Prop :=
  (∀ (s : State) (v : Word), s.control.rst = false →
    exec (.interruptEnableWrite v) s =
      .next { s with control.enables := ⟨v.getLsbD 4, v.getLsbD 5, v.getLsbD 6, v.getLsbD 7⟩ }) ∧
  (∀ (s t : State) (v : Word), s.control.rst = false → exec (.interruptEnableWrite v) s = .next t →
    t.readRegister .interruptEnable = v &&& 0xF0#32) ∧
  (∀ (s t : State) (c : Instr), exec c s = .next t → (∀ v, c ≠ .interruptEnableWrite v) → c ≠ .lineReset →
    c ≠ .commandResetComplete → t.control.enables = s.control.enables) ∧
  (∀ s : State, let w := s.readRegister .interruptEnable
    w.getLsbD 4 = s.control.enables.finish ∧ w.getLsbD 5 = s.control.enables.stopped ∧
    w.getLsbD 6 = s.control.enables.halted ∧ w.getLsbD 7 = s.control.enables.fault) ∧
  (∀ s t : State, exec .lineReset s = .next t → t.control.enables = ⟨false, false, false, false⟩ ∧ t.intr = false) ∧
  (∀ s t : State, s.control.resetWait = true → s.port.outstanding = none → exec .commandResetComplete s = .next t →
    t.control.enables = ⟨false, false, false, false⟩ ∧ t.intr = false) ∧
  ∀ s : State, s.intr = true ↔
    (s.notifier.flags.finish = true ∧ s.control.enables.finish = true) ∨
    (s.notifier.flags.stopped = true ∧ s.control.enables.stopped = true) ∨
    (s.notifier.flags.halted = true ∧ s.control.enables.halted = true) ∨
    (s.notifier.flags.fault = true ∧ s.control.enables.fault = true)

/-- R174: CONFIG ADDRESS takes any value in OFF and STOPPED, keeps its value elsewhere, and only a line reset changes it
otherwise. -/
def Obligations.ConfigAddressRegister : Prop :=
  (∀ (s : State) (v : Word), s.control.rst = false → (s.control.state = .off ∨ s.control.state = .stopped) →
    exec (.configAddressWrite v) s = .next { s with control.configAddress := v }) ∧
  (∀ (s : State) (v : Word), s.control.state ≠ .off → s.control.state ≠ .stopped →
    exec (.configAddressWrite v) s = .next s) ∧
  (∀ s : State, s.readRegister .configAddress = s.control.configAddress) ∧
  (∀ s t : State, exec .lineReset s = .next t → t.control.configAddress = 0#32) ∧
  (∀ (s t : State) (c : Instr), exec c s = .next t → (∀ v, c ≠ .configAddressWrite v) → c ≠ .lineReset →
    t.control.configAddress = s.control.configAddress) ∧
  ∀ s : State, s.control.rst = false → s.control.resetWait = false →
    (s.control.state = .off ∨ s.control.state = .stopped) →
    (s.control.configAddress.toNat % 64 ≠ 0 ∨ 0xFFFFFFFF < s.control.configAddress.toNat + 191) →
    exec .start s = .next (State.report { s with
      control.outcome := .accepted, control.state := .off, control.config := none, control.loader := none }
      (.configInvalid .configAddress))

/-- R183, R184 and 11.1: the commands that a bus write is; a narrow write and a write to IDENT, HARVEST or FAULT have no
effect; which register an offset of the window is, the bytes that an access of each width returns there, 32-bit or narrow,
and its read effect, that of the whole register. The model's choice: an access that runs on into the next register is a
narrow access of each (log entry 29). -/
def Obligations.RegisterWritesTakeTheirFields : Prop :=
  (∀ (r : Register) (lanes : Lanes) (v : Word) (s : State),
    (lanes ≠ ⟨0, 3⟩ ∨ r = .ident ∨ r = .harvest ∨ r = .fault) →
    registerWrite r lanes v = [.ignoredRegisterWrite r lanes v] ∧ exec (.ignoredRegisterWrite r lanes v) s = .next s) ∧
  (∀ v : Word, ∃ n p, registerWrite .post .whole v = [.postArrival n p] ∧ n.val = v.toNat % 64 ∧
    (p = .urgent ↔ v.getLsbD 8 = true)) ∧
  (∀ v : Word, registerWrite .interruptEnable .whole v = [.interruptEnableWrite v]) ∧
  (∀ v : Word, registerWrite .configAddress .whole v = [.configAddressWrite v]) ∧
  (∀ v : Word, ∃ c, registerWrite .control .whole v = [c] ∧
    (v.toNat % 16 = 1 → c = .start) ∧ (v.toNat % 16 = 2 → c = .stop) ∧ (v.toNat % 16 = 3 → c = .abortAll) ∧
    (v.toNat % 16 = 4 → ∃ n : Slot, c = .abortSlot n ∧ n.val = v.toNat / 256 % 64) ∧
    (v.toNat % 16 = 5 → c = .clearFault) ∧ (v.toNat % 16 = 6 → c = .reset) ∧
    (v.toNat % 16 = 0 ∨ 7 ≤ v.toNat % 16 → ∃ k, c = .unnamedCommandCode k)) ∧
  Lanes.whole = ⟨0, 3⟩ ∧ [AccessWidth.byte, .half, .triple, .word].map AccessWidth.bytes = [1, 2, 3, 4] ∧
  (∀ (r : Register) (lanes : Lanes), registerRead r lanes = if r = .harvest then [.harvestRead lanes] else []) ∧
  ∀ (offset : Fin 32) (width : AccessWidth),
    let r := registerAt offset
    let first := offset.val % 4
    let bytesOf := fun (value : Word) (k n : Nat) => (value.extractLsb' (8 * k) (8 * n)).setWidth 32
    [Register.ident, .control, .configAddress, .post, .harvest, .status, .fault, .interruptEnable][offset.val / 4]? =
      some r ∧
    (∀ lanes : Lanes, lanes.first.val = first → lanes.last.val + 1 = first + width.bytes →
      (∀ v : Word, busWrite offset width v = registerWrite r lanes v) ∧ busReadCommands offset width = registerRead r lanes ∧
      ∀ s : State, s.busRead offset width = bytesOf (s.readRegister r) first width.bytes) ∧
    (4 < first + width.bytes → ∀ lower : Lanes, lower.first.val = first → lower.last = 3 →
      (∀ (next : Fin 32) (upper : Lanes), next.val = offset.val + 4 → upper.first = 0 →
        upper.last.val + 5 = first + width.bytes →
        (∀ v : Word, busWrite offset width v =
          [.ignoredRegisterWrite r lower v, .ignoredRegisterWrite (registerAt next) upper v]) ∧
        busReadCommands offset width = registerRead r lower ++ registerRead (registerAt next) upper ∧
        ∀ s : State, s.busRead offset width = bytesOf (s.readRegister r) first (4 - first) |||
          bytesOf (s.readRegister (registerAt next)) 0 (first + width.bytes - 4) <<< (8 * (4 - first))) ∧
      (28 ≤ offset.val →
        (∀ v : Word, busWrite offset width v = [.ignoredRegisterWrite r lower v]) ∧ busReadCommands offset width = [] ∧
        ∀ s : State, s.busRead offset width = bytesOf (s.readRegister r) first (4 - first)))

/-- 11.2, R184 and R185: the fields of CONTROL, STATUS, INTERRUPT ENABLE and FAULT as read, the codes in them, and every bit
without a field reads 0; IDENT is constant and POST reads 0. -/
def Obligations.RegisterLayouts : Prop :=
  (∀ s : State, s.notifier.harvest.length ≤ 64 → s.writer.buffer.length ≤ 8 → s.dispatcher.parked.length ≤ 2 →
     s.intake.urgent.length + s.intake.normal.length ≤ 64 →
     let w := s.readRegister .status
     (w.extractLsb' 24 7).toNat = s.notifier.harvest.length ∧ (w.extractLsb' 20 4).toNat = s.writer.buffer.length ∧
     (w.extractLsb' 18 2).toNat = s.dispatcher.parked.length ∧ (w.extractLsb' 16 2).toNat = s.unitsBusy ∧
     (w.extractLsb' 8 7).toNat = s.intake.urgent.length + s.intake.normal.length ∧
     w.getLsbD 7 = s.notifier.flags.fault ∧ w.getLsbD 6 = s.notifier.flags.halted ∧
     w.getLsbD 5 = s.notifier.flags.stopped ∧ w.getLsbD 4 = s.notifier.flags.finish ∧
     (w.extractLsb' 0 3).toNat = s.control.state.code ∧ w.getLsbD 3 = false ∧ w.getLsbD 15 = false ∧
     w.getLsbD 31 = false) ∧
  (∀ s : State,
     let w := s.readRegister .control
     (w.extractLsb' 8 3).toNat = s.control.outcome.code ∧ (w.extractLsb' 0 3).toNat = s.control.state.code ∧
     w.extractLsb' 3 5 = 0 ∧ w.extractLsb' 11 21 = 0 ∧
     s.readRegister .interruptEnable &&& 0xFFFFFF0F#32 = 0#32 ∧
     s.readRegister .ident = 0x0C244021#32 ∧ s.readRegister .post = 0#32 ∧
     (s.control.faultRecord = none → s.readRegister .fault = 0#32) ∧
     s.unitsBusy =
       (if s.unit0.activity = .idle then 0 else 1) + (if s.unit1.activity = .idle then 0 else 1)) ∧
  (∀ (s : State) (r : FaultReport), s.control.faultRecord = some r →
     let w := s.readRegister .fault
     let reads := fun (kind requester slot position detail code : Nat) =>
       w.getLsbD 31 = true ∧ w.getLsbD 30 = s.control.more ∧ (w.extractLsb' 26 4).toNat = kind ∧
       (w.extractLsb' 24 2).toNat = requester ∧ (w.extractLsb' 18 6).toNat = slot ∧
       (w.extractLsb' 13 5).toNat = position ∧ w.getLsbD 12 = false ∧ (w.extractLsb' 8 4).toNat = detail ∧
       (w.extractLsb' 0 8).toNat = code
     match r with
     | .postRefused n reason => reads 1 0 n.val 0 reason.code 0
     | .stalePost n source => reads 2 0 n.val 0 source.code 0
     | .configInvalid (.windowRights k) => k < 8 → reads 3 1 0 0 k 9
     | .configInvalid (.windowLength k) => k < 8 → reads 3 1 0 0 k 10
     | .configInvalid (.windowBase k) => k < 8 → reads 3 1 0 0 k 11
     | .configInvalid f => reads 3 1 0 0 0 f.code
     | .configBusError b kind => reads 4 1 0 (4 * b.val) kind.code 0
     | .fatalIntake n b kind => b < 8 → reads 5 2 n.val (4 * b) kind.code 0
     | .fatalWriter n area kind => reads 5 3 n.val (if area then 29 else 0) kind.code 0) ∧
  [DeviceState.off, .loading, .running, .draining, .aborting, .stopped, .halted].map DeviceState.code =
    [0, 1, 2, 3, 4, 5, 6] ∧
  [CommandOutcome.none, .accepted, .refusedState, .notFound, .notActive].map CommandOutcome.code = [0, 1, 2, 3, 4] ∧
  [RefusalReason.notRunning, .outOfRange, .duplicate].map RefusalReason.code = [1, 2, 3] ∧
  [PendingSource.post, .sweep, .abort].map PendingSource.code = [1, 2, 3] ∧
  [FailKind.error, .timeout].map FailKind.code = [1, 2] ∧
  [ConfigField.configAddress, .version, .slotTableBase, .slotCount, .sweepInterval, .finishThreshold, .finishHoldoff,
    .windowCount].map ConfigField.code = [1, 2, 3, 4, 5, 6, 7, 8]

/-! ### Timers and responses that concern no one -/

/-- R68 and R157: the two timers' expiries. The model's: an expiry with no running timer, and one of the sweep timer outside
RUNNING, change nothing (log entry 2), and the sweep timer may expire in a command reset's wait (log entry 15). -/
def Obligations.TimerExpiries : Prop :=
  ∀ s : State,
    (∀ n, s.control.state = .running → s.intake.sweepTimer = some n →
      exec .sweepTimerExpiry s = .next { s with intake.sweepTimer := none, intake.sweepDue := true }) ∧
    (∀ n, s.notifier.holdoffTimer = some n →
      exec .holdoffExpiry s = .next { s with
        notifier.holdoffTimer := none
        notifier.flags.finish := s.notifier.flags.finish || !s.notifier.harvest.isEmpty }) ∧
    (s.intake.sweepTimer = none ∨ s.control.state ≠ .running → exec .sweepTimerExpiry s = .next s) ∧
    (s.notifier.holdoffTimer = none → exec .holdoffExpiry s = .next s)

/-- R132 and R136: a timeout ends the outstanding transaction and is routed by its requester; a late response has no effect on
any block. The model's: nor on memory, a timed-out write being settled at the timeout (log entry 22), and a response while
no transaction is outstanding changes nothing (log entry 2). -/
def Obligations.ResponsesAndTimeouts : Prop :=
  (∀ (s : State) (tr : Transaction), s.control.resetWait = false → s.port.outstanding = some tr →
     (∀ b, tr.purpose = .config b → ∀ n, tr.transfer = .read n →
       exec .responseTimeout s = .next (s.portFreed (State.report { s with
         port.outstanding := none, control.state := .off, control.config := none, control.loader := none }
         (.configBusError b .timeout)))) ∧
     (∀ u, tr.purpose = .source u → exec .responseTimeout s = exec .fetchBusError s) ∧
     (tr.purpose = .destination → exec .responseTimeout s = exec .destinationWriteFail s) ∧
     (∀ n area, (area = false ∧ (tr.purpose = .stateWord n ∨ tr.purpose = .doneWord n)) ∨
         (area = true ∧ tr.purpose = .resultArea n) → s.control.faultRecord = none →
       ∃ t, exec .responseTimeout s = .next t ∧ t.control.state = .halted ∧
         t.control.faultRecord = some (.fatalWriter n area .timeout)) ∧
     ∀ n b, (tr.purpose = .sweep n ∧ b = 0) ∨ (tr.purpose = .takeBlock0 n ∧ b = 0) ∨ tr.purpose = .takeBlock n b ∨
         (tr.purpose = .nullTake n ∧ b = 0) →
       s.control.faultRecord = none →
       ∃ t, exec .responseTimeout s = .next t ∧ t.control.state = .halted ∧
         t.control.faultRecord = some (.fatalIntake n b .timeout)) ∧
  (∀ s : State, exec .lateResponse s = .next s ∧
     (s.port.outstanding = none → ∀ c host, (c = .responseTimeout ∨ c = .loaderReadDone host ∨ c = .configReadBusError ∨
         c = .sweepReadDone host ∨ c = .takeBlock0ReadDone host ∨ c = .takeBlockReadDone host ∨
         c = .nullTakeReadDone host ∨ c = .intakeBusError ∨ c = .fetchReadDone host ∨ c = .fetchBusError ∨
         c = .stateWriteDone ∨ c = .destinationWriteDone ∨ c = .destinationWriteFail ∨ c = .resultAreaWriteDone ∨
         c = .doneWriteDone ∨ c = .writerFatalBus) → exec c s = .next s))

/-! ### Loading -/

/-- R166, R125, R126 and 11.4: the fields of a configuration block; a copy passes the Loader's checks exactly when every
field is in its range, every window is valid, no WRITE window and not the block itself shares a byte with the slot table;
else the first failure in the order of R166 names its field. -/
def Obligations.ConfigurationChecks : Prop :=
  (∀ copy : Memory,
    let c := blockConfiguration copy
    let byte := fun k => (Memory.read copy k).toNat
    let half := fun k => byte k + 256 * byte (k + 1)
    let word := fun k => half k + 65536 * half (k + 2)
    c.slotBase.toNat = word 4 ∧ c.slotCount = byte 8 ∧ c.threshold = byte 9 ∧ c.windows.length = byte 10 ∧
    c.sweepInterval = half 12 ∧ c.holdoff = word 16 ∧
    ∀ k w, c.windows[k]? = some w →
      w.base.toNat = word (64 + 16 * k) ∧ w.length.toNat = word (64 + 16 * k + 4) ∧
      w.read = (Memory.read copy (64 + 16 * k + 8)).getLsbD 0 ∧
      w.write = (Memory.read copy (64 + 16 * k + 8)).getLsbD 1) ∧
  ∀ (a : Word) (copy : Memory),
    let c := blockConfiguration copy
    let last := c.slotBase.toNat + 512 * c.slotCount - 1
    (checkConfiguration a copy = none ↔
      Memory.number copy 0 4 = 1 ∧ c.slotBase.toNat % 512 = 0 ∧ 1 ≤ c.slotCount ∧ c.slotCount ≤ 64 ∧
      last ≤ 0xFFFFFFFF ∧ c.sweepInterval ≤ 1000 ∧ 1 ≤ c.threshold ∧ c.threshold ≤ c.slotCount ∧ c.holdoff ≤ 65535 ∧
      c.windows.length ≤ 8 ∧
      (∀ w ∈ c.windows, (w.read = true ∨ w.write = true) ∧ 1 ≤ w.length.toNat ∧
        w.base.toNat + w.length.toNat - 1 ≤ 0xFFFFFFFF ∧
        (w.write = true → w.base.toNat + w.length.toNat - 1 < c.slotBase.toNat ∨ last < w.base.toNat)) ∧
      (a.toNat + 191 < c.slotBase.toNat ∨ last < a.toNat)) ∧
    let fields : Option ConfigField :=
      if Memory.number copy 0 4 ≠ 1 then some .version
      else if c.slotBase.toNat % 512 ≠ 0 then some .slotTableBase
      else if c.slotCount = 0 ∨ 64 < c.slotCount ∨ 0xFFFFFFFF < last then some .slotCount
      else if 1000 < c.sweepInterval then some .sweepInterval
      else if c.threshold = 0 ∨ c.slotCount < c.threshold then some .finishThreshold
      else if 65535 < c.holdoff then some .finishHoldoff
      else if 8 < c.windows.length then some .windowCount
      else none
    let noRights := fun (w : Window) => w.read = false ∧ w.write = false
    let badLength := fun (w : Window) => w.length.toNat = 0 ∨ 0xFFFFFFFF < w.base.toNat + w.length.toNat - 1
    let overTable := fun (w : Window) => w.write = true ∧ w.base.toNat ≤ last ∧
      c.slotBase.toNat ≤ w.base.toNat + w.length.toNat - 1
    (∀ f, fields = some f → checkConfiguration a copy = some f) ∧
    (fields = none →
      (∀ k w, c.windows[k]? = some w → (∀ v ∈ c.windows.take k, ¬noRights v ∧ ¬badLength v) →
        (noRights w → checkConfiguration a copy = some (.windowRights k)) ∧
        (¬noRights w → badLength w → checkConfiguration a copy = some (.windowLength k))) ∧
      ((∀ v ∈ c.windows, ¬noRights v ∧ ¬badLength v) →
        (∀ k w, c.windows[k]? = some w → (∀ v ∈ c.windows.take k, ¬overTable v) → overTable w →
          checkConfiguration a copy = some (.windowBase k)) ∧
        ((∀ v ∈ c.windows, ¬overTable v) → a.toNat ≤ last → c.slotBase.toNat ≤ a.toNat + 191 →
          checkConfiguration a copy = some .slotTableBase)))

/-! ### Intake -/

/-- R68 and R69: a due sweep begins at slot 0; each read is acted on in RUNNING and the sweep goes on or completes, and
outside RUNNING it ends. -/
def Obligations.SweepReadsEverySlot : Prop :=
  (∀ s : State, s.control.rst = false → s.control.resetWait = false → s.intake.activity = .idle →
    s.intake.sweepDue = true → s.control.state = .running →
    exec .sweepBegin s = .next (State.arbitrate { s with intake.activity := .sweeping 0, intake.sweepDue := false })) ∧
  ∀ (s : State) (host : HostWrites) (k : Slot) (tr : Transaction) (c : Configuration), s.control.resetWait = false →
    s.port.outstanding = some tr → tr.purpose = .sweep k → tr.transfer = .read 64 →
    s.intake.activity = .sweeping k → s.control.config = some c →
    let memory := Memory.hostWrote s.memory host
    let s1 : State := { s with port.outstanding := none, memory := memory }
    let found : Bool := Memory.read memory tr.address = 1#8 ∧ k ∉ s.heldSlots
    let urgent : Bool := Memory.read memory (tr.address + 1) = 1#8
    let lists : Intake :=
      if found then
        if urgent then { s.intake with urgent := s.intake.urgent ++ [⟨k, .urgent, .sweep⟩] }
        else { s.intake with normal := s.intake.normal ++ [⟨k, .normal, .sweep⟩] }
      else s.intake
    (s.control.state ≠ .running →
      exec (.sweepReadDone host) s = .next (s.portFreed { s1 with intake.activity := .idle })) ∧
    (s.control.state = .running → ∀ next : Slot, next.val = k.val + 1 → next.val < c.slotCount →
      exec (.sweepReadDone host) s =
        .next (s.portFreed { s1 with intake := { lists with activity := .sweeping next } })) ∧
    (s.control.state = .running → k.val + 1 = c.slotCount →
      exec (.sweepReadDone host) s = .next (s.portFreed { s1 with
        intake := { lists with
          activity := .idle
          sweepTimer := if c.sweepInterval = 0 then none else some c.sweepInterval } }))

/-- R71 and R79: the begin of a take and of a null take; R67, R68 and R103: where a sweep, a take or a null take does not
begin (Intake not IDLE, a sweep due, the staging place occupied, a marker at the head, the device state, nothing pending),
and the command then changes nothing (log entry 2). -/
def Obligations.TakeBegins : Prop :=
  (∀ s : State,
    (s.intake.activity ≠ .idle ∨ s.intake.sweepDue = true ∨ s.control.state ≠ .running ∨ s.dispatcher.staged ≠ none ∨
        (∃ e rest, s.intake.urgent = e :: rest ∧ e.source = .abort) ∨
        (s.intake.urgent = [] ∧ s.intake.normal = []) →
      exec .takeBegin s = .next s) ∧
    (s.intake.activity ≠ .idle ∨ s.intake.sweepDue = true ∨
        (s.control.state ≠ .running ∧ s.control.state ≠ .draining) ∨
        (∀ e rest, s.intake.urgent = e :: rest → e.source ≠ .abort) →
      exec .nullTakeBegin s = .next s) ∧
    (s.intake.activity ≠ .idle ∨ s.intake.sweepDue = false ∨ s.control.state ≠ .running →
      exec .sweepBegin s = .next s)) ∧
  ∀ (s : State) (e : PendingEntry) (rest : List PendingEntry), s.control.rst = false → s.control.resetWait = false →
    s.intake.activity = .idle → s.intake.sweepDue = false →
    (s.control.state = .running → s.dispatcher.staged = none → s.intake.urgent = e :: rest → e.source ≠ .abort →
      exec .takeBegin s = .next (State.arbitrate { s with
        intake.urgent := rest
        intake.activity := .taking ⟨e.slot, e.priority, e.source, false, [], .block0⟩ })) ∧
    (s.control.state = .running → s.dispatcher.staged = none → s.intake.urgent = [] → s.intake.normal = e :: rest →
      exec .takeBegin s = .next (State.arbitrate { s with
        intake.normal := rest
        intake.activity := .taking ⟨e.slot, e.priority, e.source, false, [], .block0⟩ })) ∧
    ((s.control.state = .running ∨ s.control.state = .draining) → s.intake.urgent = e :: rest → e.source = .abort →
      exec .nullTakeBegin s = .next (State.arbitrate { s with
        intake.urgent := rest
        intake.activity := .nullTake ⟨e.slot, e.priority, e.source, false, [], .block0⟩ }))

/-- R72, R73 and R79: the reads of a take and of a null take: stale, rejected on block 0, on to the further blocks, and after
the last needed block judged; a null take examines nothing further. -/
def Obligations.TakeReads : Prop :=
  (∀ (s : State) (host : HostWrites) (item : IntakeItem) (tr : Transaction), s.control.resetWait = false →
     s.port.outstanding = some tr → tr.purpose = .takeBlock0 item.slot → tr.transfer = .read 64 →
     s.intake.activity = .taking item →
     let memory := Memory.hostWrote s.memory host
     let s1 : State := { s with port.outstanding := none, memory := memory }
     let record := Memory.writeBytes [] 0 (Memory.readBytes memory tr.address 64)
     (Memory.read memory tr.address ≠ 1#8 →
       exec (.takeBlock0ReadDone host) s = .next (s.portFreed
         (State.report { s1 with intake.activity := .idle } (.stalePost item.slot item.source)))) ∧
     (Memory.read memory tr.address = 1#8 → ∀ reason, rejectHeader record = some reason →
       exec (.takeBlock0ReadDone host) s = .next (s.portFreed (State.presentTaken { s1 with
         intake.activity := .taking { item with record := record, phase := .judged (.rejected reason none) } }))) ∧
     (Memory.read memory tr.address = 1#8 → rejectHeader record = none → ∀ block later,
       neededBlocks (recordOperands record) (recordSteps record) = block :: later →
       exec (.takeBlock0ReadDone host) s = .next (s.portFreed { s1 with
         intake.activity := .taking { item with record := record, phase := .further block later } }))) ∧
  (∀ (s : State) (host : HostWrites) (item : IntakeItem) (block : Nat) (later : List Nat) (tr : Transaction),
     s.control.resetWait = false → s.port.outstanding = some tr → tr.purpose = .takeBlock item.slot block →
     tr.transfer = .read 64 → s.intake.activity = .taking item → item.phase = .further block later →
     let memory := Memory.hostWrote s.memory host
     let s1 : State := { s with port.outstanding := none, memory := memory }
     let record := Memory.writeBytes item.record (64 * block) (Memory.readBytes memory tr.address 64)
     (∀ next rest, later = next :: rest →
       exec (.takeBlockReadDone host) s = .next (s.portFreed { s1 with
         intake.activity := .taking { item with record := record, phase := .further next rest } })) ∧
     (later = [] →
       exec (.takeBlockReadDone host) s = .next (s.portFreed (State.presentTaken { s1 with
         intake.activity := .taking { item with record := record, phase := .judged (judgeRecord record) } })))) ∧
  (∀ (s : State) (host : HostWrites) (item : IntakeItem) (tr : Transaction), s.control.resetWait = false →
     s.port.outstanding = some tr → tr.purpose = .nullTake item.slot → tr.transfer = .read 64 →
     s.intake.activity = .nullTake item →
     let memory := Memory.hostWrote s.memory host
     let s1 : State := { s with port.outstanding := none, memory := memory }
     (Memory.read memory tr.address ≠ 1#8 →
       exec (.nullTakeReadDone host) s = .next (s.portFreed
         (State.report { s1 with intake.activity := .idle } (.stalePost item.slot item.source)))) ∧
     (Memory.read memory tr.address = 1#8 →
       exec (.nullTakeReadDone host) s = .next (s.portFreed (State.presentTaken { s1 with
         intake.activity := .nullTake { item with
           record := Memory.writeBytes [] 0 (Memory.readBytes memory tr.address 64)
           phase := .judged .nullTake } }))))

/-- R52: the blocks a record needs besides block 0 are those of its operand and step entries, read in increasing order. -/
def Obligations.NeededBlocksOfARecord : Prop :=
  ∀ k m : Nat, k ≤ 12 → 1 ≤ m → m ≤ 16 →
    (neededBlocks k m).Pairwise (· < ·) ∧ 1 ≤ (neededBlocks k m).length ∧ (neededBlocks k m).length ≤ 7 ∧
    ∀ b, b ∈ neededBlocks k m ↔
      b ≠ 0 ∧ ((∃ j, j < k ∧ (16 + 16 * j) / 64 = b) ∨ ∃ i, i < m ∧ (208 + 16 * i) / 64 = b)

/-- R56, R51, R44 and 11.5: the reason of a rejection is the first failure in the order header, operand entries, step
entries; the bytes of block 0 that the header fields are; block 0 alone decides a rejection without an index. -/
def Obligations.RejectionNamesTheFirstFailure : Prop :=
  ∀ r : Memory,
    (recordState r = (Memory.read r 0).toNat ∧ recordPriority r = (Memory.read r 1).toNat ∧
      (recordTag r).toNat = (Memory.read r 2).toNat + 256 * (Memory.read r 3).toNat ∧
      recordVersion r = (Memory.read r 4).toNat ∧ recordSteps r = (Memory.read r 5).toNat ∧
      recordOperands r = (Memory.read r 6).toNat ∧ recordFenced r = (Memory.read r 7).getLsbD 0) ∧
    (∀ reason, rejectHeader r = some reason ↔ judgeRecord r = .rejected reason none) ∧
    (recordVersion r ≠ 1 → judgeRecord r = .rejected .badVersion none) ∧
    (recordVersion r = 1 → (recordSteps r = 0 ∨ 16 < recordSteps r ∨ 12 < recordOperands r) →
      judgeRecord r = .rejected .badCount none) ∧
    (recordVersion r = 1 → 1 ≤ recordSteps r → recordSteps r ≤ 16 → recordOperands r ≤ 12 →
      (1 < recordPriority r → judgeRecord r = .rejected .badPriority none) ∧
      (recordPriority r ≤ 1 →
        (∀ j, j < recordOperands r → readOperand r j = none → (∀ i, i < j → readOperand r i ≠ none) →
          judgeRecord r = .rejected .badOperand (some j)) ∧
        ∀ operands : List Operand, operands.length = recordOperands r →
          (∀ j, j < recordOperands r → readOperand r j = operands[j]?) →
          (∀ m, m < recordSteps r → readStep r operands m = none → (∀ i, i < m → readStep r operands i ≠ none) →
            judgeRecord r = .rejected .badStep (some m)) ∧
          ∀ steps : List Step, steps.length = recordSteps r →
            (∀ m, m < recordSteps r → readStep r operands m = steps[m]?) →
            judgeRecord r = .valid ⟨recordFenced r, steps⟩))

/-- R54, R53 and 11.5: an operand entry fails exactly when its kind is none of the three, or the format, digit count, scale,
cell index or literal content of its kind is out of range; else it is read as its fields say. -/
def Obligations.OperandEntryChecks : Prop :=
  ∀ (r : Memory) (j : Nat),
    let byte := fun k => (Memory.read r (16 + 16 * j + k)).toNat
    let kind := byte 0
    let n := byte 2
    let s := byte 3
    (readOperand r j = none ↔
      (kind ≠ 1 ∧ kind ≠ 2 ∧ kind ≠ 3) ∨
      (kind = 1 ∧ ((byte 1 = 0 ∨ 4 < byte 1) ∨ n = 0 ∨ 63 < n ∨ n < s ∨ (byte 1 = 4 ∧ n ≠ 19))) ∨
      (kind = 2 ∧ (n = 0 ∨ 63 < n ∨ n < s ∨ 7 < byte 4)) ∨
      (kind = 3 ∧ (n = 0 ∨ 15 < n ∨ n < s ∨
        ∃ fault, readPacked n (Memory.readBytes r (16 + 16 * j + 8) (n / 2 + 1)) = .error fault))) ∧
    (readOperand r j ≠ none →
      (kind = 1 → ∃ f : MemField, readOperand r j = some (.memory f) ∧ f.digits = n ∧ f.scale = s ∧
        [FieldFormat.packed, .unsignedPacked, .text, .binary64][byte 1 - 1]? = some f.format ∧
        f.address.toNat = byte 4 + 256 * byte 5 + 65536 * byte 6 + 16777216 * byte 7 ∧
        f.stride.toNat = byte 8 + 256 * byte 9) ∧
      (kind = 2 → ∃ i : Fin 8, readOperand r j = some (.cell i n s) ∧ i.val = byte 4) ∧
      (kind = 3 → ∃ c, readPacked n (Memory.readBytes r (16 + 16 * j + 8) (n / 2 + 1)) = .ok c ∧
        readOperand r j = some (.literal ⟨c, s⟩)))

/-- R55: a step entry fails exactly when its operation, rounding mode, flags, repeat count, a reference that it uses, or (with
a stop set) its stop action is not one that the format allows; else it is read as its fields say, each reference it uses
with the operand entry of that index (R19, 11.5). -/
def Obligations.StepEntryChecks : Prop :=
  ∀ (r : Memory) (operands : List Operand) (m : Nat), operands.length ≤ 12 →
    let byte := fun k => (Memory.read r (208 + 16 * m + k)).toNat
    let op := byte 0
    let flags := Memory.read r (208 + 16 * m + 2)
    let stopSet := Memory.read r (208 + 16 * m + 3)
    let names := fun ref => ref < operands.length
    let isLiteral := fun ref => ∃ v, operands[ref]? = some (.literal v)
    (readStep r operands m = none ↔
      (op = 0 ∨ 7 < op) ∨ 4 < byte 1 ∨ (flags.getLsbD 0 = true ∧ flags.getLsbD 1 = true) ∨
      ((op = 6 ∨ op = 7) ∧ (flags.getLsbD 0 = true ∨ flags.getLsbD 1 = true)) ∨
      Memory.number r (208 + 16 * m + 6) 2 = 0 ∨ 4096 < Memory.number r (208 + 16 * m + 6) 2 ∨
      ¬names (byte 8) ∨ (op ≠ 1 ∧ ¬names (byte 9)) ∨ (op = 7 ∧ ¬names (byte 10)) ∨
      (1 ≤ op ∧ op ≤ 5 ∧ (¬names (byte 11) ∨ isLiteral (byte 11))) ∨
      (op = 5 ∧ byte 10 ≠ 0xFF ∧ (¬names (byte 10) ∨ isLiteral (byte 10) ∨ byte 10 = byte 11)) ∨
      (stopSet.toNat % 16 ≠ 0 ∧ byte 4 ≠ 1 ∧ byte 4 ≠ 2)) ∧
    ∀ st, readStep r operands m = some st →
      let source := fun (k : Nat) (x : Source) => x.index = byte k ∧ operands[byte k]? = some x.operand
      let dest := fun (k : Nat) (w : Dest) => w.index = byte k ∧ operands[byte k]? = some
        (match w.place with
          | .memory f => .memory f
          | .cell i d s => .cell i d s)
      [Rounding.truncate, .halfUp, .halfEven, .ceiling, .floor][byte 1]? = some st.mode ∧
      (st.flag = .negate ↔ flags.getLsbD 0 = true) ∧ (st.flag = .absolute ↔ flags.getLsbD 1 = true) ∧
      st.stopSet = ⟨stopSet.getLsbD 0, stopSet.getLsbD 1, stopSet.getLsbD 2, stopSet.getLsbD 3⟩ ∧
      (stopSet.toNat % 16 ≠ 0 → (byte 4 = 1 → st.stopAction = .endJob) ∧ (byte 4 = 2 → st.stopAction = .endRepeat)) ∧
      st.repeats = byte 6 + 256 * byte 7 ∧
      match st.work with
      | .move x w => op = 1 ∧ source 8 x ∧ dest 11 w
      | .add x y w => op = 2 ∧ source 8 x ∧ source 9 y ∧ dest 11 w
      | .subtract x y w => op = 3 ∧ source 8 x ∧ source 9 y ∧ dest 11 w
      | .multiply x y w => op = 4 ∧ source 8 x ∧ source 9 y ∧ dest 11 w
      | .divide x y none w => op = 5 ∧ byte 10 = 0xFF ∧ source 8 x ∧ source 9 y ∧ dest 11 w
      | .divide x y (some z) w => op = 5 ∧ source 8 x ∧ source 9 y ∧ dest 10 z ∧ dest 11 w
      | .compare x y => op = 6 ∧ source 8 x ∧ source 9 y
      | .check x y z => op = 7 ∧ source 8 x ∧ source 9 y ∧ source 10 z

/-- R74, R75, R76, R87, R139 and R138: the TAKEN entry, its ticket and the hand-over, in one act, or the wait: behind
another appender, for room, or for the ticket. An appender that presents its entries joins the tail of the waiters unless
it already waits, and Intake presents its TAKEN entry once the take counter is no outstanding ticket. The model's
readings: the append is a command of its own (log entry 9), Intake's place is taken when the ticket is free (log entry
10), and at a staging the freed units for which no job was available cease to wait (log entry 12). -/
def Obligations.TakenEntryAssignsTheTicket : Prop :=
  (∀ (s : State) (item : IntakeItem) (v : Verdict), s.control.rst = false → s.control.resetWait = false →
    (s.intake.activity = .taking item ∨ s.intake.activity = .nullTake item) → item.phase = .judged v →
    s.writer.waiters.head? = some .intake → s.writer.buffer.length < 8 →
    s.intake.takeCounter ∉ s.dispatcher.outstanding →
    let ticket := s.intake.takeCounter
    let tag := recordTag item.record
    let s1 : State := { s with
      intake.takeCounter := ticket + 1#32
      writer.buffer := s.writer.buffer ++ [.state ticket item.slot item.priority tag]
      writer.waiters := s.writer.waiters.tail
      writer.table := s.writer.table ++ [⟨ticket, 0, none⟩]
      dispatcher.outstanding := s.dispatcher.outstanding ++ [ticket] }
    (∀ image, v = .valid image → item.aborted = false →
      exec .takenEntryAppend s = .next (State.appended .intake { s1 with
        intake.activity := .idle
        dispatcher.staged := some ⟨⟨ticket, item.slot, tag, item.priority, image⟩, false⟩
        dispatcher.freed := s.dispatcher.freed.take s1.dispatcher.available })) ∧
    ((item.aborted = true ∨ ∀ image, v ≠ .valid image) →
      ∃ activity, exec .takenEntryAppend s =
          .next (State.appended .intake (State.present { s1 with intake.activity := activity } .intake)) ∧
        (s.intake.activity = .taking item → activity = .taking { item with phase := .handing ticket v }) ∧
        (s.intake.activity = .nullTake item → activity = .nullTake { item with phase := .handing ticket v }))) ∧
  (∀ s : State,
    (s.writer.waiters.head? ≠ some .intake ∨ 8 ≤ s.writer.buffer.length ∨
      s.intake.takeCounter ∈ s.dispatcher.outstanding) → exec .takenEntryAppend s = .next s) ∧
  (∀ (s : State) (item : IntakeItem), s.intake.activity = .taking item ∨ s.intake.activity = .nullTake item →
    (∀ v, item.phase = .judged v →
      (s.intake.takeCounter ∈ s.dispatcher.outstanding → s.presentTaken = s) ∧
      (s.intake.takeCounter ∉ s.dispatcher.outstanding → s.presentTaken = s.present .intake)) ∧
    ((∀ v, item.phase ≠ .judged v) → s.presentTaken = s)) ∧
  (∀ s : State, (s.intake.activity = .idle ∨ ∃ k, s.intake.activity = .sweeping k) → s.presentTaken = s) ∧
  ∀ (s : State) (a : Appender),
    (a ∈ s.writer.waiters → s.present a = s) ∧
    (a ∉ s.writer.waiters → s.present a = { s with writer.waiters := s.writer.waiters ++ [a] })

/-- R76, R57, R80, R96 to R98, R116 and R90: the completion items of Intake, the Dispatcher and a unit enter the writer
buffer, and the job leaves the place that held it; behind another appender or without room each waits (R138). A unit that
becomes free stands behind those that became free before it, as far as jobs are available for them: the parked jobs not
marked ending and an eligible staged job (that the others cease to wait: log entry 12). The grant of the free port after
each of the three appends is the model's reading of R134 and R135, since the PORT_GRANT list of 95 does not name them (log
entry 24). -/
def Obligations.CompletionItemsAppended : Prop :=
  (∀ (s : State) (item : IntakeItem) (ticket : Ticket) (v : Verdict), s.control.rst = false →
     s.control.resetWait = false → (s.intake.activity = .taking item ∨ s.intake.activity = .nullTake item) →
     item.phase = .handing ticket v → s.writer.waiters.head? = some .intake → s.writer.buffer.length < 8 →
     ∃ how : JobEnd,
       exec .intakeCompletionAppend s = .next (State.appended .intake { s with
         intake.activity := .idle
         writer.waiters := s.writer.waiters.tail
         writer.buffer := s.writer.buffer ++ [.completion
           ⟨ticket, item.slot, recordTag item.record, item.priority, ⟨how, 0, 0, .empty, none⟩⟩ false] }) ∧
       (∀ reason index, v = .rejected reason index → item.aborted = false → how = .rejected reason index) ∧
       ((item.aborted = true ∨ ∀ reason index, v ≠ .rejected reason index) → how = .aborted)) ∧
  (∀ (s : State) (item : CompletionItem) (rest : List CompletionItem), s.control.rst = false →
     s.control.resetWait = false → s.dispatcher.items = item :: rest → s.writer.waiters.head? = some .dispatcher →
     s.writer.buffer.length < 8 →
     let s1 : State := { s with
       writer.buffer := s.writer.buffer ++ [.completion item false]
       writer.waiters := s.writer.waiters.tail
       dispatcher.items := rest
       dispatcher.staged := s.dispatcher.staged.filter fun st => !(st.ending && st.job.ticket = item.ticket)
       dispatcher.parked := s.dispatcher.parked.filter fun p => !(p.ending && p.job.ticket = item.ticket) }
     (rest = [] → exec .dispatcherCompletionAppend s = .next (State.appended .dispatcher s1)) ∧
     (rest ≠ [] → exec .dispatcherCompletionAppend s = .next (State.appended .dispatcher (s1.present .dispatcher)))) ∧
  (∀ (s : State) (u : UnitId) (item : CompletionItem), s.control.rst = false → s.control.resetWait = false →
     (s.unit u).activity = .ending item → s.writer.waiters.head? = some (.unit u) → s.writer.buffer.length < 8 →
     exec (.unitCompletionAppend u) s = .next (State.appended (.unit u) (State.setUnit { s with
       writer.buffer := s.writer.buffer ++ [.completion item false]
       writer.waiters := s.writer.waiters.tail
       dispatcher.parkRequest :=
         if s.dispatcher.parkRequest.any (·.1 = u) then none else s.dispatcher.parkRequest
       dispatcher.freed := (s.dispatcher.freed ++ [u]).take s.dispatcher.available } u
       { s.unit u with activity := .idle }))) ∧
  (∀ d : Dispatcher,
    d.available = (d.parked.filter fun p => !p.ending).length + (if d.eligible then 1 else 0) ∧
    (d.eligible = true ↔ ∃ st, d.staged = some st ∧ st.ending = false ∧
      (st.job.image.fenced = true → d.outstanding.head? = some st.job.ticket))) ∧
  ∀ s : State,
    (s.writer.waiters.head? ≠ some .intake ∨ 8 ≤ s.writer.buffer.length → exec .intakeCompletionAppend s = .next s) ∧
    (s.writer.waiters.head? ≠ some .dispatcher ∨ 8 ≤ s.writer.buffer.length →
      exec .dispatcherCompletionAppend s = .next s) ∧
    ∀ u, s.writer.waiters.head? ≠ some (.unit u) ∨ 8 ≤ s.writer.buffer.length →
      exec (.unitCompletionAppend u) s = .next s

/-- R175, R84, R101, R122, R147 and R152: a failed read of Intake or a failed state-word, result-area or DONE write halts
every block, with the report in an empty fault record or MORE set; the configuration, CONFIG ADDRESS, the command outcome,
the enables, the take counter, the harvest queue and the holdoff timer are kept; a failed read leaves memory, and a failed
write changes its own bytes at most (R131). -/
def Obligations.FatalFailureHalts : Prop :=
  ∀ (s : State) (tr : Transaction) (c : Instr) (r : FaultReport), s.control.resetWait = false →
    s.port.outstanding = some tr → s.control.loader = none →
    ((c = .intakeBusError ∧ ∃ n b, r = .fatalIntake n b .error ∧
        ((tr.purpose = .sweep n ∧ b = 0) ∨ (tr.purpose = .takeBlock0 n ∧ b = 0) ∨ tr.purpose = .takeBlock n b ∨
          (tr.purpose = .nullTake n ∧ b = 0))) ∨
      (c = .writerFatalBus ∧ ∃ n area, r = .fatalWriter n area .error ∧
        ((area = false ∧ (tr.purpose = .stateWord n ∨ tr.purpose = .doneWord n)) ∨
          (area = true ∧ tr.purpose = .resultArea n)))) →
    ∃ t, exec c s = .next t ∧
      t.control = { s.control with
        state := .halted
        faultRecord := some (s.control.faultRecord.getD r)
        more := s.control.more || s.control.faultRecord.isSome } ∧
      t.intake = ⟨[], [], .idle, false, none, s.intake.takeCounter⟩ ∧
      t.dispatcher = ⟨none, [], [], none, [], []⟩ ∧ t.unit0.activity = .idle ∧ t.unit1.activity = .idle ∧
      t.unit0.parkMark = false ∧ t.unit1.parkMark = false ∧ t.writer = ⟨[], [], [], []⟩ ∧
      t.port = ⟨none, s.port.lastFetch⟩ ∧
      t.notifier = { s.notifier with
        flags.halted := true
        flags.fault := s.notifier.flags.fault || s.control.faultRecord.isNone } ∧
      tr.mayLeave s.memory t.memory

/-! ### Dispatcher -/

/-- R89, R90, R104 and R88: an eligible staged job starts, an URGENT one although parked jobs wait and a NORMAL one when none
does, with fresh cells and outcomes, in the unit that is served: of freed units the one freed first, else Unit 0 before
Unit 1 (the order of freed units with none recorded: log entry 12); a FENCED job waits while a ticket issued before its own
is outstanding, a NORMAL job while a parked job waits, and every job outside RUNNING and DRAINING. -/
def Obligations.StagedJobStarts : Prop :=
  (∀ (s : State) (st : StagedJob) (u : UnitId), s.control.rst = false → s.control.resetWait = false →
     (s.control.state = .running ∨ s.control.state = .draining) → s.dispatcher.staged = some st → st.ending = false →
     (st.job.image.fenced = true → s.dispatcher.outstanding.head? = some st.job.ticket) →
     (st.job.priority = .urgent ∨ ∀ p ∈ s.dispatcher.parked, p.ending = true) → s.servedUnit = some u →
     exec .jobStart s = .next (State.arbitrate (State.beginIteration
       (State.setUnit { s with dispatcher.staged := none, dispatcher.freed := s.dispatcher.freed.erase u } u { s.unit u with
         parkMark := false, cells := Vector.replicate 8 ⟨0, 0⟩, seen := ⟨false, false, false, false⟩, last := none })
       u st.job 0 0))) ∧
  (∀ s : State,
     (s.dispatcher.freed = [] → s.unit0.activity = .idle → s.servedUnit = some .unit0) ∧
     (s.dispatcher.freed = [] → s.unit0.activity ≠ .idle → s.unit1.activity = .idle → s.servedUnit = some .unit1) ∧
     (∀ u rest, s.dispatcher.freed = u :: rest → (s.unit u).activity = .idle →
       (s.dispatcher.eligible = true ∨ ∃ p ∈ s.dispatcher.parked, p.ending = false) → s.servedUnit = some u) ∧
     (s.unit0.activity ≠ .idle → s.unit1.activity ≠ .idle → s.servedUnit = none)) ∧
  (∀ (s : State) (st : StagedJob) (t : Ticket), s.dispatcher.staged = some st → st.job.image.fenced = true →
     s.dispatcher.outstanding.head? = some t → t ≠ st.job.ticket →
     exec .jobStart s = .next s ∧ exec .parkRequest s = .next s) ∧
  (∀ (s : State) (st : StagedJob) (p : ParkedJob), s.dispatcher.staged = some st → st.job.priority = .normal →
     p ∈ s.dispatcher.parked → p.ending = false → exec .jobStart s = .next s) ∧
  ∀ s : State, s.control.state ≠ .running → s.control.state ≠ .draining →
    exec .jobStart s = .next s ∧ exec .jobResume s = .next s ∧ exec .parkRequest s = .next s

/-- R90 and R91: with no eligible URGENT job staged, the parked job with the earliest ticket resumes where it stood, in the
unit that is served (StagedJobStarts), a unit freed while it waited among them; with an eligible URGENT job staged none
does. -/
def Obligations.ParkedJobResumes : Prop :=
  (∀ (s : State) (p : ParkedJob) (u : UnitId), s.control.rst = false → s.control.resetWait = false →
    (s.control.state = .running ∨ s.control.state = .draining) → p ∈ s.dispatcher.parked → p.ending = false →
    s.dispatcher.parked.Nodup →
    (∀ q ∈ s.dispatcher.parked, q.ending = false → q ≠ p →
      s.dispatcher.outstanding.idxOf p.job.ticket < s.dispatcher.outstanding.idxOf q.job.ticket) →
    s.dispatcher.urgentReady = false → s.servedUnit = some u →
    exec .jobResume s = .next (State.arbitrate (State.beginIteration
      (State.setUnit { s with
        dispatcher.parked := s.dispatcher.parked.erase p, dispatcher.freed := s.dispatcher.freed.erase u } u { s.unit u with
        parkMark := false, cells := p.cells, seen := p.seen, last := p.last })
      u p.job p.step p.done))) ∧
  (∀ s : State, s.dispatcher.urgentReady = true → exec .jobResume s = .next s) ∧
  ∀ d : Dispatcher, d.urgentReady = true ↔ ∃ st, d.staged = some st ∧ st.ending = false ∧ st.job.priority = .urgent ∧
    (st.job.image.fenced = true → d.outstanding.head? = some st.job.ticket)

/-- R92, R117, R120, R94, R95 and R100: a park request names the unit running a NORMAL job, of two the one with the later
ticket, and marks it when it is ITERATING; in ENDING it lapses; a park moves the whole context to the park buffer, frees
the unit, which stands behind those that became free before it, and answers the request, and in ABORTING the parked job is
at once ended ABORTED. The model's readings: the request reaches its unit in the act that makes it (log entry 13), and
freed units for which no job was available cease to wait (log entry 12). -/
def Obligations.Parking : Prop :=
  (∀ (s : State) (st : StagedJob) (u : UnitId) (ticket : Ticket),
     s.control.rst = false → s.control.resetWait = false →
     (s.control.state = .running ∨ s.control.state = .draining) → s.dispatcher.staged = some st → st.ending = false →
     st.job.priority = .urgent →
     (st.job.image.fenced = true → s.dispatcher.outstanding.head? = some st.job.ticket) →
     s.dispatcher.parkRequest = none → s.dispatcher.parked.length < 2 → (s.unit u).runs? = some (ticket, .normal) →
     (∃ other ticket' priority, other ≠ u ∧ (s.unit other).runs? = some (ticket', priority) ∧
       (priority = .normal →
         s.dispatcher.outstanding.idxOf ticket' < s.dispatcher.outstanding.idxOf ticket)) →
     (∀ job step done phase, (s.unit u).activity = .iterating job step done phase →
       exec .parkRequest s = .next (State.setUnit { s with dispatcher.parkRequest := some (u, ticket) } u
         { s.unit u with parkMark := true })) ∧
     (∀ item, (s.unit u).activity = .ending item →
       exec .parkRequest s = .next { s with dispatcher.parkRequest := some (u, ticket) })) ∧
  (∀ (s : State) (u : UnitId) (job : Job) (step done : Nat) (ticket : Ticket),
     s.dispatcher.parkRequest = some (u, ticket) →
     let c := s.unit u
     let context : ParkedJob := ⟨job, step, done, c.cells, c.seen, c.last, false⟩
     let s1 : State := State.setUnit { s with
       dispatcher.parked := s.dispatcher.parked ++ [context], dispatcher.parkRequest := none
       dispatcher.freed := s.dispatcher.freed.take s.dispatcher.available ++ [u] } u
       { c with activity := .idle, parkMark := false }
     (s.control.state ≠ .aborting → s.park u job step done = s1) ∧
     (s.control.state = .aborting → s.park u job step done = State.present { s1 with
       dispatcher.parked := s1.dispatcher.parked.map fun q =>
         if q.job.ticket = job.ticket then { q with ending := true } else q
       dispatcher.items := s.dispatcher.items ++
         [⟨job.ticket, job.slot, job.tag, job.priority, ⟨.aborted, step, done, c.seen, c.last⟩⟩] } .dispatcher))

/-! ### Units -/

/-- R107 and R127: the address of a MEMORY operand in iteration i is base + i × stride modulo 2^32; a range is accepted
exactly when one window grants the access and holds every byte of it. -/
def Obligations.AddressesAndWindows : Prop :=
  (∀ (f : MemField) (i : Nat), (f.addressAt i : Int) = ((f.address.toNat : Int) + i * f.stride.toInt) % 2 ^ 32) ∧
  (∀ (windows : List Window) (access : Access) (a size : Nat), 1 ≤ size →
     (windowsAccept windows access a size = true ↔
       ∃ w ∈ windows, (access = .read → w.read = true) ∧ (access = .write → w.write = true) ∧
         w.base.toNat ≤ a ∧ a + size - 1 ≤ w.base.toNat + w.length.toNat - 1 ∧ 1 ≤ w.length.toNat ∧
         a + size - 1 ≤ 0xFFFFFFFF))

/-- R108, R110, R129, R112 and R116: the questions of an iteration, reads in reference order and then writes, an entry named
twice as a source at its first reference only; the first refused range ends the job FAULTED WINDOW; else the memory
sources are fetched, each part of one that crosses a block line by itself, and without any the computation follows at
once, in the same command (log entry 8). The windows asked are those of the loaded configuration (R124); without one there
are none (log entry 25). -/
def Obligations.IterationBegins : Prop :=
  (∀ s : State, (∀ c, s.control.config = some c → s.windows = c.windows) ∧
    (s.control.config = none → s.windows = [])) ∧
  (∀ (x y z : Source) (w v : Dest),
    (Work.move x w).sources = [x] ∧ (Work.add x y w).sources = [x, y] ∧ (Work.subtract x y w).sources = [x, y] ∧
    (Work.multiply x y w).sources = [x, y] ∧ (∀ zd, (Work.divide x y zd w).sources = [x, y]) ∧
    (Work.compare x y).sources = [x, y] ∧ (Work.check x y z).sources = [x, y, z] ∧
    (Work.move x w).dests = [w] ∧ (Work.add x y w).dests = [w] ∧ (Work.subtract x y w).dests = [w] ∧
    (Work.multiply x y w).dests = [w] ∧ (Work.divide x y none w).dests = [w] ∧
    (Work.divide x y (some v) w).dests = [w, v] ∧ (Work.compare x y).dests = [] ∧ (Work.check x y z).dests = []) ∧
  (∀ (work : Work) (i : Nat),
    let reads : List Question := work.sources.zipIdx.filterMap fun p =>
      match p.1.operand with
      | .memory f =>
        if (work.sources.take p.2).any fun q => q.index = p.1.index && (q.operand matches .memory _) then none
        else some ⟨p.1.index, f.addressAt i, f.size, .read⟩
      | .cell _ _ _ | .literal _ => none
    questions work i = reads ++ work.dests.filterMap (fun d =>
      match d.place with
      | .memory f => some ⟨d.index, f.addressAt i, f.size, .write⟩
      | .cell _ _ _ => none) ∧
    fetchReads work i = reads.flatMap fun q =>
      let lower := 64 - q.address % 64
      if q.size ≤ lower then [⟨q.index, q.address, q.size, q.address, q.size⟩]
      else [⟨q.index, q.address, q.size, q.address, lower⟩,
        ⟨q.index, q.address, q.size, q.address + lower, q.size - lower⟩]) ∧
  (∀ (windows : List Window) (before after : List Question) (q : Question),
    let accepted := fun p : Question => windowsAccept windows p.access p.address p.size = true
    (∀ p ∈ before, accepted p) → firstRefused windows before = none ∧
      (¬accepted q → firstRefused windows (before ++ q :: after) = some q.index)) ∧
  ∀ (s : State) (u : UnitId) (job : Job) (step done : Nat) (st : Step), job.image.steps[step]? = some st →
    (∀ index, firstRefused s.windows (questions st.work done) = some index →
      s.beginIteration u job step done = State.present (s.setUnit u { s.unit u with
        parkMark := false
        activity := .ending ⟨job.ticket, job.slot, job.tag, job.priority,
          ⟨.faulted .window (some index), step, done, (s.unit u).seen, (s.unit u).last⟩⟩ }) (.unit u)) ∧
    (firstRefused s.windows (questions st.work done) = none →
      (∀ r rs, fetchReads st.work done = r :: rs →
        s.beginIteration u job step done =
          s.setUnit u { s.unit u with activity := .iterating job step done (.fetching (r :: rs) []) }) ∧
      (fetchReads st.work done = [] →
        s.beginIteration u job step done =
          s.computed u job step done st (computeStep st (sourceValue (s.unit u).cells [] none))))

/-- R110, R118, R16, R18, R8, R111 and R112: a fetcher's read ends OK: the next read, or the computation after the last; the
read of an abandoned iteration is discarded. What the computation takes as a source's value: a literal, a cell as the unit
holds it, or the field decoded from the bytes its reads brought, lower part first. What its end leads to: a fault ends the
job, results with entries wait for room, and results with none are issued. The model's readings: the computation is part
of the command that ends the last read, results with no entries, those of cell destinations among them, are issued in
that same command (log entry 8) and behind no earlier waiter (log entry 9), and the port that the read's end frees is
granted once, after all of that (log entry 28). Where the computation's entries join the buffer at once, the port stays
free for the issue, whose command grants it (log entry 30; IterationIssues, PortArbiter). -/
def Obligations.FetchReadEnds : Prop :=
  (∀ (s : State) (host : HostWrites) (u : UnitId) (job : Job) (step done n : Nat) (r : FieldRead) (rs : List FieldRead)
    (got : List (Nat × List Byte)) (st : Step) (tr : Transaction), s.control.resetWait = false →
    s.port.outstanding = some tr → tr.purpose = .source u → tr.transfer = .read n →
    (s.unit u).activity = .iterating job step done (.fetching (r :: rs) got) → job.image.steps[step]? = some st →
    let memory := Memory.hostWrote s.memory host
    let s1 : State := { s with port.outstanding := none, memory := memory }
    let got1 := addRead got r.index (Memory.readBytes memory tr.address n)
    (tr.abandoned = true → exec (.fetchReadDone host) s = .next (s.portFreed s1)) ∧
    (tr.abandoned = false → rs ≠ [] →
      exec (.fetchReadDone host) s = .next (s.portFreed (s1.setUnit u { s.unit u with
        activity := .iterating job step done (.fetching rs got1) }))) ∧
    (tr.abandoned = false → rs = [] →
      exec (.fetchReadDone host) s = .next (s.portFreed
        (s1.computed u job step done st (computeStep st (sourceValue (s.unit u).cells got1 none))))) ∧
    ∀ c : Computed, tr.abandoned = false → rs = [] → s.control.rst = false →
      computeStep st (sourceValue (s.unit u).cells got1 none) = .ok c → (c.result done).writes ≠ [] →
      s.writer.waiters = [] → s.writer.buffer.length + (c.result done).writes.length ≤ 8 →
      ∃ t, exec (.fetchReadDone host) s = .next t ∧ t.port.outstanding = none ∧ t.writer.waiters = [.unit u] ∧ t.writer.joining = [.unit u] ∧
        (t.unit u).activity = .iterating job step done (.issuing (c.result done))) ∧
  (∀ (cells : Cells) (got : List (Nat × List Byte)) (failed : Option Nat) (index : Nat),
    (∀ v, sourceValue cells got failed ⟨index, .literal v⟩ = .ok v) ∧
    (∀ i n s, sourceValue cells got failed ⟨index, .cell i n s⟩ = .ok cells[i]) ∧
    ∀ f : MemField,
      (failed = some index → sourceValue cells got failed ⟨index, .memory f⟩ = .error ⟨.busError, index⟩) ∧
      (failed ≠ some index →
        (∀ v, readField f.format f.digits f.scale (readBytesOf got index) = .ok v →
          sourceValue cells got failed ⟨index, .memory f⟩ = .ok v) ∧
        ∀ kind, readField f.format f.digits f.scale (readBytesOf got index) = .error kind →
          sourceValue cells got failed ⟨index, .memory f⟩ = .error ⟨kind, index⟩)) ∧
  (∀ (got : List (Nat × List Byte)) (index k : Nat) (bytes : List Byte),
    readBytesOf [] k = [] ∧
    readBytesOf (addRead got index bytes) k = if k = index then readBytesOf got k ++ bytes else readBytesOf got k) ∧
  ∀ (s : State) (u : UnitId) (job : Job) (step done : Nat) (st : Step),
    (∀ f : IterFault, s.computed u job step done st (.error f) = State.present (s.setUnit u { s.unit u with
      parkMark := false
      activity := .ending ⟨job.ticket, job.slot, job.tag, job.priority,
        ⟨.faulted f.kind (some f.index), step, done, (s.unit u).seen, (s.unit u).last⟩⟩ }) (.unit u)) ∧
    ∀ c : Computed,
      ((c.result done).writes ≠ [] → s.computed u job step done st (.ok c) = State.present (s.setUnit u { s.unit u with
        activity := .iterating job step done (.issuing (c.result done)) }) (.unit u)) ∧
      ((c.result done).writes = [] →
        s.computed u job step done st (.ok c) = s.issue u job step done st (c.result done))

/-- R112, R113, R114, R115, R117 and R15: the entries of an iteration, a destination field in one entry for each block it
lies in, and the new values of its cells; the wait for room; the issue act, the stop test and what follows at the
boundary. The Writer that an issue brings to 6 entries or more is in demand at the grant that follows (R134), and below 6
entries it is granted when no other requester waits (R135), whatever the next iteration has to append. The model's: the
port is granted once, after the next iteration's begin (log entry 28), but for other entries that joined as it became free
(log entry 30); an issue with no entry never waits (log entry 9) and follows its computation in the same command (log entry 8,
FetchReadEnds). -/
def Obligations.IterationIssues : Prop :=
  (∀ (s : State) (u : UnitId) (job : Job) (step done : Nat) (st : Step) (r : IterResult), s.control.rst = false →
    s.control.resetWait = false → (s.unit u).activity = .iterating job step done (.issuing r) →
    job.image.steps[step]? = some st →
    ((r.writes = [] ∨
        s.writer.waiters.head? = some (.unit u) ∧ s.writer.buffer.length + r.writes.length ≤ 8) →
      exec (.iterationIssue u) s = .next (State.appended (.unit u) (s.issue u job step done st r))) ∧
    (r.writes ≠ [] → (s.writer.waiters.head? ≠ some (.unit u) ∨ 8 < s.writer.buffer.length + r.writes.length) →
      exec (.iterationIssue u) s = .next s) ∧
    ∀ tr : Transaction, s.writer.waiters.head? = some (.unit u) →
      s.writer.buffer.length + r.writes.length ≤ 8 → s.port.outstanding = none →
      (s.writer.joining = [] ∨ s.writer.joining = [.unit u]) →
      let s1 := s.issue u job step done st r
      s1.writerRequest = some tr →
      (6 ≤ s.writer.buffer.length + r.writes.length ∨
        (s1.loaderRequest = none ∧ s1.intakeRequest = none ∧ s1.fetchRequest .unit0 = none ∧
          s1.fetchRequest .unit1 = none)) →
      ∃ t, exec (.iterationIssue u) s = .next t ∧ t.port.outstanding = some tr) ∧
  (∀ (s : State) (u : UnitId) (job : Job) (step done : Nat) (st : Step) (r : IterResult),
    let seen : OutcomeSet := (s.unit u).seen.add r.outcome
    let c : CalcUnit := { s.unit u with
      cells := r.cellWrites.foldl (fun cs w => cs.set w.1 w.2) (s.unit u).cells
      seen := seen, last := some r.outcome }
    let s1 : State := State.setUnit { s with
      writer.buffer := s.writer.buffer ++ r.writes.map (.destination job.ticket step done)
      writer.waiters := s.writer.waiters.erase (.unit u) } u c
    let fires : Prop :=
      (r.outcome.sign = .negative ∧ st.stopSet.negative = true) ∨ (r.outcome.sign = .zero ∧ st.stopSet.zero = true) ∨
      (r.outcome.sign = .positive ∧ st.stopSet.positive = true) ∨
      (r.outcome.inexact = true ∧ st.stopSet.inexact = true)
    let ended := fun how => State.present (s1.setUnit u { c with
      parkMark := false
      activity := .ending ⟨job.ticket, job.slot, job.tag, job.priority, ⟨how, step, done + 1, seen, some r.outcome⟩⟩ })
      (.unit u)
    let goesOn := fun step' done' =>
      if c.parkMark then s1.park u job step' done' else s1.beginIteration u job step' done'
    (fires → st.stopAction = .endJob → s.issue u job step done st r = ended .stopped) ∧
    ((fires ∧ st.stopAction = .endRepeat) ∨ (¬fires ∧ st.repeats ≤ done + 1) →
      (step + 1 < job.image.steps.length → s.issue u job step done st r = goesOn (step + 1) 0) ∧
      (job.image.steps.length ≤ step + 1 → s.issue u job step done st r = ended .ok)) ∧
    (¬fires → done + 1 < st.repeats → s.issue u job step done st r = goesOn step (done + 1))) ∧
  (∀ (o : OutcomeSet) (x : IterOutcome), o.add x =
    ⟨o.negative || x.sign = .negative, o.zero || x.sign = .zero, o.positive || x.sign = .positive,
      o.inexact || x.inexact⟩) ∧
  ∀ (c : Computed) (d : Delivery) (i : Nat),
    c.result i = ⟨c.deliveries.flatMap (·.writes i), c.deliveries.filterMap (·.cellWrite), c.outcome⟩ ∧
    (∀ index n scale, d.dest.place = .cell index n scale →
      d.writes i = [] ∧ d.cellWrite = some (index, ⟨d.coef, scale⟩)) ∧
    ∀ f : MemField, d.dest.place = .memory f →
      let a := f.addressAt i
      let bytes := writeField f.format f.digits d.coef
      let lower := 64 - a % 64
      d.cellWrite = none ∧
      (bytes.length ≤ lower → d.writes i = [⟨a, bytes⟩]) ∧
      (lower < bytes.length → d.writes i = [⟨a, bytes.take lower⟩, ⟨a + lower, bytes.drop lower⟩])

/-- R118, R120 and R121: an abort reaches a unit: an iterating unit ends its job ABORTED where it stands, a pending end
becomes ABORTED, an idle unit is unaffected. -/
def Obligations.AbortReachesTheUnit : Prop :=
  ∀ (s : State) (u : UnitId), s.control.rst = false → s.control.resetWait = false → (s.unit u).abortDue = true →
    let c : CalcUnit := { s.unit u with abortDue := false }
    ((s.unit u).activity = .idle → exec (.unitAbortArrival u) s = .next (s.setUnit u c)) ∧
    (∀ item, (s.unit u).activity = .ending item →
      exec (.unitAbortArrival u) s = .next (s.setUnit u { c with
        activity := .ending { item with info := { item.info with how := .aborted } } })) ∧
    ∀ job step done phase, (s.unit u).activity = .iterating job step done phase →
      ∃ o, exec (.unitAbortArrival u) s = .next (State.present (State.setUnit { s with port.outstanding := o } u { c with
          parkMark := false
          activity := .ending ⟨job.ticket, job.slot, job.tag, job.priority,
            ⟨.aborted, step, done, (s.unit u).seen, (s.unit u).last⟩⟩ }) (.unit u)) ∧
        (∀ tr, s.port.outstanding = some tr → tr.purpose = .source u → o = some { tr with abandoned := true }) ∧
        ((∀ tr, s.port.outstanding = some tr → tr.purpose ≠ .source u) → o = s.port.outstanding)

/-! ### Memory Port and Result Writer -/

/-- R131, R134, R135, R109, R132, R133, R141, R41, R42, R140 and R144: what each requester asks for; whom the arbiter grants
and what a grant changes: the port alone, and at the head of the buffer the entries that are discarded, the port free or
not; no grant while a transaction is outstanding, and neither while a reset waits. The occupancy at the grant of a port that
becomes free counts the entries that join the buffer at that moment (R138). The model's: their appends are commands of their
own, so the grant waits for them where a waiter could not join before, and for no other append (log entry 30); who joins, and
what each appender has to append. (Without a loaded configuration Intake and the Writer ask for nothing: log entry 25.) -/
def Obligations.PortArbiter : Prop :=
  (∀ s : State,
     (∀ tr, s.writerRequest = some tr → 6 ≤ s.writer.buffer.length → s.arbiterChoice = some tr) ∧
     ((s.writerRequest = none ∨ s.writer.buffer.length < 6) →
       (∀ tr, s.loaderRequest = some tr → s.arbiterChoice = some tr) ∧
       (s.loaderRequest = none → ∀ tr, s.intakeRequest = some tr → s.arbiterChoice = some tr) ∧
       (s.loaderRequest = none → s.intakeRequest = none →
         (∀ t0 t1, s.fetchRequest .unit0 = some t0 → s.fetchRequest .unit1 = some t1 →
           (s.port.lastFetch = some .unit0 → s.arbiterChoice = some t1) ∧
           (s.port.lastFetch ≠ some .unit0 → s.arbiterChoice = some t0)) ∧
         (∀ t0, s.fetchRequest .unit0 = some t0 → s.fetchRequest .unit1 = none → s.arbiterChoice = some t0) ∧
         (∀ t1, s.fetchRequest .unit0 = none → s.fetchRequest .unit1 = some t1 → s.arbiterChoice = some t1) ∧
         (s.fetchRequest .unit0 = none → s.fetchRequest .unit1 = none → s.arbiterChoice = s.writerRequest))) ∧
     ∀ (u : UnitId) (job : Job) (step done : Nat) (r : FieldRead) (rs : List FieldRead) (got : List (Nat × List Byte)),
       (s.unit u).activity = .iterating job step done (.fetching (r :: rs) got) →
       (s.fetchRequest u = none ↔ ∃ i j w, WriterEntry.destination job.ticket i j w ∈ s.writer.buffer ∧
         w.address < r.rangeStart + r.rangeSize ∧ r.rangeStart < w.address + w.bytes.length) ∧
       ∀ tr, s.fetchRequest u = some tr → tr = ⟨.source u, r.address, .read r.size, false⟩) ∧
  (∀ s : State,
     (s.control.loader = none → s.loaderRequest = none) ∧
     (∀ l, s.control.loader = some l →
       s.loaderRequest = some ⟨.config l.block, l.address.toNat + 64 * l.block.val, .read 64, false⟩) ∧
     ∀ c, s.control.config = some c →
       let slotAt := fun n : Slot => c.slotBase.toNat + 512 * n.val
       let word := fun (code : Byte) (priority : Priority) (tag : Tag) =>
         [code, if priority = .urgent then 1#8 else 0#8, tag.extractLsb' 0 8, tag.extractLsb' 8 8]
       (s.intake.activity = .idle → s.intakeRequest = none) ∧
       (∀ n, s.intake.activity = .sweeping n → s.intakeRequest = some ⟨.sweep n, slotAt n, .read 64, false⟩) ∧
       (∀ item, s.intake.activity = .taking item →
         (item.phase = .block0 →
           s.intakeRequest = some ⟨.takeBlock0 item.slot, slotAt item.slot, .read 64, false⟩) ∧
         (∀ b later, item.phase = .further b later →
           s.intakeRequest = some ⟨.takeBlock item.slot b, slotAt item.slot + 64 * b, .read 64, false⟩) ∧
         (∀ v, item.phase = .judged v → s.intakeRequest = none) ∧
         ∀ t v, item.phase = .handing t v → s.intakeRequest = none) ∧
       (∀ item, s.intake.activity = .nullTake item →
         (item.phase = .block0 →
           s.intakeRequest = some ⟨.nullTake item.slot, slotAt item.slot, .read 64, false⟩) ∧
         (item.phase ≠ .block0 → s.intakeRequest = none)) ∧
       (s.writer.buffer = [] → s.writerRequest = none) ∧
       (∀ t n p tag rest, s.writer.buffer = .state t n p tag :: rest →
         s.writerRequest = some ⟨.stateWord n, slotAt n, .write (word 2#8 p tag), false⟩) ∧
       (∀ t i j w rest, s.writer.buffer = .destination t i j w :: rest →
         (s.writer.failure? t = none → s.writerRequest = some ⟨.destination, w.address, .write w.bytes, false⟩) ∧
         (s.writer.failure? t ≠ none → s.writerRequest = none)) ∧
       ∀ item rest,
         (s.writer.buffer = .completion item false :: rest → s.writerRequest =
           some ⟨.resultArea item.slot, slotAt item.slot + 464, .write (s.writer.resultArea item), false⟩) ∧
         (s.writer.buffer = .completion item true :: rest → s.writerRequest =
           some ⟨.doneWord item.slot, slotAt item.slot, .write (word 3#8 item.priority item.tag), false⟩)) ∧
  (∀ s : State,
     (∀ tr, s.port.outstanding = some tr → s.arbitrate.port = s.port) ∧
     (∀ tr n, s.port.outstanding = some tr → (tr.purpose = .stateWord n ∨ tr.purpose = .destination ∨
         tr.purpose = .resultArea n ∨ tr.purpose = .doneWord n) → s.arbitrate = s) ∧
     (s.control.rst = true ∨ s.control.resetWait = true → s.arbitrate = s) ∧
     ∃ dropped kept, s.writer.buffer = dropped ++ kept ∧
       (∀ e ∈ dropped, ∃ t i j w, e = .destination t i j w ∧ (s.writer.failure? t).isSome = true) ∧
       s.arbitrate = { s with port := s.arbitrate.port, writer.buffer := kept } ∧
       (s.control.rst = false → s.control.resetWait = false →
         (∀ tr, s.port.outstanding = some tr → ∀ n, tr.purpose ≠ .stateWord n ∧ tr.purpose ≠ .destination ∧
           tr.purpose ≠ .resultArea n ∧ tr.purpose ≠ .doneWord n) →
         ∀ t i j w rest, kept = .destination t i j w :: rest → s.writer.failure? t = none) ∧
       (s.writer.joining ≠ [] → s.arbitrate.port = s.port) ∧
       (s.control.rst = false → s.control.resetWait = false → ∀ before : State,
         let joiners := State.joiners { s with writer.buffer := kept }
         before.portFreed s = State.arbitrate { s with
           writer.joining := if before.joiners.length < joiners.length then joiners else [] }) ∧
       (s.port.outstanding = none → s.control.rst = false → s.control.resetWait = false → s.writer.joining = [] →
         s.arbitrate.port.outstanding = State.arbiterChoice { s with writer.buffer := kept } ∧
         s.arbitrate.port.lastFetch =
           match State.arbiterChoice { s with writer.buffer := kept } with
           | some ⟨.source u, _, _, _⟩ => some u
           | _ => s.port.lastFetch)) ∧
  (∀ s : State,
     (∀ before : State, ∃ joining, before.portFreed s = State.arbitrate { s with writer.joining := joining }) ∧
     (∀ a, s.appended a = State.arbitrate { s with writer.joining := s.writer.joining.erase a }) ∧
     ∃ rest, s.writer.waiters = s.joiners ++ rest ∧
       let room := 8 - s.writer.buffer.length
       let taken := (s.joiners.map fun a => (s.entriesDue a).getD 0).sum
       (∀ a ∈ s.joiners, s.entriesDue a ≠ none) ∧ taken ≤ room ∧
       ∀ a more n, rest = a :: more → s.entriesDue a = some n → room < taken + n) ∧
  ∀ s : State,
     (∀ item, s.intake.activity = .taking item ∨ s.intake.activity = .nullTake item →
       (∀ t v, item.phase = .handing t v → s.entriesDue .intake = some 1) ∧
       (∀ v, item.phase = .judged v →
         s.entriesDue .intake = if s.intake.takeCounter ∈ s.dispatcher.outstanding then none else some 1) ∧
       (item.phase = .block0 ∨ (∃ b later, item.phase = .further b later) → s.entriesDue .intake = none)) ∧
     (s.intake.activity = .idle ∨ (∃ n, s.intake.activity = .sweeping n) → s.entriesDue .intake = none) ∧
     (s.entriesDue .dispatcher = if s.dispatcher.items = [] then none else some 1) ∧
     ∀ u,
       (∀ job step done r, (s.unit u).activity = .iterating job step done (.issuing r) →
         s.entriesDue (.unit u) = some r.writes.length) ∧
       (∀ item, (s.unit u).activity = .ending item → s.entriesDue (.unit u) = some 1) ∧
       ((s.unit u).activity = .idle ∨
           (∃ job step done rs got, (s.unit u).activity = .iterating job step done (.fetching rs got)) →
         s.entriesDue (.unit u) = none)

/-- R131: a successful write leaves all its bytes in memory and no other byte changes; the bytes
read back as written, and memory stays canonical. -/
def Obligations.WritesReachMemory : Prop :=
  ∀ (m : Memory) (a : Nat) (bytes : List Byte), Memory.wf m →
    Memory.readBytes (Memory.writeBytes m a bytes) a bytes.length = bytes ∧
    (∀ b, b < a ∨ a + bytes.length ≤ b → Memory.read (Memory.writeBytes m a bytes) b = Memory.read m b) ∧
    Memory.wf (Memory.writeBytes m a bytes)

/-- R140, R141, R144 and R149: what the end of each write does: entries leave in order, a destination write is counted, the
DONE word follows the result area, and after it the ticket is released and the slot joins the harvest queue with the status
written (R143, R149: ResultAreaComposed); Intake, if it waits for a ticket, presents its entry then (log entry 10), and freed units for which no job was available before the
release cease to wait (log entry 12). -/
def Obligations.WritesEndOk : Prop :=
  (∀ (s : State) (tr : Transaction) (bytes : List Byte) (rest : List WriterEntry), s.control.resetWait = false →
     s.port.outstanding = some tr → tr.transfer = .write bytes →
     let s1 : State := { s with
       port.outstanding := none, memory := Memory.writeBytes s.memory tr.address bytes, writer.buffer := rest }
     (∀ n t k p tag, tr.purpose = .stateWord n → s.writer.buffer = .state t k p tag :: rest →
       exec .stateWriteDone s = .next (s.portFreed s1)) ∧
     (∀ t i j w, tr.purpose = .destination → s.writer.buffer = .destination t i j w :: rest →
       exec .destinationWriteDone s = .next (s.portFreed { s1 with
         writer.table := s.writer.table.map fun r => if r.ticket = t then { r with count := r.count + 1 } else r }))) ∧
  (∀ (s : State) (tr : Transaction) (bytes : List Byte) (item : CompletionItem) (area : Bool) (rest : List WriterEntry),
     s.control.resetWait = false → s.port.outstanding = some tr → tr.transfer = .write bytes →
     s.writer.buffer = .completion item area :: rest →
     let memory := Memory.writeBytes s.memory tr.address bytes
     (∀ n, tr.purpose = .resultArea n →
       exec .resultAreaWriteDone s = .next (s.portFreed { s with
         port.outstanding := none, memory := memory, writer.buffer := .completion item true :: rest })) ∧
     (∀ n, tr.purpose = .doneWord n →
       exec .doneWriteDone s = .next (s.portFreed (State.presentTaken { s with
           port.outstanding := none, memory := memory, writer.buffer := rest
           writer.table := s.writer.table.filter fun r => r.ticket ≠ item.ticket
           dispatcher.outstanding := s.dispatcher.outstanding.erase item.ticket
           dispatcher.freed := s.dispatcher.freed.take s.dispatcher.available
           notifier := { s.notifier with
             harvest := s.notifier.harvest ++ [⟨item.slot, s.writer.writtenStatus item, item.tag⟩]
             flags.finish :=
               s.notifier.flags.finish || decide (s.notifier.threshold ≤ s.notifier.harvest.length + 1)
             holdoffTimer :=
               if s.notifier.harvest = [] ∧ s.notifier.holdoff ≠ 0 then some s.notifier.holdoff
               else s.notifier.holdoffTimer } })))) ∧
  ∀ (w : Writer) (item : CompletionItem),
    w.writtenStatus item = (composeEnd item.info (w.failure? item.ticket)).1.how.status

/-- R142, R119, R98 and R131: a failed destination write is recorded once, removes the ticket's other destination entries and
ends the job FAULTED BUS_ERROR in the unit or the park buffer that holds it, whose completion item is presented; a context
already ending stays as it is, and so does the rest of the Dispatcher; memory changes in the write's own bytes at most. That the report reaches unit or park buffer in the very act of the failure is the model's reading (log entry 11). -/
def Obligations.DestinationFailureRecorded : Prop :=
  ∀ (s : State) (tr : Transaction) (t : Ticket) (i j : Nat) (w : DestWrite) (rest : List WriterEntry),
    s.control.resetWait = false → s.port.outstanding = some tr → tr.purpose = .destination →
    s.writer.buffer = .destination t i j w :: rest →
    ∃ t', exec .destinationWriteFail s = .next (s.portFreed t') ∧ t'.port.outstanding = none ∧
      t'.writer.buffer = (rest.filter fun e =>
        match e with
        | .destination ticket _ _ _ => ticket ≠ t
        | _ => true) ∧
      (t'.writer.table = s.writer.table.map fun r =>
        if r.ticket = t then { r with failure := some (r.failure.getD (i, j)) } else r) ∧
      t'.control = s.control ∧ t'.intake = s.intake ∧ t'.notifier = s.notifier ∧
      tr.mayLeave s.memory t'.memory ∧
      (∀ u, (∀ job step done phase, (s.unit u).activity = .iterating job step done phase → job.ticket ≠ t) →
        t'.unit u = s.unit u) ∧
      (∀ u job step done phase, (s.unit u).activity = .iterating job step done phase → job.ticket = t →
        t'.unit u = { s.unit u with
          parkMark := false
          activity := .ending ⟨job.ticket, job.slot, job.tag, job.priority,
            ⟨.faulted .busError none, step, done, (s.unit u).seen, (s.unit u).last⟩⟩ }) ∧
      let runs := fun u => match (s.unit u).activity with
        | .iterating job _ _ _ => decide (job.ticket = t)
        | .idle | .ending _ => false
      let presented := fun (waiters : List Appender) (a : Appender) (presents : Bool) =>
        if presents ∧ a ∉ waiters then waiters ++ [a] else waiters
      let units := presented (presented s.writer.waiters (.unit .unit0) (runs .unit0)) (.unit .unit1) (runs .unit1)
      ((∀ p ∈ s.dispatcher.parked, p.job.ticket = t → p.ending = true) →
        t'.dispatcher = s.dispatcher ∧ t'.writer.waiters = units) ∧
      (∀ p ∈ s.dispatcher.parked, p.job.ticket = t → p.ending = false →
        (∀ q ∈ s.dispatcher.parked, q.job.ticket = t → q = p) →
        t'.dispatcher = { s.dispatcher with
          parked := s.dispatcher.parked.map fun q => if q.job.ticket = t then { q with ending := true } else q
          items := s.dispatcher.items ++ [⟨p.job.ticket, p.job.slot, p.job.tag, p.job.priority,
            ⟨.faulted .busError none, p.step, p.done, p.seen, p.last⟩⟩] } ∧
        t'.writer.waiters = presented units .dispatcher true)

/-- R143, R61, R139, R141 and 11.5: the status, kind, index, position and WRITE_LOST of a result area, by the entry's end and
the record's failure, the codes of status, kind, reason and outcomes, and the bytes they take; the record of a ticket is
that of the ticket table. -/
def Obligations.ResultAreaComposed : Prop :=
  [JobStatus.ok, .stopped, .faulted, .aborted, .rejected].map JobStatus.code = [1, 2, 3, 4, 5] ∧
  [FaultKind.invalidDigit, .invalidSign, .overflow, .divideByZero, .unsignedNegative, .window, .busError].map
    FaultKind.code = [1, 2, 3, 4, 5, 6, 7] ∧
  [RejectReason.badVersion, .badCount, .badPriority, .badOperand, .badStep].map RejectReason.code =
    [16, 17, 18, 19, 20] ∧
  (∀ (kind : FaultKind) (reason : RejectReason) (k : Nat) (index : Option Nat),
    (JobEnd.faulted kind index).status = .faulted ∧ (JobEnd.rejected reason index).status = .rejected ∧
    (JobEnd.faulted kind index).reasonCode = kind.code ∧ (JobEnd.rejected reason index).reasonCode = reason.code ∧
    (JobEnd.faulted kind (some k)).indexCode = k ∧ (JobEnd.rejected reason (some k)).indexCode = k ∧
    (JobEnd.faulted kind none).indexCode = 0xFF ∧ (JobEnd.rejected reason none).indexCode = 0xFF) ∧
  [JobEnd.ok, .stopped, .aborted].map (fun how => (how.status, how.reasonCode, how.indexCode)) =
    [(.ok, 0, 0xFF), (.stopped, 0, 0xFF), (.aborted, 0, 0xFF)] ∧
  (∀ o : OutcomeSet, o.bits = (if o.negative then 1 else 0) + (if o.zero then 2 else 0) +
    (if o.positive then 4 else 0) + (if o.inexact then 8 else 0)) ∧
  lastOutcomeByte none = 0 ∧
  (∀ x : IterOutcome, lastOutcomeByte (some x) = 128 + (if x.inexact then 8 else 0) +
    match x.sign with
    | .negative => 1
    | .zero => 2
    | .positive => 4) ∧
  (∀ info : EndInfo, composeEnd info none = (info, false)) ∧
  (∀ (info : EndInfo) (p i : Nat), info.how.status = .ok ∨ info.how.status = .stopped ∨ info.how.status = .faulted →
    composeEnd info (some (p, i)) =
      ({ info with how := .faulted .busError none, step := p, iterations := i }, false)) ∧
  (∀ (info : EndInfo) (p i : Nat), info.how = .aborted → composeEnd info (some (p, i)) = (info, true)) ∧
  (∀ (w : Writer) (t : Ticket),
    (∀ r, w.record? t = some r → r ∈ w.table ∧ r.ticket = t ∧ w.failure? t = r.failure) ∧
    ((∃ r ∈ w.table, r.ticket = t) → ∃ r, w.record? t = some r) ∧
    (w.record? t = none → w.failure? t = none)) ∧
  ∀ (w : Writer) (item : CompletionItem) (r : TicketRecord), w.record? item.ticket = some r →
    item.info.step < 16 → item.info.iterations ≤ 4096 → r.count ≤ 262144 →
    let composed := composeEnd item.info r.failure
    let area := w.resultArea item
    area.length = 48 ∧ area[0]? = some (BitVec.ofNat 8 composed.1.how.status.code) ∧
    area[1]? = some (BitVec.ofNat 8 composed.1.how.reasonCode) ∧
    area[2]? = some (BitVec.ofNat 8 composed.1.how.indexCode) ∧ area[3]? = some (BitVec.ofNat 8 composed.1.step) ∧
    (composed.1.iterations ≤ 4096 → leNat ((area.drop 4).take 2) = composed.1.iterations) ∧
    area[6]? = some (BitVec.ofNat 8 item.info.seen.bits) ∧
    area[7]? = some (BitVec.ofNat 8 (lastOutcomeByte item.info.last)) ∧
    area[8]? = some (BitVec.ofNat 8 composed.2.toNat) ∧ leNat ((area.drop 12).take 4) = item.ticket.toNat ∧
    leNat ((area.drop 16).take 4) = r.count ∧ leNat ((area.drop 20).take 2) = item.tag.toNat ∧
    ∀ k, (9 ≤ k ∧ k < 12) ∨ (22 ≤ k ∧ k < 48) → area[k]? = some 0#8

/-! ### Arithmetic and fields -/

/-- R21, R22, R33 and R34: exact results and flags as numbers, with their scales; COMPARE and CHECK yield an outcome by value,
INEXACT clear, and deliver nothing. -/
def Obligations.ExactResultsAndComparisons : Prop :=
  (∀ x y : Decimal,
     (x.add y).value = x.value + y.value ∧ (x.add y).scale = max x.scale y.scale ∧
     (x.sub y).value = x.value - y.value ∧ (x.sub y).scale = max x.scale y.scale ∧
     (x.mul y).value = x.value * y.value ∧ (x.mul y).scale = x.scale + y.scale ∧
     (ResultFlag.negate.apply x).value = -x.value ∧ (ResultFlag.absolute.apply x).value = |x.value| ∧
     (ResultFlag.plain.apply x).value = x.value) ∧
  (∀ (st : Step) (x y z : Source) (vx vy vz : Decimal) (value : Source → Except IterFault Decimal),
     value x = .ok vx → value y = .ok vy → value z = .ok vz →
     (st.work = .compare x y →
       computeStep st value = .ok ⟨[], ⟨classOf (vx.value - vy.value), false⟩⟩) ∧
     (st.work = .check x y z →
       computeStep st value = .ok ⟨[], ⟨
         if vx.value < vy.value then .negative else if vz.value < vx.value then .positive else .zero, false⟩⟩))

/-- R23, R24, R25 and R29: a rounded value or quotient is the whole number of last places that the mode's direction on the
number line gives, and INEXACT says that it differs from the exact value. -/
def Obligations.RoundingFollowsTheNumberLine : Prop :=
  (∀ (mode : Rounding) (v : Decimal) (s : Nat),
     mode.isWholeNear (v.value * 10 ^ s) (roundTo mode v s).coef ∧
     ((roundTo mode v s).inexact = true ↔ v.value * 10 ^ s ≠ (roundTo mode v s).coef)) ∧
  (∀ (mode : Rounding) (x y : Decimal) (s : Nat), y.coef ≠ 0 →
     mode.isWholeNear (x.value / y.value * 10 ^ s) (roundQuotient mode x y s).coef ∧
     ((roundQuotient mode x y s).inexact = true ↔ x.value / y.value * 10 ^ s ≠ (roundQuotient mode x y s).coef))

/-- R26 and R27: a rounded coefficient fits n digits at scale s when its magnitude is below 10^n; the fit check comes
first, then the check of the format. -/
def Obligations.DestinationChecks : Prop :=
  (∀ n s (c : Int), s ≤ n → (fits n s c = true ↔ c.natAbs < 10 ^ n)) ∧
  (∀ i n s (c : Int), (Place.cell i n s).check c = if fits n s c then none else some .overflow) ∧
  ∀ (f : MemField) (c : Int), (Place.memory f).check c =
    if ¬fits f.digits f.scale c then some .overflow
    else if f.format = .unsignedPacked ∧ c < 0 then some .unsignedNegative
    else if f.format = .binary64 ∧ (c < -9223372036854775808 ∨ 9223372036854775807 < c) then some .overflow
    else none

/-- R28, R30, R31 and R32: a zero divisor faults; else the quotient of the adjusted operands goes to W and the remainder
left by the rounded quotient to Z, which is issued first. -/
def Obligations.DivideDelivers : Prop :=
  ∀ (st : Step) (x y : Source) (z : Option Dest) (w : Dest) (vx vy : Decimal)
    (value : Source → Except IterFault Decimal), st.work = .divide x y z w → value x = .ok vx → value y = .ok vy →
    (vy.coef = 0 → computeStep st value = .error ⟨.divideByZero, y.index⟩) ∧
    (vy.coef ≠ 0 →
      let ax : Decimal := if st.flag = .negate then vx.neg else if st.flag = .absolute then vx.abs else vx
      let ay : Decimal := if st.flag = .absolute then vy.abs else vy
      let q := roundQuotient st.mode ax ay w.place.scale
      (∀ k, w.place.check q.coef = some k → computeStep st value = .error ⟨k, w.index⟩) ∧
      (w.place.check q.coef = none → z = none →
        computeStep st value = .ok ⟨[⟨w, q.coef⟩], ⟨classOf q.coef, q.inexact⟩⟩) ∧
      ∀ zd, w.place.check q.coef = none → z = some zd →
        ∃ rem : Decimal, rem.value = ax.value - ay.value * (q.coef / 10 ^ w.place.scale) ∧
          rem.scale = max ax.scale (ay.scale + w.place.scale) ∧
          let r := roundTo st.mode rem zd.place.scale
          (∀ k, zd.place.check r.coef = some k → computeStep st value = .error ⟨k, zd.index⟩) ∧
          (zd.place.check r.coef = none →
            computeStep st value = .ok ⟨[⟨zd, r.coef⟩, ⟨w, q.coef⟩], ⟨classOf q.coef, q.inexact || r.inexact⟩⟩))

/-- R19, R21, R27 and R35: MOVE, ADD, SUBTRACT and MULTIPLY deliver the flagged exact result, rounded, to W, with the
sign class of the written value. -/
def Obligations.ArithmeticDelivers : Prop :=
  ∀ (st : Step) (x y : Source) (w : Dest) (vx vy exact : Decimal) (value : Source → Except IterFault Decimal),
    value x = .ok vx → value y = .ok vy →
    ((st.work = .move x w ∧ exact = vx) ∨ (st.work = .add x y w ∧ exact = vx.add vy) ∨
      (st.work = .subtract x y w ∧ exact = vx.sub vy) ∨ (st.work = .multiply x y w ∧ exact = vx.mul vy)) →
    let r := roundTo st.mode (st.flag.apply exact) w.place.scale
    (∀ k, w.place.check r.coef = some k → computeStep st value = .error ⟨k, w.index⟩) ∧
    (w.place.check r.coef = none →
      computeStep st value = .ok ⟨[⟨w, r.coef⟩], ⟨classOf r.coef, r.inexact⟩⟩)

/-- R8, R38, R111, R116 and R118: the first source in reference order that fails decides the fault; a failed source read faults
the iteration BUS_ERROR when the sources before it decode, and with the fault of the first that does not when one fails to;
the failure of an abandoned read ends its transaction only. -/
def Obligations.FirstFailureDecides : Prop :=
  (∀ (st : Step) (value : Source → Except IterFault Decimal) (before after : List Source) (src : Source)
     (f : IterFault), st.work.sources = before ++ src :: after → (∀ b ∈ before, ∃ v, value b = .ok v) →
     value src = .error f → computeStep st value = .error f) ∧
  (∀ (s : State) (u : UnitId) (job : Job) (step done n : Nat) (r : FieldRead) (rs : List FieldRead)
     (got : List (Nat × List Byte)) (st : Step) (before : List Source) (src : Source) (after : List Source)
     (f : MemField) (tr : Transaction), s.control.resetWait = false → s.port.outstanding = some tr →
     tr.purpose = .source u → tr.abandoned = false → tr.transfer = .read n →
     (s.unit u).activity = .iterating job step done (.fetching (r :: rs) got) → job.image.steps[step]? = some st →
     st.work.sources = before ++ src :: after → src.index = r.index → src.operand = .memory f →
     (∀ b ∈ before, ∃ v, sourceValue (s.unit u).cells got (some r.index) b = .ok v) →
     exec .fetchBusError s = .next (s.portFreed (State.present
       (State.setUnit { s with port.outstanding := none } u { s.unit u with
         parkMark := false
         activity := .ending ⟨job.ticket, job.slot, job.tag, job.priority,
           ⟨.faulted .busError (some r.index), step, done, (s.unit u).seen, (s.unit u).last⟩⟩ }) (.unit u)))) ∧
  (∀ (s : State) (u : UnitId) (job : Job) (step done n : Nat) (r : FieldRead) (rs : List FieldRead)
     (got : List (Nat × List Byte)) (st : Step) (before : List Source) (src : Source) (after : List Source)
     (fault : IterFault) (tr : Transaction), s.control.resetWait = false → s.port.outstanding = some tr →
     tr.purpose = .source u → tr.abandoned = false → tr.transfer = .read n →
     (s.unit u).activity = .iterating job step done (.fetching (r :: rs) got) → job.image.steps[step]? = some st →
     st.work.sources = before ++ src :: after →
     (∀ b ∈ before, ∃ v, sourceValue (s.unit u).cells got (some r.index) b = .ok v) →
     sourceValue (s.unit u).cells got (some r.index) src = .error fault →
     exec .fetchBusError s = .next (s.portFreed (State.present
       (State.setUnit { s with port.outstanding := none } u { s.unit u with
         parkMark := false
         activity := .ending ⟨job.ticket, job.slot, job.tag, job.priority,
           ⟨.faulted fault.kind (some fault.index), step, done, (s.unit u).seen, (s.unit u).last⟩⟩ }) (.unit u)))) ∧
  ∀ (s : State) (u : UnitId) (n : Nat) (tr : Transaction), s.control.resetWait = false →
    s.port.outstanding = some tr → tr.purpose = .source u → tr.abandoned = true → tr.transfer = .read n →
    exec .fetchBusError s = .next (s.portFreed { s with port.outstanding := none })

/-- R4 to R8, R10, R11, R13 and 11.6: reading back the bytes written to a field gives the value written, and they are as
many as the field has. What a field of any content reads as: for PACKED the sign nibble 0xA, 0xC, 0xE or 0xF positive,
0xB or 0xD negative, another INVALID_SIGN, whatever the digits; for TEXT plus or space positive, minus negative, another
character INVALID_SIGN; a digit above 9 or a pad that is not 0 INVALID_DIGIT; BINARY64 two's complement, never a fault. How
PACKED, UNSIGNED PACKED and BINARY64 destinations are written (TEXT: TextDestinationWritten). -/
def Obligations.FieldReadsBackWhatWasWritten : Prop :=
  (∀ (f : MemField) (c : Int), 1 ≤ f.digits → f.scale ≤ f.digits → (f.format = .binary64 → f.digits = 19) →
    (Place.memory f).check c = none →
    readField f.format f.digits f.scale (writeField f.format f.digits c) = .ok ⟨c, f.scale⟩ ∧
    (writeField f.format f.digits c).length = f.size) ∧
  (∀ (n s : Nat) (bytes : List Byte), 1 ≤ n → bytes.length = n / 2 + 1 →
    let pad := if n % 2 = 0 then 1 else 0
    let sign := nibbleAt bytes (pad + n)
    let coef : Int := ∑ k ∈ Finset.range n, (nibbleAt bytes (pad + k) : Int) * 10 ^ (n - 1 - k)
    let invalid := (n % 2 = 0 ∧ nibbleAt bytes 0 ≠ 0) ∨ ∃ k, k < n ∧ 9 < nibbleAt bytes (pad + k)
    (sign ≤ 9 → readField .packed n s bytes = .error .invalidSign) ∧
    (9 < sign → invalid → readField .packed n s bytes = .error .invalidDigit) ∧
    ((sign = 0xA ∨ sign = 0xC ∨ sign = 0xE ∨ sign = 0xF) → ¬invalid → readField .packed n s bytes = .ok ⟨coef, s⟩) ∧
    ((sign = 0xB ∨ sign = 0xD) → ¬invalid → readField .packed n s bytes = .ok ⟨-coef, s⟩)) ∧
  (∀ (n s : Nat) (bytes : List Byte), 1 ≤ n → bytes.length = (n + 1) / 2 →
    let pad := n % 2
    let coef : Int := ∑ k ∈ Finset.range n, (nibbleAt bytes (pad + k) : Int) * 10 ^ (n - 1 - k)
    let invalid := (n % 2 = 1 ∧ nibbleAt bytes 0 ≠ 0) ∨ ∃ k, k < n ∧ 9 < nibbleAt bytes (pad + k)
    (invalid → readField .unsignedPacked n s bytes = .error .invalidDigit) ∧
    (¬invalid → readField .unsignedPacked n s bytes = .ok ⟨coef, s⟩)) ∧
  (∀ (n s : Nat) (sign : Byte) (digits : List Byte), digits.length = n →
    let coef : Int := ∑ k ∈ Finset.range n, (((digits.getD k 0).toNat : Int) - 0x30) * 10 ^ (n - 1 - k)
    let invalid := ∃ d ∈ digits, d.toNat < 0x30 ∨ 0x39 < d.toNat
    (sign ≠ 0x2B#8 → sign ≠ 0x20#8 → sign ≠ 0x2D#8 → readField .text n s (sign :: digits) = .error .invalidSign) ∧
    (sign = 0x2B#8 ∨ sign = 0x20#8 ∨ sign = 0x2D#8 → invalid →
      readField .text n s (sign :: digits) = .error .invalidDigit) ∧
    (sign = 0x2B#8 ∨ sign = 0x20#8 → ¬invalid → readField .text n s (sign :: digits) = .ok ⟨coef, s⟩) ∧
    (sign = 0x2D#8 → ¬invalid → readField .text n s (sign :: digits) = .ok ⟨-coef, s⟩)) ∧
  (∀ (n s : Nat) (bytes : List Byte), bytes.length = 8 →
    let number : Int := ∑ k ∈ Finset.range 8, ((bytes.getD k 0).toNat : Int) * 256 ^ k
    readField .binary64 n s bytes = .ok ⟨if number < 2 ^ 63 then number else number - 2 ^ 64, s⟩) ∧
  ∀ (n : Nat) (c : Int), 1 ≤ n →
    let digit := fun k => c.natAbs / 10 ^ (n - 1 - k) % 10
    let packed := writeField .packed n c
    let pad := if n % 2 = 0 then 1 else 0
    let unsigned := writeField .unsignedPacked n c
    let binary := writeField .binary64 n c
    (packed.length = n / 2 + 1 ∧ (n % 2 = 0 → nibbleAt packed 0 = 0) ∧
      (∀ k, k < n → nibbleAt packed (pad + k) = digit k) ∧ nibbleAt packed (pad + n) = if c < 0 then 0xD else 0xC) ∧
    (unsigned.length = (n + 1) / 2 ∧ (n % 2 = 1 → nibbleAt unsigned 0 = 0) ∧
      ∀ k, k < n → nibbleAt unsigned (n % 2 + k) = digit k) ∧
    binary.length = 8 ∧ ∀ k, k < 8 → ((binary.getD k 0).toNat : Int) = c / 256 ^ k % 256

/-- R12: how a TEXT destination is written. -/
def Obligations.TextDestinationWritten : Prop :=
  ∀ (f : MemField) (c : Int), f.format = .text → c.natAbs < 10 ^ f.digits →
    ∃ digits : List Byte,
      writeField f.format f.digits c = (if c < 0 then 0x2D#8 else 0x2B#8) :: digits ∧ digits.length = f.digits ∧
      (∀ k, k < f.digits → digits[k]? = some (BitVec.ofNat 8 (0x30 + c.natAbs / 10 ^ (f.digits - 1 - k) % 10))) ∧
      (fits f.digits f.scale c = true → (Place.memory f).check c = none)

/-! ### Invariants -/

/-- Every step keeps memory in canonical form. -/
def Obligations.StepKeepsMemoryCanonical : Prop :=
  ∀ s t : State, s.memoryCanonical → step s = .next t → t.memoryCanonical

/-- R137: every step keeps the writer buffer at 8 entries at most. -/
def Obligations.StepKeepsTheBufferBound : Prop :=
  ∀ s t : State, s.bufferFits → step s = .next t → t.bufferFits

/-- R158: every step keeps FINISH set whenever the queue holds T or more entries. -/
def Obligations.StepKeepsFinish : Prop :=
  ∀ s t : State, s.finishFollows → step s = .next t → t.finishFollows

/-- R74 and R63: every step keeps these: no two outstanding jobs share a ticket; markers stand on the urgent list and every
ordinary entry on the list of its priority; no slot stands twice on the lists; MORE is set in a filled record only. -/
def Obligations.StepKeepsTicketsAndLists : Prop :=
  ∀ s t : State, step s = .next t →
    (s.ticketsDistinct → t.ticketsDistinct) ∧ (s.listsOrdered → t.listsOrdered) ∧
    (s.pendingDistinct → t.pendingDistinct) ∧ (s.moreNeedsRecord → t.moreNeedsRecord)

/-- R95: every step keeps the park buffer at two jobs at most, all NORMAL, and at one while a park is requested; a marked
unit runs a NORMAL job and has the request. -/
def Obligations.StepKeepsTheParkBound : Prop :=
  ∀ s t : State, s.parkBounded → step s = .next t → t.parkBounded
end

