-- ==== Sys2Proof/Laws/Fields.lean ====
section
/-! SUPPORT. What nibbles, digits and packed forms are, by position (R4, R5, R8, R10; 11.6). -/

namespace Sys2Proof.Machine

/-! ### Reading -/

theorem nibbles_length (bytes : List Byte) : (nibbles bytes).length = 2 * bytes.length := by
  induction bytes with
  | nil => rfl
  | cons b bs ih => simp [nibbles, ih]; omega

/-- Nibble k of a field. -/
theorem nibbles_getD (bytes : List Byte) (k : Nat) : (nibbles bytes).getD k 0 = nibbleAt bytes k := by
  induction bytes generalizing k with
  | nil => simp [nibbles, nibbleAt]
  | cons b bs ih =>
    match k with
    | 0 => simp [nibbles, nibbleAt]
    | 1 => simp [nibbles, nibbleAt]
    | k + 2 =>
      have h1 : (k + 2) / 2 = k / 2 + 1 := by omega
      have h2 : (k + 2) % 2 = k % 2 := by omega
      simp only [nibbles, List.getD_cons_succ, ih k, nibbleAt, h1, h2]

/-- The number that digits spell, each at its power of ten. -/
theorem digitsValue_eq_sum (ds : List Nat) :
    digitsValue ds = ∑ k ∈ Finset.range ds.length, ds.getD k 0 * 10 ^ (ds.length - 1 - k) := by
  have key (v : Nat) : ds.foldl (fun v d => 10 * v + d) v =
      v * 10 ^ ds.length + ∑ k ∈ Finset.range ds.length, ds.getD k 0 * 10 ^ (ds.length - 1 - k) := by
    induction ds generalizing v with
    | nil => simp
    | cons d ds ih =>
      have h (k : Nat) : ds.length + 1 - 1 - (k + 1) = ds.length - 1 - k := by omega
      rw [List.foldl_cons, ih, List.length_cons, Finset.sum_range_succ']
      simp only [List.getD_cons_succ, List.getD_cons_zero, h, pow_succ, Nat.sub_zero]
      rw [Nat.add_sub_cancel]
      ring
  simpa [digitsValue] using key 0

/-- A digit above 9 among n digits. -/
theorem digit_invalid_iff (ds : List Nat) (n : Nat) (h : ds.length = n) :
    (∃ k, k < n ∧ 9 < ds.getD k 0) ↔ ds.all (· ≤ 9) = false := by
  subst h
  rw [List.all_eq_false]
  constructor
  · rintro ⟨k, hk, h9⟩
    refine ⟨ds[k], List.getElem_mem hk, ?_⟩
    simp only [List.getD_eq_getElem?_getD, hk, getElem?_pos, Option.getD_some] at h9
    simpa using h9
  · rintro ⟨x, hx, h9⟩
    obtain ⟨k, hk, rfl⟩ := List.getElem_of_mem hx
    refine ⟨k, hk, ?_⟩
    simp only [List.getD_eq_getElem?_getD, hk, getElem?_pos, Option.getD_some]
    simpa using h9

/-- The pad and n digit nibbles: INVALID_DIGIT where the pad is not 0 or a digit is above 9, else their number (R8). -/
theorem packedDigits_eq (padded : Bool) (ns : List Nat) (n : Nat) (h : ns.length = n + padded.toNat) :
    let invalid := (padded = true ∧ ns.getD 0 0 ≠ 0) ∨ ∃ k, k < n ∧ 9 < ns.getD (padded.toNat + k) 0
    (invalid → packedDigits padded ns = .error .invalidDigit) ∧
    (¬invalid → packedDigits padded ns =
      .ok (∑ k ∈ Finset.range n, ns.getD (padded.toNat + k) 0 * 10 ^ (n - 1 - k))) := by
  intro invalid
  cases padded with
  | false =>
    have hn : ns.length = n := by simpa using h
    have hv : packedDigits false ns = if ns.all (· ≤ 9) then .ok (digitsValue ns) else .error .invalidDigit := rfl
    have hi : invalid ↔ ns.all (· ≤ 9) = false := by simpa [invalid] using digit_invalid_iff ns n hn
    rw [hv, hi, digitsValue_eq_sum, hn]
    simp only [Bool.toNat_false, Nat.zero_add]
    cases ns.all (· ≤ 9) <;> simp
  | true =>
    obtain ⟨p, ds, rfl⟩ : ∃ p ds, ns = p :: ds := by
      cases ns with
      | nil => simp at h
      | cons p ds => exact ⟨p, ds, rfl⟩
    have hn : ds.length = n := by simpa using h
    have hi : invalid ↔ p ≠ 0 ∨ ds.all (· ≤ 9) = false := by
      simp only [invalid, Bool.toNat_true, Nat.add_comm 1, List.getD_cons_succ, List.getD_cons_zero, true_and,
        digit_invalid_iff ds n hn]
    have hs : ∑ k ∈ Finset.range n, (p :: ds).getD (true.toNat + k) 0 * 10 ^ (n - 1 - k) = digitsValue ds := by
      rw [digitsValue_eq_sum, hn]
      simp only [Bool.toNat_true, Nat.add_comm 1, List.getD_cons_succ]
    have hv : packedDigits true (p :: ds) = if p ≠ 0 then .error .invalidDigit else
        if ds.all (· ≤ 9) then .ok (digitsValue ds) else .error .invalidDigit := by simp [packedDigits]
    rw [hv, hi, hs]
    by_cases hp : p = 0 <;> cases ds.all (· ≤ 9) <;> simp [hp]

/-! ### Writing -/

@[simp] theorem digitsOf_length (n c : Nat) : (digitsOf n c).length = n := by
  induction n with
  | zero => rfl
  | succ n ih => simp [digitsOf, ih]

/-- Digit k of n, the most significant first (R10). -/
theorem digitsOf_getD (n c k : Nat) (h : k < n) : (digitsOf n c).getD k 0 = c / 10 ^ (n - 1 - k) % 10 := by
  induction n generalizing k with
  | zero => omega
  | succ n ih =>
    cases k with
    | zero => simp [digitsOf]
    | succ k =>
      have h1 : n - 1 - k = n + 1 - 1 - (k + 1) := by omega
      simp only [digitsOf, List.getD_cons_succ, ih k (by omega), h1]

theorem digitsOf_lt (n c d : Nat) (h : d ∈ digitsOf n c) : d < 10 := by
  induction n with
  | zero => simp [digitsOf] at h
  | succ n ih =>
    simp only [digitsOf, List.mem_cons] at h
    rcases h with rfl | h
    · omega
    · exact ih h

/-- An even number of nibbles packed: half as many bytes, nibble by nibble the same (11.6). -/
theorem packNibbles_nibbleAt (m : Nat) (ns : List Nat) (h : ns.length = 2 * m) (hn : ∀ x ∈ ns, x < 16) :
    (packNibbles ns).length = m ∧ ∀ k, nibbleAt (packNibbles ns) k = ns.getD k 0 := by
  induction m generalizing ns with
  | zero =>
    obtain rfl : ns = [] := by simpa using h
    simp [packNibbles, nibbleAt]
  | succ m ih =>
    match ns, h with
    | a :: b :: rest, h =>
      have hr := ih rest (by simp at h; omega) fun x hx => hn x (by simp [hx])
      have ha := hn a (by simp)
      have hb := hn b (by simp)
      refine ⟨by simp [packNibbles, hr.1], fun k => ?_⟩
      match k with
      | 0 => simp [packNibbles, nibbleAt]; omega
      | 1 => simp [packNibbles, nibbleAt]; omega
      | k + 2 =>
        have h1 : (k + 2) / 2 = k / 2 + 1 := by omega
        have h2 : (k + 2) % 2 = k % 2 := by omega
        simp only [List.getD_cons_succ, ← hr.2 k, nibbleAt, packNibbles, h1, h2]

end Sys2Proof.Machine
end

