-- ==== Sys2Proof/Laws/Memory.lean ====
section
/-! SUPPORT. Memory: a byte read after a write, and the canonical form that every write keeps. -/

namespace Sys2Proof.Machine

theorem Memory.wf_nil : Memory.wf [] := ⟨List.Pairwise.nil, by simp⟩

theorem Memory.wf_cons {k : Nat} {v : Byte} {m : Memory} :
    Memory.wf ((k, v) :: m) ↔ (∀ c ∈ m, k < c.1) ∧ v ≠ unlistedByte ∧ Memory.wf m := by
  unfold Memory.wf
  simp only [List.pairwise_cons, List.mem_cons, forall_eq_or_imp]
  tauto

/-- A cell of a written memory is the written one or was there before. -/
theorem Memory.mem_write {m : Memory} {a : Nat} {b : Byte} {c : Host.Cell} (h : c ∈ Memory.write m a b) :
    c = (a, b) ∨ c ∈ m := by
  induction m with
  | nil => unfold Memory.write at h; split at h <;> simp_all
  | cons d m ih =>
    obtain ⟨k, v⟩ := d
    unfold Memory.write at h
    split_ifs at h <;> simp only [List.mem_cons] at h ⊢ <;> tauto

theorem Memory.wf_write {m : Memory} (h : Memory.wf m) (a : Nat) (b : Byte) : Memory.wf (Memory.write m a b) := by
  induction m with
  | nil =>
    unfold Memory.write
    split_ifs with hb
    · exact Memory.wf_nil
    · exact Memory.wf_cons.2 ⟨by simp, hb, Memory.wf_nil⟩
  | cons d m ih =>
    obtain ⟨k, v⟩ := d
    obtain ⟨hk, hv, hm⟩ := Memory.wf_cons.1 h
    unfold Memory.write
    split_ifs with h1 h2 h3 h4
    · exact h
    · refine Memory.wf_cons.2 ⟨?_, h2, h⟩
      intro c hc
      rcases List.mem_cons.1 hc with rfl | hc
      · exact h1
      · exact lt_trans h1 (hk c hc)
    · exact hm
    · exact Memory.wf_cons.2 ⟨h3 ▸ hk, h4, hm⟩
    · refine Memory.wf_cons.2 ⟨?_, hv, ih hm⟩
      intro c hc
      rcases Memory.mem_write hc with rfl | hc
      · dsimp only; omega
      · exact hk c hc

theorem Memory.read_of_lt {m : Memory} {a : Nat} (h : ∀ c ∈ m, a < c.1) : Memory.read m a = unlistedByte := by
  induction m with
  | nil => rfl
  | cons d m ih =>
    obtain ⟨k, v⟩ := d
    have hk := h (k, v) (by simp)
    unfold Memory.read
    rw [if_neg (by dsimp only at hk; omega)]
    exact ih fun c hc => h c (List.mem_cons_of_mem _ hc)

/-- A byte just written reads as written. -/
theorem Memory.read_write_same {m : Memory} (h : Memory.wf m) (a : Nat) (b : Byte) :
    Memory.read (Memory.write m a b) a = b := by
  induction m with
  | nil => unfold Memory.write; split_ifs with hb <;> simp [Memory.read, hb]
  | cons d m ih =>
    obtain ⟨k, v⟩ := d
    obtain ⟨hk, hv, hm⟩ := Memory.wf_cons.1 h
    unfold Memory.write
    split_ifs with h1 h2 h3 h4
    · rw [h2]
      refine Memory.read_of_lt fun c hc => ?_
      rcases List.mem_cons.1 hc with rfl | hc
      · exact h1
      · exact lt_trans h1 (hk c hc)
    · simp [Memory.read]
    · rw [h4, h3]
      exact Memory.read_of_lt hk
    · simp [Memory.read]
    · unfold Memory.read
      rw [if_neg (by omega)]
      exact ih hm

/-- A write changes no other byte. -/
theorem Memory.read_write_other (m : Memory) {a c : Nat} (h : c ≠ a) (b : Byte) :
    Memory.read (Memory.write m a b) c = Memory.read m c := by
  induction m with
  | nil => unfold Memory.write; split_ifs <;> simp [Memory.read, Ne.symm h]
  | cons d m ih =>
    obtain ⟨k, v⟩ := d
    unfold Memory.write
    split_ifs with h1 h2 h3 h4
    · rfl
    · simp [Memory.read, Ne.symm h]
    · subst h3; simp [Memory.read, Ne.symm h]
    · subst h3; simp [Memory.read, Ne.symm h]
    · unfold Memory.read; split_ifs
      · rfl
      · exact ih

theorem Memory.wf_writeBytes {m : Memory} (h : Memory.wf m) (a : Nat) (bs : List Byte) :
    Memory.wf (Memory.writeBytes m a bs) := by
  induction bs generalizing m a with
  | nil => exact h
  | cons b bs ih => exact ih (Memory.wf_write h a b) (a + 1)

theorem Memory.wf_hostWrote {m : Memory} (h : Memory.wf m) (ws : HostWrites) : Memory.wf (Memory.hostWrote m ws) := by
  induction ws generalizing m with
  | nil => exact h
  | cons w ws ih => exact ih (Memory.wf_write h _ _)

theorem Memory.wf_writeUnsure {m : Memory} (h : Memory.wf m) (a n : Nat) (bs : List Byte) :
    Memory.wf (Memory.writeUnsure m a n bs) := by
  induction bs generalizing m a n with
  | nil => exact h
  | cons b bs ih =>
    unfold Memory.writeUnsure
    refine ih ?_ _ _
    split_ifs
    · exact Memory.wf_write h a b
    · exact h

/-- Bytes written change no byte outside them. -/
theorem Memory.read_writeBytes_other (m : Memory) (a : Nat) (bs : List Byte) {c : Nat}
    (h : c < a ∨ a + bs.length ≤ c) : Memory.read (Memory.writeBytes m a bs) c = Memory.read m c := by
  induction bs generalizing m a with
  | nil => rfl
  | cons b bs ih =>
    simp only [List.length_cons] at h
    unfold Memory.writeBytes
    rw [ih _ _ (by omega), Memory.read_write_other _ (by omega)]

/-- Bytes written read as written. -/
theorem Memory.read_writeBytes_same {m : Memory} (h : Memory.wf m) (a : Nat) (bs : List Byte) (i : Nat)
    (hi : i < bs.length) : Memory.read (Memory.writeBytes m a bs) (a + i) = bs[i] := by
  induction bs generalizing m a i with
  | nil => simp at hi
  | cons b bs ih =>
    unfold Memory.writeBytes
    cases i with
    | zero =>
      rw [Memory.read_writeBytes_other _ _ _ (by omega)]
      simpa using Memory.read_write_same h a b
    | succ i =>
      have := ih (Memory.wf_write h a b) (a + 1) i (by simpa using hi)
      rw [show a + (i + 1) = a + 1 + i by omega]
      simpa using this

theorem Memory.readBytes_writeBytes {m : Memory} (h : Memory.wf m) (a : Nat) (bs : List Byte) :
    Memory.readBytes (Memory.writeBytes m a bs) a bs.length = bs := by
  refine List.ext_getElem (by simp [Memory.readBytes]) fun i h1 h2 => ?_
  simp [Memory.readBytes, Memory.read_writeBytes_same h a bs i h2]

/-- A failed write changes no byte outside its own. -/
theorem Memory.read_writeUnsure_other (m : Memory) (a n : Nat) (bs : List Byte) {c : Nat}
    (h : c < a ∨ a + bs.length ≤ c) : Memory.read (Memory.writeUnsure m a n bs) c = Memory.read m c := by
  induction bs generalizing m a n with
  | nil => rfl
  | cons b bs ih =>
    simp only [List.length_cons] at h
    unfold Memory.writeUnsure
    rw [ih _ _ _ (by omega)]
    split_ifs
    · exact Memory.read_write_other _ (by omega) b
    · rfl

/-- Each byte of a failed write is as before or as written. -/
theorem Memory.read_writeUnsure_same {m : Memory} (h : Memory.wf m) (a n : Nat) (bs : List Byte) (i : Nat)
    (hi : i < bs.length) :
    Memory.read (Memory.writeUnsure m a n bs) (a + i) = Memory.read m (a + i) ∨
    Memory.read (Memory.writeUnsure m a n bs) (a + i) = bs[i] := by
  induction bs generalizing m a n i with
  | nil => simp at hi
  | cons b bs ih =>
    unfold Memory.writeUnsure
    cases i with
    | zero =>
      rw [Memory.read_writeUnsure_other _ _ _ _ (by omega)]
      split_ifs
      · exact Or.inr (by simpa using Memory.read_write_same h a b)
      · exact Or.inl rfl
    | succ i =>
      have hw : Memory.wf (if Config.memoryTook n = true then Memory.write m a b else m) := by
        split_ifs
        · exact Memory.wf_write h a b
        · exact h
      have := ih hw (a + 1) (n + 1) i (by simpa using hi)
      rw [show a + (i + 1) = a + 1 + i by omega]
      rcases this with h1 | h1
      · refine Or.inl (h1.trans ?_)
        split_ifs
        · exact Memory.read_write_other _ (by omega) b
        · rfl
      · exact Or.inr (by simpa using h1)

end Sys2Proof.Machine
end

