-- ==== Sys2Proof/Laws/State.lean ====
section
/-! SUPPORT. One lemma per field per named update of a state, each by rfl, so that no later proof unfolds one. -/

namespace Sys2Proof.Machine

/-! ### One unit replaced -/

@[simp] theorem State.unit_unit0 (s : State) : s.unit .unit0 = s.unit0 := rfl

@[simp] theorem State.unit_unit1 (s : State) : s.unit .unit1 = s.unit1 := rfl

@[simp] theorem State.setUnit_unit_same (s : State) (u : UnitId) (c : CalcUnit) : (s.setUnit u c).unit u = c := by
  cases u <;> rfl

theorem State.setUnit_unit_other (s : State) {u v : UnitId} (h : v ≠ u) (c : CalcUnit) :
    (s.setUnit u c).unit v = s.unit v := by
  cases u <;> cases v <;> first | rfl | exact absurd rfl h

@[simp] theorem State.setUnit_setUnit (s : State) (u : UnitId) (c d : CalcUnit) :
    (s.setUnit u c).setUnit u d = s.setUnit u d := by
  cases u <;> rfl

@[simp] theorem State.setUnit_unit_self (s : State) (u : UnitId) : s.setUnit u (s.unit u) = s := by
  cases u <;> rfl

@[simp] theorem State.setUnit_pending (s : State) (u : UnitId) (c : CalcUnit) : (s.setUnit u c).pending = s.pending := by
  cases u <;> rfl

@[simp] theorem State.setUnit_control (s : State) (u : UnitId) (c : CalcUnit) : (s.setUnit u c).control = s.control := by
  cases u <;> rfl

@[simp] theorem State.setUnit_intake (s : State) (u : UnitId) (c : CalcUnit) : (s.setUnit u c).intake = s.intake := by
  cases u <;> rfl

@[simp] theorem State.setUnit_dispatcher (s : State) (u : UnitId) (c : CalcUnit) : (s.setUnit u c).dispatcher = s.dispatcher := by
  cases u <;> rfl

@[simp] theorem State.setUnit_port (s : State) (u : UnitId) (c : CalcUnit) : (s.setUnit u c).port = s.port := by
  cases u <;> rfl

@[simp] theorem State.setUnit_writer (s : State) (u : UnitId) (c : CalcUnit) : (s.setUnit u c).writer = s.writer := by
  cases u <;> rfl

@[simp] theorem State.setUnit_notifier (s : State) (u : UnitId) (c : CalcUnit) : (s.setUnit u c).notifier = s.notifier := by
  cases u <;> rfl

@[simp] theorem State.setUnit_memory (s : State) (u : UnitId) (c : CalcUnit) : (s.setUnit u c).memory = s.memory := by
  cases u <;> rfl

@[simp] theorem State.setUnit_freeCount (s : State) (u : UnitId) (c : CalcUnit) : (s.setUnit u c).freeCount = s.freeCount := by
  cases u <;> rfl

/-! ### The command outcome -/

@[simp] theorem State.answer_intake (s : State) (o : CommandOutcome) : (s.answer o).intake = s.intake := rfl

@[simp] theorem State.answer_dispatcher (s : State) (o : CommandOutcome) : (s.answer o).dispatcher = s.dispatcher := rfl

@[simp] theorem State.answer_port (s : State) (o : CommandOutcome) : (s.answer o).port = s.port := rfl

@[simp] theorem State.answer_writer (s : State) (o : CommandOutcome) : (s.answer o).writer = s.writer := rfl

@[simp] theorem State.answer_notifier (s : State) (o : CommandOutcome) : (s.answer o).notifier = s.notifier := rfl

@[simp] theorem State.answer_memory (s : State) (o : CommandOutcome) : (s.answer o).memory = s.memory := rfl

@[simp] theorem State.answer_freeCount (s : State) (o : CommandOutcome) : (s.answer o).freeCount = s.freeCount := rfl

@[simp] theorem State.answer_unit0 (s : State) (o : CommandOutcome) : (s.answer o).unit0 = s.unit0 := rfl

@[simp] theorem State.answer_unit1 (s : State) (o : CommandOutcome) : (s.answer o).unit1 = s.unit1 := rfl

@[simp] theorem State.answer_pending (s : State) (o : CommandOutcome) : (s.answer o).pending = s.pending := rfl

@[simp] theorem State.answer_outcome (s : State) (o : CommandOutcome) : (s.answer o).control.outcome = o := rfl

@[simp] theorem State.answer_state (s : State) (o : CommandOutcome) :
    (s.answer o).control.state = s.control.state := rfl

/-! ### An append to the writer buffer -/

@[simp] theorem State.append_control (s : State) (a : Appender) (es : List WriterEntry) :
    (s.append a es).control = s.control := rfl

@[simp] theorem State.append_intake (s : State) (a : Appender) (es : List WriterEntry) :
    (s.append a es).intake = s.intake := rfl

@[simp] theorem State.append_dispatcher (s : State) (a : Appender) (es : List WriterEntry) :
    (s.append a es).dispatcher = s.dispatcher := rfl

@[simp] theorem State.append_port (s : State) (a : Appender) (es : List WriterEntry) :
    (s.append a es).port = s.port := rfl

@[simp] theorem State.append_notifier (s : State) (a : Appender) (es : List WriterEntry) :
    (s.append a es).notifier = s.notifier := rfl

@[simp] theorem State.append_memory (s : State) (a : Appender) (es : List WriterEntry) :
    (s.append a es).memory = s.memory := rfl

@[simp] theorem State.append_freeCount (s : State) (a : Appender) (es : List WriterEntry) :
    (s.append a es).freeCount = s.freeCount := rfl

@[simp] theorem State.append_unit0 (s : State) (a : Appender) (es : List WriterEntry) :
    (s.append a es).unit0 = s.unit0 := rfl

@[simp] theorem State.append_unit1 (s : State) (a : Appender) (es : List WriterEntry) :
    (s.append a es).unit1 = s.unit1 := rfl

@[simp] theorem State.append_pending (s : State) (a : Appender) (es : List WriterEntry) :
    (s.append a es).pending = s.pending := rfl

@[simp] theorem State.append_buffer (s : State) (a : Appender) (es : List WriterEntry) :
    (s.append a es).writer.buffer = s.writer.buffer ++ es := rfl

@[simp] theorem State.append_table (s : State) (a : Appender) (es : List WriterEntry) :
    (s.append a es).writer.table = s.writer.table := rfl

@[simp] theorem State.unit_append (s : State) (a : Appender) (es : List WriterEntry) (u : UnitId) :
    (s.append a es).unit u = s.unit u := by
  cases u <;> rfl

end Sys2Proof.Machine
end

