-- ==== Sys2Proof/Laws/Ops.lean ====
section
/-! SUPPORT. For each shared operation, one lemma that says everything it can change. -/

namespace Sys2Proof.Machine

/-! ### Reports, presentations, the port -/

/-- A report changes the record, MORE and the FAULT flag only. -/
theorem State.report_eq (s : State) (r : FaultReport) :
    s.report r = { s with
      control.faultRecord := some (s.control.faultRecord.getD r)
      control.more := s.control.more || s.control.faultRecord.isSome
      notifier.flags.fault := s.notifier.flags.fault || s.control.faultRecord.isNone } := by
  unfold State.report
  cases h : s.control.faultRecord with
  | none => simp
  | some q =>
    obtain ⟨_, ⟨_, _, _, _, _, _, _, _, _, _, _⟩, _, _, _, _, _, _, ⟨_, ⟨_, _, _, _⟩, _, _, _⟩, _, _⟩ := s
    simp_all

/-- A presentation changes the waiters only. -/
theorem State.present_eq (s : State) (a : Appender) :
    s.present a =
      { s with writer.waiters := if s.writer.waiters.contains a then s.writer.waiters else s.writer.waiters ++ [a] } := by
  unfold State.present
  split <;> rfl

/-- The entries that are discarded stand at the head and belong to failed tickets. -/
theorem discardFailed_split (w : Writer) (b : List WriterEntry) :
    ∃ dropped, b = dropped ++ discardFailed w b ∧
      ∀ e ∈ dropped, ∃ t i j write, e = .destination t i j write ∧ (w.failure? t).isSome = true := by
  induction b with
  | nil => exact ⟨[], rfl, by simp⟩
  | cons e b ih =>
    cases e with
    | destination t i j write =>
      unfold discardFailed
      split_ifs with h
      · obtain ⟨dropped, h1, h2⟩ := ih
        refine ⟨.destination t i j write :: dropped, by rw [List.cons_append, ← h1], ?_⟩
        intro e he
        rcases List.mem_cons.1 he with rfl | he
        · exact ⟨t, i, j, write, rfl, h⟩
        · exact h2 e he
      · exact ⟨[], rfl, by simp⟩
    | state t slot p tag => exact ⟨[], rfl, by simp⟩
    | completion item d => exact ⟨[], rfl, by simp⟩

/-- A discard changes the buffer by its head entries of failed tickets. -/
theorem State.discardHead_eq (s : State) :
    ∃ dropped kept, s.writer.buffer = dropped ++ kept ∧
      (∀ e ∈ dropped, ∃ t i j w, e = .destination t i j w ∧ (s.writer.failure? t).isSome = true) ∧
      s.discardHead = { s with writer.buffer := kept } := by
  unfold State.discardHead
  split
  · exact ⟨[], s.writer.buffer, rfl, by simp, rfl⟩
  · obtain ⟨dropped, h1, h2⟩ := discardFailed_split s.writer s.writer.buffer
    exact ⟨dropped, _, h1, h2, rfl⟩

/-- A grant changes the port only. -/
theorem State.grant_eq (s : State) : s.grant = { s with port := s.grant.port } := by
  unfold State.grant
  split
  · rfl
  · split
    · rfl
    · split <;> rfl

/-- A grant changes the port, and the buffer by its discarded head entries. -/
theorem State.arbitrate_eq (s : State) :
    ∃ dropped kept, s.writer.buffer = dropped ++ kept ∧
      (∀ e ∈ dropped, ∃ t i j w, e = .destination t i j w ∧ (s.writer.failure? t).isSome = true) ∧
      s.arbitrate = { s with port := s.arbitrate.port, writer.buffer := kept } := by
  unfold State.arbitrate
  split
  · obtain ⟨dropped, kept, h1, h2, h3⟩ := s.discardHead_eq
    refine ⟨dropped, kept, h1, h2, ?_⟩
    rw [h3]
    exact State.grant_eq _
  · exact ⟨[], s.writer.buffer, rfl, by simp, rfl⟩

/-- At the end of a transaction the port, the waiting appends, and the buffer by its discarded head entries change. -/
theorem State.portFreed_eq (before s : State) :
    ∃ dropped kept j, s.writer.buffer = dropped ++ kept ∧
      (∀ e ∈ dropped, ∃ t i j w, e = .destination t i j w ∧ (s.writer.failure? t).isSome = true) ∧
      before.portFreed s = { s with
        port := (before.portFreed s).port, writer.buffer := kept, writer.joining := j } := by
  obtain ⟨dropped, kept, h1, h2, h3⟩ := State.arbitrate_eq { s with
    writer.joining := if before.joiners.length < s.discardHead.joiners.length then s.discardHead.joiners else [] }
  exact ⟨dropped, kept, _, h1, h2, h3⟩

/-- At the end of an append the port, the waiting appends, and the buffer by its discarded head entries change. -/
theorem State.appended_eq (a : Appender) (s : State) :
    ∃ dropped kept, s.writer.buffer = dropped ++ kept ∧
      (∀ e ∈ dropped, ∃ t i j w, e = .destination t i j w ∧ (s.writer.failure? t).isSome = true) ∧
      s.appended a = { s with
        port := (s.appended a).port, writer.buffer := kept, writer.joining := s.writer.joining.erase a } :=
  State.arbitrate_eq { s with writer.joining := s.writer.joining.erase a }

/-- A response is not taken, is discarded in a command reset's wait, or is acted on. -/
theorem State.respondOk_cases (s : State) (isFor : Purpose → Bool) (host : HostWrites)
    (act : Transaction → State → State) :
    (s.respondOk isFor host act = s) ∨
    ∃ t, s.port.outstanding = some t ∧ isFor t.purpose = true ∧
      ((s.control.resetWait = true ∧ s.respondOk isFor host act = s.endedOk host t) ∨
        (s.control.resetWait = false ∧ s.respondOk isFor host act = s.portFreed (act t (s.endedOk host t)))) := by
  unfold State.respondOk
  cases s.port.outstanding with
  | none => exact Or.inl rfl
  | some t =>
    dsimp only
    split_ifs with h1 h2
    · exact Or.inr ⟨t, rfl, h1, Or.inl ⟨h2, rfl⟩⟩
    · exact Or.inr ⟨t, rfl, h1, Or.inr ⟨by simpa using h2, rfl⟩⟩
    · exact Or.inl rfl

/-- A failure is not taken, is discarded in a command reset's wait, or is routed. -/
theorem State.respondFail_cases (s : State) (isFor : Purpose → Bool) (kind : FailKind) :
    (s.respondFail isFor kind = s) ∨
    ∃ t, s.port.outstanding = some t ∧ isFor t.purpose = true ∧
      ((s.control.resetWait = true ∧ s.respondFail isFor kind = s.endedFailed t) ∨
        (s.control.resetWait = false ∧
          s.respondFail isFor kind = s.portFreed ((s.endedFailed t).routeFailure kind t))) := by
  unfold State.respondFail
  cases s.port.outstanding with
  | none => exact Or.inl rfl
  | some t =>
    dsimp only
    split_ifs with h1 h2
    · exact Or.inr ⟨t, rfl, h1, Or.inl ⟨h2, rfl⟩⟩
    · exact Or.inr ⟨t, rfl, h1, Or.inr ⟨by simpa using h2, rfl⟩⟩
    · exact Or.inl rfl

/-- The end of a transaction in success frees the port and writes memory. -/
theorem State.endedOk_eq (s : State) (host : HostWrites) (t : Transaction) :
    ∃ m, s.endedOk host t = { s with port.outstanding := none, memory := m } ∧ (Memory.wf s.memory → Memory.wf m) := by
  unfold State.endedOk
  cases t.transfer with
  | read n => exact ⟨_, rfl, fun h => Memory.wf_hostWrote h host⟩
  | write bytes => exact ⟨_, rfl, fun h => Memory.wf_writeBytes (Memory.wf_hostWrote h host) _ _⟩

/-- An unsure write changes memory and the free counter. -/
theorem State.unsureWrite_eq (s : State) (t : Transaction) :
    ∃ m n, s.unsureWrite t = { s with memory := m, freeCount := n } ∧ (Memory.wf s.memory → Memory.wf m) := by
  unfold State.unsureWrite
  cases t.transfer with
  | read n => exact ⟨_, _, rfl, id⟩
  | write bytes => exact ⟨_, _, rfl, fun h => Memory.wf_writeUnsure h _ _ _⟩

/-- An unsure write leaves memory as a failed transaction may (R131). -/
theorem State.unsureWrite_mayLeave (s : State) (t : Transaction) : t.mayLeave s.memory (s.unsureWrite t).memory := by
  unfold Transaction.mayLeave State.unsureWrite
  cases t.transfer with
  | read n => rfl
  | write bytes =>
    exact ⟨fun a h => Memory.read_writeUnsure_other s.memory _ _ _ h, fun h i hi =>
      Memory.read_writeUnsure_same h _ _ _ i hi⟩

/-- The end of a transaction in failure frees the port. -/
theorem State.endedFailed_eq (s : State) (t : Transaction) :
    ∃ m n, s.endedFailed t = { s with port.outstanding := none, memory := m, freeCount := n } ∧
      (Memory.wf s.memory → Memory.wf m) := by
  obtain ⟨m, n, h, hw⟩ := s.unsureWrite_eq t
  exact ⟨m, n, by unfold State.endedFailed; rw [h], hw⟩

/-! ### The end of a job in a unit -/

/-- The end of a job changes its unit and the waiters. -/
theorem State.finishJob_eq (s : State) (u : UnitId) (job : Job) (how : JobEnd) (step done : Nat) :
    ∃ w, s.finishJob u job how step done = State.setUnit { s with writer.waiters := w } u { s.unit u with
      parkMark := false
      activity := .ending ⟨job.ticket, job.slot, job.tag, job.priority,
        ⟨how, step, done, (s.unit u).seen, (s.unit u).last⟩⟩ } := by
  unfold State.finishJob
  rw [State.present_eq]
  cases u <;> exact ⟨_, rfl⟩

/-- Abandoning a fetch marks the outstanding transaction only. -/
theorem State.abandonFetch_eq (s : State) (u : UnitId) :
    ∃ o, s.abandonFetch u = { s with port.outstanding := o } ∧ (s.port.outstanding = none → o = none) := by
  unfold State.abandonFetch
  split
  · exact ⟨_, rfl, id⟩
  · split
    · exact ⟨_, rfl, by simp_all⟩
    · exact ⟨s.port.outstanding, rfl, id⟩

/-- What an abort or a report leaves of a unit: no mark that was not there, and none on a job that it ends. -/
def CalcUnit.endedFrom (old new : CalcUnit) : Prop :=
  new = old ∨
    (new.parkMark = false ∧ ∃ item, new.activity = .ending item ∧ new.abortDue = old.abortDue) ∨
    (∃ item item', old.activity = .ending item ∧ new = { old with activity := .ending item' })

/-- An abort changes its unit, the waiters and the mark on the outstanding fetch. -/
theorem State.abortUnit_eq (s : State) (u : UnitId) :
    ∃ c w o, s.abortUnit u = State.setUnit { s with port.outstanding := o, writer.waiters := w } u c ∧
      (s.unit u).endedFrom c ∧ (s.port.outstanding = none → o = none) := by
  unfold State.abortUnit
  split
  · exact ⟨s.unit u, s.writer.waiters, s.port.outstanding, (State.setUnit_unit_self s u).symm, Or.inl rfl, id⟩
  · rename_i job step done _ _
    obtain ⟨o, ho, hn⟩ := s.abandonFetch_eq u
    obtain ⟨w, hw⟩ := State.finishJob_eq (s.abandonFetch u) u job .aborted step done
    rw [hw, ho]
    refine ⟨_, w, o, rfl, Or.inr (Or.inl ⟨rfl, _, rfl, ?_⟩), hn⟩
    cases u <;> rfl
  · rename_i item h
    exact ⟨_, s.writer.waiters, s.port.outstanding, rfl, Or.inr (Or.inr ⟨item, _, h, rfl⟩), id⟩

/-- A report changes its unit, the waiters and the mark on the outstanding fetch. -/
theorem State.reportToUnit_eq (s : State) (u : UnitId) (ticket : Ticket) :
    ∃ c w o, s.reportToUnit u ticket = State.setUnit { s with port.outstanding := o, writer.waiters := w } u c ∧
      (s.unit u).endedFrom c ∧ (s.port.outstanding = none → o = none) := by
  unfold State.reportToUnit
  split
  · exact ⟨s.unit u, s.writer.waiters, s.port.outstanding, (State.setUnit_unit_self s u).symm, Or.inl rfl, id⟩
  · exact ⟨s.unit u, s.writer.waiters, s.port.outstanding, (State.setUnit_unit_self s u).symm, Or.inl rfl, id⟩
  · split
    · rename_i job step done _ _ _
      obtain ⟨o, ho, hn⟩ := s.abandonFetch_eq u
      obtain ⟨w, hw⟩ := State.finishJob_eq (s.abandonFetch u) u job (.faulted .busError none) step done
      rw [hw, ho]
      refine ⟨_, w, o, rfl, Or.inr (Or.inl ⟨rfl, _, rfl, ?_⟩), hn⟩
      cases u <;> rfl
    · exact ⟨s.unit u, s.writer.waiters, s.port.outstanding, (State.setUnit_unit_self s u).symm, Or.inl rfl, id⟩

/-! ### The Dispatcher's items -/

/-- A completion item of the Dispatcher changes its items and the waiters. -/
theorem State.dispatcherItem_eq (s : State) (item : CompletionItem) :
    ∃ w, s.dispatcherItem item =
      { s with dispatcher.items := s.dispatcher.items ++ [item], writer.waiters := w } := by
  unfold State.dispatcherItem
  rw [State.present_eq]
  exact ⟨_, rfl⟩

/-- Ending the staged job changes the staging place's mark, the items and the waiters. -/
theorem State.endStaged_eq (s : State) :
    ∃ st items w, s.endStaged =
      { s with dispatcher.staged := st, dispatcher.items := items, writer.waiters := w } := by
  unfold State.endStaged
  split
  · exact ⟨s.dispatcher.staged, s.dispatcher.items, s.writer.waiters, rfl⟩
  · split
    · exact ⟨s.dispatcher.staged, s.dispatcher.items, s.writer.waiters, rfl⟩
    · obtain ⟨w, hw⟩ := State.dispatcherItem_eq
        { s with dispatcher.staged := some { ‹StagedJob› with ending := true } } _
      exact ⟨_, _, w, hw⟩

/-- Ending a parked job changes the contexts' marks, the items and the waiters. -/
theorem State.endParked_eq (s : State) (how : JobEnd) (p : ParkedJob) :
    ∃ parked items w, s.endParked how p =
        { s with dispatcher.parked := parked, dispatcher.items := items, writer.waiters := w } ∧
      (parked = s.dispatcher.parked ∨ parked = markEnding p.job.ticket s.dispatcher.parked) := by
  unfold State.endParked
  split
  · split
    · exact ⟨s.dispatcher.parked, _, s.writer.waiters, rfl, Or.inl rfl⟩
    · exact ⟨s.dispatcher.parked, s.dispatcher.items, s.writer.waiters, rfl, Or.inl rfl⟩
  · obtain ⟨w, hw⟩ := State.dispatcherItem_eq
      { s with dispatcher.parked := markEnding p.job.ticket s.dispatcher.parked } _
    exact ⟨_, _, w, hw, Or.inr rfl⟩

/-! ### Iterations -/

/-- A unit with a job: its mark is as before, or its job is ending. -/
def CalcUnit.runsAs (mark : Bool) (job : Job) (new : CalcUnit) : Prop :=
  (new.parkMark = mark ∧ ∃ step done phase, new.activity = .iterating job step done phase) ∨
    (new.parkMark = false ∧ ∃ item, new.activity = .ending item)

/-- What a run of a unit's job leaves: the entries appended, and either the unit with its job, iterating or ending, or,
under a mark, the job parked and the unit idle. -/
def State.runsTo (s : State) (u : UnitId) (job : Job) (entries : List WriterEntry) (t : State) : Prop :=
  (∃ c w, t = State.setUnit { s with writer.buffer := s.writer.buffer ++ entries, writer.waiters := w } u c ∧
    CalcUnit.runsAs (s.unit u).parkMark job c ∧ c.abortDue = (s.unit u).abortDue) ∨
  (∃ parked items freed w c, t = State.setUnit { s with
      dispatcher.parked := parked, dispatcher.items := items, dispatcher.freed := freed
      dispatcher.parkRequest := if s.dispatcher.parkRequest.any (·.1 = u) then none else s.dispatcher.parkRequest
      writer.buffer := s.writer.buffer ++ entries, writer.waiters := w } u c ∧
    parked.map (·.job) = s.dispatcher.parked.map (·.job) ++ [job] ∧ (s.unit u).parkMark = true ∧
    c.parkMark = false ∧ c.activity = .idle ∧ c.abortDue = (s.unit u).abortDue)

/-- A run that changes its unit only. -/
theorem State.runsTo_setUnit (s : State) (u : UnitId) (job : Job) {t : State} {c : CalcUnit} (h : t = s.setUnit u c)
    (hc : CalcUnit.runsAs (s.unit u).parkMark job c) (ha : c.abortDue = (s.unit u).abortDue) : s.runsTo u job [] t := by
  subst h
  refine Or.inl ⟨c, s.writer.waiters, ?_, hc, ha⟩
  rw [List.append_nil]

/-- A run that changes its unit and the waiters. -/
theorem State.runsTo_waiters (s : State) (u : UnitId) (job : Job) {t : State} {c : CalcUnit} {w : List Appender}
    (h : t = State.setUnit { s with writer.waiters := w } u c) (hc : CalcUnit.runsAs (s.unit u).parkMark job c)
    (ha : c.abortDue = (s.unit u).abortDue) : s.runsTo u job [] t := by
  subst h
  refine Or.inl ⟨c, w, ?_, hc, ha⟩
  rw [List.append_nil]

/-- A job that ends runs to its end. -/
theorem State.finishJob_runs (s : State) (u : UnitId) (job : Job) (how : JobEnd) (step done : Nat) :
    s.runsTo u job [] (s.finishJob u job how step done) := by
  obtain ⟨w, hw⟩ := State.finishJob_eq s u job how step done
  exact State.runsTo_waiters s u job hw (Or.inr ⟨rfl, _, rfl⟩) rfl

/-- Entries appended by the unit, then a run of it from other cells and outcomes. -/
theorem State.runsTo_append (s : State) (u : UnitId) (job : Job) (entries : List WriterEntry) (c : CalcUnit) (t : State)
    (hm : c.parkMark = (s.unit u).parkMark) (ha : c.abortDue = (s.unit u).abortDue)
    (h : ((s.append (.unit u) entries).setUnit u c).runsTo u job [] t) : s.runsTo u job entries t := by
  rcases h with ⟨d, w, rfl, h1, h2⟩ | ⟨parked, items, freed, w, d, rfl, h1, h2, h3, h4, h5⟩
  · refine Or.inl ⟨d, w, ?_, by simpa [hm] using h1, by simpa [ha] using h2⟩
    rw [List.append_nil]
    cases u <;> rfl
  · refine Or.inr ⟨parked, items, freed, w, d, ?_, by simpa using h1, by simpa [hm] using h2, h3, h4,
      by simpa [ha] using h5⟩
    rw [List.append_nil]
    cases u <;> rfl

/-- The parked contexts, the same but for their marks. -/
theorem markEnding_jobs (ticket : Ticket) (parked : List ParkedJob) :
    (markEnding ticket parked).map (·.job) = parked.map (·.job) := by
  unfold markEnding
  rw [List.map_map]
  refine List.map_congr_left fun p _ => ?_
  dsimp only [Function.comp]
  split <;> rfl

/-- A park: the context joins the park buffer, the unit is idle without mark, the unit's request is answered. -/
theorem State.park_eq (s : State) (u : UnitId) (job : Job) (step done : Nat) :
    ∃ parked items freed w, s.park u job step done = State.setUnit { s with
        dispatcher.parked := parked, dispatcher.items := items, dispatcher.freed := freed
        dispatcher.parkRequest :=
          if s.dispatcher.parkRequest.any (·.1 = u) then none else s.dispatcher.parkRequest
        writer.waiters := w } u { s.unit u with activity := .idle, parkMark := false } ∧
      parked.map (·.job) = s.dispatcher.parked.map (·.job) ++ [job] := by
  unfold State.park
  dsimp only
  generalize hp : (⟨job, step, done, (s.unit u).cells, (s.unit u).seen, (s.unit u).last, false⟩ : ParkedJob) = p
  have hj : p.job = job := by rw [← hp]
  generalize hd : ({ s.dispatcher.settleFreed with parked := s.dispatcher.settleFreed.parked ++ [p] }
    : Dispatcher).unitFreed u = d
  have hd1 : d = { s.dispatcher with
      parked := s.dispatcher.parked ++ [p], freed := d.freed
      parkRequest := if s.dispatcher.parkRequest.any (·.1 = u) then none else s.dispatcher.parkRequest } := by
    rw [← hd]; rfl
  split
  · obtain ⟨parked, items, w, h, hp⟩ := State.endParked_eq
      (({ s with dispatcher := d }).setUnit u { s.unit u with activity := .idle, parkMark := false }) .aborted p
    rw [h]
    refine ⟨parked, items, d.freed, w, by rw [hd1]; cases u <;> rfl, ?_⟩
    rcases hp with rfl | rfl
    · rw [State.setUnit_dispatcher, hd1]
      simp [hj]
    · rw [markEnding_jobs, State.setUnit_dispatcher, hd1]
      simp [hj]
  · refine ⟨s.dispatcher.parked ++ [p], s.dispatcher.items, d.freed, s.writer.waiters, by rw [hd1], by simp [hj]⟩

/-- A park is a run under a mark. -/
theorem State.park_runs (s : State) (u : UnitId) (job : Job) (step done : Nat) (h : (s.unit u).parkMark = true) :
    s.runsTo u job [] (s.park u job step done) := by
  obtain ⟨parked, items, freed, w, h1, h2⟩ := s.park_eq u job step done
  refine Or.inr ⟨parked, items, freed, w, { s.unit u with activity := .idle, parkMark := false }, ?_, h2, h, rfl, rfl,
    rfl⟩
  rw [h1, List.append_nil]

/-- The issue act appends its entries and runs to the boundary, and on where the next iteration does. -/
theorem State.issueThen_runs (s : State) (u : UnitId) (job : Job) (step done : Nat) (st : Step) (r : IterResult)
    (goOn : State → Nat → Nat → State) (hg : ∀ (t : State) (a b : Nat), t.runsTo u job [] (goOn t a b)) :
    s.runsTo u job (r.writes.map (.destination job.ticket step done)) (s.issueThen u job step done st r goOn) := by
  unfold State.issueThen
  dsimp only
  have hm : (((s.append (.unit u) (r.writes.map (.destination job.ticket step done))).unit u).issued r).parkMark =
      (s.unit u).parkMark := by rw [State.unit_append]; rfl
  refine State.runsTo_append s u job _ (((s.append (.unit u) (r.writes.map
    (.destination job.ticket step done))).unit u).issued r) _ hm (by rw [State.unit_append]; rfl) ?_
  split
  · exact State.finishJob_runs _ u job _ step (done + 1)
  · split
    · rename_i h
      exact State.park_runs _ u job _ _ (by rw [State.setUnit_unit_same, hm, h])
    · exact hg _ _ _

/-- The computation's end runs to the end of the job, to the wait for room, or through the issue. -/
theorem State.computedThen_runs (s : State) (u : UnitId) (job : Job) (step done : Nat) (st : Step)
    (r : Except IterFault Computed) (goOn : State → Nat → Nat → State)
    (hg : ∀ (t : State) (a b : Nat), t.runsTo u job [] (goOn t a b)) :
    s.runsTo u job [] (s.computedThen u job step done st r goOn) := by
  unfold State.computedThen
  split
  · exact State.finishJob_runs s u job _ step done
  · rename_i c
    dsimp only
    split
    · rename_i hw
      have h := State.issueThen_runs s u job step done st (c.result done) goOn hg
      rwa [List.isEmpty_iff.1 hw, List.map_nil] at h
    · rw [State.present_eq]
      cases u <;> exact State.runsTo_waiters s _ job rfl (Or.inl ⟨rfl, _, _, _, rfl⟩) rfl

/-- Iterations run to a fetch, a wait for room, the end of the job, or a park. -/
theorem State.iterate_runs (u : UnitId) (job : Job) (fuel : Nat) :
    ∀ (s : State) (step done : Nat), s.runsTo u job [] (State.iterate u job fuel s step done) := by
  induction fuel with
  | zero => exact fun s step done => State.finishJob_runs s u job .ok step done
  | succ fuel ih =>
    intro s step done
    unfold State.iterate
    split
    · exact State.finishJob_runs s u job .ok step done
    · split
      · exact State.finishJob_runs s u job _ step done
      · split
        · exact State.computedThen_runs s u job step done _ _ _ ih
        · exact State.runsTo_setUnit s u job rfl (Or.inl ⟨rfl, _, _, _, rfl⟩) rfl

/-- The begin of an iteration is a run of its job. -/
theorem State.beginIteration_runs (s : State) (u : UnitId) (job : Job) (step done : Nat) :
    s.runsTo u job [] (s.beginIteration u job step done) := State.iterate_runs u job _ s step done

/-- The end of a fetched iteration's computation is a run of its job. -/
theorem State.computed_runs (s : State) (u : UnitId) (job : Job) (step done : Nat) (st : Step)
    (r : Except IterFault Computed) : s.runsTo u job [] (s.computed u job step done st r) :=
  State.computedThen_runs s u job step done st r _ fun t => State.beginIteration_runs t u job

/-- The issue act is a run of its job that appends the iteration's entries. -/
theorem State.issue_runs (s : State) (u : UnitId) (job : Job) (step done : Nat) (st : Step) (r : IterResult) :
    s.runsTo u job (r.writes.map (.destination job.ticket step done)) (s.issue u job step done st r) :=
  State.issueThen_runs s u job step done st r _ fun t => State.beginIteration_runs t u job

/-! ### The bound on the iterations of one run (R106, R114) -/

/-- How many iterations a job can still begin, counted from a position. -/
def JobImage.need (image : JobImage) (step done : Nat) : Nat :=
  match image.steps[step]? with
  | none => 1
  | some st => max 1 (st.repeats - done) + ((image.steps.drop (step + 1)).map (·.repeats + 1)).sum

/-- The position that a boundary goes on to needs fewer. -/
theorem JobImage.need_of_goesOn (image : JobImage) (st : Step) (step done step' done' : Nat) (o : IterOutcome)
    (hst : image.steps[step]? = some st) (h : sequence image st step (done + 1) o = .goesOn step' done') :
    image.need step' done' < image.need step done := by
  unfold sequence at h
  split_ifs at h with h1 h2 h3
  · cases h
    have hd : image.steps.drop (step + 1) = image.steps[step + 1] :: image.steps.drop (step + 1 + 1) :=
      List.drop_eq_getElem_cons h3
    simp only [JobImage.need, hst, List.getElem?_eq_getElem h3, hd, List.map_cons, List.sum_cons]
    omega
  · cases h
    simp only [Bool.or_eq_true, decide_eq_true_eq, not_or] at h2
    simp only [JobImage.need, hst]
    omega

/-- The bound is enough from every position. -/
theorem JobImage.need_le (image : JobImage) (step done : Nat) : image.need step done ≤ image.iterationBound := by
  unfold JobImage.need JobImage.iterationBound
  split
  · omega
  · rename_i st h
    obtain ⟨hl, rfl⟩ := List.getElem?_eq_some_iff.1 h
    have hd : image.steps.drop step = image.steps[step] :: image.steps.drop (step + 1) :=
      List.drop_eq_getElem_cons hl
    have hs : (image.steps.map (·.repeats + 1)).sum =
        ((image.steps.take step).map (·.repeats + 1)).sum + ((image.steps.drop step).map (·.repeats + 1)).sum := by
      rw [← List.sum_append, ← List.map_append, List.take_append_drop]
    rw [hs, hd, List.map_cons, List.sum_cons]
    omega

/-- The issue act reads its continuation only at the position that the boundary goes on to. -/
theorem State.issueThen_congr (s : State) (u : UnitId) (job : Job) (step done : Nat) (st : Step) (r : IterResult)
    (g k : State → Nat → Nat → State)
    (h : ∀ t step' done', sequence job.image st step (done + 1) r.outcome = .goesOn step' done' →
      g t step' done' = k t step' done') :
    s.issueThen u job step done st r g = s.issueThen u job step done st r k := by
  unfold State.issueThen
  dsimp only
  split
  · rfl
  · rename_i step' done' hd
    split
    · rfl
    · exact h _ _ _ hd

/-- Any two fuels that are enough give the same run. -/
theorem State.iterate_enough (u : UnitId) (job : Job) (n : Nat) :
    ∀ (m : Nat) (s : State) (step done : Nat), job.image.need step done ≤ n → job.image.need step done ≤ m →
      State.iterate u job n s step done = State.iterate u job m s step done := by
  have pos (step done : Nat) : 1 ≤ job.image.need step done := by
    unfold JobImage.need
    split <;> omega
  induction n with
  | zero => exact fun m s step done h _ => absurd (pos step done) (by omega)
  | succ n ih =>
    intro m s step done hn hm
    cases m with
    | zero => exact absurd (pos step done) (by omega)
    | succ m =>
      unfold State.iterate
      split
      · rfl
      · rename_i st hst
        split
        · rfl
        · split
          · unfold State.computedThen
            split
            · rfl
            · dsimp only
              split
              · refine State.issueThen_congr s u job step done st _ _ _ fun t step' done' hd => ?_
                have := JobImage.need_of_goesOn job.image st step done step' done' _ hst hd
                exact ih m t step' done' (by omega) (by omega)
              · rfl
          · rfl

/-- How an iteration begins, without the fuel (R108, R110, R112). -/
theorem State.beginIteration_unfold (s : State) (u : UnitId) (job : Job) (step done : Nat) :
    s.beginIteration u job step done =
      match job.image.steps[step]? with
      | none => s.finishJob u job .ok step done
      | some st =>
        match firstRefused s.windows (questions st.work done) with
        | some index => s.finishJob u job (.faulted .window (some index)) step done
        | none =>
          match fetchReads st.work done with
          | [] => s.computed u job step done st (computeStep st (sourceValue (s.unit u).cells [] none))
          | r :: rs => s.setUnit u { s.unit u with activity := .iterating job step done (.fetching (r :: rs) []) } := by
  have hb := job.image.need_le step done
  unfold State.beginIteration
  rw [State.iterate_enough u job _ (job.image.iterationBound + 1) s step done hb (by omega)]
  rfl

/-- A job occupies a unit: its unit, the freed units and the waiters change. -/
theorem State.occupy_eq (s : State) (u : UnitId) (job : Job) (step done : Nat) (cells : Cells) (seen : OutcomeSet)
    (last : Option IterOutcome) :
    ∃ c w, s.occupy u job step done cells seen last =
        State.setUnit { s with dispatcher.freed := s.dispatcher.freed.erase u, writer.waiters := w } u c ∧
      CalcUnit.runsAs false job c ∧ c.abortDue = (s.unit u).abortDue := by
  unfold State.occupy
  dsimp only
  rcases State.beginIteration_runs
    (({ s with dispatcher.freed := s.dispatcher.freed.erase u }).setUnit u
      { s.unit u with parkMark := false, cells := cells, seen := seen, last := last }) u job step done with
    ⟨c, w, h, h1, h2⟩ | ⟨_, _, _, _, _, _, _, h, _⟩
  · rw [h, List.append_nil]
    rw [State.setUnit_unit_same] at h1 h2
    cases u <;> exact ⟨c, w, rfl, h1, h2⟩
  · rw [State.setUnit_unit_same] at h
    exact absurd h (by simp)

/-! ### Changes of device state and failures -/

/-- A failed load: OFF without configuration or load, and its report. -/
theorem State.loadFailed_eq (s : State) (r : FaultReport) :
    s.loadFailed r = { s with
      control.state := .off, control.config := none, control.loader := none
      control.faultRecord := some (s.control.faultRecord.getD r)
      control.more := s.control.more || s.control.faultRecord.isSome
      notifier.flags.fault := s.notifier.flags.fault || s.control.faultRecord.isNone } := by
  unfold State.loadFailed
  rw [State.report_eq]

/-- HALTED: every block stopped, and the report. -/
theorem State.halt_eq (s : State) (r : FaultReport) :
    s.halt r = { s with
      control.state := .halted
      control.faultRecord := some (s.control.faultRecord.getD r)
      control.more := s.control.more || s.control.faultRecord.isSome
      intake := { s.intake with urgent := [], normal := [], activity := .idle, sweepDue := false, sweepTimer := none }
      dispatcher := .resetValue
      unit0 := s.unit0.dropped
      unit1 := s.unit1.dropped
      writer := .resetValue
      notifier.flags.halted := true
      notifier.flags.fault := s.notifier.flags.fault || s.control.faultRecord.isNone } := by
  unfold State.halt
  rw [State.report_eq]

/-- Intake's presentation changes the waiters only. -/
theorem State.presentTaken_eq (s : State) : ∃ w, s.presentTaken = { s with writer.waiters := w } := by
  unfold State.presentTaken
  split
  all_goals first
    | exact ⟨s.writer.waiters, rfl⟩
    | (split
       · exact ⟨s.writer.waiters, rfl⟩
       · rw [State.present_eq]
         exact ⟨_, rfl⟩)

/-- The hand-over of a take changes Intake's activity, the staging place, the freed units and the waiters. -/
theorem State.handOver_eq (s : State) (item : IntakeItem) (ticket : Ticket) (verdict : Verdict) :
    ∃ activity st freed w, s.handOver item ticket verdict = { s with
      intake.activity := activity, dispatcher.staged := st, dispatcher.freed := freed, writer.waiters := w } := by
  unfold State.handOver
  split
  · exact ⟨_, _, _, s.writer.waiters, rfl⟩
  all_goals
    rw [State.present_eq]
    exact ⟨_, s.dispatcher.staged, s.dispatcher.freed, _, rfl⟩

/-- A failed read of a fetcher changes the state as a run of the unit's job does. -/
theorem State.fetchFailed_eq (s : State) (u : UnitId) :
    s.fetchFailed u = s ∨ ∃ job step done phase, (s.unit u).activity = .iterating job step done phase ∧
      s.runsTo u job [] (s.fetchFailed u) := by
  unfold State.fetchFailed
  split
  · rename_i job step done _ _ _ h
    split
    · exact Or.inl rfl
    · exact Or.inr ⟨job, step, done, _, h, State.computed_runs s u job step done _ _⟩
  all_goals exact Or.inl rfl

/-- The end of a fetcher's read changes the state as a run of the unit's job does. -/
theorem State.fetchRead_eq (s : State) (u : UnitId) (data : List Byte) :
    s.fetchRead u data = s ∨ ∃ job step done phase, (s.unit u).activity = .iterating job step done phase ∧
      s.runsTo u job [] (s.fetchRead u data) := by
  unfold State.fetchRead
  split
  · rename_i job step done _ _ _ h
    dsimp only
    split
    · exact Or.inr ⟨job, step, done, _, h, State.computed_runs s u job step done _ _⟩
    · exact Or.inl rfl
    · exact Or.inr ⟨job, step, done, _, h, State.runsTo_setUnit s u job rfl (Or.inl ⟨rfl, _, _, _, rfl⟩) rfl⟩
  all_goals exact Or.inl rfl

/-- With an empty buffer there is nothing to discard. -/
theorem State.discardHead_nil (s : State) (hb : s.writer.buffer = []) : s.discardHead = s := by
  obtain ⟨dropped, kept, h1, _, h3⟩ := s.discardHead_eq
  rw [hb] at h1
  obtain ⟨rfl, rfl⟩ := List.append_eq_nil_iff.1 h1.symm
  rw [h3]
  obtain ⟨_, _, _, _, _, _, _, ⟨_, _, _⟩, _, _, _⟩ := s
  subst hb
  rfl

/-- With no block waiting for the port and an empty buffer, the arbiter grants nothing. -/
theorem State.arbitrate_idle (s : State) (hb : s.writer.buffer = []) (hl : s.control.loader = none)
    (hi : s.intake.activity = .idle) (h0 : s.unit0.activity = .idle) (h1 : s.unit1.activity = .idle) :
    s.arbitrate = s := by
  have hc : s.arbiterChoice = none := by
    cases hk : s.control.config <;>
      simp [State.arbiterChoice, State.writerRequest, State.loaderRequest, State.fetchersRequest, State.fetchRequest,
        State.intakeRequest, hb, hl, hi, h0, h1, hk]
  unfold State.arbitrate
  rw [s.discardHead_nil hb]
  unfold State.grant
  rw [hc]
  split_ifs <;> rfl

/-! ### Appends that join at once (R138, R134) -/

/-- Without a waiter nothing joins. -/
theorem State.joiners_nil (s : State) (h : s.writer.waiters = []) : s.joiners = [] := by
  unfold State.joiners
  rw [h]
  rfl

/-- Those who join are the earliest waiters. -/
theorem State.joinersOf_prefix (s : State) (room : Nat) (waiters : List Appender) :
    s.joinersOf room waiters <+: waiters := by
  induction waiters generalizing room with
  | nil => exact List.prefix_rfl
  | cons a rest ih =>
    unfold State.joinersOf
    split
    · split
      · exact (List.prefix_cons_inj a).2 (ih _)
      · exact List.nil_prefix
    · exact List.nil_prefix

/-- The waiters' entries do not depend on the buffer, so neither does who of a list joins a given room. -/
theorem State.joinersOf_writer (s : State) (w : Writer) (room : Nat) (waiters : List Appender) :
    State.joinersOf { s with writer := w } room waiters = s.joinersOf room waiters := by
  induction waiters generalizing room with
  | nil => rfl
  | cons a rest ih =>
    have h : State.entriesDue { s with writer := w } a = s.entriesDue a := by
      cases a with
      | intake => rfl
      | dispatcher => rfl
      | unit u => cases u <;> rfl
    unfold State.joinersOf
    rw [h]
    split
    · rw [ih]
    · rfl

/-- While entries that joined are to be appended the port stays as it is. -/
theorem State.grant_joining (s : State) (h : s.writer.joining ≠ []) : s.grant = s := by
  simp [State.grant, h]

/-- With no such entry the free port goes to the arbiter's choice. -/
theorem State.grant_free (s : State) (ho : s.port.outstanding = none) (hj : s.writer.joining = []) :
    s.grant.port.outstanding = s.arbiterChoice := by
  unfold State.grant
  rw [ho, hj]
  cases hc : s.arbiterChoice with
  | none => simpa using ho
  | some t => cases hp : t.purpose <;> simp [hp]

/-- At the end of a transaction at which no waiter becomes able to join the port is granted at once. -/
theorem State.portFreed_granted (before s : State) (h : ¬before.joiners.length < s.discardHead.joiners.length) :
    before.portFreed s = State.arbitrate { s with writer.joining := [] } := by
  unfold State.portFreed
  dsimp only
  rw [if_neg h]

/-- At the end of a transaction at which one becomes able to join the port waits for those who join. -/
theorem State.portFreed_waits (before s : State) (h : before.joiners.length < s.discardHead.joiners.length) :
    (before.portFreed s).port = s.port := by
  have hj : s.discardHead.joiners ≠ [] := by
    intro h0
    rw [h0] at h
    exact Nat.not_lt_zero _ h
  unfold State.portFreed
  dsimp only
  rw [if_pos h]
  unfold State.arbitrate
  split
  · obtain ⟨_, kept, _, _, h3⟩ := State.discardHead_eq { s with writer.joining := s.discardHead.joiners }
    rw [h3, State.grant_joining _ hj]
  · rfl

/-! ### Freed units and waiting appenders -/

/-- How many freed units jobs are available for (R90). -/
theorem Dispatcher.available_eq (d : Dispatcher) :
    d.available = (d.parked.filter fun p => !p.ending).length + (if d.eligible then 1 else 0) := by
  unfold Dispatcher.available
  cases d.eligible <;> rfl

/-- A context that joins the park buffer frees its unit, which stands last among the freed ones (R94, R90). -/
theorem Dispatcher.unitFreed_parked (d : Dispatcher) (u : UnitId) (p : ParkedJob) (h : p.ending = false) :
    ({ d.settleFreed with parked := d.settleFreed.parked ++ [p] } : Dispatcher).unitFreed u = { d with
      parked := d.parked ++ [p]
      parkRequest := if d.parkRequest.any (·.1 = u) then none else d.parkRequest
      freed := d.freed.take d.available ++ [u] } := by
  have ha : Dispatcher.available { d.settleFreed with parked := d.settleFreed.parked ++ [p] } = d.available + 1 := by
    show (List.filter _ (d.parked ++ [p])).length + d.eligible.toNat = _
    unfold Dispatcher.available
    simp [h]
    omega
  unfold Dispatcher.unitFreed
  rw [ha]
  simp only [Dispatcher.settleFreed, Dispatcher.mk.injEq, true_and]
  refine ⟨rfl, List.take_of_length_le ?_⟩
  simp

/-- The earliest waiter's place is the list's head. -/
theorem erase_head {waiters : List Appender} {a : Appender} (h : waiters.head? = some a) :
    waiters.erase a = waiters.tail := by
  cases waiters with
  | nil => rfl
  | cons b rest =>
    obtain rfl : b = a := by simpa using h
    simp

/-- Entries of the earliest waiter are admitted where the buffer has room for all of them (R138). -/
theorem State.admits_iff (s : State) (a : Appender) (n : Nat) :
    s.admits a n = true ↔ s.acts = true ∧ s.writer.waiters.head? = some a ∧ s.writer.buffer.length + n ≤ 8 := by
  simp only [State.admits, Bool.and_eq_true, decide_eq_true_eq, and_assoc]
  exact Iff.rfl

/-- One entry of the earliest waiter is admitted where the buffer has room (R138). -/
theorem State.admits_one (s : State) (a : Appender) :
    s.admits a 1 = true ↔ s.acts = true ∧ s.writer.waiters.head? = some a ∧ s.writer.buffer.length < 8 := by
  simp only [State.admits_iff, Nat.succ_le_iff]

/-! ### Accesses by offset (R183) -/

/-- What a read of some bytes of a register returns, by the first byte and their number (R183). -/
theorem laneValue_eq (value : Word) (lanes : Lanes) (first count : Nat) (hf : lanes.first.val = first)
    (hc : lanes.last.val + 1 = first + count) :
    laneValue value lanes = (value.extractLsb' (8 * first) (8 * count)).setWidth 32 := by
  obtain rfl : lanes.count = count := by unfold Lanes.count; omega
  subst hf
  rfl

/-- An access within one register (R183). -/
theorem accessParts_one (offset : Fin 32) (width : AccessWidth) (lanes : Lanes) (hf : lanes.first.val = offset.val % 4)
    (hl : lanes.last.val + 1 = offset.val % 4 + width.bytes) : accessParts offset width = [(registerAt offset, lanes)] := by
  obtain ⟨first, last⟩ := lanes
  revert first last
  revert offset
  cases width <;> decide +kernel

/-- An access that runs on into the next register (log entry 29). -/
theorem accessParts_two (offset next : Fin 32) (width : AccessWidth) (lower upper : Lanes)
    (hn : next.val = offset.val + 4) (hf : lower.first.val = offset.val % 4) (hl : lower.last = 3)
    (hu : upper.first = 0) (hc : upper.last.val + 5 = offset.val % 4 + width.bytes) :
    accessParts offset width = [(registerAt offset, lower), (registerAt next, upper)] := by
  obtain ⟨a, b⟩ := lower
  obtain ⟨c, d⟩ := upper
  dsimp only at hl hu
  subst hl hu
  have h28 : offset.val < 28 := by omega
  obtain rfl : next = Fin.ofNat 32 (offset.val + 4) := Fin.ext (by simp [Fin.ofNat]; omega)
  clear hn
  revert a d h28
  revert offset
  cases width <;> decide +kernel

/-- An access that runs on past the window's end (log entry 29). -/
theorem accessParts_end (offset : Fin 32) (width : AccessWidth) (lower : Lanes) (hn : 28 ≤ offset.val)
    (hf : lower.first.val = offset.val % 4) (hl : lower.last = 3) (hc : 4 < offset.val % 4 + width.bytes) :
    accessParts offset width = [(registerAt offset, lower)] := by
  obtain ⟨a, b⟩ := lower
  dsimp only at hl
  subst hl
  revert a hn hc
  revert offset
  cases width <;> decide +kernel

/-- A narrow write is one without effect (R183). -/
theorem registerWrite_narrow (register : Register) (lanes : Lanes) (value : Word) (h : lanes ≠ .whole) :
    registerWrite register lanes value = [.ignoredRegisterWrite register lanes value] := by
  simp [registerWrite, ignoredWrite, h]

end Sys2Proof.Machine
end

