-- ==== Sys2Proof/Laws/PerInstr.lean ====
section
/-! SUPPORT. One lemma per command: the commands that a bus write spells are well-formed (R183, R184). -/

namespace Sys2Proof.Laws.BusWrites

/-- Where a write to bytes of a register spells the command, the command is well-formed. -/
def Statement (c : Instr) : Prop :=
  ∀ (register : Register) (lanes : Lanes) (value : Word), lanes.ordered = true → c ∈ registerWrite register lanes value →
    c.wellFormed = true

/-- The command code of a CONTROL write that spells no named command is an unnamed one. -/
theorem controlWrite_unnamed (value : Word) (code : BitVec 4)
    (h : controlWrite value = .unnamedCommandCode code) : unnamedCode code = true := by
  unfold controlWrite at h
  dsimp only at h
  generalize value.setWidth 4 = k at h
  split at h <;> simp only [reduceCtorEq, Instr.unnamedCommandCode.injEq] at h
  subst h
  rename_i h1 h2 h3 h4 h5 h6
  have key (n : Nat) (h1 : n ≠ 1) (h2 : n ≠ 2) (h3 : n ≠ 3) (h4 : n ≠ 4) (h5 : n ≠ 5) (h6 : n ≠ 6) :
      n = 0 ∨ 7 ≤ n := by omega
  simpa [unnamedCode] using key k.toNat h1 h2 h3 h4 h5 h6

/-- A STATUS write spells flag clears only. -/
theorem mem_statusWrite (value : Word) (c : Instr) (h : c ∈ statusWrite value) :
    c = .clearFinish ∨ c = .clearStoppedFlag ∨ c = .clearHaltedFlag ∨ c = .clearFaultFlag := by
  unfold statusWrite at h
  split_ifs at h <;>
    simp only [List.append_nil, List.nil_append, List.mem_append, List.mem_singleton, List.not_mem_nil] at h <;>
    tauto

theorem start : Statement .start := fun _ _ _ _ _ => rfl

theorem stop : Statement .stop := fun _ _ _ _ _ => rfl

theorem abortAll : Statement .abortAll := fun _ _ _ _ _ => rfl

theorem abortSlot (slot : Slot) : Statement (.abortSlot slot) := fun _ _ _ _ _ => rfl

theorem clearFault : Statement .clearFault := fun _ _ _ _ _ => rfl

theorem reset : Statement .reset := fun _ _ _ _ _ => rfl

theorem unnamedCommandCode (code : BitVec 4) : Statement (.unnamedCommandCode code) := by
  intro register lanes value _ h
  unfold registerWrite at h
  split_ifs at h
  · simp at h
  · cases register <;> simp only [List.mem_singleton, reduceCtorEq] at h
    · exact controlWrite_unnamed value code h.symm
    · simp [postWrite] at h
    · rcases mem_statusWrite value _ h with h | h | h | h <;> cases h

theorem postArrival (slot : Slot) (priority : Priority) : Statement (.postArrival slot priority) := fun _ _ _ _ _ => rfl

/-- A write spells no HARVEST read. -/
theorem harvestRead (lanes : Lanes) : Statement (.harvestRead lanes) := by
  intro register l value _ h
  unfold registerWrite at h
  split_ifs at h
  · simp at h
  · cases register <;> simp only [List.mem_singleton, reduceCtorEq, postWrite, controlWrite] at h
    · split at h <;> cases h
    · rcases mem_statusWrite value _ h with h | h | h | h <;> cases h

theorem clearFinish : Statement .clearFinish := fun _ _ _ _ _ => rfl

theorem clearStoppedFlag : Statement .clearStoppedFlag := fun _ _ _ _ _ => rfl

theorem clearHaltedFlag : Statement .clearHaltedFlag := fun _ _ _ _ _ => rfl

theorem clearFaultFlag : Statement .clearFaultFlag := fun _ _ _ _ _ => rfl

theorem interruptEnableWrite (value : Word) : Statement (.interruptEnableWrite value) := fun _ _ _ _ _ => rfl

theorem configAddressWrite (value : Word) : Statement (.configAddressWrite value) := fun _ _ _ _ _ => rfl

theorem ignoredRegisterWrite (register : Register) (lanes : Lanes) (value : Word) :
    Statement (.ignoredRegisterWrite register lanes value) := by
  intro r l v ho h
  have effective (hn : ¬ignoredWrite r l = true) : r ≠ .ident ∧ r ≠ .harvest ∧ r ≠ .fault := by
    cases r <;> simp [ignoredWrite] at hn ⊢
  unfold registerWrite at h
  split_ifs at h with hi
  · simp only [List.mem_singleton, Instr.ignoredRegisterWrite.injEq] at h
    obtain ⟨rfl, rfl, rfl⟩ := h
    simp [Instr.wellFormed, ho, hi]
  · obtain ⟨h1, h2, h3⟩ := effective hi
    cases r <;> simp only [ne_eq, not_true_eq_false] at h1 h2 h3 <;>
      simp only [List.mem_singleton, reduceCtorEq, postWrite, controlWrite] at h
    · split at h <;> cases h
    · rcases mem_statusWrite v _ h with h | h | h | h <;> cases h

theorem lineReset : Statement .lineReset := fun _ _ _ _ _ => rfl

theorem rstRelease : Statement .rstRelease := fun _ _ _ _ _ => rfl

theorem commandResetComplete : Statement .commandResetComplete := fun _ _ _ _ _ => rfl

theorem sweepTimerExpiry : Statement .sweepTimerExpiry := fun _ _ _ _ _ => rfl

theorem holdoffExpiry : Statement .holdoffExpiry := fun _ _ _ _ _ => rfl

theorem responseTimeout : Statement .responseTimeout := fun _ _ _ _ _ => rfl

theorem lateResponse : Statement .lateResponse := fun _ _ _ _ _ => rfl

theorem loaderReadDone (host : HostWrites) : Statement (.loaderReadDone host) := fun _ _ _ _ _ => rfl

theorem configReadBusError : Statement .configReadBusError := fun _ _ _ _ _ => rfl

theorem sweepReadDone (host : HostWrites) : Statement (.sweepReadDone host) := fun _ _ _ _ _ => rfl

theorem takeBlock0ReadDone (host : HostWrites) : Statement (.takeBlock0ReadDone host) := fun _ _ _ _ _ => rfl

theorem takeBlockReadDone (host : HostWrites) : Statement (.takeBlockReadDone host) := fun _ _ _ _ _ => rfl

theorem nullTakeReadDone (host : HostWrites) : Statement (.nullTakeReadDone host) := fun _ _ _ _ _ => rfl

theorem intakeBusError : Statement .intakeBusError := fun _ _ _ _ _ => rfl

theorem fetchReadDone (host : HostWrites) : Statement (.fetchReadDone host) := fun _ _ _ _ _ => rfl

theorem fetchBusError : Statement .fetchBusError := fun _ _ _ _ _ => rfl

theorem stateWriteDone : Statement .stateWriteDone := fun _ _ _ _ _ => rfl

theorem destinationWriteDone : Statement .destinationWriteDone := fun _ _ _ _ _ => rfl

theorem destinationWriteFail : Statement .destinationWriteFail := fun _ _ _ _ _ => rfl

theorem resultAreaWriteDone : Statement .resultAreaWriteDone := fun _ _ _ _ _ => rfl

theorem doneWriteDone : Statement .doneWriteDone := fun _ _ _ _ _ => rfl

theorem writerFatalBus : Statement .writerFatalBus := fun _ _ _ _ _ => rfl

theorem sweepBegin : Statement .sweepBegin := fun _ _ _ _ _ => rfl

theorem takeBegin : Statement .takeBegin := fun _ _ _ _ _ => rfl

theorem nullTakeBegin : Statement .nullTakeBegin := fun _ _ _ _ _ => rfl

theorem takenEntryAppend : Statement .takenEntryAppend := fun _ _ _ _ _ => rfl

theorem intakeCompletionAppend : Statement .intakeCompletionAppend := fun _ _ _ _ _ => rfl

theorem jobStart : Statement .jobStart := fun _ _ _ _ _ => rfl

theorem jobResume : Statement .jobResume := fun _ _ _ _ _ => rfl

theorem parkRequest : Statement .parkRequest := fun _ _ _ _ _ => rfl

theorem dispatcherCompletionAppend : Statement .dispatcherCompletionAppend := fun _ _ _ _ _ => rfl

theorem iterationIssue (unit : UnitId) : Statement (.iterationIssue unit) := fun _ _ _ _ _ => rfl

theorem unitCompletionAppend (unit : UnitId) : Statement (.unitCompletionAppend unit) := fun _ _ _ _ _ => rfl

theorem unitAbortArrival (unit : UnitId) : Statement (.unitAbortArrival unit) := fun _ _ _ _ _ => rfl

theorem enterStopped : Statement .enterStopped := fun _ _ _ _ _ => rfl

end Sys2Proof.Laws.BusWrites
end

