-- ==== Sys2Proof/Tests/Slice0.lean ====
section
/-! SUPPORT. Tests: ill-formed commands, the spec's examples, and for every statement with hypotheses a state that meets
them, with what the step answers there. -/

namespace Sys2Proof.Tests

open Sys2Proof.Machine

-- One theorem at a time: elaborated side by side they want more threads than the sandbox gives.
set_option Elab.async false

/-! ### Helpers -/

/-- The next state of a command, if there is one. -/
def after (c : Instr) (s : State) : Option State :=
  match exec c s with
  | .next t => some t
  | .fault _ | .refused _ => none

/-- A test of the next state. -/
def afterIs (c : Instr) (s : State) (p : State → Bool) : Bool := (after c s).any p

/-- One window, 0x4000 to 0x41FF, both rights; four slots from 0x1000. -/
def cfg : Configuration := ⟨0x1000#32, 4, 10, 2, 100, [⟨0x4000#32, 0x200#32, true, true⟩]⟩

/-- The device in a state with that configuration loaded, T = 2 and H = 100. -/
def inState (d : DeviceState) : State :=
  { State.reset with control.state := d, control.config := some cfg, notifier.threshold := 2, notifier.holdoff := 100 }

/-- The device in RUNNING. -/
def running : State := inState .running

/-- The same with the port busy. -/
def busy (s : State) (p : Purpose) (address : Nat) (x : Transfer) : State :=
  { s with port.outstanding := some ⟨p, address, x, false⟩ }

/-- A PACKED field of 5 digits, scale 2, at 0x4000, stride 16. -/
def packed5 : MemField := ⟨.packed, 5, 2, 0x4000#32, 16#16⟩

/-- MOVE of the field at operand 0 to the field at operand 1, twice. -/
def moveStep : Machine.Step :=
  ⟨.move ⟨0, .memory packed5⟩ ⟨1, .memory { packed5 with address := 0x4100#32 }⟩, .truncate, .plain,
    ⟨false, true, false, false⟩, .endJob, 2⟩

/-- MOVE of a literal to cell 0. -/
def cellStep : Machine.Step :=
  ⟨.move ⟨0, .literal ⟨-250, 2⟩⟩ ⟨1, .cell 0 3 1⟩, .halfUp, .plain, ⟨true, false, false, false⟩, .endRepeat, 2⟩

/-- A job of some steps. -/
def job (t : Ticket) (slot : Slot) (p : Priority) (steps : List Machine.Step) : Job := ⟨t, slot, 7#16, p, ⟨false, steps⟩⟩

/-- A unit with an iteration in some phase. -/
def iterating (j : Job) (step done : Nat) (phase : IterPhase) : CalcUnit :=
  { CalcUnit.resetValue with activity := .iterating j step done phase }

/-- The unit waits with fetched reads still to make. -/
def fetching : IterPhase := .fetching [⟨0, 0x4000, 3, 0x4000, 3⟩] []

/-- A completion item of a job that ended OK. -/
def okItem (t : Ticket) (slot : Slot) : CompletionItem := ⟨t, slot, 7#16, .normal, ⟨.ok, 0, 1, .empty, none⟩⟩

/-- A parked context at step 1, one iteration done. -/
def parkedJob (j : Job) (ending : Bool) : ParkedJob := ⟨j, 1, 1, .zero, .empty, none, ending⟩

/-- An intake item in some phase. -/
def item (slot : Slot) (record : Memory) (phase : TakePhase) : IntakeItem :=
  ⟨slot, .normal, .post, false, record, phase⟩

/-! ### Well-formed commands -/

theorem test_wellFormed_refuses_named_code : (Instr.unnamedCommandCode 1#4).wellFormed = false := by decide

theorem test_wellFormed_refuses_effective_write :
    (Instr.ignoredRegisterWrite .control .whole 1#32).wellFormed = false := by decide

theorem test_wellFormed_refuses_disordered_lanes :
    (Instr.harvestRead ⟨2, 1⟩).wellFormed = false ∧
    (Instr.ignoredRegisterWrite .control ⟨3, 0⟩ 1#32).wellFormed = false := by decide

theorem test_wellFormed_accepts : (Instr.unnamedCommandCode 7#4).wellFormed = true ∧
    (Instr.harvestRead ⟨1, 2⟩).wellFormed = true ∧ (Instr.ignoredRegisterWrite .control ⟨0, 1⟩ 1#32).wellFormed = true ∧
    (Instr.ignoredRegisterWrite .fault .whole 0#32).wellFormed = true := by decide

/-! ### The queue and the resets -/

/-- StepRunsTheFrontCommand: both clauses. -/
theorem test_queue : State.reset.pending = [] ∧
    (match step { running with pending := [.clearFault, .stop] } with
      | .next t => decide (t.pending = [.stop] ∧ t.control.outcome = .accepted)
      | .fault _ | .refused _ => false) = true := by decide +kernel

/-- A command reset that waits. -/
def waiting : State := { running with control.resetWait := true, control.configAddress := 0x40#32 }

/-- RegistersAfterReset and CommandReset: the end of a command reset. -/
theorem test_reset_complete : waiting.control.resetWait = true ∧ waiting.port.outstanding = none ∧
    after .commandResetComplete waiting = some { State.reset with control.configAddress := 0x40#32 } := by
  decide +kernel

/-- CommandReset: the wait, with a transaction outstanding. -/
theorem test_reset_wait :
    let s := busy waiting .destination 0x4000 (.write [1#8, 2#8])
    s.control.resetWait = true ∧ s.port.outstanding = some ⟨.destination, 0x4000, .write [1#8, 2#8], false⟩ ∧
    Memory.wf s.memory ∧ 1 < [1#8, 2#8].length ∧ ¬(0x4002 < 0x4000 + 2) ∧
    after .destinationWriteDone s = some { waiting with memory := [(0x4000, 1#8), (0x4001, 2#8)] } ∧
    after .commandResetComplete s = some s ∧ after .stop s = some s ∧ after .takeBegin s = some s ∧
    after .responseTimeout (busy waiting (.source .unit1) 0x4000 (.read 4)) = some waiting := by decide +kernel

/-- CommandReset: a RESET taken. -/
theorem test_reset : running.control.rst = false ∧ running.control.resetWait = false ∧
    afterIs .reset running (fun t => t.control.resetWait && t.control.outcome = .accepted) = true := by decide +kernel

/-- LineReset: an outstanding write of two bytes, a byte below it and the first byte above it. -/
theorem test_line_reset :
    let s := { busy running .destination 0x4000 (.write [1#8, 2#8]) with memory := [(0x3FFF, 9#8)] }
    s.port.outstanding = some ⟨.destination, 0x4000, .write [1#8, 2#8], false⟩ ∧ Memory.wf s.memory ∧
    ¬(0x4000 ≤ 0x3FFF ∧ 0x3FFF < 0x4000 + 2) ∧ ¬(0x4000 ≤ 0x4002 ∧ 0x4002 < 0x4000 + 2) ∧ 1 < [1#8, 2#8].length ∧
    after .lineReset running = some { State.reset with control.rst := true } := by decide +kernel

/-- LineReset: RST asserted. -/
theorem test_rst :
    let s := { State.reset with control.rst := true }
    s.control.rst = true ∧ after .start s = some s ∧ after (.postArrival 3 .urgent) s = some s ∧
    after (.interruptEnableWrite 0xF0#32) s = some s ∧ after (.configAddressWrite 64#32) s = some s ∧
    after .rstRelease s = some State.reset := by decide +kernel

/-! ### Commands -/

/-- CommandsAcceptedByState: each refused command. -/
theorem test_commands_refused :
    after .start running = some { running with control.outcome := .refusedState } ∧
    after .stop (inState .draining) = some { inState .draining with control.outcome := .refusedState } ∧
    after .abortAll (inState .aborting) = some { inState .aborting with control.outcome := .refusedState } ∧
    after (.abortSlot 3) (inState .halted) = some { inState .halted with control.outcome := .refusedState } ∧
    after (.unnamedCommandCode 0#4) running = some { running with control.outcome := .refusedState } := by
  decide +kernel

/-- CommandsAcceptedByState: accepted commands, and ABORT SLOT. -/
theorem test_commands_accepted :
    afterIs .start (inState .stopped) (·.control.outcome = .accepted) = true ∧
    afterIs .stop running (·.control.outcome = .accepted) = true ∧
    afterIs .abortAll (inState .draining) (·.control.outcome = .accepted) = true ∧
    afterIs (.abortSlot 3) running (·.control.outcome = .notFound) = true := by decide +kernel

/-- The last address from which a configuration block does not wrap, and the first from which it does. (ConfigAddressRegister and LoadReadsThreeBlocks.) -/
theorem test_start :
    let s (a : Word) : State := { State.reset with control.configAddress := a }
    (0xFFFFFF40#32).toNat % 64 = 0 ∧ (0xFFFFFF40#32).toNat + 191 ≤ 0xFFFFFFFF ∧
    afterIs .start (s 0xFFFFFF40#32) (fun t => t.control.state = .loading ∧
      t.port.outstanding = some ⟨.config 0, 0xFFFFFF40, .read 64, false⟩) = true ∧
    0xFFFFFFFF < (0xFFFFFF80#32).toNat + 191 ∧
    afterIs .start (s 0xFFFFFF80#32) (fun t => t.control.state = .off ∧
      t.control.faultRecord = some (.configInvalid .configAddress) ∧ t.notifier.flags.fault) = true ∧
    (0x20#32).toNat % 64 ≠ 0 ∧ afterIs .start (s 0x20#32) (·.control.state = .off) = true := by decide +kernel

/-- The 64 bytes of a first configuration block: version 1, base 0x1000, 4 slots, T = 2, 1 window, interval 10, H = 100. -/
def block0 : Memory := [(0, 1#8), (5, 0x10#8), (8, 4#8), (9, 2#8), (10, 1#8), (12, 10#8), (16, 100#8)]

/-- The whole block, with the window of cfg. -/
def goodCopy : Memory := block0 ++ [(65, 0x40#8), (69, 2#8), (72, 3#8)]

/-- LOADING with a block still to read. -/
def loading (b : Fin 3) (copy : Memory) : State :=
  { busy (inState .loading) (.config b) (0x2000 + 64 * b.val) (.read 64) with
    control.config := none, control.loader := some ⟨0x2000#32, b, copy⟩ }

/-- LoadReadsThreeBlocks: the three reads, success, failure and bus error; ConfigurationChecks. -/
theorem test_load :
    checkConfiguration 0x2000#32 goodCopy = none ∧ blockConfiguration goodCopy = cfg ∧
    afterIs (.loaderReadDone (block0.map fun c => (0x2000#32 + BitVec.ofNat 32 c.1, c.2))) (loading 0 [])
      (fun t => t.control.loader = some ⟨0x2000#32, 1, block0⟩) = true ∧
    afterIs (.loaderReadDone []) (loading 1 block0) (fun t => t.control.loader = some ⟨0x2000#32, 2, block0⟩) = true ∧
    afterIs (.loaderReadDone []) (loading 2 goodCopy) (fun t => t.control.state = .running ∧
      t.control.config = some cfg ∧ t.intake.sweepDue ∧ t.notifier.threshold = 2) = true ∧
    afterIs (.loaderReadDone []) (loading 2 block0) (fun t => t.control.state = .off ∧
      t.control.faultRecord = some (.configInvalid (.windowRights 0))) = true ∧
    afterIs .configReadBusError (loading 1 block0) (fun t => t.control.state = .off ∧
      t.control.faultRecord = some (.configBusError 1 .error)) = true := by decide +kernel

/-- ConfigurationChecks: the first failure named, each of the window checks at its boundary and the block over the table. -/
theorem test_load_failures :
    let check (a : Word) (changes : List (Nat × Byte)) : Option ConfigField :=
      checkConfiguration a (changes.foldl (fun m c => Memory.write m c.1 c.2) goodCopy)
    check 0x2000#32 [(0, 2#8), (8, 0#8)] = some .version ∧ check 0x2000#32 [(4, 1#8), (8, 0#8)] = some .slotTableBase ∧
    check 0x2000#32 [(8, 65#8), (9, 0#8)] = some .slotCount ∧
    check 0x2000#32 [(5, 0xFC#8), (6, 0xFF#8), (7, 0xFF#8)] = some .slotCount ∧
    check 0x2000#32 [(13, 4#8)] = some .sweepInterval ∧ check 0x2000#32 [(9, 5#8)] = some .finishThreshold ∧
    check 0x2000#32 [(18, 1#8)] = some .finishHoldoff ∧ check 0x2000#32 [(10, 9#8), (72, 0#8)] = some .windowCount ∧
    check 0x2000#32 [(10, 2#8)] = some (.windowRights 1) ∧ check 0x2000#32 [(69, 0#8)] = some (.windowLength 0) ∧
    check 0x2000#32 [(65, 0xFF#8), (66, 0xFF#8), (67, 0xFF#8)] = some (.windowLength 0) ∧
    check 0x2000#32 [(65, 0x17#8)] = some (.windowBase 0) ∧ check 0x2000#32 [(65, 0x18#8)] = none ∧
    check 0x17C0#32 [] = some .slotTableBase ∧ check 0x1800#32 [] = none := by decide +kernel

/-- DrainBeginsAndCompletes: STOP while idle, with the sweep read in flight and without. -/
theorem test_stop :
    let s := { busy running (.sweep 2) 0x1400 (.read 64) with intake.activity := .sweeping 2 }
    let r := { busy running .destination 0x4000 (.write [1#8]) with intake.activity := .sweeping 2 }
    after .stop running = some { running with control.state := .draining, control.outcome := .accepted } ∧
    afterIs .stop s (·.intake.activity = .sweeping 2) = true ∧
    afterIs .stop r (·.intake.activity = .idle) = true := by decide +kernel

/-- DrainBeginsAndCompletes: the condition met, and an entry left. -/
theorem test_enter_stopped :
    let s := { inState .draining with intake.normal := [⟨3, .normal, .post⟩] }
    let s1 := { s with writer.buffer := [.completion (okItem 5#32 1) false] }
    afterIs .enterStopped s (fun t => t.control.state = .stopped ∧ t.intake.normal = [] ∧ t.notifier.flags.stopped) = true ∧
    after .enterStopped s1 = some s1 := by decide +kernel

/-- A busy device: a take, a staged job, a parked job, a unit that iterates. -/
def full : State :=
  { running with
    intake := { running.intake with
      urgent := [⟨0, .urgent, .post⟩], normal := [⟨4, .normal, .sweep⟩]
      activity := .taking (item 5 [] .block0) }
    dispatcher := { running.dispatcher with
      staged := some ⟨job 3#32 6 .urgent [cellStep], false⟩
      parked := [parkedJob (job 2#32 7 .normal [cellStep, cellStep]) false], outstanding := [1#32, 2#32, 3#32] }
    unit0 := iterating (job 1#32 8 .normal [moveStep]) 0 0 fetching
    writer.buffer := [.completion (okItem 0#32 9) false]
    notifier.harvest := [⟨10, .ok, 7#16⟩] }

/-- AbortAllEndsEveryJob: a take, a staged job and a parked job. -/
theorem test_abort_all :
    afterIs .abortAll full (fun t => t.control.state = .aborting ∧ t.intake.pendingSlots = [] ∧
      t.dispatcher.items.map (·.ticket) = [3#32, 2#32] ∧ t.unit0.abortDue ∧ t.unit1.abortDue) = true := by decide +kernel

/-- AbortAllEndsEveryJob: a sweep with its read in flight and without, and an ending and a later parked job before an
earlier one in the list. -/
theorem test_abort_all_order :
    let sweep (s : State) : State := { s with intake.activity := .sweeping 2 }
    let a := parkedJob (job 4#32 7 .normal [cellStep]) true
    let b := parkedJob (job 2#32 6 .normal [cellStep]) false
    let faulted : CompletionItem := { okItem 4#32 7 with info.how := .faulted .busError none }
    afterIs .abortAll (sweep (busy running (.sweep 2) 0x1400 (.read 64))) (·.intake.activity = .sweeping 2) = true ∧
    afterIs .abortAll (sweep (busy running .destination 0x4000 (.write [1#8]))) (·.intake.activity = .idle) = true ∧
    afterIs .abortAll { full with
        dispatcher.parked := [a, { b with job.ticket := 3#32 }, b], dispatcher.items := [faulted]
        dispatcher.outstanding := [1#32, 2#32, 3#32, 4#32, 5#32]
        dispatcher.staged := some ⟨job 5#32 5 .urgent [cellStep], false⟩ } (fun t =>
      t.dispatcher.items.map (fun i => (i.ticket, i.info.how)) =
        [(4#32, .aborted), (5#32, .aborted), (2#32, .aborted), (3#32, .aborted)]) = true := by decide +kernel

/-- AbortSlotOutcome and AbortMarkerReplacesTheEntry: each place that holds a slot. -/
theorem test_abort_slot :
    full.intake.pendingSlots.Nodup ∧
    afterIs (.abortSlot 0) full (fun t => t.control.outcome = .accepted ∧
      t.intake.urgent = [⟨0, .urgent, .abort⟩]) = true ∧
    afterIs (.abortSlot 4) full (fun t => t.intake.urgent = [⟨4, .normal, .abort⟩, ⟨0, .urgent, .post⟩]) = true ∧
    afterIs (.abortSlot 0) { full with intake.urgent := [⟨0, .urgent, .abort⟩] }
      (fun t => t.intake.urgent = [⟨0, .urgent, .abort⟩]) = true ∧
    afterIs (.abortSlot 5) full (fun t => t.intake.activity = .taking { item 5 [] .block0 with aborted := true }) = true ∧
    afterIs (.abortSlot 7) full (·.dispatcher.items.length = 1) = true ∧
    afterIs (.abortSlot 8) full (fun t => !t.unit0.isIdle && t.control.outcome = .accepted) = true ∧
    after (.abortSlot 9) full = some { full with control.outcome := .notActive } ∧
    after (.abortSlot 10) full = some { full with control.outcome := .notFound } := by decide +kernel

/-- AbortSlotOutcome: a null take, the staging place and the park buffer, ending or not, and a unit, ending or with its fetch
in flight. -/
theorem test_abort_slot_places :
    let null := IntakeActivity.nullTake (item 5 [] .block0)
    let ended (s : State) : State :=
      { s with
        dispatcher.staged := s.dispatcher.staged.map fun st => { st with ending := true }
        dispatcher.parked := s.dispatcher.parked.map fun p => { p with ending := true }
        dispatcher.items := [{ okItem 2#32 7 with info.how := .faulted .busError none }] }
    (5 : Slot) ∉ full.intake.pendingSlots ∧
    afterIs (.abortSlot 5) { full with intake.activity := null } (·.intake.activity = null) = true ∧
    afterIs (.abortSlot 6) full (fun t => t.dispatcher.staged = some ⟨job 3#32 6 .urgent [cellStep], true⟩ ∧
      t.dispatcher.items = [⟨3#32, 6, 7#16, .urgent, .unrun .aborted⟩] ∧ t.writer.waiters = [.dispatcher]) = true ∧
    after (.abortSlot 6) (ended full) = some { ended full with control.outcome := .accepted } ∧
    afterIs (.abortSlot 7) full (fun t => t.dispatcher.parked.all (·.ending) ∧ t.dispatcher.items =
      [⟨2#32, 7, 7#16, .normal, ⟨.aborted, 1, 1, .empty, none⟩⟩]) = true ∧
    afterIs (.abortSlot 7) (ended full) (fun t => t.dispatcher.items.map (·.info.how) = [.aborted]) = true ∧
    afterIs (.abortSlot 8) (busy full (.source .unit0) 0x4000 (.read 3)) (fun t =>
      t.unit0.activity = .ending ⟨1#32, 8, 7#16, .normal, ⟨.aborted, 0, 0, .empty, none⟩⟩ ∧
      t.port.outstanding = some ⟨.source .unit0, 0x4000, .read 3, true⟩) = true ∧
    afterIs (.abortSlot 8) { full with unit0.activity := .ending (okItem 1#32 8) } (fun t =>
      t.unit0.activity = .ending { okItem 1#32 8 with info.how := .aborted }) = true := by decide +kernel

/-- FaultRecordKeepsTheFirst and ClearFaultEmptiesTheRecord: an empty record and a filled one. -/
theorem test_fault_record :
    let r : FaultReport := .postRefused 3 .outOfRange
    let s := { running with control.faultRecord := some r, notifier.flags.fault := true }
    running.control.faultRecord = none ∧ s.control.faultRecord = some r ∧ running.report r = s ∧
    s.report (.configInvalid .version) = { s with control.more := true } ∧
    after .clearFault s = some { s with control.outcome := .accepted, control.faultRecord := none } ∧
    afterIs (.postArrival 63 .normal) s (fun t => t.control.faultRecord = some r ∧ t.control.more) = true := by
  decide +kernel

/-! ### Register accesses -/

/-- PostArrivalDecided: each case of the table. -/
theorem test_post :
    after (.postArrival 4 .normal) running = some (running.report (.postRefused 4 .outOfRange)) ∧
    after (.postArrival 3 .urgent) running = some { running with intake.urgent := [⟨3, .urgent, .post⟩] } ∧
    after (.postArrival 0 .normal) full = some full ∧
    after (.postArrival 2 .normal) { running with intake.urgent := [⟨2, .normal, .abort⟩] } =
      some (State.report { running with intake.urgent := [⟨2, .normal, .abort⟩] } (.postRefused 2 .duplicate)) ∧
    after (.postArrival 0 .normal) State.reset = some (State.reset.report (.postRefused 0 .notRunning)) := by
  decide +kernel

/-- PostArrivalDecided: a slot in each of the places of R64. -/
theorem test_held :
    let s : State := { running with
      intake := { running.intake with
        urgent := [⟨1, .urgent, .post⟩], normal := [⟨2, .normal, .sweep⟩], activity := .nullTake (item 3 [] .block0) }
      dispatcher.staged := some ⟨job 4#32 4 .normal [moveStep], false⟩
      unit0 := iterating (job 5#32 5 .normal [moveStep]) 0 0 fetching
      unit1.activity := .ending (okItem 6#32 6)
      dispatcher.parked := [parkedJob (job 7#32 7 .normal [moveStep]) true]
      writer.buffer := [.state 9#32 9 .normal 7#16, .completion (okItem 8#32 8) false]
      notifier.harvest := [⟨63, .ok, 7#16⟩] }
    s.heldSlots = [1, 2, 3, 4, 5, 6, 7, 8, 63] := by decide +kernel

/-- HarvestReadTakesTheHead: two entries, and an empty queue. -/
theorem test_harvest :
    let s := { running with notifier.harvest := [⟨5, .stopped, 0xBEEF#16⟩, ⟨6, .ok, 1#16⟩] }
    s.heldSlots.Nodup ∧
    after (.harvestRead .whole) s =
      some { s with control.harvestWord := 0x8205BEEF#32, notifier.harvest := [⟨6, .ok, 1#16⟩] } ∧
    afterIs (.harvestRead ⟨3, 3⟩) s (·.control.harvestWord = 0x82#32) = true ∧
    afterIs (.harvestRead ⟨1, 2⟩) s (·.control.harvestWord = 0x05BE#32) = true ∧
    afterIs (.harvestRead ⟨1, 3⟩) s (·.control.harvestWord = 0x8205BE#32) = true ∧
    after (.harvestRead .whole) running = some running ∧
    registerWrite .harvest .whole 1#32 = [.ignoredRegisterWrite .harvest .whole 1#32] := by decide +kernel

/-- FINISH set, with some entries in the queue. -/
def finished (n : Nat) : State :=
  { running with notifier.harvest := List.replicate n ⟨1, .ok, 0#16⟩, notifier.flags.finish := true }

/-- StatusWriteClearsFlags: the count at T, below T, and 0. -/
theorem test_status_write :
    registerWrite .status .whole 0xF0#32 = [.clearFinish, .clearStoppedFlag, .clearHaltedFlag, .clearFaultFlag] ∧
    after .clearFinish (finished 2) = some (finished 2) ∧
    after .clearFinish (finished 1) =
      some { finished 1 with notifier.flags.finish := false, notifier.holdoffTimer := some 100 } ∧
    after .clearFinish (finished 0) = some running ∧ after .clearFinish running = some running ∧
    after .clearStoppedFlag { running with notifier.flags.stopped := true } = some running ∧
    after .clearHaltedFlag { running with notifier.flags.halted := true } = some running ∧
    after .clearFaultFlag { running with notifier.flags.fault := true } = some running := by decide +kernel

/-- InterruptEnables. -/
theorem test_interrupt_enable :
    afterIs (.interruptEnableWrite 0xFFFFFF2F#32) (finished 2) (fun t =>
      t.control.enables = ⟨false, true, false, false⟩ ∧ t.readRegister .interruptEnable = 0x20#32 ∧ t.intr = false) = true ∧
    afterIs (.interruptEnableWrite 0x10#32) (finished 2) (·.intr) = true := by decide +kernel

/-- ConfigAddressRegister: STOPPED and RUNNING (the bad address: test_start). -/
theorem test_config_address :
    after (.configAddressWrite 7#32) (inState .stopped) = some { inState .stopped with control.configAddress := 7#32 } ∧
    after (.configAddressWrite 7#32) running = some running := by decide +kernel

/-- RegisterWritesTakeTheirFields. -/
theorem test_register_writes :
    registerWrite .post .whole 0x17F#32 = [.postArrival 63 .urgent] ∧
    registerWrite .control .whole 0x3F04#32 = [.abortSlot 63] ∧
    registerWrite .control .whole 0x3F07#32 = [.unnamedCommandCode 7#4] ∧
    registerWrite .control ⟨0, 0⟩ 1#32 = [.ignoredRegisterWrite .control ⟨0, 0⟩ 1#32] ∧
    after (.ignoredRegisterWrite .ident .whole 1#32) running = some running := by decide +kernel

/-- RegisterWritesTakeTheirFields: accesses by offset, at the first and last byte of a register and of the window, and
of every width. -/
theorem test_register_offsets :
    let s := { running with notifier.harvest := [⟨5, .stopped, 0xBEEF#16⟩] }
    s.busRead 0x10 .word = 0x8205BEEF#32 ∧ s.busRead 0x12 .half = 0x8205#32 ∧ s.busRead 0x11 .half = 0x05BE#32 ∧
    s.busRead 0x11 .triple = 0x8205BE#32 ∧ s.busRead 0x10 .triple = 0x05BEEF#32 ∧ s.busRead 0x13 .byte = 0x82#32 ∧
    s.busRead 0x00 .byte = 0x21#32 ∧ s.busRead 0x03 .byte = 0x0C#32 ∧ s.busRead 0x14 .byte = 2#32 ∧
    s.busRead 0x1F .byte = 0#32 ∧ busReadCommands 0x13 .byte = [.harvestRead ⟨3, 3⟩] ∧
    busReadCommands 0x11 .half = [.harvestRead ⟨1, 2⟩] ∧ busReadCommands 0x18 .word = [] ∧
    busWrite 0x04 .word 2#32 = [.stop] ∧ busWrite 0x1C .word 0xF0#32 = [.interruptEnableWrite 0xF0#32] ∧
    busWrite 0x05 .triple 2#32 = [.ignoredRegisterWrite .control ⟨1, 3⟩ 2#32] := by decide +kernel

/-- RegisterWritesTakeTheirFields: accesses that run on into the next register, and past the window's end. -/
theorem test_register_crossing :
    let s := { running with notifier.harvest := [⟨5, .stopped, 0xBEEF#16⟩] }
    s.busRead 0x13 .half = 0x0282#32 ∧ busReadCommands 0x13 .half = [.harvestRead ⟨3, 3⟩] ∧
    s.busRead 0x0D .word = 0xEF000000#32 ∧ busReadCommands 0x0D .word = [.harvestRead ⟨0, 0⟩] ∧
    busWrite 0x05 .word 2#32 =
      [.ignoredRegisterWrite .control ⟨1, 3⟩ 2#32, .ignoredRegisterWrite .configAddress ⟨0, 0⟩ 2#32] ∧
    s.busRead 0x1E .word = 0#32 ∧ busWrite 0x1E .word 0xF0#32 = [.ignoredRegisterWrite .interruptEnable ⟨2, 3⟩ 0xF0#32] := by
  decide +kernel

/-- Every count of STATUS at its largest, and the fields of FAULT. (RegisterLayouts.) -/
theorem test_register_layouts :
    let s := { running with
      notifier.harvest := List.replicate 64 ⟨0, .ok, 0#16⟩, notifier.flags := ⟨true, true, true, true⟩
      writer.buffer := List.replicate 8 (.completion (okItem 0#32 0) false)
      dispatcher.parked := List.replicate 2 (parkedJob (job 0#32 0 .normal []) false)
      intake.urgent := List.replicate 64 ⟨0, .urgent, .post⟩
      unit0.activity := .ending (okItem 0#32 0), unit1.activity := .ending (okItem 0#32 0) }
    s.notifier.harvest.length ≤ 64 ∧ s.writer.buffer.length ≤ 8 ∧ s.dispatcher.parked.length ≤ 2 ∧
    s.intake.urgent.length + s.intake.normal.length ≤ 64 ∧ s.readRegister .status = 0x408A40F2#32 ∧
    State.readFault { running with control.faultRecord := some (.fatalIntake 63 7 .timeout), control.more := true } =
      0xD6FF8200#32 ∧
    State.readFault { running with control.faultRecord := some (.configInvalid (.windowBase 7)) } = 0x8D00070B#32 := by
  decide +kernel

/-! ### Timers and responses -/

/-- TimerExpiries: each clause. -/
theorem test_timers :
    let s := { inState .halted with intake.sweepTimer := some 10 }
    after .sweepTimerExpiry { running with intake.sweepTimer := some 10 } =
      some { running with intake.sweepDue := true } ∧
    after .sweepTimerExpiry s = some s ∧
    after .sweepTimerExpiry running = some running ∧
    afterIs .holdoffExpiry { running with notifier.holdoffTimer := some 100, notifier.harvest := [⟨1, .ok, 0#16⟩] }
      (fun t => t.notifier.flags.finish ∧ t.notifier.holdoffTimer = none) = true ∧
    after .holdoffExpiry { running with notifier.holdoffTimer := some 100 } = some running ∧
    after .holdoffExpiry running = some running := by decide +kernel

/-- ResponsesAndTimeouts: the Loader, a take at its last block, and nothing outstanding. -/
theorem test_timeouts :
    afterIs .responseTimeout (loading 1 block0)
      (·.control.faultRecord = some (.configBusError 1 .timeout)) = true ∧
    afterIs .responseTimeout (busy running (.takeBlock 5 7) 0x1BC0 (.read 64)) (fun t => t.control.state = .halted ∧
      t.control.faultRecord = some (.fatalIntake 5 7 .timeout)) = true ∧
    afterIs .responseTimeout (busy full (.doneWord 9) 0x2200 (.write [])) (fun t => t.control.state = .halted ∧
      t.control.faultRecord = some (.fatalWriter 9 false .timeout)) = true ∧
    after .lateResponse full = some full ∧ running.port.outstanding = none ∧
    after .responseTimeout running = some running ∧ after .stateWriteDone running = some running := by decide +kernel

/-! ### Intake -/

/-- SweepReadsEverySlot: the begin, a middle slot, the last slot, and a read outside RUNNING. -/
theorem test_sweep :
    let s (d : DeviceState) (k : Slot) : State :=
      { busy (inState d) (.sweep k) (0x1000 + 512 * k.val) (.read 64) with intake.activity := .sweeping k }
    afterIs .sweepBegin { running with intake.sweepDue := true } (fun t => t.intake.activity = .sweeping 0 ∧
      t.port.outstanding = some ⟨.sweep 0, 0x1000, .read 64, false⟩) = true ∧
    afterIs (.sweepReadDone [(0x1400#32, 1#8), (0x1401#32, 1#8)]) (s .running 2) (fun t =>
      t.intake.activity = .sweeping 3 ∧ t.intake.urgent = [⟨2, .urgent, .sweep⟩]) = true ∧
    afterIs (.sweepReadDone [(0x1600#32, 1#8)]) (s .running 3) (fun t => t.intake.activity = .idle ∧
      t.intake.normal = [⟨3, .normal, .sweep⟩] ∧ t.intake.sweepTimer = some 10) = true ∧
    afterIs (.sweepReadDone [(0x1400#32, 1#8)]) (s .draining 2) (fun t => t.intake.activity = .idle ∧
      t.intake.normal = []) = true := by decide +kernel

/-- TakeBegins: each list, and the null take in DRAINING. -/
theorem test_take_begins :
    afterIs .takeBegin { running with intake.urgent := [⟨1, .urgent, .post⟩], intake.normal := [⟨2, .normal, .post⟩] }
      (fun t => t.intake.itemSlot? = some 1 ∧ t.intake.urgent = []) = true ∧
    afterIs .takeBegin { running with intake.normal := [⟨2, .normal, .post⟩] } (fun t => t.intake.itemSlot? = some 2 ∧
      t.port.outstanding = some ⟨.takeBlock0 2, 0x1400, .read 64, false⟩) = true ∧
    afterIs .nullTakeBegin { inState .draining with intake.urgent := [⟨1, .urgent, .abort⟩] }
      (fun t => t.port.outstanding = some ⟨.nullTake 1, 0x1200, .read 64, false⟩) = true := by decide +kernel

/-- TakeBegins: each condition under which nothing begins. -/
theorem test_take_waits :
    let s : State := { running with intake.normal := [⟨2, .normal, .post⟩] }
    let m : State := { s with intake.urgent := [⟨1, .urgent, .abort⟩] }
    let blocked : List State := [{ s with intake.activity := .sweeping 0 }, { s with intake.sweepDue := true },
      { s with control.state := .draining }, { s with dispatcher.staged := some ⟨job 3#32 6 .urgent [], false⟩ }, m, running]
    let nullBlocked : List State := [{ m with intake.activity := .sweeping 0 }, { m with intake.sweepDue := true },
      { m with control.state := .halted }, s]
    let sweepBlocked : List State := [{ s with intake.activity := .sweeping 0, intake.sweepDue := true }, s,
      { s with intake.sweepDue := true, control.state := .draining }]
    (blocked.all fun x => after .takeBegin x = some x) = true ∧
    (nullBlocked.all fun x => after .nullTakeBegin x = some x) = true ∧
    (sweepBlocked.all fun x => after .sweepBegin x = some x) = true := by decide +kernel

/-- A record: literal 5, cell 0, one step that moves the literal to the cell. -/
def record : Memory :=
  [(0, 1#8), (4, 1#8), (5, 1#8), (6, 2#8), (16, 3#8), (18, 1#8), (24, 0x5C#8), (32, 2#8), (34, 1#8), (208, 1#8),
    (214, 1#8), (219, 1#8)]

/-- The host's writes of the record into slot 2. -/
def hostRecord (r : Memory) : HostWrites := r.map fun c => (0x1400#32 + BitVec.ofNat 32 c.1, c.2)

/-- The image of the record. -/
def recordImage : JobImage :=
  ⟨false, [⟨.move ⟨0, .literal ⟨5, 0⟩⟩ ⟨1, .cell 0 1 0⟩, .truncate, .plain, .empty, .endJob, 1⟩]⟩

/-- RejectionNamesTheFirstFailure, OperandEntryChecks and StepEntryChecks: each reason at its boundary. -/
theorem test_judge :
    judgeRecord record = .valid recordImage ∧ judgeRecord (Memory.write record 4 2#8) = .rejected .badVersion none ∧
    judgeRecord (Memory.write record 5 0#8) = .rejected .badCount none ∧
    judgeRecord (Memory.write record 5 17#8) = .rejected .badCount none ∧
    judgeRecord (Memory.write record 6 13#8) = .rejected .badCount none ∧
    judgeRecord (Memory.write record 1 2#8) = .rejected .badPriority none ∧
    judgeRecord (Memory.write record 36 8#8) = .rejected .badOperand (some 1) ∧
    judgeRecord (Memory.write record 219 0#8) = .rejected .badStep (some 0) ∧
    readOperand record 0 = some (.literal ⟨5, 0⟩) ∧ readOperand record 1 = some (.cell 0 1 0) := by decide +kernel

/-- RejectionNamesTheFirstFailure: the header fields of block 0. -/
theorem test_header :
    let r : Memory := [(0, 1#8), (1, 2#8), (2, 3#8), (3, 4#8), (4, 5#8), (5, 6#8), (6, 7#8), (7, 0xFF#8)]
    (recordState r, recordPriority r, recordTag r, recordVersion r, recordSteps r, recordOperands r, recordFenced r) =
      (1, 2, 0x0403#16, 5, 6, 7, true) ∧ recordFenced (Memory.write r 7 0xFE#8) = false ∧
    rejectHeader r = some .badVersion ∧ rejectHeader record = none := by decide +kernel

/-- OperandEntryChecks and StepEntryChecks: what valid entries are read as. -/
theorem test_entries_read :
    let memory : Memory := [(16, 1#8), (17, 3#8), (18, 63#8), (19, 2#8), (20, 0x04#8), (21, 0x03#8), (22, 0x02#8),
      (23, 0x01#8), (24, 0xF0#8), (25, 0xFF#8)]
    let divide (z : Byte) : Memory := [(208, 5#8), (209, 4#8), (210, 2#8), (211, 9#8), (212, 2#8), (215, 0x10#8), (217, 1#8),
      (218, z), (219, 2#8)]
    let ops : List Operand := [.cell 0 9 0, .literal ⟨5, 0⟩, .cell 2 9 1, .memory packed5]
    readOperand memory 0 = some (.memory ⟨.text, 63, 2, 0x01020304#32, -16#16⟩) ∧
    readStep (divide 3#8) ops 0 = some ⟨.divide ⟨0, .cell 0 9 0⟩ ⟨1, .literal ⟨5, 0⟩⟩ (some ⟨3, .memory packed5⟩)
      ⟨2, .cell 2 9 1⟩, .floor, .absolute, ⟨true, false, false, true⟩, .endRepeat, 4096⟩ ∧
    (readStep (divide 0xFF#8) ops 0).map (·.work) =
      some (.divide ⟨0, .cell 0 9 0⟩ ⟨1, .literal ⟨5, 0⟩⟩ none ⟨2, .cell 2 9 1⟩) ∧
    readStep (divide 2#8) ops 0 = none ∧ readStep (divide 1#8) ops 0 = none := by decide +kernel

/-- NeededBlocksOfARecord: the smallest and the largest record. -/
theorem test_needed_blocks : neededBlocks 0 1 = [3] ∧ neededBlocks 12 16 = [1, 2, 3, 4, 5, 6, 7] ∧
    neededBlocks 3 3 = [3] ∧ neededBlocks 4 4 = [1, 3, 4] := by decide

/-- TakeReads: block 0 stale, rejected, and going on. -/
theorem test_take_block0 :
    let s : State :=
      { busy running (.takeBlock0 2) 0x1400 (.read 64) with intake.activity := .taking (item 2 [] .block0) }
    afterIs (.takeBlock0ReadDone []) s (fun t => t.intake.activity = .idle ∧
      t.control.faultRecord = some (.stalePost 2 .post)) = true ∧
    afterIs (.takeBlock0ReadDone (hostRecord [(0, 1#8), (4, 2#8)])) s (fun t => t.writer.waiters = [.intake] ∧
      t.intake.activity = .taking (item 2 [(0, 1#8), (4, 2#8)] (.judged (.rejected .badVersion none)))) = true ∧
    afterIs (.takeBlock0ReadDone (hostRecord record)) s (fun t =>
      t.port.outstanding = some ⟨.takeBlock 2 3, 0x14C0, .read 64, false⟩) = true := by decide +kernel

/-- TakeReads: a further block, and the last. -/
theorem test_take_block :
    let s (block : Nat) (later : List Nat) : State :=
      { busy running (.takeBlock 2 block) (0x1400 + 64 * block) (.read 64) with
        intake.activity := .taking (item 2 (record.take 9) (.further block later)) }
    afterIs (.takeBlockReadDone []) (s 1 [3]) (fun t =>
      t.intake.activity = .taking (item 2 (record.take 9) (.further 3 []))) = true ∧
    afterIs (.takeBlockReadDone (hostRecord record)) (s 3 []) (fun t =>
      t.intake.activity = .taking (item 2 record (.judged (.valid recordImage)))) = true := by decide +kernel

/-- TakeReads: a null take stale, and going on. -/
theorem test_null_take :
    let s : State :=
      { busy running (.nullTake 2) 0x1400 (.read 64) with
        intake.activity := .nullTake { item 2 [] .block0 with source := .abort } }
    afterIs (.nullTakeReadDone []) s (fun t => t.control.faultRecord = some (.stalePost 2 .abort)) = true ∧
    afterIs (.nullTakeReadDone [(0x1400#32, 1#8)]) s (fun t => t.writer.waiters = [.intake] ∧
      t.intake.activity = .nullTake ⟨2, .normal, .abort, false, [(0, 1#8)], .judged .nullTake⟩) = true := by
  decide +kernel

/-- A judged take, Intake the earliest waiter, one place left in the buffer. -/
def judged (aborted : Bool) (v : Verdict) : State :=
  { running with
    intake.activity := .taking { item 2 record (.judged v) with aborted := aborted }
    writer := { running.writer with
      waiters := [.intake], buffer := List.replicate 7 (.completion (okItem 9#32 9) false) }
    port.outstanding := some ⟨.doneWord 9, 0x2200, .write [3#8, 0#8, 7#8, 0#8], false⟩ }

/-- TakenEntryAssignsTheTicket: a valid job, an aborted one and a rejected one, in the last place of the buffer. -/
theorem test_taken_entry :
    (judged false (.valid recordImage)).intake.takeCounter ∉ (judged false (.valid recordImage)).dispatcher.outstanding ∧
    (judged false (.valid recordImage)).writer.buffer.length < 8 ∧
    afterIs .takenEntryAppend (judged false (.valid recordImage)) (fun t => t.intake.takeCounter = 1#32 ∧
      t.dispatcher.outstanding = [0#32] ∧ t.intake.activity = .idle ∧
      t.dispatcher.staged = some ⟨⟨0#32, 2, 0#16, .normal, recordImage⟩, false⟩ ∧
      t.writer.buffer.getLast? = some (.state 0#32 2 .normal 0#16) ∧ t.writer.table = [⟨0#32, 0, none⟩]) = true ∧
    afterIs .takenEntryAppend (judged true (.valid recordImage)) (fun t => t.dispatcher.staged = none ∧
      t.writer.waiters = [.intake] ∧ t.intake.handing?.isSome) = true ∧
    afterIs .takenEntryAppend (judged false (.rejected .badStep (some 0))) (·.intake.handing?.isSome) = true := by
  decide +kernel

/-- TakenEntryAssignsTheTicket: the waits, for room, behind another appender and for the ticket; presentations; the freed
units at a staging. -/
theorem test_taken_waits :
    let s := judged false (.valid recordImage)
    let full8 : State := { s with writer.buffer := List.replicate 8 (.completion (okItem 9#32 9) false) }
    let behind : State := { s with writer.waiters := [.dispatcher, .intake] }
    let held : State := { s with dispatcher.outstanding := [0#32] }
    let free : State := { s with writer.waiters := [.unit .unit1] }
    after .takenEntryAppend full8 = some full8 ∧ after .takenEntryAppend behind = some behind ∧
    after .takenEntryAppend held = some held ∧ s.presentTaken = s ∧
    free.presentTaken = { free with writer.waiters := [.unit .unit1, .intake] } ∧
    State.presentTaken { free with dispatcher.outstanding := [0#32] } = { free with dispatcher.outstanding := [0#32] } ∧
    running.presentTaken = running ∧
    afterIs .takenEntryAppend { s with dispatcher.freed := [.unit1, .unit0] } (fun t => t.dispatcher.freed = []) = true ∧
    afterIs .takenEntryAppend { s with
        dispatcher.freed := [.unit1, .unit0], dispatcher.parked := [parkedJob (job 2#32 7 .normal [cellStep]) false] }
      (fun t => t.dispatcher.freed = [.unit1]) = true := by decide +kernel

/-- CompletionItemsAppended: the waits of the three appenders, and a unit that becomes free while jobs are available for
two units, for one and for none. -/
theorem test_completion_waits :
    let e : State := { running with unit1.activity := .ending (okItem 1#32 1), writer.waiters := [.unit .unit1] }
    let first (a : Appender) : State := { e with
      intake.activity := .taking (item 2 record (.handing 5#32 .nullTake)), dispatcher.items := [okItem 2#32 2]
      writer.waiters := [a, .intake, .dispatcher, .unit .unit1] }
    let full8 (a : Appender) : State := { first a with
      writer.buffer := List.replicate 8 (.completion (okItem 9#32 9) false) }
    let p := parkedJob (job 2#32 7 .normal [cellStep]) false
    let freed (parked : List ParkedJob) : Option (List UnitId) :=
      (after (.unitCompletionAppend .unit1) { e with dispatcher.parked := parked, dispatcher.freed := [.unit0] }).map
        (·.dispatcher.freed)
    after .intakeCompletionAppend (first .dispatcher) = some (first .dispatcher) ∧
    after .dispatcherCompletionAppend (first .intake) = some (first .intake) ∧
    after (.unitCompletionAppend .unit1) (first (.unit .unit0)) = some (first (.unit .unit0)) ∧
    after .intakeCompletionAppend (full8 .intake) = some (full8 .intake) ∧
    after .dispatcherCompletionAppend (full8 .dispatcher) = some (full8 .dispatcher) ∧
    after (.unitCompletionAppend .unit1) (full8 (.unit .unit1)) = some (full8 (.unit .unit1)) ∧
    freed [p, p] = some [.unit0, .unit1] ∧ freed [p] = some [.unit0] ∧ freed [] = some [] := by decide +kernel

/-- CompletionItemsAppended: Intake, the Dispatcher with an item left and without, a unit. -/
theorem test_completion_items :
    let s : State := { judged false .nullTake with
      intake.activity := .taking (item 2 record (.handing 5#32 (.rejected .badStep (some 0)))) }
    let d : State := { s with writer.waiters := [.dispatcher], dispatcher.items := [okItem 1#32 1, okItem 2#32 2] }
    let e : State := { s with writer.waiters := [.unit .unit1], unit1.activity := .ending (okItem 1#32 1) }
    afterIs .intakeCompletionAppend s (fun t => t.intake.activity = .idle ∧ t.writer.buffer.getLast? =
      some (.completion ⟨5#32, 2, 0#16, .normal, .unrun (.rejected .badStep (some 0))⟩ false)) = true ∧
    afterIs .intakeCompletionAppend { s with
        intake.activity := .taking { item 2 record (.handing 5#32 (.valid recordImage)) with aborted := true } }
      (fun t => t.writer.buffer.getLast? = some (.completion ⟨5#32, 2, 0#16, .normal, .unrun .aborted⟩ false)) = true ∧
    afterIs .dispatcherCompletionAppend d (fun t => t.dispatcher.items = [okItem 2#32 2] ∧
      t.writer.waiters = [.dispatcher] ∧ t.writer.buffer.length = 8) = true ∧
    afterIs .dispatcherCompletionAppend { d with dispatcher.items := [okItem 1#32 1] }
      (fun t => t.dispatcher.items = [] ∧ t.writer.waiters = []) = true ∧
    afterIs (.unitCompletionAppend .unit1) e (fun t => t.unit1.isIdle ∧ t.writer.buffer.length = 8) = true := by
  decide +kernel

/-- FatalFailureHalts: Intake and the Writer. -/
theorem test_fatal :
    Memory.wf full.memory ∧
    afterIs .intakeBusError (busy full (.takeBlock0 5) 0x1A00 (.read 64)) (fun t => t.control.state = .halted ∧
      t.control.faultRecord = some (.fatalIntake 5 0 .error) ∧ t.unit0.isIdle ∧ t.writer.buffer = [] ∧
      t.notifier.harvest.length = 1 ∧ t.notifier.flags.halted) = true ∧
    (busy full (.resultArea 9) 0x23D0 (.write [1#8])).control.loader = none ∧
    ((after .writerFatalBus (busy full (.resultArea 9) 0x23D0 (.write [1#8]))).any fun t =>
      t.control.faultRecord = some (.fatalWriter 9 true .error)) = true := by decide +kernel

/-! ### Dispatcher -/

/-- A staged job, no job elsewhere. -/
def staged (s : State) (j : Job) (outstanding : List Ticket) : State :=
  { s with dispatcher.staged := some ⟨j, false⟩, dispatcher.outstanding := outstanding }

/-- StagedJobStarts: a job that starts, and a fence. -/
theorem test_job_start :
    let s := staged running { job 4#32 2 .normal [moveStep] with image := ⟨true, [moveStep]⟩ } [3#32, 4#32]
    afterIs .jobStart (staged running (job 4#32 2 .normal [moveStep]) [4#32]) (fun t => t.dispatcher.staged = none ∧
      t.unit0 = iterating (job 4#32 2 .normal [moveStep]) 0 0 fetching ∧
      t.port = ⟨some ⟨.source .unit0, 0x4000, .read 3, false⟩, some .unit0⟩) = true ∧
    after .jobStart s = some s ∧ after .parkRequest s = some s := by decide +kernel

/-- One job parked, Unit 0 busy with a read in flight, Unit 1 idle. -/
def oneParked : State :=
  { running with
    dispatcher.parked := [parkedJob (job 2#32 7 .normal [cellStep, cellStep]) false]
    dispatcher.outstanding := [1#32, 2#32, 3#32]
    unit0 := iterating (job 1#32 8 .normal [moveStep]) 0 0 fetching
    port.outstanding := some ⟨.source .unit0, 0x4000, .read 3, false⟩ }

/-- StagedJobStarts: an URGENT job while one is parked, a NORMAL one while one is parked, in a freed unit, with no unit idle,
and in ABORTING. -/
theorem test_served_units :
    let urgent := staged oneParked (job 3#32 2 .urgent [moveStep]) [1#32, 2#32, 3#32]
    let normal := staged oneParked (job 3#32 2 .normal [moveStep]) [1#32, 2#32, 3#32]
    let freed := { staged running (job 3#32 2 .normal [moveStep]) [3#32] with dispatcher.freed := [.unit1, .unit0] }
    urgent.servedUnit = some .unit1 ∧ urgent.dispatcher.urgentReady = true ∧ after .jobResume urgent = some urgent ∧
    afterIs .jobStart urgent (fun t => t.dispatcher.staged = none ∧ t.unit1.runs? = some (3#32, .urgent) ∧
      t.dispatcher.parked.length = 1) = true ∧
    after .jobStart normal = some normal ∧
    freed.servedUnit = some .unit1 ∧ afterIs .jobStart freed (fun t => t.unit1.runs? = some (3#32, .normal) ∧
      t.dispatcher.freed = [.unit0]) = true ∧
    State.servedUnit { oneParked with unit1.activity := .ending (okItem 4#32 3) } = none ∧
    after .jobStart { urgent with control.state := .aborting } = some { urgent with control.state := .aborting } := by
  decide +kernel

/-- ParkedJobResumes: the earlier of two, in the unit that became free while it waited, and run to its end. -/
theorem test_job_resume :
    let p := parkedJob (job 2#32 7 .normal [cellStep, cellStep]) false
    let q := parkedJob (job 3#32 6 .normal [cellStep, cellStep]) false
    let s : State := { oneParked with dispatcher.parked := [q, p], dispatcher.freed := [.unit1] }
    s.dispatcher.parked.Nodup ∧ s.dispatcher.outstanding.idxOf 2#32 < s.dispatcher.outstanding.idxOf 3#32 ∧
    s.dispatcher.urgentReady = false ∧ s.servedUnit = some .unit1 ∧
    afterIs .jobResume s (fun t => t.dispatcher.parked = [q] ∧ t.dispatcher.freed = [] ∧ t.unit1.activity =
      .ending ⟨2#32, 7, 7#16, .normal, ⟨.ok, 1, 2, ⟨true, false, false, false⟩, some ⟨.negative, false⟩⟩⟩) = true := by
  decide +kernel

/-- Both units run NORMAL jobs, an URGENT job is staged, one job is parked. -/
def crowded : State :=
  { staged running (job 4#32 2 .urgent [moveStep]) [1#32, 2#32, 3#32, 4#32] with
    dispatcher.parked := [parkedJob (job 3#32 6 .normal [cellStep, cellStep]) false]
    unit0 := iterating (job 1#32 8 .normal [moveStep]) 0 0 (.issuing ⟨[⟨0x4100, [0x0C#8]⟩], [], ⟨.zero, false⟩⟩)
    unit1 := iterating (job 2#32 7 .normal [moveStep]) 0 0 fetching }

/-- Parking: the request, with the park buffer at one, and the park. -/
theorem test_park :
    let s : State := { crowded with dispatcher.parkRequest := some (.unit1, 2#32), unit1.parkMark := true }
    let t : State := s.park .unit1 (job 2#32 7 .normal [moveStep]) 0 1
    afterIs .parkRequest crowded (fun t => t.dispatcher.parkRequest = some (.unit1, 2#32) ∧ t.unit1.parkMark ∧
      !t.unit0.parkMark) = true ∧
    s.control.state ≠ .aborting ∧ t.dispatcher.parked.length = 2 ∧ t.unit1.isIdle = true ∧
    t.dispatcher.parkRequest = none ∧ t.dispatcher.freed = [.unit1] ∧
    (State.park { s with dispatcher.freed := [.unit0] } .unit1 (job 2#32 7 .normal [moveStep]) 0 1).dispatcher.freed =
      [.unit0, .unit1] := by decide +kernel

/-- Parking: the request that finds its unit in ENDING, one for a FENCED job, and a park in ABORTING. -/
theorem test_park_corners :
    let ending : State := { crowded with unit1.activity := .ending (okItem 2#32 7) }
    let fenced : State := { crowded with
      dispatcher.staged := some ⟨{ job 4#32 2 .urgent [moveStep] with image := ⟨true, [moveStep]⟩ }, false⟩
      dispatcher.outstanding := [4#32, 1#32, 2#32, 3#32] }
    let s : State := { crowded with
      control.state := .aborting, dispatcher.parkRequest := some (.unit1, 2#32), unit1.parkMark := true }
    let t : State := s.park .unit1 (job 2#32 7 .normal [moveStep]) 0 1
    (ending.unit .unit1).runs? = some (2#32, .normal) ∧
    after .parkRequest ending = some { ending with dispatcher.parkRequest := some (.unit1, 2#32) } ∧
    afterIs .parkRequest fenced (·.unit1.parkMark) = true ∧
    t.dispatcher.parked.map (·.ending) = [false, true] ∧ t.writer.waiters = [.dispatcher] ∧
    t.dispatcher.items = [⟨2#32, 7, 7#16, .normal, ⟨.aborted, 0, 1, .empty, none⟩⟩] := by decide +kernel

/-! ### Units -/

/-- 0x00010000 with stride −16 at iteration 4095 is 0x00000010 (R107); a range at a window's last byte. (AddressesAndWindows.) -/
theorem test_addresses_windows :
    MemField.addressAt ⟨.packed, 5, 2, 0x10000#32, -16#16⟩ 4095 = 0x10 ∧
    MemField.addressAt ⟨.packed, 5, 2, 0xFFFFFFFF#32, 1#16⟩ 1 = 0 ∧
    windowsAccept cfg.windows .read 0x41FD 3 = true ∧ windowsAccept cfg.windows .write 0x41FE 3 = false ∧
    windowsAccept [] .read 0x4000 1 = false := by decide +kernel

/-- IterationBegins: the windows with a configuration and without one. -/
theorem test_windows : running.control.config = some cfg ∧ running.windows = cfg.windows ∧
    State.reset.control.config = none ∧ State.reset.windows = [] := by decide +kernel

/-- IterationBegins: a fetch, a refused window, no memory source. -/
theorem test_iteration_begins :
    firstRefused running.windows (questions moveStep.work 0) = none ∧
    fetchReads moveStep.work 0 = [⟨0, 0x4000, 3, 0x4000, 3⟩] ∧
    (running.beginIteration .unit0 (job 4#32 2 .normal [moveStep]) 0 0).unit0.activity =
      .iterating (job 4#32 2 .normal [moveStep]) 0 0 fetching ∧
    firstRefused running.windows (questions moveStep.work 16) = some 1 ∧
    (running.beginIteration .unit0 (job 4#32 2 .normal [moveStep]) 0 16).unit0.activity =
      .ending ⟨4#32, 2, 7#16, .normal, ⟨.faulted .window (some 1), 0, 16, .empty, none⟩⟩ ∧
    fetchReads cellStep.work 0 = [] ∧
    (running.beginIteration .unit0 (job 4#32 2 .normal [cellStep, moveStep]) 0 0).unit0 =
      { iterating (job 4#32 2 .normal [cellStep, moveStep]) 1 0 fetching with
        cells := Cells.zero.set 0 ⟨-25, 1⟩, seen := ⟨true, false, false, false⟩, last := some ⟨.negative, false⟩ } := by
  decide +kernel

/-- IterationBegins: the questions of a DIVIDE with Z and of a source named twice, and a source that crosses a block line
by one byte. -/
theorem test_questions :
    let f (a : Word) : MemField := { packed5 with address := a }
    let src (i : Nat) (a : Word) : Source := ⟨i, .memory (f a)⟩
    let dst (i : Nat) (a : Word) : Dest := ⟨i, .memory (f a)⟩
    questions (.divide (src 0 0x4000#32) ⟨1, .cell 0 9 0⟩ (some (dst 3 0x4030#32)) (dst 2 0x4020#32)) 1 =
      [⟨0, 0x4010, 3, .read⟩, ⟨2, 0x4030, 3, .write⟩, ⟨3, 0x4040, 3, .write⟩] ∧
    questions (.add (src 0 0x4000#32) (src 0 0x4000#32) (dst 0 0x4000#32)) 0 =
      [⟨0, 0x4000, 3, .read⟩, ⟨0, 0x4000, 3, .write⟩] ∧
    fetchReads (.compare (src 0 0x403E#32) (src 1 0x403D#32)) 0 =
      [⟨0, 0x403E, 3, 0x403E, 2⟩, ⟨0, 0x403E, 3, 0x4040, 1⟩, ⟨1, 0x403D, 3, 0x403D, 3⟩] ∧
    firstRefused cfg.windows [⟨4, 0x4000, 3, .read⟩, ⟨5, 0x41FE, 3, .write⟩] = some 5 := by decide +kernel

/-- A unit whose read is in flight. -/
def fetch (abandoned : Bool) (phase : IterPhase) : State :=
  { running with
    unit0 := iterating (job 4#32 2 .normal [moveStep]) 0 0 phase
    port.outstanding := some ⟨.source .unit0, 0x4000, .read 3, abandoned⟩ }

/-- FetchReadEnds and FirstFailureDecides: the last read, another to come, an abandoned one, a failed one. -/
theorem test_fetch :
    afterIs (.fetchReadDone [(0x4000#32, 0x12#8), (0x4001#32, 0x34#8), (0x4002#32, 0x5D#8)]) (fetch false fetching)
      (fun t => t.unit0.activity = .iterating (job 4#32 2 .normal [moveStep]) 0 0
        (.issuing ⟨[⟨0x4100, [0x12#8, 0x34#8, 0x5D#8]⟩], [], ⟨.negative, false⟩⟩) ∧
        t.writer.waiters = [.unit .unit0]) = true ∧
    afterIs (.fetchReadDone []) (fetch false (.fetching [⟨0, 0x4000, 3, 0x4000, 3⟩, ⟨1, 0x4040, 3, 0x4040, 3⟩] []))
      (fun t => t.unit0.activity = .iterating (job 4#32 2 .normal [moveStep]) 0 0
        (.fetching [⟨1, 0x4040, 3, 0x4040, 3⟩] [(0, [0#8, 0#8, 0#8])])) = true ∧
    afterIs (.fetchReadDone []) (fetch true fetching) (fun t => t.unit0 = (fetch true fetching).unit0) = true ∧
    afterIs .fetchBusError (fetch false fetching) (fun t => t.unit0.activity =
      .ending ⟨4#32, 2, 7#16, .normal, ⟨.faulted .busError (some 0), 0, 0, .empty, none⟩⟩) = true := by decide +kernel

/-- FirstFailureDecides: an earlier source that fails to decode decides the fault, and the failure of an abandoned read. -/
theorem test_fetch_failures :
    let addStep : Machine.Step := { moveStep with
      work := .add ⟨0, .memory packed5⟩ ⟨1, .memory { packed5 with address := 0x4040#32 }⟩ ⟨2, .cell 0 9 0⟩ }
    let s (bytes : List Byte) : State := { fetch false fetching with
      unit0 := iterating (job 4#32 2 .normal [addStep]) 0 0 (.fetching [⟨1, 0x4040, 3, 0x4040, 3⟩] [(0, bytes)]) }
    let how (bytes : List Byte) (fault : FaultKind) (index : Nat) : Bool :=
      afterIs .fetchBusError (s bytes) (fun t =>
        t.unit0.activity = .ending ⟨4#32, 2, 7#16, .normal, ⟨.faulted fault (some index), 0, 0, .empty, none⟩⟩ ∧
        t.writer.waiters = [.unit .unit0])
    how [0x12#8, 0x34#8, 0x59#8] .invalidSign 0 = true ∧ how [0xA2#8, 0x34#8, 0x5C#8] .invalidDigit 0 = true ∧
    how [0x12#8, 0x34#8, 0x5C#8] .busError 1 = true ∧
    afterIs .fetchBusError (fetch true fetching) (fun t => t.unit0 = (fetch true fetching).unit0) = true := by
  decide +kernel

/-- COMPARE of the field at operand 0 with a cell, to go on when they are equal. -/
def compareStep : Machine.Step :=
  ⟨.compare ⟨0, .memory packed5⟩ ⟨1, .cell 0 9 0⟩, .truncate, .plain, ⟨true, false, true, false⟩, .endJob, 1⟩

/-- FetchReadEnds: COMPARE makes its issue act in the end of its last read: stopped, on to the next step, or parked under a
mark. A step without entries after it is issued in the same command. -/
theorem test_issue_at_once :
    let s (mark : Bool) : State := { fetch false fetching with
      dispatcher.outstanding := [4#32], dispatcher.parkRequest := if mark then some (.unit0, 4#32) else none
      unit0 := { iterating (job 4#32 2 .normal [compareStep, cellStep]) 0 0 fetching with parkMark := mark } }
    let digits (b : Byte) : Instr := .fetchReadDone [(0x4001#32, b), (0x4002#32, 0x0C#8)]
    afterIs (digits 0x10#8) (s true) (fun t => t.unit0.activity = .ending
      ⟨4#32, 2, 7#16, .normal, ⟨.stopped, 0, 1, ⟨false, false, true, false⟩, some ⟨.positive, false⟩⟩⟩) = true ∧
    afterIs (digits 0#8) (s false) (fun t => t.unit0.activity = .ending
      ⟨4#32, 2, 7#16, .normal, ⟨.ok, 1, 1, ⟨true, true, false, false⟩, some ⟨.negative, false⟩⟩⟩ ∧
      t.unit0.cells[0] = ⟨-25, 1⟩) = true ∧
    afterIs (digits 0#8) (s true) (fun t => t.unit0.isIdle ∧ t.dispatcher.parkRequest = none ∧
      t.dispatcher.parked = [⟨job 4#32 2 .normal [compareStep, cellStep], 1, 0, .zero, ⟨false, true, false, false⟩,
        some ⟨.zero, false⟩, false⟩]) = true := by decide +kernel

/-- FetchReadEnds: the value of each kind of source, and the bytes of two reads of one source. -/
theorem test_source_values :
    let got := addRead (addRead [(1, [0x99#8])] 0 [0x12#8, 0x34#8]) 0 [0x5D#8]
    let value (failed : Option Nat) (s : Source) : Option Decimal :=
      match sourceValue (Cells.zero.set 7 ⟨7, 1⟩) got failed s with
      | .ok v => some v
      | .error _ => none
    readBytesOf got 0 = [0x12#8, 0x34#8, 0x5D#8] ∧ value none ⟨0, .memory packed5⟩ = some ⟨-12345, 2⟩ ∧
    value (some 0) ⟨0, .memory packed5⟩ = none ∧ value none ⟨1, .memory packed5⟩ = none ∧
    value none ⟨3, .cell 7 9 0⟩ = some ⟨7, 1⟩ ∧ value none ⟨4, .literal ⟨5, 0⟩⟩ = some ⟨5, 0⟩ := by decide +kernel

/-- A unit that is about to issue, in a job of steps, with its entries fitting the last places. -/
def issuing (steps : List Machine.Step) (step done : Nat) (r : IterResult) : State :=
  { running with
    unit0 := iterating (job 4#32 2 .normal steps) step done (.issuing r)
    writer := { running.writer with
      waiters := [.unit .unit0], buffer := List.replicate 7 (.completion (okItem 9#32 9) false) } }

/-- IterationIssues: each decision, the entry in the last place of the buffer. -/
theorem test_issue :
    let zero : IterResult := ⟨[⟨0x4100, [0#8, 0#8, 0x0C#8]⟩], [], ⟨.zero, false⟩⟩
    let neg : IterResult := ⟨[], [(0, ⟨-25, 1⟩)], ⟨.negative, false⟩⟩
    let pos : IterResult := ⟨[], [(0, ⟨25, 1⟩)], ⟨.positive, true⟩⟩
    -- END_JOB fires
    afterIs (.iterationIssue .unit0) (issuing [moveStep, cellStep] 0 0 zero) (fun t =>
      t.writer.buffer.length = 8 ∧ t.unit0.activity =
        .ending ⟨4#32, 2, 7#16, .normal, ⟨.stopped, 0, 1, ⟨false, true, false, false⟩, some ⟨.zero, false⟩⟩⟩) = true ∧
    -- END_REPEAT fires: next step, or the job ends OK
    afterIs (.iterationIssue .unit0) (issuing [cellStep, moveStep] 0 0 neg) (fun t =>
      t.unit0.activity = .iterating (job 4#32 2 .normal [cellStep, moveStep]) 1 0 fetching ∧
      t.unit0.cells[0] = ⟨-25, 1⟩) = true ∧
    afterIs (.iterationIssue .unit0) (issuing [cellStep] 0 0 neg) (fun t => t.unit0.activity =
      .ending ⟨4#32, 2, 7#16, .normal, ⟨.ok, 0, 1, ⟨true, false, false, false⟩, some ⟨.negative, false⟩⟩⟩) = true ∧
    -- no stop: the next iteration, issued at once and the job's end, and after the last the job ends OK
    afterIs (.iterationIssue .unit0) (issuing [cellStep] 0 0 pos) (fun t => t.unit0.activity =
      .ending ⟨4#32, 2, 7#16, .normal, ⟨.ok, 0, 2, ⟨true, false, true, true⟩, some ⟨.negative, false⟩⟩⟩) = true ∧
    afterIs (.iterationIssue .unit0) (issuing [cellStep] 0 1 pos) (fun t => t.unit0.activity =
      .ending ⟨4#32, 2, 7#16, .normal, ⟨.ok, 0, 2, ⟨false, false, true, true⟩, some ⟨.positive, true⟩⟩⟩) = true := by
  decide +kernel

/-- IterationIssues: one place short, another waiter first; a field over a block line in two entries, and a cell. -/
theorem test_issue_waits :
    let two : IterResult := ⟨[⟨0x413F, [0#8]⟩, ⟨0x4140, [0x0C#8]⟩], [], ⟨.zero, false⟩⟩
    let one : IterResult := ⟨[⟨0x4100, [0x0C#8]⟩], [], ⟨.zero, false⟩⟩
    let later : State := { issuing [moveStep] 0 0 one with writer.waiters := [.intake, .unit .unit0] }
    let d (p : Place) : Delivery := ⟨⟨1, p⟩, 12345⟩
    after (.iterationIssue .unit0) (issuing [moveStep] 0 0 two) = some (issuing [moveStep] 0 0 two) ∧
    after (.iterationIssue .unit0) later = some later ∧
    (d (.memory { packed5 with address := 0x413E#32 })).writes 0 = [⟨0x413E, [0x12#8, 0x34#8]⟩, ⟨0x4140, [0x5C#8]⟩] ∧
    (d (.memory { packed5 with address := 0x413D#32 })).writes 0 = [⟨0x413D, [0x12#8, 0x34#8, 0x5C#8]⟩] ∧
    (d (.cell 3 9 2)).writes 0 = [] ∧ (d (.cell 3 9 2)).cellWrite = some (3, ⟨12345, 2⟩) := by decide +kernel

/-- AbortReachesTheUnit: an idle, an ending and an iterating unit, its fetch in flight or not. -/
theorem test_unit_abort :
    after (.unitAbortArrival .unit0) { running with unit0.abortDue := true } = some running ∧
    afterIs (.unitAbortArrival .unit1) { running with
        unit1.abortDue := true, unit1.activity := .ending (okItem 1#32 1) } (fun t =>
      t.unit1.activity = .ending { okItem 1#32 1 with info.how := .aborted }) = true ∧
    afterIs (.unitAbortArrival .unit0) { fetch false fetching with unit0.abortDue := true } (fun t =>
      t.unit0.activity = .ending ⟨4#32, 2, 7#16, .normal, ⟨.aborted, 0, 0, .empty, none⟩⟩ ∧
      t.port.outstanding = some ⟨.source .unit0, 0x4000, .read 3, true⟩) = true ∧
    afterIs (.unitAbortArrival .unit0) { fetch false fetching with
        unit0.abortDue := true, port.outstanding := none } (·.port.outstanding = none) = true := by decide +kernel

/-! ### Memory Port and Result Writer -/

/-- Both fetchers and the Writer wait. -/
def contended (entries : Nat) (last : Option UnitId) : State :=
  { running with
    unit0 := iterating (job 1#32 8 .normal [moveStep]) 0 0 fetching
    unit1 := iterating (job 2#32 7 .normal [moveStep]) 0 1 (.fetching [⟨0, 0x4010, 3, 0x4010, 3⟩] [])
    writer.buffer := List.replicate entries (.state 0#32 3 .normal 7#16)
    port.lastFetch := last }

/-- PortArbiter: 6 entries and 5, both fetchers, Intake, a discard, a hazard on the last byte. -/
theorem test_arbiter :
    (contended 6 none).writerRequest.isSome = true ∧
    (contended 6 none).arbiterChoice = (contended 6 none).writerRequest ∧
    (contended 5 none).arbiterChoice = some ⟨.source .unit0, 0x4000, .read 3, false⟩ ∧
    (contended 5 (some .unit0)).arbiterChoice = some ⟨.source .unit1, 0x4010, .read 3, false⟩ ∧
    State.arbiterChoice { contended 5 none with intake.activity := .sweeping 1 } =
      some ⟨.sweep 1, 0x1200, .read 64, false⟩ ∧
    (State.arbitrate { contended 0 none with
        writer.buffer := [.destination 1#32 0 0 ⟨0x4100, [0#8]⟩, .destination 2#32 0 0 ⟨0x4012, [0#8]⟩]
        writer.table := [⟨1#32, 0, some (0, 0)⟩, ⟨2#32, 0, none⟩] }).writer.buffer.length = 1 ∧
    State.fetchRequest { contended 0 none with
        writer.buffer := [.destination 2#32 0 0 ⟨0x4012, [0#8]⟩] } .unit1 = none := by decide +kernel

/-- The run of 8.2 before its rows 3 and 5: the read of a fetcher is its iteration's last, and the buffer holds 5 entries.
Unit 1's next source is the field that its iteration writes. -/
def lastRead (u : UnitId) (intake : IntakeActivity) : State :=
  let onward : Machine.Step := { moveStep with
    work := .move ⟨0, .memory packed5⟩ ⟨1, .memory { packed5 with address := 0x4010#32 }⟩ }
  { contended 5 (some u) with
    unit1 := iterating (job 2#32 7 .normal [onward]) 0 0 fetching
    intake.activity := intake
    memory := [(0x4000, 0x12#8), (0x4001, 0x34#8), (0x4002, 0x5C#8)]
    port.outstanding := some ⟨.source u, 0x4000, .read 3, false⟩ }

/-- FetchReadEnds, IterationIssues and PortArbiter: rows 3 and 4 of the run of 8.2. The port stays free for the issue, whose
sixth entry puts the Writer in demand; at 5 entries Fetch 1 has its turn. -/
theorem test_run_unit0 :
    let ended := after (.fetchReadDone []) (lastRead .unit0 .idle)
    let issued := ended.bind (after (.iterationIssue .unit0))
    ended.any (fun t => t.port.outstanding = none ∧ t.writer.waiters = [.unit .unit0] ∧ t.writer.buffer.length = 5 ∧
      t.writer.joining = [.unit .unit0]) = true ∧
    issued.any (fun t => t.writer.buffer.length = 6 ∧ t.writer.waiters = [] ∧ (t.fetchRequest .unit0).isSome ∧
      (t.fetchRequest .unit1).isSome ∧ t.port.outstanding.map (·.purpose) = some (.stateWord 3)) = true ∧
    (issued.bind (after .stateWriteDone)).any (fun t => t.writer.buffer.length = 5 ∧
      t.port.outstanding.map (·.purpose) = some (.source .unit1)) = true := by decide +kernel

/-- The same of rows 5 and 6: demand outranks Intake, whose turn comes at 5 entries; Fetch 1 waits for its hazard. -/
theorem test_run_unit1 :
    let issued := (after (.fetchReadDone []) (lastRead .unit1 (.taking (item 2 [] .block0)))).bind
      (after (.iterationIssue .unit1))
    issued.any (fun t => t.writer.buffer.length = 6 ∧ t.intakeRequest.isSome ∧ (t.fetchRequest .unit0).isSome ∧
      t.fetchRequest .unit1 = none ∧ t.port.outstanding.map (·.purpose) = some (.stateWord 3)) = true ∧
    (issued.bind (after .stateWriteDone)).any (fun t =>
      t.port.outstanding.map (·.purpose) = some (.takeBlock0 2)) = true := by decide +kernel

/-- PortArbiter: what each appender has to append. -/
theorem test_entries_due :
    let intake (p : TakePhase) : State := { running with intake.activity := .taking (item 2 [] p) }
    let unit (a : UnitActivity) : State := { running with unit1.activity := a }
    let two : IterPhase := .issuing ⟨[⟨0x413F, [0#8]⟩, ⟨0x4140, [0x0C#8]⟩], [], ⟨.zero, false⟩⟩
    (intake (.judged .nullTake)).entriesDue .intake = some 1 ∧ (intake (.handing 1#32 .nullTake)).entriesDue .intake = some 1 ∧
    (intake .block0).entriesDue .intake = none ∧ (intake (.further 7 [])).entriesDue .intake = none ∧
    State.entriesDue { intake (.judged .nullTake) with dispatcher.outstanding := [0#32] } .intake = none ∧
    running.entriesDue .intake = none ∧ running.entriesDue .dispatcher = none ∧
    State.entriesDue { running with dispatcher.items := [okItem 1#32 2] } .dispatcher = some 1 ∧
    (unit (.ending (okItem 1#32 2))).entriesDue (.unit .unit1) = some 1 ∧
    (unit (.iterating (job 1#32 8 .normal [moveStep]) 0 0 two)).entriesDue (.unit .unit1) = some 2 ∧
    (unit (.iterating (job 1#32 8 .normal [moveStep]) 0 0 fetching)).entriesDue (.unit .unit1) = none ∧
    running.entriesDue (.unit .unit0) = none := by decide +kernel

/-- The Writer works on one of so many entries; Unit 0 waits with two of its own, and Intake with one. -/
def crossing (entries : Nat) : State :=
  { running with
    intake.activity := .taking (item 2 [] (.judged .nullTake))
    unit0 := iterating (job 1#32 8 .normal [moveStep]) 0 0
      (.issuing ⟨[⟨0x413F, [0#8]⟩, ⟨0x4140, [0x0C#8]⟩], [], ⟨.zero, false⟩⟩)
    unit1 := iterating (job 2#32 7 .normal [moveStep]) 0 1 (.fetching [⟨0, 0x4010, 3, 0x4010, 3⟩] [])
    writer.buffer := List.replicate entries (.state 0#32 3 .normal 7#16)
    writer.waiters := [.unit .unit0, .intake]
    port.outstanding := some ⟨.stateWord 3, 0x1600, .write [2#8, 0#8, 7#8, 0#8], false⟩ }

/-- PortArbiter: who joins, by the room; at a write's end the grant waits for the unit that could not join before, and not
for waiters that could; the next append makes the grant. -/
theorem test_joiners :
    (crossing 5).joiners = [.unit .unit0, .intake] ∧ (crossing 6).joiners = [.unit .unit0] ∧ (crossing 7).joiners = [] ∧
    afterIs .stateWriteDone (crossing 8) (fun t => t.writer.joining = [] ∧
      t.port.outstanding.map (·.purpose) = some (.stateWord 3)) = true ∧
    afterIs .stateWriteDone (crossing 7) (fun t => t.writer.joining = [.unit .unit0] ∧ t.port.outstanding = none) = true ∧
    ((after .stateWriteDone (crossing 7)).bind (after (.iterationIssue .unit0))).any (fun t => t.writer.joining = [] ∧
      t.writer.buffer.length = 8 ∧ t.port.outstanding.map (·.purpose) = some (.stateWord 3)) = true ∧
    afterIs .stateWriteDone (crossing 5) (fun t => t.writer.joining = [] ∧
      t.port.outstanding.map (·.purpose) = some (.source .unit1)) = true := by decide +kernel

/-- MOVE of a literal to the field at operand 1, three times: a step without memory sources. -/
def storeStep : Machine.Step :=
  { moveStep with work := .move ⟨0, .literal ⟨12345, 2⟩⟩ ⟨1, .memory { packed5 with address := 0x4100#32 }⟩, repeats := 3 }

/-- IterationIssues and TakenEntryAssignsTheTicket: on a free port the Writer, sole requester, is granted with its first
entry, though the next iteration or the rejected take has another to append; and again at the end of that entry's write. -/
theorem test_writer_alone :
    let s : State := { running with writer.table := [⟨1#32, 0, none⟩] }
    let begun := (s.beginIteration .unit0 (job 1#32 8 .normal [storeStep]) 0 0)
    let issued := after (.iterationIssue .unit0) begun
    let rejected : State := { running with
      intake.activity := .taking (item 2 [] (.judged (.rejected .badStep (some 0)))), writer.waiters := [.intake] }
    begun.port.outstanding = none ∧ begun.writer.waiters = [.unit .unit0] ∧
    issued.any (fun t => t.writer.waiters = [.unit .unit0] ∧ t.joiners = [.unit .unit0] ∧ t.writer.buffer.length = 1 ∧
      t.port.outstanding = some ⟨.destination, 0x4100, .write [0x12#8, 0x34#8, 0x5C#8], false⟩) = true ∧
    ((issued.bind (after (.iterationIssue .unit0))).bind (after .destinationWriteDone)).any (fun t =>
      t.writer.waiters = [.unit .unit0] ∧ t.writer.buffer.length = 1 ∧
      t.port.outstanding.map (·.address) = some 0x4110) = true ∧
    afterIs .takenEntryAppend rejected (fun t => t.writer.waiters = [.intake] ∧ t.intake.handing?.isSome ∧
      t.port.outstanding.map (·.purpose) = some (.stateWord 2)) = true := by decide +kernel

/-- PortArbiter: what each requester asks for, and a discard while another requester has the port, or the Writer. -/
theorem test_requests :
    let take (p : TakePhase) : Option Transaction := State.intakeRequest { running with intake.activity := .taking (item 3 [] p) }
    let head (e : WriterEntry) : State := { running with writer.buffer := [e], writer.table := [⟨1#32, 0, some (0, 0)⟩] }
    let failed := head (.destination 1#32 0 0 ⟨0x4100, [0#8]⟩)
    (loading 2 block0).loaderRequest = some ⟨.config 2, 0x2080, .read 64, false⟩ ∧
    take .block0 = some ⟨.takeBlock0 3, 0x1600, .read 64, false⟩ ∧
    take (.further 7 []) = some ⟨.takeBlock 3 7, 0x17C0, .read 64, false⟩ ∧ take (.judged .nullTake) = none ∧
    (head (.state 1#32 3 .urgent 0x0102#16)).writerRequest =
      some ⟨.stateWord 3, 0x1600, .write [2#8, 1#8, 2#8, 1#8], false⟩ ∧
    (head (.destination 2#32 0 0 ⟨0x4100, [5#8]⟩)).writerRequest = some ⟨.destination, 0x4100, .write [5#8], false⟩ ∧
    failed.writerRequest = none ∧
    (head (.completion (okItem 1#32 3) false)).writerRequest.map (fun t => (t.purpose, t.address)) =
      some (.resultArea 3, 0x17D0) ∧
    (head (.completion (okItem 1#32 3) true)).writerRequest =
      some ⟨.doneWord 3, 0x1600, .write [3#8, 0#8, 7#8, 0#8], false⟩ ∧
    (busy failed (.source .unit1) 0x4000 (.read 3)).arbitrate = { busy failed (.source .unit1) 0x4000 (.read 3) with
      writer.buffer := [] } ∧
    (busy failed (.stateWord 3) 0x1600 (.write [])).arbitrate = busy failed (.stateWord 3) 0x1600 (.write []) := by
  decide +kernel

/-- WritesEndOk and WritesReachMemory: each of the four writes. -/
theorem test_writes_end :
    let s (p : Purpose) (bytes : List Byte) (e : WriterEntry) : State :=
      { busy running p 0x4000 (.write bytes) with
        writer := { running.writer with buffer := [e], table := [⟨1#32, 0, none⟩] }
        dispatcher.outstanding := [1#32] }
    afterIs .stateWriteDone (s (.stateWord 2) [2#8] (.state 1#32 2 .normal 7#16)) (fun t => t.writer.buffer = [] ∧
      t.memory = [(0x4000, 2#8)]) = true ∧
    afterIs .destinationWriteDone (s .destination [5#8] (.destination 1#32 0 0 ⟨0x4000, [5#8]⟩)) (fun t =>
      t.writer.buffer = [] ∧ t.writer.table = [⟨1#32, 1, none⟩]) = true ∧
    afterIs .resultAreaWriteDone (s (.resultArea 2) [1#8] (.completion (okItem 1#32 2) false)) (fun t =>
      t.port.outstanding = some ⟨.doneWord 2, 0x1400, .write [3#8, 0#8, 7#8, 0#8], false⟩) = true ∧
    afterIs .doneWriteDone (s (.doneWord 2) [3#8] (.completion (okItem 1#32 2) true)) (fun t =>
      t.writer.buffer = [] ∧ t.writer.table = [] ∧ t.dispatcher.outstanding = [] ∧
      t.notifier.harvest = [⟨2, .ok, 7#16⟩] ∧ t.notifier.holdoffTimer = some 100 ∧ !t.notifier.flags.finish) = true := by
  decide +kernel

/-- The hypotheses of the failed destination write, with the job running in a unit and another parked. (DestinationFailureRecorded.) -/
theorem test_destination_fail :
    let s : State := { crowded with
      writer.buffer := [.destination 2#32 0 0 ⟨0x4100, [0#8]⟩, .destination 2#32 0 1 ⟨0x4110, [0#8]⟩]
      writer.table := [⟨2#32, 0, none⟩]
      port.outstanding := some ⟨.destination, 0x4100, .write [], false⟩ }
    let parked (s : State) (ending : Bool) : State := { s with
      dispatcher.parked := [parkedJob (job 3#32 6 .normal [cellStep, cellStep]) ending]
      writer.buffer := [.destination 3#32 0 0 ⟨0x4100, [0#8]⟩], writer.table := [⟨3#32, 0, none⟩] }
    s.control.resetWait = false ∧ (s.unit .unit1).activity = .iterating (job 2#32 7 .normal [moveStep]) 0 0 fetching ∧
    afterIs .destinationWriteFail s (fun t => t.writer.buffer = [] ∧ t.writer.table = [⟨2#32, 0, some (0, 0)⟩] ∧
      t.unit0 = s.unit0 ∧ t.unit1.activity =
        .ending ⟨2#32, 7, 7#16, .normal, ⟨.faulted .busError none, 0, 0, .empty, none⟩⟩) = true ∧
    afterIs .destinationWriteFail s (fun t => t.dispatcher = s.dispatcher ∧ t.writer.waiters = [.unit .unit1]) = true ∧
    afterIs .destinationWriteFail (parked s false) (fun t =>
      t.dispatcher.parked.all (·.ending) ∧ t.dispatcher.items.map (·.info.how) = [.faulted .busError none] ∧
      t.writer.waiters = [.dispatcher] ∧ t.dispatcher.staged = s.dispatcher.staged) = true ∧
    afterIs .destinationWriteFail (parked s true) (fun t =>
      t.dispatcher = (parked s true).dispatcher ∧ t.writer.waiters = []) = true := by
  decide +kernel

/-- ResultAreaComposed: the bytes at the largest step, iteration and count, and each failure. -/
theorem test_result_area :
    let i : CompletionItem := ⟨0x01020304#32, 2, 7#16, .normal,
      ⟨.stopped, 15, 4096, ⟨false, true, true, false⟩, some ⟨.zero, true⟩⟩⟩
    Writer.resultArea ⟨[], [], [⟨0x01020304#32, 262144, none⟩], []⟩ i =
      [2#8, 0#8, 0xFF#8, 15#8, 0#8, 0x10#8, 6#8, 0x8A#8, 0#8, 0#8, 0#8, 0#8, 4#8, 3#8, 2#8, 1#8, 0#8, 0#8, 4#8, 0#8, 7#8,
        0#8] ++ List.replicate 26 0#8 ∧
    composeEnd i.info (some (1, 3)) = ({ i.info with how := .faulted .busError none, step := 1, iterations := 3 }, false) ∧
    composeEnd { i.info with how := .aborted } (some (1, 3)) = ({ i.info with how := .aborted }, true) ∧
    Writer.record? ⟨[], [], [⟨1#32, 4, none⟩, ⟨2#32, 5, some (1, 3)⟩], []⟩ 2#32 = some ⟨2#32, 5, some (1, 3)⟩ ∧
    Writer.record? ⟨[], [], [⟨1#32, 4, none⟩], []⟩ 2#32 = none ∧
    Writer.writtenStatus ⟨[], [], [⟨2#32, 5, some (1, 3)⟩], []⟩ (okItem 2#32 3) = .faulted ∧
    Writer.writtenStatus ⟨[], [], [⟨2#32, 5, none⟩], []⟩ (okItem 2#32 3) = .ok := by
  decide +kernel

/-! ### Arithmetic and fields -/

/-- R24's modes on −2.5 and 2.5, and R22's example: −2.345 by CEILING is −2.34. (RoundingFollowsTheNumberLine.) -/
theorem test_rounding :
    [Rounding.truncate, .halfUp, .halfEven, .ceiling, .floor].map (fun m => (roundTo m ⟨-25, 1⟩ 0).coef) =
      [-2, -3, -2, -2, -3] ∧
    [Rounding.truncate, .halfUp, .halfEven, .ceiling, .floor].map (fun m => (roundTo m ⟨25, 1⟩ 0).coef) =
      [2, 3, 2, 3, 2] ∧
    roundTo .ceiling ⟨-2345, 3⟩ 2 = ⟨-234, true⟩ := by decide +kernel

/-- ArithmeticDelivers and FirstFailureDecides: each operation on 1.5 and 2.25, a destination that the result does not fit,
and a failing second source. -/
theorem test_arithmetic :
    let src (i : Nat) : Source := ⟨i, .cell 0 9 0⟩
    let dst (n : Nat) : Dest := ⟨2, .cell 2 n 1⟩
    let value : Source → Except IterFault Decimal := fun s =>
      if s.index = 0 then .ok ⟨15, 1⟩ else if s.index = 1 then .ok ⟨225, 2⟩ else .error ⟨.invalidDigit, s.index⟩
    let run (w : Work) : Option (List Int) × Option FaultKind :=
      match computeStep ⟨w, .halfEven, .negate, .empty, .endJob, 1⟩ value with
      | .ok c => (some (c.deliveries.map (·.coef)), none)
      | .error f => (none, some f.kind)
    run (.move (src 0) (dst 3)) = (some [-15], none) ∧
    run (.add (src 0) (src 1) (dst 3)) = (some [-38], none) ∧
    run (.subtract (src 0) (src 1) (dst 3)) = (some [8], none) ∧
    run (.multiply (src 0) (src 1) (dst 3)) = (some [-34], none) ∧
    run (.add (src 0) (src 1) (dst 1)) = (none, some .overflow) ∧
    run (.add (src 0) (src 3) (dst 1)) = (none, some .invalidDigit) := by decide +kernel

/-- R30's examples: 10 / 3 truncated, −10 / 3 by FLOOR, 2 / 3 by HALF_UP at scale 0, with their remainders. (DivideDelivers.) -/
theorem test_divide :
    let value (x y : Decimal) : Source → Except IterFault Decimal := fun s => .ok (if s.index = 0 then x else y)
    let st (m : Rounding) (scale : Nat) : Machine.Step :=
      ⟨.divide ⟨0, .cell 0 9 0⟩ ⟨1, .cell 1 9 0⟩ (some ⟨3, .cell 3 9 2⟩) ⟨2, .cell 2 9 scale⟩, m, .plain, .empty, .endJob, 1⟩
    let run (m : Rounding) (scale : Nat) (x y : Int) : Option (List Int) :=
      match computeStep (st m scale) (value ⟨x, 0⟩ ⟨y, 0⟩) with
      | .ok c => some (c.deliveries.map (·.coef))
      | .error _ => none
    run .truncate 2 10 3 = some [1, 333] ∧ run .floor 2 (-10) 3 = some [2, -334] ∧
    run .truncate 2 (-10) 3 = some [-1, -333] ∧ run .halfUp 0 2 3 = some [-100, 1] ∧ run .halfUp 0 2 0 = none := by
  decide +kernel

/-- A fit at its boundary: 9.99 and 10.00 in n = 3, s = 2 (R26), and the BINARY64 range. (DestinationChecks.) -/
theorem test_checks :
    fits 3 2 999 = true ∧ fits 3 2 1000 = false ∧
    (Place.memory ⟨.binary64, 19, 0, 0#32, 0#16⟩).check 9223372036854775807 = none ∧
    (Place.memory ⟨.binary64, 19, 0, 0#32, 0#16⟩).check 9223372036854775808 = some .overflow ∧
    (Place.memory ⟨.unsignedPacked, 3, 0, 0#32, 0#16⟩).check (-1) = some .unsignedNegative ∧
    (Place.memory ⟨.unsignedPacked, 3, 0, 0#32, 0#16⟩).check (-1000) = some .overflow := by decide +kernel

/-- COMPARE and CHECK on values at a bound. (ExactResultsAndComparisons.) -/
theorem test_compare :
    let value : Source → Except IterFault Decimal := fun s => .ok (if s.index = 0 then ⟨15, 1⟩ else ⟨150, 2⟩)
    let src (i : Nat) : Source := ⟨i, .cell 0 9 0⟩
    (match computeStep ⟨.compare (src 0) (src 1), .truncate, .plain, .empty, .endJob, 1⟩ value with
      | .ok c => decide (c = ⟨[], ⟨.zero, false⟩⟩)
      | .error _ => false) = true ∧
    (match computeStep ⟨.check (src 0) (src 1) (src 2), .truncate, .plain, .empty, .endJob, 1⟩ value with
      | .ok c => decide (c = ⟨[], ⟨.zero, false⟩⟩)
      | .error _ => false) = true := by decide +kernel

/-- The table of examples of 11.6, written. (TextDestinationWritten and FieldReadsBackWhatWasWritten.) -/
theorem test_fields_written :
    writeField .packed 5 12345 = [0x12#8, 0x34#8, 0x5C#8] ∧ writeField .packed 4 (-1234) = [0x01#8, 0x23#8, 0x4D#8] ∧
    writeField .packed 4 0 = [0x00#8, 0x00#8, 0x0C#8] ∧ writeField .unsignedPacked 5 12345 = [0x01#8, 0x23#8, 0x45#8] ∧
    writeField .unsignedPacked 4 1234 = [0x12#8, 0x34#8] ∧
    writeField .text 3 (-42) = [0x2D#8, 0x30#8, 0x34#8, 0x32#8] ∧
    writeField .packed 7 (-123450) = [0x01#8, 0x23#8, 0x45#8, 0x0D#8] ∧
    writeField .binary64 19 (-123450) = [0xC6#8, 0x1D#8, 0xFE#8, 0xFF#8, 0xFF#8, 0xFF#8, 0xFF#8, 0xFF#8] ∧
    (Place.memory packed5).check (-12345) = none ∧ (Place.memory { packed5 with format := .text }).check 99999 = none := by
  decide +kernel

/-- What a field reads as, if it does not fault. -/
def reads (format : FieldFormat) (digits scale : Nat) (bytes : List Byte) : Option Decimal :=
  match readField format digits scale bytes with
  | .ok v => some v
  | .error _ => none

/-- The fault of a field's read, if it has one. -/
def readFault (format : FieldFormat) (digits : Nat) (bytes : List Byte) : Option FaultKind :=
  match readField format digits 0 bytes with
  | .ok _ => none
  | .error k => some k

/-- R8's table: each sign nibble and character, the sign fault before the digit fault, a digit and a pad; the BINARY64
bounds. (FieldReadsBackWhatWasWritten.) -/
theorem test_field_contents :
    ([0x1A#8, 0x1B#8, 0x1C#8, 0x1D#8, 0x1E#8, 0x1F#8].map fun b => reads .packed 1 0 [b]) =
      [some ⟨1, 0⟩, some ⟨-1, 0⟩, some ⟨1, 0⟩, some ⟨-1, 0⟩, some ⟨1, 0⟩, some ⟨1, 0⟩] ∧
    readFault .packed 1 [0xA9#8] = some .invalidSign ∧ readFault .packed 1 [0xAC#8] = some .invalidDigit ∧
    readFault .packed 2 [0x10#8, 0x0C#8] = some .invalidDigit ∧ nibbleAt [0x10#8, 0x0C#8] 0 ≠ 0 ∧
    readFault .unsignedPacked 2 [0x9A#8] = some .invalidDigit ∧ readFault .unsignedPacked 1 [0x19#8] = some .invalidDigit ∧
    reads .unsignedPacked 2 0 [0x90#8] = some ⟨90, 0⟩ ∧ reads .text 1 0 [0x2B#8, 0x30#8] = some ⟨0, 0⟩ ∧
    reads .text 1 0 [0x2D#8, 0x39#8] = some ⟨-9, 0⟩ ∧ readFault .text 1 [0x2A#8, 0x41#8] = some .invalidSign ∧
    readFault .text 1 [0x20#8, 0x3A#8] = some .invalidDigit ∧ readFault .text 1 [0x20#8, 0x2F#8] = some .invalidDigit ∧
    reads .binary64 19 0 (List.replicate 7 0xFF#8 ++ [0x7F#8]) = some ⟨9223372036854775807, 0⟩ ∧
    reads .binary64 19 0 (List.replicate 7 0#8 ++ [0x80#8]) = some ⟨-9223372036854775808, 0⟩ := by decide +kernel

/-- The same read back, the other sign forms a field accepts, and invalid content (R8). -/
theorem test_fields_read :
    reads .packed 5 2 [0x12#8, 0x34#8, 0x5C#8] = some ⟨12345, 2⟩ ∧
    reads .packed 5 2 [0x12#8, 0x34#8, 0x5B#8] = some ⟨-12345, 2⟩ ∧
    reads .packed 4 2 [0x01#8, 0x23#8, 0x4D#8] = some ⟨-1234, 2⟩ ∧
    reads .binary64 19 2 [0xC6#8, 0x1D#8, 0xFE#8, 0xFF#8, 0xFF#8, 0xFF#8, 0xFF#8, 0xFF#8] = some ⟨-123450, 2⟩ ∧
    reads .text 1 0 [0x20#8, 0x39#8] = some ⟨9, 0⟩ ∧ reads .packed 1 0 [0xA9#8] = none ∧
    reads .unsignedPacked 3 0 [0x11#8, 0x23#8] = none := by decide +kernel

/-! ### Invariants -/

/-- The invariants hold in the crowded state, not only after reset. (The StepKeeps statements.) -/
theorem test_invariants : Memory.wf [(0x4000, 1#8), (0x4001, 2#8)] ∧ crowded.writer.buffer.length ≤ 8 ∧
    (finished 2).notifier.threshold ≤ (finished 2).notifier.harvest.length ∧ (finished 2).notifier.flags.finish = true ∧
    full.intake.pendingSlots.Nodup ∧ crowded.dispatcher.outstanding.Nodup ∧ crowded.dispatcher.parked.length ≤ 2 ∧
    (∀ p ∈ crowded.dispatcher.parked, p.job.priority = .normal) ∧ crowded.dispatcher.parkRequest = none ∧
    crowded.unit0.parkMark = false ∧ crowded.unit1.parkMark = false := by decide +kernel

end Sys2Proof.Tests
end

section
/-! A TEXT destination: its digit characters by position, and its checks (R10, R12, R27). -/

namespace Sys2Proof.Machine

/-- Digit k of n as a list element; `digitsOf_getD` without the default value. -/
theorem digitsOf_getElem? (n c k : Nat) (h : k < n) : (digitsOf n c)[k]? = some (c / 10 ^ (n - 1 - k) % 10) := by
  have hk : k < (digitsOf n c).length := by rwa [digitsOf_length]
  rw [← digitsOf_getD n c k h, List.getD_eq_getElem _ 0 hk, List.getElem?_eq_getElem hk]

/-- The digit characters of a TEXT field, without its sign character (R12). -/
def textDigits (n c : Nat) : List Byte := (digitsOf n c).map fun d => BitVec.ofNat 8 (0x30 + d)

/-- R12: the sign character, then the digit characters. -/
theorem writeField_text (n : Nat) (c : Int) :
    writeField .text n c = (if c < 0 then 0x2D#8 else 0x2B#8) :: textDigits n c.natAbs := rfl

@[simp] theorem textDigits_length (n c : Nat) : (textDigits n c).length = n := by simp [textDigits]

theorem textDigits_getElem? (n c k : Nat) (h : k < n) :
    (textDigits n c)[k]? = some (BitVec.ofNat 8 (0x30 + c / 10 ^ (n - 1 - k) % 10)) := by
  rw [textDigits, List.getElem?_map, digitsOf_getElem? n c k h, Option.map_some]

/-- The fit check is the only one of a TEXT destination (R12, R27). -/
theorem Place.check_text (f : MemField) (c : Int) (hf : f.format = .text) :
    (Place.memory f).check c = if fits f.digits f.scale c then none else some .overflow := by
  cases hfits : fits f.digits f.scale c <;> simp [Place.check, hf, hfits]

/-- Settles O55: the digits are `textDigits`, and R12's lack of a check of its own is `Place.check_text`. The bound on the
coefficient is not needed: of a longer one the field would show the low n digits. -/
theorem textDestinationWritten : Obligations.TextDestinationWritten := by
  intro f c hf _
  refine ⟨textDigits f.digits c.natAbs, ?_, textDigits_length _ _, textDigits_getElem? _ _, fun hfits => ?_⟩
  · rw [hf, writeField_text]
  · rw [Place.check_text f c hf, if_pos hfits]

end Sys2Proof.Machine
end

section
/-! The places that hold a slot (R64), and R65's table by which Intake decides a POST arrival. -/

namespace Sys2Proof.Machine

/-! ### The places of R64 -/

theorem Intake.mem_pendingSlots (i : Intake) (n : Slot) :
    n ∈ i.pendingSlots ↔ ∃ e ∈ i.urgent ++ i.normal, e.slot = n := by
  rw [Intake.pendingSlots, ← List.map_append, List.mem_map]

theorem Intake.itemSlot?_eq_some_iff (i : Intake) (n : Slot) :
    i.itemSlot? = some n ↔
      ∃ item, (i.activity = .taking item ∨ i.activity = .nullTake item) ∧ item.slot = n := by
  cases h : i.activity <;> simp [Intake.itemSlot?, h]

theorem CalcUnit.slot?_eq_some_iff (c : CalcUnit) (n : Slot) :
    c.slot? = some n ↔
      (∃ job step done phase, c.activity = .iterating job step done phase ∧ job.slot = n) ∨
      ∃ item, c.activity = .ending item ∧ item.slot = n := by
  cases h : c.activity <;> simp [CalcUnit.slot?, h]

/-- A property of some unit is a property of Unit 0 or of Unit 1. -/
theorem State.exists_unit_iff (s : State) (P : CalcUnit → Prop) : (∃ u, P (s.unit u)) ↔ P s.unit0 ∨ P s.unit1 := by
  constructor
  · rintro ⟨u, h⟩
    cases u with
    | unit0 => exact .inl h
    | unit1 => exact .inr h
  · rintro (h | h)
    · exact ⟨.unit0, h⟩
    · exact ⟨.unit1, h⟩

theorem State.unitSlot_iff (s : State) (n : Slot) :
    s.unit0.slot? = some n ∨ s.unit1.slot? = some n ↔
      (∃ u job step done phase, (s.unit u).activity = .iterating job step done phase ∧ job.slot = n) ∨
      ∃ u item, (s.unit u).activity = .ending item ∧ item.slot = n := by
  rw [← s.exists_unit_iff fun c => c.slot? = some n]
  simp only [CalcUnit.slot?_eq_some_iff]
  exact exists_or

theorem Writer.mem_completionSlots (w : Writer) (n : Slot) :
    n ∈ w.completionSlots ↔ ∃ item area, .completion item area ∈ w.buffer ∧ item.slot = n := by
  rw [Writer.completionSlots, List.mem_filterMap]
  constructor
  · rintro ⟨e, he, hn⟩
    cases e with
    | completion item area => exact ⟨item, area, he, Option.some.inj hn⟩
    | state => cases hn
    | destination => cases hn
  · rintro ⟨item, area, he, hn⟩
    exact ⟨_, he, congrArg some hn⟩

/-- R64: the places that hold a slot. -/
theorem State.mem_heldSlots (s : State) (n : Slot) :
    n ∈ s.heldSlots ↔
      (∃ e ∈ s.intake.urgent ++ s.intake.normal, e.slot = n) ∨
      (∃ item, (s.intake.activity = .taking item ∨ s.intake.activity = .nullTake item) ∧ item.slot = n) ∨
      (∃ st, s.dispatcher.staged = some st ∧ st.job.slot = n) ∨
      (∃ u job step done phase, (s.unit u).activity = .iterating job step done phase ∧ job.slot = n) ∨
      (∃ u item, (s.unit u).activity = .ending item ∧ item.slot = n) ∨
      (∃ q ∈ s.dispatcher.parked, q.job.slot = n) ∨
      (∃ item area, .completion item area ∈ s.writer.buffer ∧ item.slot = n) ∨
      ∃ e ∈ s.notifier.harvest, e.slot = n := by
  simp only [State.heldSlots, List.mem_append, Option.mem_toList, Option.map_eq_some_iff, List.mem_map,
    or_assoc, Intake.mem_pendingSlots, Intake.itemSlot?_eq_some_iff, Writer.mem_completionSlots]
  rw [← or_assoc (a := s.unit0.slot? = some n), State.unitSlot_iff, or_assoc]

/-! ### The cases of R65 -/

theorem Intake.hasOrdinary_iff (i : Intake) (n : Slot) :
    i.hasOrdinary n = true ↔ ∃ e ∈ i.urgent ++ i.normal, e.slot = n ∧ e.source ≠ .abort := by
  rw [Intake.hasOrdinary, List.any_eq_true]
  simp only [Bool.and_eq_true, decide_eq_true_eq]

theorem State.holds_iff (s : State) (n : Slot) : s.holds n = true ↔ n ∈ s.heldSlots := List.contains_iff_mem

/-- R63: the list of its priority takes the entry. -/
theorem Intake.append_post (i : Intake) (n : Slot) (p : Priority) :
    i.append ⟨n, p, .post⟩ =
      if p = .urgent then { i with urgent := i.urgent ++ [⟨n, .urgent, .post⟩] }
      else { i with normal := i.normal ++ [⟨n, .normal, .post⟩] } := by
  cases p <;> rfl

/-- What a decision on a POST arrival does to the state (R65). -/
def State.posted (s : State) (n : Slot) (p : Priority) : PostDecision → State
  | .refuse reason => s.report (.postRefused n reason)
  | .ignore => s
  | .append => { s with intake := s.intake.append ⟨n, p, .post⟩ }

/-- POST_ARRIVAL makes its decision's effect where CONTROL and POST writes reach the device (R179, R180). -/
theorem exec_postArrival (n : Slot) (p : Priority) (s : State) (hr : s.control.rst = false)
    (hw : s.control.resetWait = false) : exec (.postArrival n p) s = .next (s.posted n p (s.decidePost n)) := by
  have htakes : s.takesCommands = true := by rw [State.takesCommands, hr, hw]; rfl
  calc exec (.postArrival n p) s
      = .next (if s.takesCommands then s.posted n p (s.decidePost n) else s) := rfl
    _ = .next (s.posted n p (s.decidePost n)) := by rw [if_pos htakes]

/-- Settles O15: the places are `State.mem_heldSlots`; the model's decision is R65's table, case by case. -/
theorem postArrivalDecided : Obligations.PostArrivalDecided := by
  refine ⟨State.mem_heldSlots, fun s n p hr hw => ?_⟩
  rw [exec_postArrival n p s hr hw, State.decidePost]
  simp only [Intake.hasOrdinary_iff, State.holds_iff]
  split_ifs with hrun hrange hordinary hheld hurgent
  · rfl
  · rfl
  · rfl
  · rfl
  · rw [State.posted, Intake.append_post, if_pos hurgent]
  · rw [State.posted, Intake.append_post, if_neg hurgent]

end Sys2Proof.Machine
end

section
/-! The address of a MEMORY operand by iteration (R107), and the ranges that the windows accept (R127). -/

namespace Sys2Proof.Machine

/-- R107's sum as a word: one integer, reduced modulo 2^32 once. -/
theorem MemField.addressAt_eq_ofInt (f : MemField) (i : Nat) :
    f.addressAt i = (BitVec.ofInt 32 (f.address.toNat + i * f.stride.toInt)).toNat := by
  have hbase : BitVec.ofInt 32 f.address.toNat = f.address := by
    rw [BitVec.ofInt_natCast, BitVec.ofNat_toNat, BitVec.setWidth_eq]
  have hstride : BitVec.ofInt 32 f.stride.toInt = f.stride.signExtend 32 := rfl
  rw [MemField.addressAt, BitVec.ofInt_add, BitVec.ofInt_mul, hbase, hstride, BitVec.ofInt_natCast, BitVec.mul_comm]

/-- R107: the stride is signed, and the sum wraps at both ends of the address space. -/
theorem MemField.addressAt_cast (f : MemField) (i : Nat) :
    (f.addressAt i : Int) = ((f.address.toNat : Int) + i * f.stride.toInt) % 2 ^ 32 := by
  rw [f.addressAt_eq_ofInt, BitVec.toNat_ofInt]
  exact Int.toNat_of_nonneg (Int.emod_nonneg _ (by decide))

theorem Window.grants_iff (w : Window) (access : Access) :
    w.grants access = true ↔ (access = .read → w.read = true) ∧ (access = .write → w.write = true) := by
  cases access <;> simp [Window.grants]

/-- R127 speaks of last bytes, the model of the ends just past them; they say the same of a range with a byte in it, which
no window of length 0 holds. -/
theorem Window.covers_iff (w : Window) (a size : Nat) (h : 1 ≤ size) :
    w.covers a size = true ↔ w.base.toNat ≤ a ∧ a + size - 1 ≤ w.base.toNat + w.length.toNat - 1 ∧
      1 ≤ w.length.toNat ∧ a + size - 1 ≤ 0xFFFFFFFF := by
  simp only [Window.covers, Bool.and_eq_true, decide_eq_true_eq]
  rw [Config.addressSpace]
  omega

/-- R127: one window alone answers for the range. -/
theorem windowsAccept_iff (windows : List Window) (access : Access) (a size : Nat) :
    windowsAccept windows access a size = true ↔
      ∃ w ∈ windows, w.grants access = true ∧ w.covers a size = true := by
  simp only [windowsAccept, List.any_eq_true, Bool.and_eq_true]

/-- Settles O38: R107 is `MemField.addressAt_cast`; R127 is `windowsAccept_iff` with what a window grants and covers. -/
theorem addressesAndWindows : Obligations.AddressesAndWindows := by
  refine ⟨MemField.addressAt_cast, fun windows access a size hsize => ?_⟩
  simp only [windowsAccept_iff, Window.grants_iff, Window.covers_iff _ a size hsize, and_assoc]

end Sys2Proof.Machine
end

section
/-! Writes to STATUS: the clears that one spells, and the re-test of FINISH (R154, R158). -/

namespace Sys2Proof.Machine

/-- A register write takes effect while RST is released (R179). -/
theorem State.registerWritten_released (s : State) (effect : State → State) (h : s.control.rst = false) :
    s.registerWritten effect = effect s := by
  rw [State.registerWritten, h]
  rfl

/-- Each clear of a STATUS write, by the bit that spells it (R154; 11.2). -/
theorem mem_statusWrite_iff (v : Word) (c : Instr) :
    c ∈ statusWrite v ↔
      (c = .clearFinish ∧ v.getLsbD 4 = true) ∨ (c = .clearStoppedFlag ∧ v.getLsbD 5 = true) ∨
      (c = .clearHaltedFlag ∧ v.getLsbD 6 = true) ∨ (c = .clearFaultFlag ∧ v.getLsbD 7 = true) := by
  simp only [statusWrite, List.mem_append, List.mem_ite_nil_right, List.mem_singleton, or_assoc, and_comm]

/-- R158: the clear does nothing to a clear flag and at T or more entries; else the flag falls, and the timer starts where
an entry is left and H is not 0. -/
theorem Notifier.clearFinish_eq (n : Notifier) :
    n.clearFinish =
      if n.flags.finish = false then n
      else if n.threshold ≤ n.harvest.length then n
      else if n.harvest ≠ [] ∧ n.holdoff ≠ 0 then
        { n with flags.finish := false, holdoffTimer := some n.holdoff }
      else { n with flags.finish := false } := by
  rw [Notifier.clearFinish]
  by_cases hempty : n.harvest = []
  · simp [Notifier.reached, hempty]
  · by_cases hholdoff : n.holdoff = 0
    · simp [Notifier.reached, Notifier.startTimer, hempty, hholdoff]
    · simp [Notifier.reached, Notifier.startTimer, hempty, hholdoff]

theorem exec_clearFinish (s : State) (h : s.control.rst = false) :
    exec .clearFinish s = .next { s with notifier := s.notifier.clearFinish } :=
  congrArg Host.Outcome.next (s.registerWritten_released _ h)

/-- Settles O17: the clears are `mem_statusWrite_iff`, the rule of FINISH is `Notifier.clearFinish_eq`. -/
theorem statusWriteClearsFlags : Obligations.StatusWriteClearsFlags := by
  refine ⟨mem_statusWrite_iff, fun s hrst => ?_⟩
  have written (effect : State → State) :
      (.next (s.registerWritten effect) : Host.Outcome State Fault Refusal) = .next (effect s) :=
    congrArg Host.Outcome.next (s.registerWritten_released effect hrst)
  refine ⟨written _, written _, written _, ?_⟩
  rw [exec_clearFinish s hrst, Notifier.clearFinish_eq]
  split_ifs <;> rfl

end Sys2Proof.Machine
end

section
/-! What the shared operations leave of the Control Port. Most change no field of it; the others change no enable (R160). -/

namespace Sys2Proof.Machine

/-! ### The writer buffer and the port -/

@[simp] theorem State.present_control (s : State) (a : Appender) : (s.present a).control = s.control := by
  rw [State.present_eq]

@[simp] theorem State.arbitrate_control (s : State) : s.arbitrate.control = s.control := by
  obtain ⟨_, _, _, _, h⟩ := s.arbitrate_eq
  rw [h]

@[simp] theorem State.portFreed_control (before s : State) : (before.portFreed s).control = s.control := by
  obtain ⟨_, _, _, _, _, h⟩ := State.portFreed_eq before s
  rw [h]

@[simp] theorem State.appended_control (a : Appender) (s : State) : (s.appended a).control = s.control := by
  obtain ⟨_, _, _, _, h⟩ := State.appended_eq a s
  rw [h]

@[simp] theorem State.endedOk_control (s : State) (host : HostWrites) (t : Transaction) :
    (s.endedOk host t).control = s.control := by
  obtain ⟨_, h, _⟩ := s.endedOk_eq host t
  rw [h]

@[simp] theorem State.endedFailed_control (s : State) (t : Transaction) : (s.endedFailed t).control = s.control := by
  obtain ⟨_, _, h, _⟩ := s.endedFailed_eq t
  rw [h]

/-! ### Units and the Dispatcher -/

@[simp] theorem State.abortUnit_control (s : State) (u : UnitId) : (s.abortUnit u).control = s.control := by
  obtain ⟨_, _, _, h, _⟩ := s.abortUnit_eq u
  rw [h, State.setUnit_control]

@[simp] theorem State.reportToUnit_control (s : State) (u : UnitId) (ticket : Ticket) :
    (s.reportToUnit u ticket).control = s.control := by
  obtain ⟨_, _, _, h, _⟩ := s.reportToUnit_eq u ticket
  rw [h, State.setUnit_control]

@[simp] theorem State.endStaged_control (s : State) : s.endStaged.control = s.control := by
  obtain ⟨_, _, _, h⟩ := s.endStaged_eq
  rw [h]

@[simp] theorem State.endParked_control (s : State) (how : JobEnd) (p : ParkedJob) :
    (s.endParked how p).control = s.control := by
  obtain ⟨_, _, _, h, _⟩ := s.endParked_eq how p
  rw [h]

@[simp] theorem State.foldl_endParked_control (how : JobEnd) (parked : List ParkedJob) (s : State) :
    (parked.foldl (State.endParked · how) s).control = s.control := by
  induction parked generalizing s with
  | nil => rfl
  | cons p rest ih => rw [List.foldl_cons, ih, State.endParked_control]

theorem State.runsTo_control {s t : State} {u : UnitId} {job : Job} {entries : List WriterEntry}
    (h : s.runsTo u job entries t) : t.control = s.control := by
  rcases h with ⟨_, _, rfl, _⟩ | ⟨_, _, _, _, _, rfl, _⟩
  · exact State.setUnit_control _ u _
  · exact State.setUnit_control _ u _

@[simp] theorem State.issue_control (s : State) (u : UnitId) (job : Job) (step done : Nat) (st : Step) (r : IterResult) :
    (s.issue u job step done st r).control = s.control :=
  State.runsTo_control (s.issue_runs u job step done st r)

@[simp] theorem State.occupy_control (s : State) (u : UnitId) (job : Job) (step done : Nat) (cells : Cells)
    (seen : OutcomeSet) (last : Option IterOutcome) :
    (s.occupy u job step done cells seen last).control = s.control := by
  obtain ⟨_, _, h, _⟩ := s.occupy_eq u job step done cells seen last
  rw [h, State.setUnit_control]

@[simp] theorem State.fetchFailed_control (s : State) (u : UnitId) : (s.fetchFailed u).control = s.control := by
  rcases s.fetchFailed_eq u with h | ⟨_, _, _, _, _, h⟩
  · rw [h]
  · exact State.runsTo_control h

@[simp] theorem State.fetchRead_control (s : State) (u : UnitId) (data : List Byte) :
    (s.fetchRead u data).control = s.control := by
  rcases s.fetchRead_eq u data with h | ⟨_, _, _, _, _, h⟩
  · rw [h]
  · exact State.runsTo_control h

/-! ### Intake -/

@[simp] theorem State.presentTaken_control (s : State) : s.presentTaken.control = s.control := by
  obtain ⟨_, h⟩ := s.presentTaken_eq
  rw [h]

@[simp] theorem State.handOver_control (s : State) (item : IntakeItem) (ticket : Ticket) (verdict : Verdict) :
    (s.handOver item ticket verdict).control = s.control := by
  obtain ⟨_, _, _, _, h⟩ := s.handOver_eq item ticket verdict
  rw [h]

@[simp] theorem State.assignTicket_control (s : State) (item : IntakeItem) : (s.assignTicket item).control = s.control :=
  rfl

@[simp] theorem State.judge_control (s : State) (item : IntakeItem) (record : Memory) (verdict : Verdict) :
    (s.judge item record verdict).control = s.control := rfl

@[simp] theorem State.sweepRead_control (s : State) (data : List Byte) : (s.sweepRead data).control = s.control := by
  unfold State.sweepRead
  split
  · split
    · dsimp only
      cases s.sweepEntry _ _ <;> split <;> rfl
    · rfl
  all_goals rfl

@[simp] theorem State.takeRead_control (s : State) (data : List Byte) : (s.takeRead data).control = s.control := by
  unfold State.takeRead
  split
  · split
    · dsimp only
      split
      · rfl
      · simp
    all_goals rfl
  all_goals rfl

/-! ### Reports and changes of device state -/

@[simp] theorem State.report_enables (s : State) (r : FaultReport) :
    (s.report r).control.enables = s.control.enables := by
  rw [State.report_eq]

@[simp] theorem State.loadFailed_enables (s : State) (r : FaultReport) :
    (s.loadFailed r).control.enables = s.control.enables := by
  rw [State.loadFailed_eq]

@[simp] theorem State.halt_enables (s : State) (r : FaultReport) : (s.halt r).control.enables = s.control.enables := by
  rw [State.halt_eq]

@[simp] theorem State.answer_enables (s : State) (o : CommandOutcome) :
    (s.answer o).control.enables = s.control.enables := rfl

@[simp] theorem State.dropStale_enables (s : State) (item : IntakeItem) :
    (s.dropStale item).control.enables = s.control.enables := by
  rw [State.dropStale, State.report_enables]

end Sys2Proof.Machine
end

section
/-! The interrupt enables and INTR (R159, R160): only the write of INTERRUPT ENABLE and the two resets change an enable. -/

namespace Sys2Proof.Machine

/-! ### Commands and register writes -/

theorem State.registerWritten_enables (s : State) (effect : State → State)
    (h : (effect s).control.enables = s.control.enables) :
    (s.registerWritten effect).control.enables = s.control.enables := by
  unfold State.registerWritten
  split
  · rfl
  · exact h

theorem State.command_enables (s : State) (accepted : Bool) (effect : State → State)
    (h : ∀ t : State, (effect t).control.enables = t.control.enables) :
    (s.command accepted effect).control.enables = s.control.enables := by
  unfold State.command
  split
  · split
    · rw [h, State.answer_enables]
    · exact s.answer_enables _
  · rfl

theorem State.beginLoad_enables (s : State) : s.beginLoad.control.enables = s.control.enables := by
  unfold State.beginLoad
  dsimp only
  split
  · rw [State.arbitrate_control]
  · rw [State.loadFailed_enables]

theorem State.abortAll_enables (s : State) : s.abortAll.control.enables = s.control.enables := by
  rw [State.abortAll, State.foldl_endParked_control, State.endStaged_control]

theorem State.abortSlot_enables (s : State) (slot : Slot) : (s.abortSlot slot).control.enables = s.control.enables := by
  unfold State.abortSlot
  cases s.dispatcher.parked.find? (·.job.slot = slot) with
  | none => split_ifs <;> simp
  | some p => split_ifs <;> simp

/-! ### The ends of transactions -/

theorem State.loaderRead_enables (s : State) (data : List Byte) :
    (s.loaderRead data).control.enables = s.control.enables := by
  unfold State.loaderRead
  split
  · rfl
  · dsimp only
    split
    · rfl
    · split
      · exact s.loadFailed_enables _
      · rfl

theorem State.takeRead0_enables (s : State) (data : List Byte) :
    (s.takeRead0 data).control.enables = s.control.enables := by
  unfold State.takeRead0
  split
  · dsimp only
    split
    · exact s.dropStale_enables _
    · split
      · rw [State.presentTaken_control, State.judge_control]
      · split
        · rfl
        · rw [State.presentTaken_control, State.judge_control]
  all_goals rfl

theorem State.nullTakeRead_enables (s : State) (data : List Byte) :
    (s.nullTakeRead data).control.enables = s.control.enables := by
  unfold State.nullTakeRead
  split
  · dsimp only
    split
    · exact s.dropStale_enables _
    · rw [State.presentTaken_control]
  all_goals rfl

theorem State.fetchEnded_control (s : State) (t : Transaction) : (s.fetchEnded t).control = s.control := by
  unfold State.fetchEnded
  split
  · split
    · rfl
    · exact s.fetchRead_control _ _
  all_goals rfl

theorem State.stateWritten_control (s : State) : s.stateWritten.control = s.control := by
  unfold State.stateWritten
  split <;> rfl

theorem State.destinationWritten_control (s : State) : s.destinationWritten.control = s.control := by
  unfold State.destinationWritten
  split <;> rfl

theorem State.areaWritten_control (s : State) : s.areaWritten.control = s.control := by
  unfold State.areaWritten
  split <;> rfl

theorem State.jobDone_control (s : State) : s.jobDone.control = s.control := by
  unfold State.jobDone
  split
  · rw [State.presentTaken_control]
  all_goals rfl

theorem State.busErrorReport_control (s : State) (ticket : Ticket) : (s.busErrorReport ticket).control = s.control := by
  unfold State.busErrorReport
  dsimp only
  split <;> simp only [State.endParked_control, State.reportToUnit_control]

theorem State.destinationFailed_control (s : State) : s.destinationFailed.control = s.control := by
  unfold State.destinationFailed
  split
  · rw [State.busErrorReport_control]
  all_goals rfl

theorem State.routeFailure_enables (s : State) (kind : FailKind) (t : Transaction) :
    (s.routeFailure kind t).control.enables = s.control.enables := by
  unfold State.routeFailure
  cases t.purpose with
  | config block => exact s.loadFailed_enables _
  | source u =>
    dsimp only
    split
    · rfl
    · rw [State.fetchFailed_control]
  | destination => rw [State.destinationFailed_control]
  | _ => exact s.halt_enables _

/-- What a success response leads to keeps the enables where its act does. -/
theorem State.respondOk_enables (s : State) (isFor : Purpose → Bool) (host : HostWrites)
    (act : Transaction → State → State) (h : ∀ tr t, (act tr t).control.enables = t.control.enables) :
    (s.respondOk isFor host act).control.enables = s.control.enables := by
  rcases s.respondOk_cases isFor host act with heq | ⟨tr, _, _, ⟨_, heq⟩ | ⟨_, heq⟩⟩
  · rw [heq]
  · rw [heq, State.endedOk_control]
  · rw [heq, State.portFreed_control, h, State.endedOk_control]

theorem State.respondFail_enables (s : State) (isFor : Purpose → Bool) (kind : FailKind) :
    (s.respondFail isFor kind).control.enables = s.control.enables := by
  rcases s.respondFail_cases isFor kind with heq | ⟨tr, _, _, ⟨_, heq⟩ | ⟨_, heq⟩⟩
  · rw [heq]
  · rw [heq, State.endedFailed_control]
  · rw [heq, State.portFreed_control, State.routeFailure_enables, State.endedFailed_control]

/-! ### Every command but the write and the resets -/

/-- R160: what changes an enable is the write of INTERRUPT ENABLE, a line reset, or the end of a command reset. -/
theorem exec_keeps_enables (c : Instr) (s : State) (hwrite : ∀ v, c ≠ .interruptEnableWrite v) (hline : c ≠ .lineReset)
    (hcommand : c ≠ .commandResetComplete) : ∃ t, exec c s = .next t ∧ t.control.enables = s.control.enables := by
  cases c with
  | interruptEnableWrite v => exact absurd rfl (hwrite v)
  | lineReset => exact absurd rfl hline
  | commandResetComplete => exact absurd rfl hcommand
  | start => exact ⟨_, rfl, s.command_enables _ _ State.beginLoad_enables⟩
  | stop | clearFault | reset | unnamedCommandCode => exact ⟨_, rfl, s.command_enables _ _ fun _ => rfl⟩
  | abortAll => exact ⟨_, rfl, s.command_enables _ _ State.abortAll_enables⟩
  | abortSlot slot => exact ⟨_, rfl, s.command_enables _ _ fun t => t.abortSlot_enables slot⟩
  | clearFinish | clearStoppedFlag | clearHaltedFlag | clearFaultFlag => exact ⟨_, rfl, s.registerWritten_enables _ rfl⟩
  | configAddressWrite v =>
    refine ⟨_, rfl, s.registerWritten_enables _ ?_⟩
    split <;> rfl
  | harvestRead | ignoredRegisterWrite | rstRelease | lateResponse | holdoffExpiry => exact ⟨_, rfl, rfl⟩
  | configReadBusError | intakeBusError | fetchBusError | destinationWriteFail | writerFatalBus | responseTimeout =>
    exact ⟨_, rfl, s.respondFail_enables _ _⟩
  | loaderReadDone => exact ⟨_, rfl, s.respondOk_enables _ _ _ fun _ t => t.loaderRead_enables _⟩
  | sweepReadDone => exact ⟨_, rfl, s.respondOk_enables _ _ _ fun _ t => by rw [State.sweepRead_control]⟩
  | takeBlock0ReadDone => exact ⟨_, rfl, s.respondOk_enables _ _ _ fun _ t => t.takeRead0_enables _⟩
  | takeBlockReadDone => exact ⟨_, rfl, s.respondOk_enables _ _ _ fun _ t => by rw [State.takeRead_control]⟩
  | nullTakeReadDone => exact ⟨_, rfl, s.respondOk_enables _ _ _ fun _ t => t.nullTakeRead_enables _⟩
  | fetchReadDone => exact ⟨_, rfl, s.respondOk_enables _ _ _ fun tr t => by rw [State.fetchEnded_control]⟩
  | stateWriteDone => exact ⟨_, rfl, s.respondOk_enables _ _ _ fun _ t => by rw [State.stateWritten_control]⟩
  | destinationWriteDone => exact ⟨_, rfl, s.respondOk_enables _ _ _ fun _ t => by rw [State.destinationWritten_control]⟩
  | resultAreaWriteDone => exact ⟨_, rfl, s.respondOk_enables _ _ _ fun _ t => by rw [State.areaWritten_control]⟩
  | doneWriteDone => exact ⟨_, rfl, s.respondOk_enables _ _ _ fun _ t => by rw [State.jobDone_control]⟩
  | postArrival slot priority =>
    refine ⟨_, rfl, ?_⟩
    split
    · cases s.decidePost slot with
      | refuse reason => exact s.report_enables _
      | ignore | append => rfl
    · rfl
  | sweepTimerExpiry | enterStopped =>
    refine ⟨_, rfl, ?_⟩
    split <;> rfl
  | sweepBegin | takeBegin | nullTakeBegin | unitAbortArrival =>
    refine ⟨_, rfl, ?_⟩
    split
    · simp
    · rfl
  | takenEntryAppend | intakeCompletionAppend =>
    refine ⟨_, rfl, ?_⟩
    split
    · rfl
    · split
      · simp
      · rfl
  | dispatcherCompletionAppend =>
    refine ⟨_, rfl, ?_⟩
    split
    · rfl
    · split
      · dsimp only
        split <;> simp
      · rfl
  | jobStart | jobResume =>
    refine ⟨_, rfl, ?_⟩
    split
    · simp
    all_goals rfl
  | parkRequest =>
    refine ⟨_, rfl, ?_⟩
    split
    · rfl
    · rw [State.setUnit_control]
  | iterationIssue =>
    refine ⟨_, rfl, ?_⟩
    split
    · split
      · split
        · simp
        · rfl
      · rfl
    all_goals rfl
  | unitCompletionAppend =>
    refine ⟨_, rfl, ?_⟩
    split
    · split
      · simp
      · rfl
    all_goals rfl

/-! ### The register and the line -/

/-- One bit of a register, at its position. -/
theorem field_toNat_eq (b : Bool) (p : Nat) : field b.toNat p = if b then BitVec.twoPow 32 p else 0#32 := by
  cases b with
  | false => exact BitVec.zero_shiftLeft p
  | true => rfl

/-- A bit kept at its position is the word masked to it. -/
theorem field_getLsbD (v : Word) (p : Nat) : field (v.getLsbD p).toNat p = v &&& BitVec.twoPow 32 p := by
  rw [field_toNat_eq, BitVec.and_twoPow]

theorem getLsbD_field_toNat (b : Bool) (p i : Nat) (h : p < 32) :
    (field b.toNat p).getLsbD i = (b && decide (p = i)) := by
  rw [field_toNat_eq]
  cases b with
  | false => simp
  | true => simp [BitVec.getLsbD_twoPow, h]

/-- R160, 11.2: what was written reads back, masked to the four enables. -/
theorem CauseBits.word_ofWord (v : Word) : (CauseBits.ofWord v).word = v &&& 0xF0#32 := by
  have hmask : 0xF0#32 =
      BitVec.twoPow 32 7 ||| BitVec.twoPow 32 6 ||| BitVec.twoPow 32 5 ||| BitVec.twoPow 32 4 := by decide
  simp only [CauseBits.word, CauseBits.ofWord, field_getLsbD, hmask, BitVec.and_or_distrib_left]

/-- 11.2: each of the four bits at its position. -/
theorem CauseBits.getLsbD_word (c : CauseBits) :
    c.word.getLsbD 4 = c.finish ∧ c.word.getLsbD 5 = c.stopped ∧ c.word.getLsbD 6 = c.halted ∧
      c.word.getLsbD 7 = c.fault := by
  simp [CauseBits.word, -BitVec.getLsbD_eq_getElem, getLsbD_field_toNat]

/-- R159: some flag is set whose enable is set. -/
theorem State.intr_iff (s : State) :
    s.intr = true ↔
      (s.notifier.flags.finish = true ∧ s.control.enables.finish = true) ∨
      (s.notifier.flags.stopped = true ∧ s.control.enables.stopped = true) ∨
      (s.notifier.flags.halted = true ∧ s.control.enables.halted = true) ∨
      (s.notifier.flags.fault = true ∧ s.control.enables.fault = true) := by
  simp only [State.intr, Bool.or_eq_true, Bool.and_eq_true, or_assoc]

/-- R161, R181: after a reset no enable and no flag is set. -/
theorem State.resetBlocks_interrupts (s : State) (address : Word) (rst : Bool) :
    (s.resetBlocks address rst).control.enables = ⟨false, false, false, false⟩ ∧
      (s.resetBlocks address rst).intr = false :=
  ⟨rfl, rfl⟩

theorem exec_interruptEnableWrite (s : State) (v : Word) (h : s.control.rst = false) :
    exec (.interruptEnableWrite v) s = .next { s with control.enables := .ofWord v } :=
  congrArg Host.Outcome.next (s.registerWritten_released _ h)

/-- R180: with no transaction outstanding the wait of a command reset ends. -/
theorem exec_commandResetComplete (s : State) (hwait : s.control.resetWait = true) (hport : s.port.outstanding = none) :
    exec .commandResetComplete s = .next (s.resetBlocks s.control.configAddress s.control.rst) := by
  show Host.Outcome.next (if _ then _ else _) = _
  rw [hwait, hport]
  rfl

/-- Settles O18: the frame is `exec_keeps_enables`, the register `CauseBits.word_ofWord` and `CauseBits.getLsbD_word`, the
line `State.intr_iff`. -/
theorem interruptEnables : Obligations.InterruptEnables := by
  refine ⟨exec_interruptEnableWrite, fun s t v hrst ht => ?_, fun s t c ht hwrite hline hcommand => ?_,
    fun s => s.control.enables.getLsbD_word, fun s t ht => ?_, fun s t hwait hport ht => ?_, State.intr_iff⟩
  · rw [exec_interruptEnableWrite s v hrst] at ht
    cases ht
    exact CauseBits.word_ofWord v
  · obtain ⟨t', hexec, hkept⟩ := exec_keeps_enables c s hwrite hline hcommand
    rw [hexec] at ht
    cases ht
    exact hkept
  · cases ht
    exact State.resetBlocks_interrupts _ _ _
  · rw [exec_commandResetComplete s hwait hport] at ht
    cases ht
    exact s.resetBlocks_interrupts _ _

end Sys2Proof.Machine
end

section
/-! Commands of CONTROL: what one taken, refused or not taken does (R169, R179, R180), and the fault record that CLEAR FAULT
empties (R178). -/

namespace Sys2Proof.Machine

/-- A command that reaches the device is accepted with its effect, or answered REFUSED_STATE. -/
theorem State.command_taken (s : State) (accepted : Bool) (effect : State → State) (hr : s.control.rst = false)
    (hw : s.control.resetWait = false) :
    s.command accepted effect = if accepted then effect (s.answer .accepted) else s.answer .refusedState := by
  have htakes : s.takesCommands = true := by rw [State.takesCommands, hr, hw]; rfl
  rw [State.command, if_pos htakes]

/-- R179, R180: no command reaches the device under RST or in the wait of a command reset. -/
theorem State.command_untaken (s : State) (accepted : Bool) (effect : State → State)
    (h : s.control.rst = true ∨ s.control.resetWait = true) : s.command accepted effect = s := by
  have htakes : ¬s.takesCommands = true := by
    rcases h with h | h
    · simp [State.takesCommands, h]
    · simp [State.takesCommands, h]
  rw [State.command, if_neg htakes]

theorem State.command_accepted (s : State) (accepted : Bool) (effect : State → State) (hr : s.control.rst = false)
    (hw : s.control.resetWait = false) (h : accepted = true) : s.command accepted effect = effect (s.answer .accepted) := by
  rw [State.command_taken s accepted effect hr hw, if_pos h]

theorem State.command_refused (s : State) (accepted : Bool) (effect : State → State) (hr : s.control.rst = false)
    (hw : s.control.resetWait = false) (h : ¬accepted = true) : s.command accepted effect = s.answer .refusedState := by
  rw [State.command_taken s accepted effect hr hw, if_neg h]

theorem exec_clearFault (s : State) (hr : s.control.rst = false) (hw : s.control.resetWait = false) :
    exec .clearFault s =
      .next { s with control.outcome := .accepted, control.faultRecord := none, control.more := false } :=
  congrArg Host.Outcome.next (s.command_accepted _ _ hr hw rfl)

@[simp] theorem State.report_rst (s : State) (r : FaultReport) : (s.report r).control.rst = s.control.rst := by
  rw [State.report_eq]

@[simp] theorem State.report_resetWait (s : State) (r : FaultReport) :
    (s.report r).control.resetWait = s.control.resetWait := by
  rw [State.report_eq]

/-- R177: an empty record is filled. -/
theorem State.report_of_empty (s : State) (r : FaultReport) (h : s.control.faultRecord = none) :
    s.report r = { s with control.faultRecord := some r, notifier.flags.fault := true } := by
  rw [State.report, h]

/-- Settles O13: a report keeps what decides whether a command is taken, so CLEAR FAULT acts the same after it. -/
theorem clearFaultEmptiesTheRecord : Obligations.ClearFaultEmptiesTheRecord := by
  intro s hr hw
  refine ⟨exec_clearFault s hr hw, fun r => ?_, fun r t ht => ?_⟩
  · exact exec_clearFault _ (by rw [State.report_rst, hr]) (by rw [State.report_resetWait, hw])
  · rw [exec_clearFault s hr hw] at ht
    cases ht
    exact State.report_of_empty _ r rfl

end Sys2Proof.Machine
end

section
/-! What the registers read as after a reset (R181). -/

namespace Sys2Proof.Machine

/-- After either reset every register but CONFIG ADDRESS reads as in the reset state. -/
theorem State.readRegister_resetBlocks (s : State) (address : Word) (rst : Bool) (r : Register)
    (h : r ≠ .configAddress) : (s.resetBlocks address rst).readRegister r = State.reset.readRegister r := by
  cases r with
  | configAddress => exact absurd rfl h
  | _ => rfl

theorem State.reset_readsAsReset : State.reset.readsAsReset 0#32 := by
  unfold State.readsAsReset
  decide

/-- R181: of the registers only CONFIG ADDRESS depends on which reset it was. -/
theorem State.resetBlocks_readsAsReset (s : State) (address : Word) (rst : Bool) :
    (s.resetBlocks address rst).readsAsReset address := by
  obtain ⟨hident, hcontrol, _, hpost, hharvest, hstatus, hfault, henable⟩ := State.reset_readsAsReset
  have reads (r : Register) (h : r ≠ .configAddress) := s.readRegister_resetBlocks address rst r h
  exact ⟨(reads .ident nofun).trans hident, (reads .control nofun).trans hcontrol, rfl, (reads .post nofun).trans hpost,
    (reads .harvest nofun).trans hharvest, (reads .status nofun).trans hstatus, (reads .fault nofun).trans hfault,
    (reads .interruptEnable nofun).trans henable⟩

/-- Settles O4: both resets are `State.resetBlocks`. -/
theorem registersAfterReset : Obligations.RegistersAfterReset := by
  refine fun s => ⟨⟨_, rfl, State.resetBlocks_readsAsReset _ _ _⟩, fun hwait hport => ?_⟩
  exact ⟨_, exec_commandResetComplete s hwait hport, s.resetBlocks_readsAsReset _ _⟩

end Sys2Proof.Machine
end

section
/-! The command outcome and CONFIG ADDRESS: what the host's commands and register writes set, and the device's own acts and
its bus transactions leave alone (R169, R174). -/

namespace Sys2Proof.Machine

/-- The command outcome and CONFIG ADDRESS, together: they share one frame. -/
def State.hostSet (s : State) : CommandOutcome × Word := (s.control.outcome, s.control.configAddress)

theorem State.hostSet_of_control {s t : State} (h : t.control = s.control) : t.hostSet = s.hostSet := by
  rw [State.hostSet, State.hostSet, h]

theorem State.hostSet_eq_iff (s t : State) :
    t.hostSet = s.hostSet ↔
      t.control.outcome = s.control.outcome ∧ t.control.configAddress = s.control.configAddress :=
  Prod.mk_inj

/-! ### Reports and changes of device state -/

@[simp] theorem State.report_hostSet (s : State) (r : FaultReport) : (s.report r).hostSet = s.hostSet := by
  rw [State.report_eq]
  rfl

@[simp] theorem State.loadFailed_hostSet (s : State) (r : FaultReport) : (s.loadFailed r).hostSet = s.hostSet := by
  rw [State.loadFailed_eq]
  rfl

@[simp] theorem State.halt_hostSet (s : State) (r : FaultReport) : (s.halt r).hostSet = s.hostSet := by
  rw [State.halt_eq]
  rfl

theorem State.dropStale_hostSet (s : State) (item : IntakeItem) : (s.dropStale item).hostSet = s.hostSet :=
  State.report_hostSet _ _

theorem State.beginLoad_hostSet (s : State) : s.beginLoad.hostSet = s.hostSet := by
  unfold State.beginLoad
  dsimp only
  split
  · rw [State.hostSet_of_control (State.arbitrate_control _)]
    rfl
  · rw [State.loadFailed_hostSet]
    rfl

theorem State.abortAll_hostSet (s : State) : s.abortAll.hostSet = s.hostSet := by
  rw [State.abortAll, State.hostSet_of_control (State.foldl_endParked_control _ _ _),
    State.hostSet_of_control (State.endStaged_control _)]
  rfl

/-! ### The ends of transactions -/

theorem State.loaderRead_hostSet (s : State) (data : List Byte) : (s.loaderRead data).hostSet = s.hostSet := by
  unfold State.loaderRead
  split
  · rfl
  · dsimp only
    split
    · rfl
    · split
      · exact s.loadFailed_hostSet _
      · rfl

theorem State.takeRead0_hostSet (s : State) (data : List Byte) : (s.takeRead0 data).hostSet = s.hostSet := by
  unfold State.takeRead0
  split
  · dsimp only
    split
    · exact s.dropStale_hostSet _
    · split
      · exact State.hostSet_of_control (by simp)
      · split
        · rfl
        · exact State.hostSet_of_control (by simp)
  all_goals rfl

theorem State.nullTakeRead_hostSet (s : State) (data : List Byte) : (s.nullTakeRead data).hostSet = s.hostSet := by
  unfold State.nullTakeRead
  split
  · dsimp only
    split
    · exact s.dropStale_hostSet _
    · exact State.hostSet_of_control (by simp)
  all_goals rfl

theorem State.routeFailure_hostSet (s : State) (kind : FailKind) (t : Transaction) :
    (s.routeFailure kind t).hostSet = s.hostSet := by
  unfold State.routeFailure
  cases t.purpose with
  | config block => exact s.loadFailed_hostSet _
  | source u =>
    dsimp only
    split
    · rfl
    · exact State.hostSet_of_control (s.fetchFailed_control u)
  | destination => exact State.hostSet_of_control s.destinationFailed_control
  | _ => exact s.halt_hostSet _

theorem State.respondOk_hostSet (s : State) (isFor : Purpose → Bool) (host : HostWrites)
    (act : Transaction → State → State) (h : ∀ tr t, (act tr t).hostSet = t.hostSet) :
    (s.respondOk isFor host act).hostSet = s.hostSet := by
  rcases s.respondOk_cases isFor host act with heq | ⟨tr, _, _, ⟨_, heq⟩ | ⟨_, heq⟩⟩
  · rw [heq]
  · rw [heq, State.hostSet_of_control (s.endedOk_control host tr)]
  · rw [heq, State.hostSet_of_control (State.portFreed_control _ _), h,
      State.hostSet_of_control (s.endedOk_control host tr)]

theorem State.respondFail_hostSet (s : State) (isFor : Purpose → Bool) (kind : FailKind) :
    (s.respondFail isFor kind).hostSet = s.hostSet := by
  rcases s.respondFail_cases isFor kind with heq | ⟨tr, _, _, ⟨_, heq⟩ | ⟨_, heq⟩⟩
  · rw [heq]
  · rw [heq, State.hostSet_of_control (s.endedFailed_control tr)]
  · rw [heq, State.hostSet_of_control (State.portFreed_control _ _), State.routeFailure_hostSet,
      State.hostSet_of_control (s.endedFailed_control tr)]

/-! ### Every command but those of CONTROL, the write and the resets -/

theorem State.registerWritten_hostSet (s : State) (effect : State → State) (h : (effect s).hostSet = s.hostSet) :
    (s.registerWritten effect).hostSet = s.hostSet := by
  unfold State.registerWritten
  split
  · rfl
  · exact h

/-- Only a command of CONTROL, the write of CONFIG ADDRESS and the resets change the command outcome or CONFIG ADDRESS. -/
theorem exec_keeps_hostSet (c : Instr) (s : State) (hcontrol : isCommand c = false)
    (hwrite : ∀ v, c ≠ .configAddressWrite v) (hline : c ≠ .lineReset) (hreset : c ≠ .commandResetComplete) :
    ∃ t, exec c s = .next t ∧ t.hostSet = s.hostSet := by
  cases c with
  | start | stop | abortAll | abortSlot | clearFault | reset | unnamedCommandCode => cases hcontrol
  | configAddressWrite v => exact absurd rfl (hwrite v)
  | lineReset => exact absurd rfl hline
  | commandResetComplete => exact absurd rfl hreset
  | clearFinish | clearStoppedFlag | clearHaltedFlag | clearFaultFlag | interruptEnableWrite =>
    exact ⟨_, rfl, s.registerWritten_hostSet _ rfl⟩
  | harvestRead | ignoredRegisterWrite | rstRelease | lateResponse | holdoffExpiry => exact ⟨_, rfl, rfl⟩
  | configReadBusError | intakeBusError | fetchBusError | destinationWriteFail | writerFatalBus | responseTimeout =>
    exact ⟨_, rfl, s.respondFail_hostSet _ _⟩
  | loaderReadDone => exact ⟨_, rfl, s.respondOk_hostSet _ _ _ fun _ t => t.loaderRead_hostSet _⟩
  | takeBlock0ReadDone => exact ⟨_, rfl, s.respondOk_hostSet _ _ _ fun _ t => t.takeRead0_hostSet _⟩
  | nullTakeReadDone => exact ⟨_, rfl, s.respondOk_hostSet _ _ _ fun _ t => t.nullTakeRead_hostSet _⟩
  | sweepReadDone =>
    exact ⟨_, rfl, s.respondOk_hostSet _ _ _ fun _ t => State.hostSet_of_control (t.sweepRead_control _)⟩
  | takeBlockReadDone =>
    exact ⟨_, rfl, s.respondOk_hostSet _ _ _ fun _ t => State.hostSet_of_control (t.takeRead_control _)⟩
  | fetchReadDone =>
    exact ⟨_, rfl, s.respondOk_hostSet _ _ _ fun tr t => State.hostSet_of_control (t.fetchEnded_control tr)⟩
  | stateWriteDone =>
    exact ⟨_, rfl, s.respondOk_hostSet _ _ _ fun _ t => State.hostSet_of_control t.stateWritten_control⟩
  | destinationWriteDone =>
    exact ⟨_, rfl, s.respondOk_hostSet _ _ _ fun _ t => State.hostSet_of_control t.destinationWritten_control⟩
  | resultAreaWriteDone =>
    exact ⟨_, rfl, s.respondOk_hostSet _ _ _ fun _ t => State.hostSet_of_control t.areaWritten_control⟩
  | doneWriteDone => exact ⟨_, rfl, s.respondOk_hostSet _ _ _ fun _ t => State.hostSet_of_control t.jobDone_control⟩
  | postArrival slot priority =>
    refine ⟨_, rfl, ?_⟩
    split
    · cases s.decidePost slot with
      | refuse reason => exact s.report_hostSet _
      | ignore | append => rfl
    · rfl
  | sweepTimerExpiry | enterStopped =>
    refine ⟨_, rfl, ?_⟩
    split <;> rfl
  | sweepBegin | takeBegin | nullTakeBegin | unitAbortArrival =>
    refine ⟨_, rfl, State.hostSet_of_control ?_⟩
    split
    · simp
    · rfl
  | takenEntryAppend | intakeCompletionAppend =>
    refine ⟨_, rfl, State.hostSet_of_control ?_⟩
    split
    · rfl
    · split
      · simp
      · rfl
  | dispatcherCompletionAppend =>
    refine ⟨_, rfl, State.hostSet_of_control ?_⟩
    split
    · rfl
    · split
      · dsimp only
        split <;> simp
      · rfl
  | jobStart | jobResume =>
    refine ⟨_, rfl, State.hostSet_of_control ?_⟩
    split
    · simp
    all_goals rfl
  | parkRequest =>
    refine ⟨_, rfl, State.hostSet_of_control ?_⟩
    split
    · rfl
    · rw [State.setUnit_control]
  | iterationIssue =>
    refine ⟨_, rfl, State.hostSet_of_control ?_⟩
    split
    · split
      · split
        · simp
        · rfl
      · rfl
    all_goals rfl
  | unitCompletionAppend =>
    refine ⟨_, rfl, State.hostSet_of_control ?_⟩
    split
    · split
      · simp
      · rfl
    all_goals rfl

end Sys2Proof.Machine
end

section
/-! The command outcome: where each command of CONTROL is accepted and what it answers (R169). -/

namespace Sys2Proof.Machine

/-! ### What an accepted command leaves in the outcome -/

/-- An accepted command whose effect keeps the outcome answers ACCEPTED. -/
theorem State.command_answers_accepted (s : State) (accepted : Bool) (effect : State → State)
    (hr : s.control.rst = false) (hw : s.control.resetWait = false) (h : accepted = true)
    (heffect : ∀ t : State, (effect t).control.outcome = t.control.outcome) :
    (s.command accepted effect).control.outcome = .accepted := by
  rw [State.command_accepted s accepted effect hr hw h, heffect, State.answer_outcome]

/-- An answer after an act that left the Control Port alone changes the outcome only. -/
theorem State.answer_control_of {s t : State} (o : CommandOutcome) (h : t.control = s.control) :
    (t.answer o).control = { s.control with outcome := o } := by
  rw [← h]
  rfl

/-- R173: of the Control Port ABORT SLOT sets the outcome only, to one of three answers. -/
theorem State.abortSlot_control (s : State) (n : Slot) :
    ∃ o, (s.abortSlot n).control = { s.control with outcome := o } ∧
      (o = .accepted ∨ o = .notFound ∨ o = .notActive) := by
  unfold State.abortSlot
  cases s.dispatcher.parked.find? (·.job.slot = n) with
  | none => split_ifs <;> exact ⟨_, State.answer_control_of _ (by simp), by simp⟩
  | some p => split_ifs <;> exact ⟨_, State.answer_control_of _ (by simp), by simp⟩

/-! ### CONTROL as read -/

theorem CommandOutcome.code_lt (o : CommandOutcome) : o.code < 8 := by
  cases o <;> decide

theorem DeviceState.code_lt (d : DeviceState) : d.code < 8 := by
  cases d <;> decide

theorem toNat_field (value position : Nat) (h : value * 2 ^ position < 2 ^ 32) :
    (field value position).toNat = 2 ^ position * value := by
  have hvalue : value < 2 ^ 32 := lt_of_le_of_lt (Nat.le_mul_of_pos_right value (Nat.two_pow_pos position)) h
  rw [field, BitVec.toNat_shiftLeft, BitVec.toNat_ofNat, Nat.mod_eq_of_lt hvalue, Nat.shiftLeft_eq, Nat.mod_eq_of_lt h,
    Nat.mul_comm]

/-- 11.2: the two fields of CONTROL do not overlap. -/
theorem State.readControl_toNat (s : State) :
    s.readControl.toNat = 2 ^ 8 * s.control.outcome.code + s.control.state.code := by
  have houtcome := s.control.outcome.code_lt
  have hstate := s.control.state.code_lt
  calc s.readControl.toNat
      = 2 ^ 8 * s.control.outcome.code ||| 2 ^ 0 * s.control.state.code := by
        rw [State.readControl, BitVec.toNat_or, toNat_field _ _ (by omega), toNat_field _ _ (by omega)]
    _ = 2 ^ 8 * s.control.outcome.code + s.control.state.code := by
        rw [Nat.pow_zero, Nat.one_mul, Nat.two_pow_add_eq_or_of_lt (by omega)]

/-- 11.2: the outcome at 10:8 and the device state at 2:0. -/
theorem State.readControl_fields (s : State) :
    (s.readControl.extractLsb' 8 3).toNat = s.control.outcome.code ∧
      (s.readControl.extractLsb' 0 3).toNat = s.control.state.code := by
  have houtcome := s.control.outcome.code_lt
  have hstate := s.control.state.code_lt
  simp only [BitVec.extractLsb'_toNat, State.readControl_toNat, Nat.shiftRight_eq_div_pow]
  omega

/-! ### The frame -/

/-- R169: the outcome is changed by the commands of CONTROL and by the resets only. -/
theorem exec_keeps_outcome (c : Instr) (s : State) (hcontrol : isCommand c = false) (hline : c ≠ .lineReset)
    (hreset : c ≠ .commandResetComplete) : ∃ t, exec c s = .next t ∧ t.control.outcome = s.control.outcome := by
  by_cases hwrite : ∃ v, c = .configAddressWrite v
  · obtain ⟨v, rfl⟩ := hwrite
    refine ⟨_, rfl, ?_⟩
    unfold State.registerWritten
    dsimp only
    split_ifs <;> rfl
  · obtain ⟨t, hexec, hkept⟩ := exec_keeps_hostSet c s hcontrol (not_exists.1 hwrite) hline hreset
    exact ⟨t, hexec, ((s.hostSet_eq_iff t).1 hkept).1⟩

theorem exec_command_untaken (c : Instr) (s : State) (h : s.control.rst = true ∨ s.control.resetWait = true)
    (hcontrol : isCommand c = true) : exec c s = .next s := by
  cases c with
  | start | stop | abortAll | abortSlot | clearFault | reset | unnamedCommandCode =>
    exact congrArg Host.Outcome.next (s.command_untaken _ _ h)
  | _ => cases hcontrol

/-- Settles O7: an accepted command's effect keeps the outcome ACCEPTED, but for `State.abortSlot_control`; the frame is
`exec_keeps_outcome`. -/
theorem commandsAcceptedByState : Obligations.CommandsAcceptedByState := by
  refine ⟨fun s hr hw => ⟨fun c hc => ?_, fun c hc => ?_, fun n hstate => ?_⟩, fun s c => exec_command_untaken c s,
    State.readControl_fields, fun s t c ht hcontrol hline hreset => ?_, fun s t ht => ?_, fun s t hwait hport ht => ?_⟩
  · have refused (accepted : Bool) (effect : State → State) (h : ¬accepted = true) :
        (.next (s.command accepted effect) : Host.Outcome State Fault Refusal) = .next (s.answer .refusedState) :=
      congrArg Host.Outcome.next (s.command_refused accepted effect hr hw h)
    rcases hc with ⟨rfl, hoff, hstopped⟩ | ⟨rfl, hrunning⟩ | ⟨rfl | ⟨n, rfl⟩, hrunning, hdraining⟩ | ⟨k, rfl⟩
    · exact refused _ _ (by simp [hoff, hstopped])
    · exact refused _ _ (by simp [hrunning])
    · exact refused _ _ (by simp [hrunning, hdraining])
    · exact refused _ _ (by simp [hrunning, hdraining])
    · exact refused _ _ (by simp)
  · rcases hc with ⟨rfl, hstate⟩ | ⟨rfl, hstate⟩ | ⟨rfl, hstate⟩ | rfl | rfl
    · exact ⟨_, rfl, s.command_answers_accepted _ _ hr hw (by simpa using hstate) fun t =>
        ((t.hostSet_eq_iff _).1 t.beginLoad_hostSet).1⟩
    · exact ⟨_, rfl, s.command_answers_accepted _ _ hr hw (by simpa using hstate) fun _ => rfl⟩
    · exact ⟨_, rfl, s.command_answers_accepted _ _ hr hw (by simpa using hstate) fun t =>
        ((t.hostSet_eq_iff _).1 t.abortAll_hostSet).1⟩
    · exact ⟨_, rfl, s.command_answers_accepted _ _ hr hw rfl fun _ => rfl⟩
    · exact ⟨_, rfl, s.command_answers_accepted _ _ hr hw rfl fun _ => rfl⟩
  · refine ⟨_, rfl, ?_⟩
    rw [State.command_accepted s _ _ hr hw (by simpa using hstate)]
    obtain ⟨o, hcontrol, ho⟩ := (s.answer .accepted).abortSlot_control n
    rw [hcontrol]
    exact ho
  · obtain ⟨t', hexec, hkept⟩ := exec_keeps_outcome c s hcontrol hline hreset
    rw [hexec] at ht
    cases ht
    exact hkept
  · cases ht
    rfl
  · rw [exec_commandResetComplete s hwait hport] at ht
    cases ht
    rfl

end Sys2Proof.Machine
end

section
/-! CONFIG ADDRESS: where a write takes effect, what keeps it, and a START on a bad address (R164, R174). -/

namespace Sys2Proof.Machine

theorem exec_start (s : State) (hr : s.control.rst = false) (hw : s.control.resetWait = false)
    (h : s.control.state = .off ∨ s.control.state = .stopped) :
    exec .start s = .next (s.answer .accepted).beginLoad :=
  congrArg Host.Outcome.next (s.command_accepted _ _ hr hw (by simpa using h))

theorem State.beginLoad_of_invalid (s : State) (h : loadAddressValid s.control.configAddress = false) :
    s.beginLoad = State.report { s with control.state := .off, control.config := none, control.loader := none }
      (.configInvalid .configAddress) := by
  unfold State.beginLoad
  dsimp only
  rw [h]
  rfl

/-- R164: the three blocks' 192 bytes run from a multiple of 64 to the end of the address space at most. -/
theorem loadAddressValid_eq_false (a : Word) (h : a.toNat % 64 ≠ 0 ∨ 0xFFFFFFFF < a.toNat + 191) :
    loadAddressValid a = false := by
  rw [loadAddressValid, Bool.and_eq_false_iff, decide_eq_false_iff_not, decide_eq_false_iff_not, Config.configBlockBytes,
    Config.addressSpace]
  omega

theorem State.command_configAddress (s : State) (accepted : Bool) (effect : State → State)
    (h : ∀ t : State, (effect t).control.configAddress = t.control.configAddress) :
    (s.command accepted effect).control.configAddress = s.control.configAddress := by
  unfold State.command
  split_ifs
  · exact h _
  · rfl
  · rfl

theorem State.abortSlot_configAddress (s : State) (n : Slot) :
    (s.abortSlot n).control.configAddress = s.control.configAddress := by
  obtain ⟨_, hcontrol, _⟩ := s.abortSlot_control n
  rw [hcontrol]

/-- R174: the commands of CONTROL leave CONFIG ADDRESS alone. -/
theorem exec_command_keeps_configAddress (c : Instr) (s : State) (hcontrol : isCommand c = true) :
    ∃ t, exec c s = .next t ∧ t.control.configAddress = s.control.configAddress := by
  cases c with
  | start =>
    exact ⟨_, rfl, s.command_configAddress _ _ fun t => ((t.hostSet_eq_iff _).1 t.beginLoad_hostSet).2⟩
  | abortAll =>
    exact ⟨_, rfl, s.command_configAddress _ _ fun t => ((t.hostSet_eq_iff _).1 t.abortAll_hostSet).2⟩
  | abortSlot n => exact ⟨_, rfl, s.command_configAddress _ _ fun t => t.abortSlot_configAddress n⟩
  | stop | clearFault | reset | unnamedCommandCode => exact ⟨_, rfl, s.command_configAddress _ _ fun _ => rfl⟩
  | _ => cases hcontrol

/-- R174, R180: only its write and a line reset change CONFIG ADDRESS; the end of a command reset keeps it. -/
theorem exec_keeps_configAddress (c : Instr) (s : State) (hwrite : ∀ v, c ≠ .configAddressWrite v)
    (hline : c ≠ .lineReset) : ∃ t, exec c s = .next t ∧ t.control.configAddress = s.control.configAddress := by
  cases hcontrol : isCommand c with
  | true => exact exec_command_keeps_configAddress c s hcontrol
  | false =>
    by_cases hreset : c = .commandResetComplete
    · subst hreset
      refine ⟨_, rfl, ?_⟩
      split <;> rfl
    · obtain ⟨t, hexec, hkept⟩ := exec_keeps_hostSet c s hcontrol hwrite hline hreset
      exact ⟨t, hexec, ((s.hostSet_eq_iff t).1 hkept).2⟩

theorem exec_configAddressWrite_effective (s : State) (v : Word) (hr : s.control.rst = false)
    (h : s.control.state = .off ∨ s.control.state = .stopped) :
    exec (.configAddressWrite v) s = .next { s with control.configAddress := v } :=
  congrArg Host.Outcome.next ((s.registerWritten_released _ hr).trans (if_pos h))

theorem exec_configAddressWrite_ignored (s : State) (v : Word) (hoff : s.control.state ≠ .off)
    (hstopped : s.control.state ≠ .stopped) : exec (.configAddressWrite v) s = .next s := by
  refine congrArg Host.Outcome.next ?_
  unfold State.registerWritten
  split
  · rfl
  · exact if_neg (not_or.2 ⟨hoff, hstopped⟩)

/-- Settles O19: the frame is `exec_keeps_configAddress`; a START on a bad address is `State.beginLoad_of_invalid`. -/
theorem configAddressRegister : Obligations.ConfigAddressRegister := by
  refine ⟨exec_configAddressWrite_effective, exec_configAddressWrite_ignored, fun _ => rfl, fun s t ht => ?_,
    fun s t c ht hwrite hline => ?_, fun s hr hw hstate haddress => ?_⟩
  · cases ht
    rfl
  · obtain ⟨t', hexec, hkept⟩ := exec_keeps_configAddress c s hwrite hline
    rw [hexec] at ht
    cases ht
    exact hkept
  · rw [exec_start s hr hw hstate, State.beginLoad_of_invalid (s.answer .accepted) (loadAddressValid_eq_false _ haddress)]
    rfl

end Sys2Proof.Machine
end

section
/-! What every command keeps: one preorder on states that gathers the invariants, the queue's rest and the fault record, and
for each operation the proof that it goes along it. -/

namespace Sys2Proof.Machine

/-- The unit runs a NORMAL job. -/
def CalcUnit.runsNormal (c : CalcUnit) : Prop :=
  ∃ job step done phase, c.activity = .iterating job step done phase ∧ job.priority = .normal

/-- The unit gains no mark, and a marked one goes on with a NORMAL job. -/
def CalcUnit.marksFrom (old new : CalcUnit) : Prop :=
  new.parkMark = true → old.parkMark = true ∧ (old.runsNormal → new.runsNormal)

/-- What going from one state to another keeps: each invariant, the waiting commands, and, where the record is not cleared,
its contents. A proof takes from `Keeps.refl` each field that speaks of nothing that the update touches. -/
structure State.Keeps (clears : Bool) (s t : State) : Prop where
  pending : t.pending = s.pending
  memory : s.memoryCanonical → t.memoryCanonical
  buffer : s.bufferFits → t.bufferFits
  finish : s.finishFollows → t.finishFollows
  tickets : s.ticketsDistinct → t.ticketsDistinct
  lists : s.listsOrdered → t.listsOrdered
  slots : s.pendingDistinct → t.pendingDistinct
  more : s.moreNeedsRecord → t.moreNeedsRecord
  park : s.parkBounded → t.parkBounded
  record : clears = false → ∀ q, s.control.faultRecord = some q →
    t.control.faultRecord = some q ∧ (s.control.more = true → t.control.more = true)

theorem State.Keeps.refl {clears : Bool} (s : State) : s.Keeps clears s :=
  ⟨rfl, id, id, id, id, id, id, id, id, fun _ _ h => ⟨h, id⟩⟩

theorem State.Keeps.trans {clears : Bool} {s t r : State} (h : s.Keeps clears t) (k : t.Keeps clears r) :
    s.Keeps clears r where
  pending := k.pending.trans h.pending
  memory := k.memory ∘ h.memory
  buffer := k.buffer ∘ h.buffer
  finish := k.finish ∘ h.finish
  tickets := k.tickets ∘ h.tickets
  lists := k.lists ∘ h.lists
  slots := k.slots ∘ h.slots
  more := k.more ∘ h.more
  park := k.park ∘ h.park
  record hc q hq :=
    have ⟨ht, hmt⟩ := h.record hc q hq
    have ⟨hr, hmr⟩ := k.record hc q ht
    ⟨hr, hmr ∘ hmt⟩

/-! ### The park buffer and the marks -/

theorem State.parkBounded_iff (s : State) :
    s.parkBounded ↔ s.dispatcher.parked.length ≤ 2 ∧ (∀ p ∈ s.dispatcher.parked, p.job.priority = .normal) ∧
      (s.dispatcher.parkRequest.isSome = true → s.dispatcher.parked.length ≤ 1) ∧
      ∀ u, (s.unit u).parkMark = true →
        (s.unit u).runsNormal ∧ ∃ ticket, s.dispatcher.parkRequest = some (u, ticket) := Iff.rfl

/-- Fewer parked jobs, the request answered or standing, and no new mark keep the bound (R95). -/
theorem State.parkBounded_of_fewer {s t : State} (hs : s.parkBounded)
    (hparked : (t.dispatcher.parked.map (·.job)).Sublist (s.dispatcher.parked.map (·.job)))
    (hrequest : t.dispatcher.parkRequest = none ∨ t.dispatcher.parkRequest = s.dispatcher.parkRequest)
    (hmark : ∀ u, (s.unit u).marksFrom (t.unit u))
    (hanswered : ∀ u, (t.unit u).parkMark = true → t.dispatcher.parkRequest = s.dispatcher.parkRequest) :
    t.parkBounded := by
  obtain ⟨hlength, hnormal, hroom, hmarked⟩ := hs
  have hle : t.dispatcher.parked.length ≤ s.dispatcher.parked.length := by simpa using hparked.length_le
  refine ⟨hle.trans hlength, fun p hp => ?_, fun h => hle.trans (hroom ?_), fun u hu => ?_⟩
  · obtain ⟨q, hq, hqp⟩ := List.mem_map.1 (hparked.subset (List.mem_map_of_mem hp))
    rw [← hqp]
    exact hnormal q hq
  · rcases hrequest with h0 | h0
    · rw [h0] at h
      cases h
    · rwa [← h0]
  · obtain ⟨hold, hruns⟩ := hmark u hu
    obtain ⟨hnorm, hticket⟩ := hmarked u hold
    rw [hanswered u hu]
    exact ⟨hruns hnorm, hticket⟩

theorem CalcUnit.marksFrom_refl (c : CalcUnit) : c.marksFrom c := fun h => ⟨h, id⟩

theorem CalcUnit.marksFrom_of_clear (c : CalcUnit) {d : CalcUnit} (h : d.parkMark = false) : c.marksFrom d := by
  intro hd
  rw [h] at hd
  cases hd

/-- What marks the units have after one of them is replaced. -/
theorem State.setUnit_marksFrom (s : State) (u : UnitId) {c : CalcUnit} (h : (s.unit u).marksFrom c) (v : UnitId) :
    (s.unit v).marksFrom ((s.setUnit u c).unit v) := by
  by_cases hv : v = u
  · subst hv
    rwa [State.setUnit_unit_same]
  · rw [State.setUnit_unit_other s hv]
    exact CalcUnit.marksFrom_refl _

theorem State.setUnit_keeps {clears : Bool} (s : State) (u : UnitId) {c : CalcUnit}
    (h : s.parkBounded → (s.unit u).marksFrom c) : s.Keeps clears (s.setUnit u c) := by
  have hpark (hs : s.parkBounded) : (s.setUnit u c).parkBounded := by
    refine State.parkBounded_of_fewer hs ?_ (.inr ?_) (s.setUnit_marksFrom u (h hs)) fun _ _ => ?_
    all_goals rw [State.setUnit_dispatcher]
  cases u <;> exact { State.Keeps.refl _ with park := hpark }

/-- A unit that ends its job or stays as it was gains no mark. -/
theorem CalcUnit.endedFrom.marksFrom {old new : CalcUnit} (h : old.endedFrom new)
    (hold : old.parkMark = true → old.runsNormal) : old.marksFrom new := by
  rcases h with rfl | ⟨hclear, _⟩ | ⟨item, item', hending, rfl⟩
  · exact CalcUnit.marksFrom_refl _
  · exact CalcUnit.marksFrom_of_clear _ hclear
  · intro hmark
    obtain ⟨_, _, _, _, hiterating, _⟩ := hold hmark
    rw [hending] at hiterating
    cases hiterating

theorem State.parkBounded.runsNormal {s : State} (h : s.parkBounded) {u : UnitId} (hu : (s.unit u).parkMark = true) :
    (s.unit u).runsNormal :=
  have ⟨_, _, _, hmarked⟩ := h
  (hmarked u hu).1

end Sys2Proof.Machine
end

section
/-! The shared operations keep the invariants. -/

namespace Sys2Proof.Machine

variable {clears : Bool}

/-! ### The writer buffer and the port -/

theorem State.present_keeps (s : State) (a : Appender) : s.Keeps clears (s.present a) := by
  rw [State.present_eq]
  exact { State.Keeps.refl _ with }

/-- A buffer that loses entries still fits. -/
theorem State.bufferFits_of_suffix {s t : State} {dropped : List WriterEntry}
    (h : s.writer.buffer = dropped ++ t.writer.buffer) (hs : s.bufferFits) : t.bufferFits := by
  unfold State.bufferFits at *
  rw [h, List.length_append] at hs
  omega

theorem State.arbitrate_keeps (s : State) : s.Keeps clears s.arbitrate := by
  obtain ⟨_, _, hsplit, _, h⟩ := s.arbitrate_eq
  rw [h]
  exact { State.Keeps.refl _ with buffer := State.bufferFits_of_suffix hsplit }

theorem State.portFreed_keeps (before s : State) : s.Keeps clears (before.portFreed s) := by
  obtain ⟨_, _, _, hsplit, _, h⟩ := State.portFreed_eq before s
  rw [h]
  exact { State.Keeps.refl _ with buffer := State.bufferFits_of_suffix hsplit }

theorem State.appended_keeps (a : Appender) (s : State) : s.Keeps clears (s.appended a) := by
  obtain ⟨_, _, hsplit, _, h⟩ := State.appended_eq a s
  rw [h]
  exact { State.Keeps.refl _ with buffer := State.bufferFits_of_suffix hsplit }

/-- R137, R138: entries are appended where there is room for them. -/
theorem State.append_keeps (s : State) (a : Appender) (entries : List WriterEntry)
    (h : s.bufferFits → s.writer.buffer.length + entries.length ≤ 8) : s.Keeps clears (s.append a entries) :=
  { State.Keeps.refl _ with
    buffer := fun hs => by
      rw [State.bufferFits, State.append_buffer, List.length_append]
      exact h hs }

theorem State.endedOk_keeps (s : State) (host : HostWrites) (t : Transaction) : s.Keeps clears (s.endedOk host t) := by
  obtain ⟨_, h, hmemory⟩ := s.endedOk_eq host t
  rw [h]
  exact { State.Keeps.refl _ with memory := hmemory }

theorem State.unsureWrite_keeps (s : State) (t : Transaction) : s.Keeps clears (s.unsureWrite t) := by
  obtain ⟨_, _, h, hmemory⟩ := s.unsureWrite_eq t
  rw [h]
  exact { State.Keeps.refl _ with memory := hmemory }

theorem State.endedFailed_keeps (s : State) (t : Transaction) : s.Keeps clears (s.endedFailed t) := by
  obtain ⟨_, _, h, hmemory⟩ := s.endedFailed_eq t
  rw [h]
  exact { State.Keeps.refl _ with memory := hmemory }

/-! ### Reports -/

/-- R177: a report keeps a filled record, and sets MORE in a filled one only. -/
theorem State.report_keeps (s : State) (r : FaultReport) : s.Keeps clears (s.report r) := by
  rw [State.report_eq]
  exact { State.Keeps.refl (clears := clears) s with
    more := fun _ _ => rfl
    record := fun _ q hq => ⟨by rw [hq]; rfl, fun hmore => by rw [hmore]; rfl⟩ }

theorem State.loadFailed_keeps (s : State) (r : FaultReport) : s.Keeps clears (s.loadFailed r) :=
  .trans (t := { s with control.state := .off, control.config := none, control.loader := none }) { State.Keeps.refl _ with }
    (State.report_keeps _ r)

/-- A state whose lists, buffer and Dispatcher are emptied and whose units drop their jobs. -/
theorem State.halt_keeps (s : State) (r : FaultReport) : s.Keeps clears (s.halt r) := by
  unfold State.halt
  refine .trans ?_ (State.report_keeps _ r)
  exact { State.Keeps.refl _ with
    buffer := fun _ => Nat.zero_le 8
    tickets := fun _ => List.nodup_nil
    lists := fun _ => ⟨nofun, nofun⟩
    slots := fun _ => List.nodup_nil
    park := fun _ => ⟨Nat.zero_le 2, nofun, nofun, fun u hu => by cases u <;> cases hu⟩ }

theorem State.dropStale_keeps (s : State) (item : IntakeItem) : s.Keeps clears (s.dropStale item) :=
  .trans (t := { s with intake.activity := .idle }) { State.Keeps.refl _ with } (State.report_keeps _ _)

/-! ### The end of a job -/

theorem State.abortUnit_keeps (s : State) (u : UnitId) : s.Keeps clears (s.abortUnit u) := by
  obtain ⟨_, w, o, h, hended, _⟩ := s.abortUnit_eq u
  rw [h]
  refine .trans (t := { s with port.outstanding := o, writer.waiters := w }) { State.Keeps.refl _ with } (State.setUnit_keeps _ u fun hs => ?_)
  exact hended.marksFrom (State.parkBounded.runsNormal (s := s) hs)

theorem State.reportToUnit_keeps (s : State) (u : UnitId) (ticket : Ticket) :
    s.Keeps clears (s.reportToUnit u ticket) := by
  obtain ⟨_, w, o, h, hended, _⟩ := s.reportToUnit_eq u ticket
  rw [h]
  refine .trans (t := { s with port.outstanding := o, writer.waiters := w }) { State.Keeps.refl _ with } (State.setUnit_keeps _ u fun hs => ?_)
  exact hended.marksFrom (State.parkBounded.runsNormal (s := s) hs)

theorem State.endStaged_keeps (s : State) : s.Keeps clears s.endStaged := by
  obtain ⟨_, _, _, h⟩ := s.endStaged_eq
  rw [h]
  exact { State.Keeps.refl _ with }

theorem State.endParked_keeps (s : State) (how : JobEnd) (p : ParkedJob) : s.Keeps clears (s.endParked how p) := by
  obtain ⟨parked, _, _, h, hparked⟩ := s.endParked_eq how p
  have hjobs : parked.map (·.job) = s.dispatcher.parked.map (·.job) := by
    rcases hparked with rfl | rfl
    · rfl
    · exact markEnding_jobs _ _
  rw [h]
  exact { State.Keeps.refl _ with
    park := fun hs => State.parkBounded_of_fewer hs (hjobs ▸ List.Sublist.refl _) (.inr rfl)
      (fun _ => CalcUnit.marksFrom_refl _) fun _ _ => rfl }

theorem State.foldl_endParked_keeps (how : JobEnd) (parked : List ParkedJob) (s : State) :
    s.Keeps clears (parked.foldl (State.endParked · how) s) := by
  induction parked generalizing s with
  | nil => exact .refl s
  | cons p rest ih => exact .trans (s.endParked_keeps how p) (ih _)

theorem State.busErrorReport_keeps (s : State) (ticket : Ticket) : s.Keeps clears (s.busErrorReport ticket) := by
  have hunits : s.Keeps clears ((s.reportToUnit .unit0 ticket).reportToUnit .unit1 ticket) :=
    .trans (s.reportToUnit_keeps .unit0 ticket) (State.reportToUnit_keeps _ .unit1 ticket)
  unfold State.busErrorReport
  dsimp only
  split
  · exact hunits
  · exact hunits.trans (State.endParked_keeps _ _ _)

/-! ### A run of a unit's job -/

/-- A run of a unit's job keeps the invariants where its entries have room: a park is under a mark, so it finds its request
and room in the park buffer (R95). -/
theorem State.runsTo_keeps {s t : State} {u : UnitId} {job : Job} {entries : List WriterEntry}
    (h : s.runsTo u job entries t) (hjob : ∃ step done phase, (s.unit u).activity = .iterating job step done phase)
    (hroom : s.bufferFits → s.writer.buffer.length + entries.length ≤ 8) : s.Keeps clears t := by
  have hnormal (hrun : (s.unit u).runsNormal) : job.priority = .normal := by
    obtain ⟨_, _, _, hjob⟩ := hjob
    obtain ⟨_, _, _, _, hrun, hpriority⟩ := hrun
    rw [hjob] at hrun
    cases hrun
    exact hpriority
  have happended {t : State} (hbuffer : t.writer.buffer = s.writer.buffer ++ entries) (hs : s.bufferFits) :
      t.bufferFits := by
    rw [State.bufferFits, hbuffer, List.length_append]
    exact hroom hs
  rcases h with ⟨c, w, rfl, hruns, _⟩ | ⟨parked, items, freed, w, c, rfl, hparked, hmark, hclear, _, _⟩
  · refine .trans (t := { s with writer.buffer := s.writer.buffer ++ entries, writer.waiters := w })
      { State.Keeps.refl _ with buffer := happended rfl } (State.setUnit_keeps _ u fun _ => ?_)
    rcases hruns with ⟨hmark, step, done, phase, hactivity⟩ | ⟨hclear, _⟩
    · exact fun hc => ⟨hmark ▸ hc, fun hrun => ⟨job, step, done, phase, hactivity, hnormal hrun⟩⟩
    · exact CalcUnit.marksFrom_of_clear _ hclear
  · have hpark (hs : s.parkBounded) :
        (State.setUnit { s with
          dispatcher.parked := parked, dispatcher.items := items, dispatcher.freed := freed
          dispatcher.parkRequest := if s.dispatcher.parkRequest.any (·.1 = u) then none else s.dispatcher.parkRequest
          writer.buffer := s.writer.buffer ++ entries, writer.waiters := w } u c).parkBounded := by
      obtain ⟨_, hallNormal, hroom, hmarked⟩ := hs
      obtain ⟨hrun, ticket, hrequest⟩ := hmarked u hmark
      have hlength : parked.length = s.dispatcher.parked.length + 1 := by
        simpa using congrArg List.length hparked
      have hone : s.dispatcher.parked.length ≤ 1 := hroom (by rw [hrequest]; rfl)
      refine (State.parkBounded_iff _).2 ⟨?_, fun p hp => ?_, fun h => ?_, fun v hv => ?_⟩
      · rw [State.setUnit_dispatcher]
        show parked.length ≤ 2
        omega
      · rw [State.setUnit_dispatcher] at hp
        have hmem : p.job ∈ s.dispatcher.parked.map (·.job) ++ [job] := hparked ▸ List.mem_map_of_mem hp
        rcases List.mem_append.1 hmem with hold | hnew
        · obtain ⟨q, hq, hqp⟩ := List.mem_map.1 hold
          exact hqp ▸ hallNormal q hq
        · rw [List.mem_singleton.1 hnew]
          exact hnormal hrun
      · rw [State.setUnit_dispatcher] at h
        simp [hrequest] at h
      · by_cases hvu : v = u
        · subst hvu
          rw [State.setUnit_unit_same, hclear] at hv
          cases hv
        · rw [State.setUnit_unit_other _ hvu] at hv
          obtain ⟨_, ticket', hother⟩ := hmarked v hv
          rw [hrequest] at hother
          cases hother
          exact absurd rfl hvu
    cases u <;> exact { State.Keeps.refl _ with buffer := happended rfl, park := hpark }

theorem State.occupy_keeps (s : State) (u : UnitId) (job : Job) (step done : Nat) (cells : Cells) (seen : OutcomeSet)
    (last : Option IterOutcome) : s.Keeps clears (s.occupy u job step done cells seen last) := by
  obtain ⟨c, w, h, hruns, _⟩ := s.occupy_eq u job step done cells seen last
  have hclear : c.parkMark = false := by
    rcases hruns with ⟨h, _⟩ | ⟨h, _⟩
    · exact h
    · exact h
  rw [h]
  exact .trans (t := { s with dispatcher.freed := s.dispatcher.freed.erase u, writer.waiters := w }) { State.Keeps.refl _ with }
    (State.setUnit_keeps _ u fun _ => CalcUnit.marksFrom_of_clear _ hclear)

/-- A run that appends nothing needs no room. -/
theorem State.runsTo_nil_keeps {s t : State} {u : UnitId}
    (h : ∃ job step done phase, (s.unit u).activity = .iterating job step done phase ∧ s.runsTo u job [] t) :
    s.Keeps clears t := by
  obtain ⟨_, step, done, phase, hjob, hruns⟩ := h
  exact State.runsTo_keeps hruns ⟨step, done, phase, hjob⟩ id

theorem State.fetchFailed_keeps (s : State) (u : UnitId) : s.Keeps clears (s.fetchFailed u) := by
  rcases s.fetchFailed_eq u with h | h
  · rw [h]
    exact .refl s
  · exact State.runsTo_nil_keeps h

theorem State.fetchRead_keeps (s : State) (u : UnitId) (data : List Byte) : s.Keeps clears (s.fetchRead u data) := by
  rcases s.fetchRead_eq u data with h | h
  · rw [h]
    exact .refl s
  · exact State.runsTo_nil_keeps h

/-! ### Intake -/

theorem State.presentTaken_keeps (s : State) : s.Keeps clears s.presentTaken := by
  obtain ⟨_, h⟩ := s.presentTaken_eq
  rw [h]
  exact { State.Keeps.refl _ with }

theorem State.handOver_keeps (s : State) (item : IntakeItem) (ticket : Ticket) (verdict : Verdict) :
    s.Keeps clears (s.handOver item ticket verdict) := by
  obtain ⟨_, _, _, _, h⟩ := s.handOver_eq item ticket verdict
  rw [h]
  exact { State.Keeps.refl _ with }

/-- R74: the ticket assigned is none of the outstanding ones. -/
theorem State.assignTicket_keeps (s : State) (item : IntakeItem) (hroom : s.writer.buffer.length + 1 ≤ 8)
    (hfree : s.intake.takeCounter ∉ s.dispatcher.outstanding) : s.Keeps clears (s.assignTicket item) :=
  .trans (s.append_keeps .intake [.state s.intake.takeCounter item.slot item.priority (recordTag item.record)]
      fun _ => hroom)
    { State.Keeps.refl _ with tickets := fun h => List.Nodup.append h (List.nodup_singleton _) (List.disjoint_singleton.2 hfree) }

end Sys2Proof.Machine
end

section
/-! What keeps the pending lists (R63) and FINISH (R158). -/

namespace Sys2Proof.Machine

variable {clears : Bool}

/-! ### The pending lists -/

theorem State.fewerPending_keeps (s : State) (i : Intake) (hu : i.urgent.Sublist s.intake.urgent)
    (hn : i.normal.Sublist s.intake.normal) : s.Keeps clears { s with intake := i } :=
  { State.Keeps.refl s with
    lists := fun ⟨h, k⟩ => ⟨fun e he => h e (hn.subset he), fun e he => k e (hu.subset he)⟩
    slots := fun h => h.sublist ((hu.map _).append (hn.map _)) }

/-- R63, R65, R69: an ordinary entry of a slot that has none joins the list of its priority. -/
theorem State.appendEntry_keeps (s : State) (e : PendingEntry) (hsource : e.source ≠ .abort)
    (hslot : e.slot ∉ s.intake.pendingSlots) : s.Keeps clears { s with intake := s.intake.append e } := by
  obtain ⟨hslotU, hslotN⟩ := not_or.1 (mt List.mem_append.2 hslot)
  unfold Intake.append
  cases hp : e.priority with
  | urgent =>
    exact { State.Keeps.refl _ with
      lists := fun ⟨h, k⟩ => ⟨h, fun d hd hds => by
        rcases List.mem_append.1 hd with hd | hd
        · exact k d hd hds
        · rw [List.mem_singleton.1 hd, hp]⟩
      slots := fun h => by
        show ((s.intake.urgent ++ [e]).map (·.slot) ++ s.intake.normal.map (·.slot)).Nodup
        have hmid : (e.slot :: (s.intake.urgent.map (·.slot) ++ s.intake.normal.map (·.slot))).Nodup :=
          List.nodup_cons.2 ⟨hslot, h⟩
        simpa using (List.perm_middle.nodup_iff).2 hmid }
  | normal =>
    exact { State.Keeps.refl _ with
      lists := fun ⟨h, k⟩ => ⟨fun d hd => by
        rcases List.mem_append.1 hd with hd | hd
        · exact h d hd
        · rw [List.mem_singleton.1 hd]
          exact ⟨hsource, hp⟩, k⟩
      slots := fun h => by
        show (s.intake.urgent.map (·.slot) ++ (s.intake.normal ++ [e]).map (·.slot)).Nodup
        rw [List.map_append, ← List.append_assoc]
        exact h.append (List.nodup_singleton _) (List.disjoint_singleton.2 hslot) }

/-- The first entry of a slot, and what is left of the list without it. -/
theorem takeEntry_eq_some_iff (n : Slot) (es : List PendingEntry) (e : PendingEntry) (rest : List PendingEntry) :
    takeEntry n es = some (e, rest) ↔
      ∃ before after, es = before ++ e :: after ∧ rest = before ++ after ∧ e.slot = n ∧ ∀ d ∈ before, d.slot ≠ n := by
  induction es generalizing rest with
  | nil => simp [takeEntry]
  | cons d es ih =>
    unfold takeEntry
    split_ifs with hd
    · constructor
      · rintro h
        cases h
        exact ⟨[], es, rfl, rfl, hd, nofun⟩
      · rintro ⟨before, after, hes, rfl, he, hbefore⟩
        cases before with
        | nil =>
          cases hes
          rfl
        | cons b before =>
          cases hes
          exact absurd hd (hbefore _ List.mem_cons_self)
    · rw [Option.map_eq_some_iff]
      constructor
      · rintro ⟨⟨e', rest'⟩, htake, heq⟩
        cases heq
        obtain ⟨before, after, hes, hrest, he, hbefore⟩ := (ih rest').1 htake
        refine ⟨d :: before, after, by rw [hes]; rfl, by rw [hrest]; rfl, he, ?_⟩
        exact List.forall_mem_cons.2 ⟨hd, hbefore⟩
      · rintro ⟨before, after, hes, rfl, he, hbefore⟩
        cases before with
        | nil =>
          cases hes
          exact absurd he hd
        | cons b before =>
          cases hes
          exact ⟨(e, before ++ after), (ih _).2 ⟨before, after, rfl, rfl, he, fun d hd => hbefore d (.tail _ hd)⟩, rfl⟩

/-- R78: the marker stands on the urgent list in the entry's stead. -/
theorem State.placeMarker_keeps (s : State) (n : Slot) : s.Keeps clears { s with intake := s.intake.placeMarker n } := by
  unfold Intake.placeMarker
  split
  · rename_i e rest htake
    obtain ⟨before, after, hsplit, rfl, rfl, _⟩ := (takeEntry_eq_some_iff _ _ _ _).1 htake
    exact { State.Keeps.refl _ with
      lists := fun ⟨h, k⟩ => ⟨h, fun d hd hds => by
        rcases List.mem_cons.1 hd with rfl | hd
        · exact absurd rfl hds
        · refine k d ?_ hds
          rw [hsplit]
          exact ((List.sublist_cons_self e after).append_left before).subset hd⟩
      slots := fun h => by
        have hperm : (e.slot :: (before ++ after).map (·.slot)).Perm (s.intake.urgent.map (·.slot)) := by
          rw [hsplit]
          simpa using List.perm_middle.symm
        exact (hperm.append_right _).nodup_iff.2 h }
  · split
    · rename_i e rest htake
      obtain ⟨before, after, hsplit, rfl, rfl, _⟩ := (takeEntry_eq_some_iff _ _ _ _).1 htake
      exact { State.Keeps.refl _ with
        lists := fun ⟨h, k⟩ => ⟨fun d hd => h d (by
          rw [hsplit]
          exact ((List.sublist_cons_self e after).append_left before).subset hd), fun d hd hds => by
          rcases List.mem_cons.1 hd with rfl | hd
          · exact absurd rfl hds
          · exact k d hd hds⟩
        slots := fun h => by
          have hperm : (e.slot :: (s.intake.urgent.map (·.slot) ++ (before ++ after).map (·.slot))).Perm
              s.intake.pendingSlots := by
            rw [Intake.pendingSlots, hsplit]
            simpa using (List.perm_middle (l₁ := s.intake.urgent.map (·.slot) ++ before.map (·.slot))).symm
          exact hperm.nodup_iff.2 h }
    · exact { State.Keeps.refl _ with }

/-! ### FINISH -/

/-- FINISH is set whenever the queue holds T or more entries (R158): `State.finishFollows` of the Notifier alone. -/
def Notifier.finishFollows (n : Notifier) : Prop := n.threshold ≤ n.harvest.length → n.flags.finish = true

theorem State.notifier_keeps (s : State) (n : Notifier) (h : s.notifier.finishFollows → n.finishFollows) :
    s.Keeps clears { s with notifier := n } :=
  { State.Keeps.refl _ with finish := h }

/-- R156: the count is tested as the entry is appended. -/
theorem Notifier.append_finishFollows (n : Notifier) (e : HarvestEntry) : (n.append e).finishFollows := by
  unfold Notifier.append Notifier.startTimer Notifier.reached
  dsimp only
  split
  · exact fun _ => rfl
  · rename_i h
    intro hreached
    refine absurd (decide_eq_true ?_) h
    split_ifs at hreached <;> exact hreached

/-- R158: FINISH falls only where fewer than T entries are left. -/
theorem Notifier.clearFinish_finishFollows (n : Notifier) (h : n.finishFollows) : n.clearFinish.finishFollows := by
  rw [Notifier.clearFinish_eq]
  split_ifs with _ hreached
  · exact h
  · exact h
  · exact fun hle => absurd hle hreached
  · exact fun hle => absurd hle hreached

theorem Notifier.expire_finishFollows (n : Notifier) (h : n.finishFollows) : n.expire.finishFollows := by
  unfold Notifier.expire
  split
  · exact h
  · split
    · exact h
    · exact fun _ => rfl

/-- R155: the re-test that follows the new T. -/
theorem Notifier.load_finishFollows (n : Notifier) (threshold holdoff : Nat) : (n.load threshold holdoff).finishFollows := by
  unfold Notifier.load Notifier.startTimer Notifier.reached
  dsimp only
  by_cases h : threshold ≤ n.harvest.length
  · simp only [h, decide_true, if_true]
    split_ifs <;> exact fun _ => rfl
  · simp only [h, decide_false]
    split_ifs <;> exact fun hle => absurd hle h

theorem Notifier.tail_finishFollows (n : Notifier) (h : n.finishFollows) :
    Notifier.finishFollows { n with harvest := n.harvest.tail } := by
  intro hle
  refine h (le_trans hle ?_)
  rw [List.length_tail]
  exact Nat.sub_le _ _

end Sys2Proof.Machine
end

section
/-! Every command goes along `State.Keeps`: the invariants of every step, and what follows for the queue and the fault
record. -/

namespace Sys2Proof.Machine

variable {clears : Bool}

/-! ### Commands and register writes -/

theorem State.command_keeps (s : State) (accepted : Bool) (effect : State → State)
    (h : ∀ t : State, t.Keeps clears (effect t)) : s.Keeps clears (s.command accepted effect) := by
  have hanswer (o : CommandOutcome) : s.Keeps clears (s.answer o) := { State.Keeps.refl _ with }
  unfold State.command
  split
  · split
    · exact (hanswer .accepted).trans (h _)
    · exact hanswer .refusedState
  · exact .refl s

theorem State.registerWritten_keeps (s : State) (effect : State → State) (h : s.Keeps clears (effect s)) :
    s.Keeps clears (s.registerWritten effect) := by
  unfold State.registerWritten
  split
  · exact .refl s
  · exact h

theorem State.beginLoad_keeps (s : State) : s.Keeps clears s.beginLoad := by
  unfold State.beginLoad
  dsimp only
  split
  · exact .trans (t := { s with
      control.state := .loading, control.config := none, control.loader := some ⟨s.control.configAddress, 0, []⟩ }) { State.Keeps.refl _ with }
      (State.arbitrate_keeps _)
  · exact .trans (t := { s with control.state := .loading, control.config := none }) { State.Keeps.refl _ with } (State.loadFailed_keeps _ _)

/-- Units that are replaced without gaining a mark. -/
theorem State.units_keep (s : State) (c d : CalcUnit) (hc : s.unit0.marksFrom c) (hd : s.unit1.marksFrom d) :
    s.Keeps clears { s with unit0 := c, unit1 := d } :=
  .trans (s.setUnit_keeps .unit0 fun _ => hc) (State.setUnit_keeps _ .unit1 fun _ => hd)

theorem State.abortAll_keeps (s : State) : s.Keeps clears s.abortAll := by
  unfold State.abortAll
  dsimp only
  refine .trans ?_ (.trans (State.endStaged_keeps _) (State.foldl_endParked_keeps _ _ _))
  refine .trans (s.units_keep { s.unit0 with abortDue := true } { s.unit1 with abortDue := true }
    (fun h => ⟨h, id⟩) fun h => ⟨h, id⟩) ?_
  exact .trans (t := { s with
    unit0 := { s.unit0 with abortDue := true }, unit1 := { s.unit1 with abortDue := true }
    intake := { s.intake with
      urgent := [], normal := [], sweepDue := false, sweepTimer := none, activity := markAborted s.endSweep } })
    (State.fewerPending_keeps _ _ (List.nil_sublist _) (List.nil_sublist _)) { State.Keeps.refl _ with }

theorem State.abortSlot_keeps (s : State) (n : Slot) : s.Keeps clears (s.abortSlot n) := by
  have answered {t : State} (o : CommandOutcome) (h : s.Keeps clears t) : s.Keeps clears (t.answer o) := h.trans { State.Keeps.refl _ with }
  have marked : s.Keeps clears { s with intake.activity := markAborted s.intake.activity } := { State.Keeps.refl _ with }
  unfold State.abortSlot
  cases s.dispatcher.parked.find? (·.job.slot = n) with
  | none =>
    dsimp only
    split_ifs
    · exact answered _ (s.placeMarker_keeps n)
    · exact answered _ (.refl s)
    · exact answered _ marked
    · exact answered _ s.endStaged_keeps
    · exact answered _ (s.abortUnit_keeps _)
    · exact answered _ (s.abortUnit_keeps _)
    · exact answered _ (.refl s)
    · exact answered _ (.refl s)
  | some p =>
    dsimp only
    split_ifs
    · exact answered _ (s.placeMarker_keeps n)
    · exact answered _ (.refl s)
    · exact answered _ marked
    · exact answered _ s.endStaged_keeps
    · exact answered _ (s.endParked_keeps _ _)

theorem State.beginReset_keeps (s : State) : s.Keeps clears s.beginReset :=
  .trans (s.units_keep s.unit0.dropped s.unit1.dropped (CalcUnit.marksFrom_of_clear _ rfl)
    (CalcUnit.marksFrom_of_clear _ rfl)) { State.Keeps.refl _ with }

theorem State.stopDevice_keeps (s : State) : s.Keeps clears s.stopDevice := by
  refine .trans (s.units_keep { s.unit0 with abortDue := false } { s.unit1 with abortDue := false }
    (fun h => ⟨h, id⟩) fun h => ⟨h, id⟩) ?_
  exact .trans (t := { s with
    unit0 := { s.unit0 with abortDue := false }, unit1 := { s.unit1 with abortDue := false }
    intake := { s.intake with urgent := [], normal := [], sweepDue := false, sweepTimer := none } })
    (State.fewerPending_keeps _ _ (List.nil_sublist _) (List.nil_sublist _)) { State.Keeps.refl _ with }

theorem State.not_mem_pendingSlots_of_not_holds (s : State) (n : Slot) (h : ¬s.holds n = true) :
    n ∉ s.intake.pendingSlots := by
  rw [State.holds_iff, State.mem_heldSlots] at h
  rw [Intake.mem_pendingSlots]
  exact (not_or.1 h).1

/-- R65: what Intake appends is an ordinary entry of a slot that is not held. -/
theorem State.posted_keeps (s : State) (n : Slot) (p : Priority) : s.Keeps clears (s.posted n p (s.decidePost n)) := by
  unfold State.decidePost
  split_ifs with _ _ _ hheld
  · exact s.report_keeps _
  · exact s.report_keeps _
  · exact .refl s
  · exact s.report_keeps _
  · exact s.appendEntry_keeps _ nofun (s.not_mem_pendingSlots_of_not_holds n hheld)

/-- A reset empties what the invariants speak of but memory. -/
theorem State.resetBlocks_keeps (s : State) (address : Word) (rst : Bool) :
    s.Keeps true (s.resetBlocks address rst) where
  pending := rfl
  memory := id
  buffer _ := Nat.zero_le 8
  finish _ := nofun
  tickets _ := List.nodup_nil
  lists _ := ⟨nofun, nofun⟩
  slots _ := List.nodup_nil
  more _ := nofun
  park _ := ⟨Nat.zero_le 2, nofun, nofun, fun u hu => by cases u <;> cases hu⟩
  record := nofun

/-! ### The ends of transactions -/

theorem State.respondOk_keeps (s : State) (isFor : Purpose → Bool) (host : HostWrites)
    (act : Transaction → State → State) (h : ∀ (tr : Transaction) (t : State), t.Keeps clears (act tr t)) :
    s.Keeps clears (s.respondOk isFor host act) := by
  rcases s.respondOk_cases isFor host act with heq | ⟨tr, _, _, ⟨_, heq⟩ | ⟨_, heq⟩⟩ <;> rw [heq]
  · exact .refl s
  · exact s.endedOk_keeps host tr
  · exact (s.endedOk_keeps host tr).trans ((h tr _).trans (State.portFreed_keeps _ _))

theorem State.loaderRead_keeps (s : State) (data : List Byte) : s.Keeps clears (s.loaderRead data) := by
  unfold State.loaderRead
  split
  · exact .refl s
  · dsimp only
    split
    · exact { State.Keeps.refl _ with }
    · split
      · exact s.loadFailed_keeps _
      · exact .trans (s.notifier_keeps _ fun _ => s.notifier.load_finishFollows _ _) { State.Keeps.refl _ with }

theorem State.sweepEntry_spec (s : State) (n : Slot) (block : Memory) {e : PendingEntry}
    (h : s.sweepEntry n block = some e) : e.slot ∉ s.intake.pendingSlots ∧ e.source ≠ .abort := by
  unfold State.sweepEntry at h
  split at h
  · rename_i hfound
    cases h
    refine ⟨s.not_mem_pendingSlots_of_not_holds n fun hheld => ?_, nofun⟩
    rw [hheld] at hfound
    simp at hfound
  · cases h

/-- R69: a sweep appends an ordinary entry of a slot that is not held. -/
theorem State.sweepRead_keeps (s : State) (data : List Byte) : s.Keeps clears (s.sweepRead data) := by
  unfold State.sweepRead
  split
  · rename_i n _
    split
    · dsimp only
      have hentry : s.Keeps clears (match s.sweepEntry n (Memory.writeBytes [] 0 data) with
          | some e => { s with intake := s.intake.append e }
          | none => s) := by
        split
        · rename_i h
          obtain ⟨hslot, hsource⟩ := s.sweepEntry_spec n _ h
          exact s.appendEntry_keeps _ hsource hslot
        · exact .refl s
      split <;> exact .trans hentry { State.Keeps.refl _ with }
    · exact { State.Keeps.refl _ with }
  all_goals exact .refl s

theorem State.judge_keeps (s : State) (item : IntakeItem) (record : Memory) (verdict : Verdict) :
    s.Keeps clears (s.judge item record verdict) := { State.Keeps.refl _ with }

theorem State.takeRead0_keeps (s : State) (data : List Byte) : s.Keeps clears (s.takeRead0 data) := by
  unfold State.takeRead0
  split
  · dsimp only
    split
    · exact s.dropStale_keeps _
    · split
      · exact .trans (s.judge_keeps _ _ _) (State.presentTaken_keeps _)
      · split
        · exact { State.Keeps.refl _ with }
        · exact .trans (s.judge_keeps _ _ _) (State.presentTaken_keeps _)
  all_goals exact .refl s

theorem State.takeRead_keeps (s : State) (data : List Byte) : s.Keeps clears (s.takeRead data) := by
  unfold State.takeRead
  split
  · split
    · dsimp only
      split
      · exact { State.Keeps.refl _ with }
      · exact .trans (s.judge_keeps _ _ _) (State.presentTaken_keeps _)
    all_goals exact .refl s
  all_goals exact .refl s

theorem State.nullTakeRead_keeps (s : State) (data : List Byte) : s.Keeps clears (s.nullTakeRead data) := by
  unfold State.nullTakeRead
  split
  · dsimp only
    split
    · exact s.dropStale_keeps _
    · refine .trans ?_ (State.presentTaken_keeps _)
      exact { State.Keeps.refl s with }
  all_goals exact .refl s

theorem State.fetchEnded_keeps (s : State) (t : Transaction) : s.Keeps clears (s.fetchEnded t) := by
  unfold State.fetchEnded
  split
  · split
    · exact .refl s
    · exact s.fetchRead_keeps _ _
  all_goals exact .refl s

/-- The head entry leaves the buffer. -/
theorem State.bufferFits_of_cons {s t : State} {e : WriterEntry} (h : s.writer.buffer = e :: t.writer.buffer) :
    s.bufferFits → t.bufferFits :=
  State.bufferFits_of_suffix (dropped := [e]) h

theorem State.stateWritten_keeps (s : State) : s.Keeps clears s.stateWritten := by
  unfold State.stateWritten
  split
  · rename_i h
    exact { State.Keeps.refl _ with buffer := State.bufferFits_of_cons h }
  all_goals exact .refl s

theorem State.destinationWritten_keeps (s : State) : s.Keeps clears s.destinationWritten := by
  unfold State.destinationWritten
  split
  · rename_i h
    exact { State.Keeps.refl _ with buffer := State.bufferFits_of_cons h }
  all_goals exact .refl s

theorem State.areaWritten_keeps (s : State) : s.Keeps clears s.areaWritten := by
  unfold State.areaWritten
  split
  · rename_i h
    exact { State.Keeps.refl _ with buffer := fun hs => by rwa [State.bufferFits, h] at hs }
  all_goals exact .refl s

/-- R144: the ticket is released; R156: the harvest entry is counted. -/
theorem State.jobDone_keeps (s : State) : s.Keeps clears s.jobDone := by
  unfold State.jobDone
  split
  · rename_i h
    refine .trans ?_ (State.presentTaken_keeps _)
    exact { State.Keeps.refl _ with
      buffer := State.bufferFits_of_cons h
      tickets := fun hs => List.Nodup.erase _ hs
      finish := fun _ => s.notifier.append_finishFollows _ }
  all_goals exact .refl s

theorem State.destinationFailed_keeps (s : State) : s.Keeps clears s.destinationFailed := by
  unfold State.destinationFailed
  split
  · rename_i rest h
    refine .trans ?_ (State.busErrorReport_keeps _ _)
    exact { State.Keeps.refl _ with
      buffer := fun hs => by
        rw [State.bufferFits, h] at hs
        exact (List.length_filter_le _ rest).trans ((Nat.le_succ _).trans hs) }
  all_goals exact .refl s

theorem State.routeFailure_keeps (s : State) (kind : FailKind) (t : Transaction) :
    s.Keeps clears (s.routeFailure kind t) := by
  unfold State.routeFailure
  cases t.purpose with
  | config block => exact s.loadFailed_keeps _
  | source u =>
    dsimp only
    split
    · exact .refl s
    · exact s.fetchFailed_keeps u
  | destination => exact s.destinationFailed_keeps
  | _ => exact s.halt_keeps _

theorem State.respondFail_keeps (s : State) (isFor : Purpose → Bool) (kind : FailKind) :
    s.Keeps clears (s.respondFail isFor kind) := by
  rcases s.respondFail_cases isFor kind with heq | ⟨tr, _, _, ⟨_, heq⟩ | ⟨_, heq⟩⟩ <;> rw [heq]
  · exact .refl s
  · exact s.endedFailed_keeps tr
  · exact (s.endedFailed_keeps tr).trans ((State.routeFailure_keeps _ kind tr).trans (State.portFreed_keeps _ _))

/-! ### The units' appends, starts and requests -/

/-- Jobs that leave the park buffer. -/
theorem State.fewerParked_keeps (s : State) {parked : List ParkedJob} (h : parked.Sublist s.dispatcher.parked) :
    s.Keeps clears { s with dispatcher.parked := parked } :=
  { State.Keeps.refl s with
    park := fun hs =>
      State.parkBounded_of_fewer hs (h.map _) (.inr rfl) (fun _ => CalcUnit.marksFrom_refl _) fun _ _ => rfl }

/-- A marked unit iterates, so one that is ENDING has no mark (R116, R117). -/
theorem State.parkBounded.unmarked_of_ending {s : State} (h : s.parkBounded) {u : UnitId} {item : CompletionItem}
    (hu : (s.unit u).activity = .ending item) : (s.unit u).parkMark = false := by
  cases hmark : (s.unit u).parkMark with
  | false => rfl
  | true =>
    obtain ⟨_, _, _, _, hiterating, _⟩ := h.runsNormal hmark
    rw [hu] at hiterating
    cases hiterating

/-- R93, R116: the completion item's append frees the unit and answers its request. -/
theorem State.unitCompletion_keeps (s : State) (u : UnitId) (item : CompletionItem)
    (hu : (s.unit u).activity = .ending item) :
    s.Keeps clears { s.setUnit u { s.unit u with activity := .idle } with
      dispatcher := (s.setUnit u { s.unit u with activity := .idle }).dispatcher.unitFreed u } := by
  refine .trans (s.setUnit_keeps u (c := { s.unit u with activity := .idle }) fun hs => ?_) ?_
  · exact CalcUnit.marksFrom_of_clear _ (hs.unmarked_of_ending hu)
  · generalize hsame : s.setUnit u { s.unit u with activity := .idle } = t
    have hidle : (t.unit u).activity = .idle := by
      rw [← hsame, State.setUnit_unit_same]
    refine { State.Keeps.refl _ with park := fun hs => ?_ }
    refine State.parkBounded_of_fewer hs (List.Sublist.refl _) ?_ (fun _ => CalcUnit.marksFrom_refl _) fun v hv => ?_
    · show (if t.dispatcher.parkRequest.any (·.1 = u) then none else t.dispatcher.parkRequest) = none ∨
        (if t.dispatcher.parkRequest.any (·.1 = u) then none else t.dispatcher.parkRequest) = t.dispatcher.parkRequest
      split
      · exact .inl rfl
      · exact .inr rfl
    · obtain ⟨_, _, _, hmarked⟩ := hs
      obtain ⟨⟨_, _, _, _, hiterating, _⟩, ticket, hrequest⟩ := hmarked v hv
      have hvu : v ≠ u := by
        rintro rfl
        rw [hidle] at hiterating
        cases hiterating
      show (if t.dispatcher.parkRequest.any (·.1 = u) then none else t.dispatcher.parkRequest) = t.dispatcher.parkRequest
      rw [hrequest]
      simp [hvu]

/-- A marked unit after a request was iterating a NORMAL job. -/
theorem CalcUnit.requestPark_marks (c : CalcUnit) (ticket : Ticket) (hclear : c.parkMark = false)
    (hmark : (c.requestPark ticket).parkMark = true) : (c.requestPark ticket).runsNormal := by
  unfold CalcUnit.requestPark at *
  split at hmark
  · rename_i job step done phase hactivity
    split_ifs at hmark ⊢ with hjob
    · exact ⟨job, step, done, phase, hactivity, hjob.2⟩
    · rw [hclear] at hmark
      cases hmark
  all_goals
    rw [hclear] at hmark
    cases hmark

/-- R92: the request is made where none stands and the park buffer has room. -/
theorem State.requestPark_keeps (s : State) (u : UnitId) (ticket : Ticket) (hnone : s.dispatcher.parkRequest = none)
    (hroom : s.dispatcher.parked.length < 2) :
    s.Keeps clears
      (State.setUnit { s with dispatcher.parkRequest := some (u, ticket) } u ((s.unit u).requestPark ticket)) := by
  have hpark (hs : s.parkBounded) : (State.setUnit { s with dispatcher.parkRequest := some (u, ticket) } u
      ((s.unit u).requestPark ticket)).parkBounded := by
    obtain ⟨hlength, hnormal, _, hmarked⟩ := hs
    have hclear (v : UnitId) : (s.unit v).parkMark = false := by
      cases hmark : (s.unit v).parkMark with
      | false => rfl
      | true =>
        obtain ⟨_, _, hrequest⟩ := hmarked v hmark
        rw [hnone] at hrequest
        cases hrequest
    refine (State.parkBounded_iff _).2 ?_
    rw [State.setUnit_dispatcher]
    refine ⟨hlength, hnormal, fun _ => Nat.le_of_lt_succ hroom, fun v hv => ?_⟩
    by_cases hvu : v = u
    · subst hvu
      rw [State.setUnit_unit_same] at hv ⊢
      exact ⟨CalcUnit.requestPark_marks _ ticket (hclear v) hv, ticket, rfl⟩
    · rw [State.setUnit_unit_other _ hvu] at hv
      exact absurd ((hclear v).symm.trans hv) nofun
  cases u <;> exact { State.Keeps.refl _ with park := hpark }

theorem State.parkTarget_cases (s : State) {u : UnitId} {ticket : Ticket} (h : s.parkTarget = some (u, ticket)) :
    s.dispatcher.parkRequest = none ∧ s.dispatcher.parked.length < 2 := by
  unfold State.parkTarget at h
  split at h
  · rename_i hconditions
    simp only [Bool.and_eq_true, Option.isNone_iff_eq_none, decide_eq_true_eq] at hconditions
    exact ⟨hconditions.1.2, hconditions.2⟩
  · cases h

/-- R112, R138: the entries of an issue have room. -/
theorem State.mayIssue_room (s : State) (u : UnitId) (r : IterResult) (h : s.mayIssue u r = true) (hs : s.bufferFits) :
    s.writer.buffer.length + r.writes.length ≤ 8 := by
  simp only [State.mayIssue, Bool.and_eq_true, Bool.or_eq_true, List.isEmpty_iff, State.admits_iff] at h
  obtain ⟨_, hempty | ⟨_, _, hroom⟩⟩ := h
  · rw [hempty]
    exact hs
  · exact hroom

/-! ### Every command -/

/-- The three commands that may empty the fault record (R178, R179, R180). -/
def Instr.clearsRecord : Instr → Bool
  | .clearFault | .lineReset | .commandResetComplete => true
  | _ => false

/-- Every command answers a next state, and keeps all of `State.Keeps`. -/
theorem exec_keeps (c : Instr) (s : State) : ∃ t, exec c s = .next t ∧ s.Keeps (Instr.clearsRecord c) t := by
  cases c with
  | start => exact ⟨_, rfl, s.command_keeps _ _ State.beginLoad_keeps⟩
  | stop => exact ⟨_, rfl, s.command_keeps _ _ fun _ => { State.Keeps.refl _ with }⟩
  | abortAll => exact ⟨_, rfl, s.command_keeps _ _ State.abortAll_keeps⟩
  | abortSlot n => exact ⟨_, rfl, s.command_keeps _ _ fun t => t.abortSlot_keeps n⟩
  | clearFault => exact ⟨_, rfl, s.command_keeps _ _ fun t =>
      { State.Keeps.refl (clears := true) t with more := fun _ => nofun, record := nofun }⟩
  | reset => exact ⟨_, rfl, s.command_keeps _ _ State.beginReset_keeps⟩
  | unnamedCommandCode => exact ⟨_, rfl, s.command_keeps _ _ State.Keeps.refl⟩
  | postArrival n p =>
    refine ⟨_, rfl, ?_⟩
    split
    · exact s.posted_keeps n p
    · exact .refl s
  | harvestRead => exact ⟨_, rfl, { State.Keeps.refl _ with finish := s.notifier.tail_finishFollows }⟩
  | clearFinish => exact ⟨_, rfl, s.registerWritten_keeps _ (s.notifier_keeps _ s.notifier.clearFinish_finishFollows)⟩
  | clearStoppedFlag | clearHaltedFlag | clearFaultFlag | interruptEnableWrite =>
    exact ⟨_, rfl, s.registerWritten_keeps _ { State.Keeps.refl _ with }⟩
  | configAddressWrite =>
    refine ⟨_, rfl, s.registerWritten_keeps _ ?_⟩
    split <;> exact { State.Keeps.refl _ with }
  | ignoredRegisterWrite | lateResponse => exact ⟨_, rfl, .refl s⟩
  | lineReset =>
    refine ⟨_, rfl, .trans ?_ (State.resetBlocks_keeps _ _ _)⟩
    split
    · exact .refl s
    · exact s.unsureWrite_keeps _
  | rstRelease => exact ⟨_, rfl, { State.Keeps.refl _ with }⟩
  | commandResetComplete =>
    refine ⟨_, rfl, ?_⟩
    split
    · exact s.resetBlocks_keeps _ _
    · exact .refl s
  | sweepTimerExpiry =>
    refine ⟨_, rfl, ?_⟩
    split <;> exact { State.Keeps.refl _ with }
  | holdoffExpiry => exact ⟨_, rfl, s.notifier_keeps _ s.notifier.expire_finishFollows⟩
  | responseTimeout | configReadBusError | intakeBusError | fetchBusError | destinationWriteFail | writerFatalBus =>
    exact ⟨_, rfl, s.respondFail_keeps _ _⟩
  | loaderReadDone => exact ⟨_, rfl, s.respondOk_keeps _ _ _ fun _ t => t.loaderRead_keeps _⟩
  | sweepReadDone => exact ⟨_, rfl, s.respondOk_keeps _ _ _ fun _ t => t.sweepRead_keeps _⟩
  | takeBlock0ReadDone => exact ⟨_, rfl, s.respondOk_keeps _ _ _ fun _ t => t.takeRead0_keeps _⟩
  | takeBlockReadDone => exact ⟨_, rfl, s.respondOk_keeps _ _ _ fun _ t => t.takeRead_keeps _⟩
  | nullTakeReadDone => exact ⟨_, rfl, s.respondOk_keeps _ _ _ fun _ t => t.nullTakeRead_keeps _⟩
  | fetchReadDone => exact ⟨_, rfl, s.respondOk_keeps _ _ _ fun tr t => t.fetchEnded_keeps tr⟩
  | stateWriteDone => exact ⟨_, rfl, s.respondOk_keeps _ _ _ fun _ t => t.stateWritten_keeps⟩
  | destinationWriteDone => exact ⟨_, rfl, s.respondOk_keeps _ _ _ fun _ t => t.destinationWritten_keeps⟩
  | resultAreaWriteDone => exact ⟨_, rfl, s.respondOk_keeps _ _ _ fun _ t => t.areaWritten_keeps⟩
  | doneWriteDone => exact ⟨_, rfl, s.respondOk_keeps _ _ _ fun _ t => t.jobDone_keeps⟩
  | sweepBegin =>
    refine ⟨_, rfl, ?_⟩
    split
    · refine .trans ?_ (State.arbitrate_keeps _)
      exact { State.Keeps.refl s with }
    · exact .refl s
  | takeBegin =>
    refine ⟨_, rfl, ?_⟩
    split
    · refine .trans (t := { s with intake := s.intake.beginTake }) ?_ (State.arbitrate_keeps _)
      unfold Intake.beginTake
      split
      · rename_i h
        exact s.fewerPending_keeps _ (h ▸ List.sublist_cons_self _ _) (List.Sublist.refl _)
      · rename_i h
        exact s.fewerPending_keeps _ (List.Sublist.refl _) (h ▸ List.sublist_cons_self _ _)
      · exact .refl s
    · exact .refl s
  | nullTakeBegin =>
    refine ⟨_, rfl, ?_⟩
    split
    · refine .trans (t := { s with intake := s.intake.beginNullTake }) ?_ (State.arbitrate_keeps _)
      unfold Intake.beginNullTake
      split
      · rename_i h
        exact s.fewerPending_keeps _ (h ▸ List.sublist_cons_self _ _) (List.Sublist.refl _)
      · exact .refl s
    · exact .refl s
  | takenEntryAppend =>
    refine ⟨_, rfl, ?_⟩
    split
    · exact .refl s
    · split
      · rename_i item _ _ h
        simp only [Bool.and_eq_true, State.admits_iff, Bool.not_eq_true', List.contains_eq_mem,
          decide_eq_false_iff_not] at h
        obtain ⟨⟨_, _, hroom⟩, hfree⟩ := h
        exact (s.assignTicket_keeps item hroom hfree).trans
          ((State.handOver_keeps _ _ _ _).trans (State.appended_keeps _ _))
      · exact .refl s
  | intakeCompletionAppend =>
    refine ⟨_, rfl, ?_⟩
    split
    · exact .refl s
    · split
      · rename_i h
        obtain ⟨_, _, hroom⟩ := (s.admits_iff _ _).1 h
        exact (s.append_keeps .intake [_] fun _ => hroom).trans
          (.trans (t := { s.append .intake [_] with intake.activity := .idle }) { State.Keeps.refl _ with } (State.appended_keeps _ _))
      · exact .refl s
  | jobStart =>
    refine ⟨_, rfl, ?_⟩
    split
    · exact .trans (t := { s with dispatcher.staged := none }) { State.Keeps.refl _ with }
        (.trans (State.occupy_keeps _ _ _ _ _ _ _ _) (State.arbitrate_keeps _))
    all_goals exact .refl s
  | jobResume =>
    refine ⟨_, rfl, ?_⟩
    split
    · rename_i p _ _ _
      exact .trans (s.fewerParked_keeps (parked := s.dispatcher.parked.erase p) List.erase_sublist)
        (.trans (State.occupy_keeps _ _ _ _ _ _ _ _) (State.arbitrate_keeps _))
    all_goals exact .refl s
  | parkRequest =>
    refine ⟨_, rfl, ?_⟩
    split
    · exact .refl s
    · rename_i u ticket h
      obtain ⟨hnone, hroom⟩ := s.parkTarget_cases h
      exact s.requestPark_keeps u ticket hnone hroom
  | dispatcherCompletionAppend =>
    refine ⟨_, rfl, ?_⟩
    split
    · exact .refl s
    · split
      · rename_i item rest _ h
        obtain ⟨_, _, hroom⟩ := (s.admits_iff _ _).1 h
        dsimp only
        refine (s.append_keeps .dispatcher [.completion item false] fun _ => hroom).trans
          (.trans (State.fewerParked_keeps _ (parked := leavePark item.ticket s.dispatcher.parked) List.filter_sublist)
            (.trans (t := { s.append .dispatcher [.completion item false] with
              dispatcher.items := rest, dispatcher.staged := leaveStaging item.ticket s.dispatcher.staged
              dispatcher.parked := leavePark item.ticket s.dispatcher.parked }) { State.Keeps.refl _ with }
            (.trans ?_ (State.appended_keeps _ _))))
        · split
          · exact .refl _
          · exact State.present_keeps _ _
      · exact .refl s
  | iterationIssue u =>
    refine ⟨_, rfl, ?_⟩
    split
    · rename_i job step done r hactivity
      split
      · rename_i st _
        split
        · rename_i h
          refine .trans (State.runsTo_keeps (s.issue_runs u job step done st r) ⟨step, done, _, hactivity⟩ fun hs => ?_)
            (State.appended_keeps _ _)
          rw [List.length_map]
          exact s.mayIssue_room u r h hs
        · exact .refl s
      · exact .refl s
    all_goals exact .refl s
  | unitCompletionAppend u =>
    refine ⟨_, rfl, ?_⟩
    split
    · rename_i item hactivity
      split
      · rename_i h
        obtain ⟨_, _, hroom⟩ := (s.admits_iff _ _).1 h
        refine (s.append_keeps (.unit u) [.completion item false] fun _ => hroom).trans
          (.trans (State.unitCompletion_keeps _ u item ?_) (State.appended_keeps _ _))
        rw [State.unit_append]
        exact hactivity
      · exact .refl s
    all_goals exact .refl s
  | unitAbortArrival u =>
    refine ⟨_, rfl, ?_⟩
    split
    · exact .trans (s.setUnit_keeps u (c := { s.unit u with abortDue := false }) fun _ h => ⟨h, id⟩)
        (State.abortUnit_keeps _ u)
    · exact .refl s
  | enterStopped =>
    refine ⟨_, rfl, ?_⟩
    split
    · exact s.stopDevice_keeps
    · exact .refl s

/-- A step keeps what its command keeps: it takes the command off the queue, which no invariant looks at. -/
theorem step_keeps {s t : State} (h : step s = .next t) :
    ∃ r : State, r = { s with pending := r.pending } ∧ r.Keeps true t := by
  unfold step at h
  split at h
  · cases h
    exact ⟨s, rfl, .refl s⟩
  · rename_i c rest _
    obtain ⟨t', hexec, hkeeps⟩ := exec_keeps c { s with pending := rest }
    rw [hexec] at h
    cases h
    exact ⟨_, rfl, { hkeeps with record := nofun }⟩

/-- Settles O56: memory changes by writes, each of which keeps the canonical form. -/
theorem stepKeepsMemoryCanonical : Obligations.StepKeepsMemoryCanonical := by
  intro s t hs hstep
  obtain ⟨r, hr, hkeeps⟩ := step_keeps hstep
  exact hkeeps.memory (hr ▸ hs)

/-- Settles O57: entries are appended where they have room. -/
theorem stepKeepsTheBufferBound : Obligations.StepKeepsTheBufferBound := by
  intro s t hs hstep
  obtain ⟨r, hr, hkeeps⟩ := step_keeps hstep
  exact hkeeps.buffer (hr ▸ hs)

/-- Settles O58: an append and a load test the count, a clear re-tests it, and a HARVEST read lowers it. -/
theorem stepKeepsFinish : Obligations.StepKeepsFinish := by
  intro s t hs hstep
  obtain ⟨r, hr, hkeeps⟩ := step_keeps hstep
  exact hkeeps.finish (hr ▸ hs)

/-- Settles O59: a ticket is issued that is none of the outstanding ones; entries are appended for slots that are not held;
MORE is set by a report to a filled record. -/
theorem stepKeepsTicketsAndLists : Obligations.StepKeepsTicketsAndLists := by
  intro s t hstep
  obtain ⟨r, hr, hkeeps⟩ := step_keeps hstep
  rw [hr] at hkeeps
  exact ⟨hkeeps.tickets, hkeeps.lists, hkeeps.slots, hkeeps.more⟩

/-- Settles O60: a park is made under a mark, which stands for a request made while the park buffer had room. -/
theorem stepKeepsTheParkBound : Obligations.StepKeepsTheParkBound := by
  intro s t hs hstep
  obtain ⟨r, hr, hkeeps⟩ := step_keeps hstep
  exact hkeeps.park (hr ▸ hs)

/-- Settles O2. -/
theorem everyCommandAnswersNext : Obligations.EveryCommandAnswersNext := by
  intro c s
  obtain ⟨t, hexec, hkeeps⟩ := exec_keeps c s
  exact ⟨t, hexec, hkeeps.pending⟩

/-- Settles O14: `State.report` by cases of the record; what else touches the record is one of the three commands of
`Instr.clearsRecord`. -/
theorem faultRecordKeepsTheFirst : Obligations.FaultRecordKeepsTheFirst := by
  refine ⟨State.report_of_empty, fun s r q hq => ?_, fun s t c q ht hclear hline hreset hq => ?_⟩
  · rw [State.report, hq]
  · have hkept : Instr.clearsRecord c = false := by
      unfold Instr.clearsRecord
      split
      · exact absurd rfl hclear
      · exact absurd rfl hline
      · exact absurd rfl hreset
      · rfl
    obtain ⟨t', hexec, hkeeps⟩ := exec_keeps c s
    rw [hexec] at ht
    cases ht
    exact hkeeps.record hkept q hq

end Sys2Proof.Machine
end

section
/-! The queue, the state after reset, the two timers and successful writes to memory (R68, R131, R157, R181). -/

namespace Sys2Proof.Machine

/-- Settles O1. -/
theorem stepRunsTheFrontCommand : Obligations.StepRunsTheFrontCommand := by
  refine ⟨fun _ _ _ => rfl, fun s h => ?_⟩
  rw [step, h]

/-- R104: a unit after a reset, its eight cells zero. -/
theorem CalcUnit.resetValue_fields :
    CalcUnit.resetValue.activity = .idle ∧ CalcUnit.resetValue.parkMark = false ∧
      (∀ i : Fin 8, CalcUnit.resetValue.cells[i] = ⟨0, 0⟩) ∧
      CalcUnit.resetValue.seen = ⟨false, false, false, false⟩ ∧ CalcUnit.resetValue.last = none :=
  ⟨rfl, rfl, fun i => Vector.getElem_replicate i.isLt, rfl, rfl⟩

theorem State.reset_unit (u : UnitId) : State.reset.unit u = .resetValue := by
  cases u <;> rfl

/-- The invariants hold after a reset, where memory, lists, buffers and queue are empty. -/
theorem State.reset_invariants :
    State.reset.memoryCanonical ∧ State.reset.bufferFits ∧ State.reset.finishFollows ∧ State.reset.ticketsDistinct ∧
      State.reset.listsOrdered ∧ State.reset.pendingDistinct ∧ State.reset.moreNeedsRecord ∧ State.reset.parkBounded := by
  refine ⟨Memory.wf_nil, Nat.zero_le 8, nofun, List.nodup_nil, ⟨nofun, nofun⟩, List.nodup_nil, nofun,
    Nat.zero_le 2, nofun, nofun, fun u hu => ?_⟩
  rw [State.reset_unit] at hu
  cases hu

/-- Settles O3. -/
theorem resetStateAndInvariants : Obligations.ResetStateAndInvariants := by
  refine ⟨⟨rfl, rfl, rfl, rfl, rfl, rfl, rfl, rfl, rfl, rfl, rfl, rfl, rfl, rfl, fun u => ?_, rfl, rfl, rfl, rfl, rfl⟩,
    State.reset_invariants⟩
  rw [State.reset_unit]
  exact CalcUnit.resetValue_fields

/-- R157: the expiry sets FINISH where the queue holds an entry. -/
theorem Notifier.expire_running (n : Notifier) {k : Nat} (h : n.holdoffTimer = some k) :
    n.expire = { n with holdoffTimer := none, flags.finish := n.flags.finish || !n.harvest.isEmpty } := by
  rw [Notifier.expire, h]
  cases n.harvest.isEmpty with
  | true => simp
  | false => simp

/-- Settles O22: the sweep timer by the case of its condition, the holdoff timer by `Notifier.expire_running`. -/
theorem timerExpiries : Obligations.TimerExpiries := by
  refine fun s => ⟨fun n hstate htimer => congrArg Host.Outcome.next (if_pos ⟨hstate, by rw [htimer]; rfl⟩),
    fun n htimer => ?_, fun h => congrArg Host.Outcome.next (if_neg ?_), fun htimer => ?_⟩
  · show Host.Outcome.next { s with notifier := s.notifier.expire } = _
    rw [s.notifier.expire_running htimer]
  · rintro ⟨hstate, htimer⟩
    rcases h with hnone | hother
    · rw [hnone] at htimer
      cases htimer
    · exact hother hstate
  · show Host.Outcome.next { s with notifier := s.notifier.expire } = _
    rw [Notifier.expire, htimer]

/-- Settles O44. -/
theorem writesReachMemory : Obligations.WritesReachMemory := fun m a bytes hm =>
  ⟨Memory.readBytes_writeBytes hm a bytes, fun _ hb => Memory.read_writeBytes_other m a bytes hb,
    Memory.wf_writeBytes hm a bytes⟩

end Sys2Proof.Machine
end

section
/-! The blocks that a job record needs (R52). -/

namespace Sys2Proof.Machine

/-- Operand entries begin at byte 16, four to a block: block b holds one of k entries where entry 4b − 1 is one. -/
theorem exists_operand_in_block (k b : Nat) : (∃ j, j < k ∧ (16 + 16 * j) / 64 = b) ↔ 4 * b - 1 < k := by
  constructor
  · rintro ⟨j, hj, hblock⟩
    omega
  · exact fun h => ⟨4 * b - 1, h, by omega⟩

/-- Step entries begin at byte 208, the second quarter of block 3. -/
theorem exists_step_in_block (m b : Nat) : (∃ i, i < m ∧ (208 + 16 * i) / 64 = b) ↔ 3 ≤ b ∧ 4 * b - 13 < m := by
  constructor
  · rintro ⟨i, hi, hblock⟩
    omega
  · exact fun ⟨h3, h⟩ => ⟨4 * b - 13, h, by omega⟩

theorem mem_neededBlocks (k m b : Nat) :
    b ∈ neededBlocks k m ↔ (4 ≤ k ∧ b = 1) ∨ (8 ≤ k ∧ b = 2) ∨ b = 3 ∨ (4 ≤ m ∧ b = 4) ∨ (8 ≤ m ∧ b = 5) ∨
      (12 ≤ m ∧ b = 6) ∨ (m = 16 ∧ b = 7) := by
  simp only [neededBlocks, List.mem_append, List.mem_ite_nil_right, List.mem_singleton, or_assoc]

/-- The list is a sublist of the seven blocks, in whose order it stands. -/
theorem neededBlocks_sublist (k m : Nat) : (neededBlocks k m).Sublist [1, 2, 3, 4, 5, 6, 7] := by
  have optional (p : Prop) [Decidable p] (b : Nat) : (if p then [b] else []).Sublist [b] := by
    split_ifs
    · exact List.Sublist.refl _
    · exact List.nil_sublist _
  exact ((((((optional _ 1).append (optional _ 2)).append (List.Sublist.refl [3])).append (optional _ 4)).append
    (optional _ 5)).append (optional _ 6)).append (optional _ 7)

/-- Settles O28: order and length come from `neededBlocks_sublist`, the blocks from where the entries lie. -/
theorem neededBlocksOfARecord : Obligations.NeededBlocksOfARecord := by
  intro k m hk hm1 hm16
  have h3 : 3 ∈ neededBlocks k m := (mem_neededBlocks k m 3).2 (by omega)
  refine ⟨List.Pairwise.sublist (neededBlocks_sublist k m) (by decide), List.length_pos_of_mem h3,
    (neededBlocks_sublist k m).length_le, fun b => ?_⟩
  rw [mem_neededBlocks, exists_operand_in_block, exists_step_in_block]
  omega

end Sys2Proof.Machine
end

section
/-! Exact results, comparisons, rounding and the checks of a destination (R21 to R27, R29, R33, R34). -/

namespace Sys2Proof.Machine

/-! ### Values and their signs -/

theorem Decimal.coefAt_div (v : Decimal) (scale : Nat) (h : v.scale ≤ scale) :
    (v.coefAt scale : ℚ) / 10 ^ scale = v.value := by
  have hpow : (10 : ℚ) ^ scale = 10 ^ (scale - v.scale) * 10 ^ v.scale := by
    rw [← pow_add, Nat.sub_add_cancel h]
  rw [Decimal.coefAt, Decimal.value, hpow]
  push_cast
  field_simp

theorem Decimal.add_value (x y : Decimal) : (x.add y).value = x.value + y.value := by
  rw [← x.coefAt_div _ (le_max_left x.scale y.scale), ← y.coefAt_div _ (le_max_right x.scale y.scale), ← add_div]
  simp [Decimal.value, Decimal.add]

theorem Decimal.neg_value (x : Decimal) : x.neg.value = -x.value := by
  simp [Decimal.value, Decimal.neg, neg_div]

theorem Decimal.abs_value (x : Decimal) : x.abs.value = |x.value| := by
  simp [Decimal.value, Decimal.abs, abs_div, Nat.cast_natAbs]

theorem Decimal.sub_value (x y : Decimal) : (x.sub y).value = x.value - y.value := by
  rw [Decimal.sub, Decimal.add_value, Decimal.neg_value, sub_eq_add_neg]

theorem Decimal.mul_value (x y : Decimal) : (x.mul y).value = x.value * y.value := by
  simp [Decimal.value, Decimal.mul, pow_add, mul_div_mul_comm]

theorem Decimal.value_neg_iff (v : Decimal) : v.value < 0 ↔ v.coef < 0 := by
  rw [Decimal.value, div_lt_iff₀ (by positivity), zero_mul, Int.cast_lt_zero]

theorem Decimal.value_pos_iff (v : Decimal) : 0 < v.value ↔ 0 < v.coef := by
  rw [Decimal.value, lt_div_iff₀ (by positivity), zero_mul, Int.cast_pos]

theorem Decimal.value_eq_zero_iff (v : Decimal) : v.value = 0 ↔ v.coef = 0 := by
  rw [Decimal.value, div_eq_zero_iff, Int.cast_eq_zero, or_iff_left (by positivity)]

/-- R35: a value and its coefficient have the same sign. -/
theorem classOf_value (v : Decimal) : classOf v.value = signClass v.coef := by
  simp only [classOf, signClass, Decimal.value_neg_iff, Decimal.value_eq_zero_iff]

theorem classOf_intCast (k : Int) : classOf (k : ℚ) = signClass k := by
  simp only [classOf, signClass, Int.cast_lt_zero, Int.cast_eq_zero]

theorem checkClass_eq (x low high : Decimal) :
    checkClass x low high =
      if x.value < low.value then .negative else if high.value < x.value then .positive else .zero := by
  simp only [checkClass, ← Decimal.value_neg_iff, ← Decimal.value_pos_iff, Decimal.sub_value, sub_neg, sub_pos]

/-- Settles O48: the operations by value, and the two comparisons by the sign of a difference. -/
theorem exactResultsAndComparisons : Obligations.ExactResultsAndComparisons := by
  refine ⟨fun x y => ⟨x.add_value y, rfl, x.sub_value y, rfl, x.mul_value y, rfl, x.neg_value, x.abs_value, rfl⟩,
    fun st x y z vx vy vz value hx hy hz => ⟨fun hwork => ?_, fun hwork => ?_⟩⟩
  · rw [computeStep, hwork, ← Decimal.sub_value, classOf_value]
    simp only [hx, hy]
    rfl
  · rw [computeStep, hwork, ← checkClass_eq]
    simp only [hx, hy, hz]
    rfl

/-! ### Rounding to a whole number -/

/-- A whole number is rounded to itself in every mode. -/
theorem Rounding.isWholeNear_intCast (mode : Rounding) (k : Int) : mode.isWholeNear (k : ℚ) k := by
  have hup : ⌊(k : ℚ) + 1 / 2⌋ = k := Int.floor_eq_iff.2 ⟨by linarith, by linarith⟩
  have hdown : ⌈(k : ℚ) - 1 / 2⌉ = k := Int.ceil_eq_iff.2 ⟨by linarith, by linarith⟩
  cases mode with
  | halfUp => simp only [Rounding.isWholeNear, hup, hdown, ite_self]
  | _ => simp [Rounding.isWholeNear]

/-- The magnitude of a rounded ratio: retained units, and one more where the mode chooses it (R24). -/
def Rounding.chosen (mode : Rounding) (negative : Bool) (retained rest unit : Nat) : Nat :=
  if mode.choosesNext negative retained rest unit then retained + 1 else retained

/-- R24 for a number above 0 that lies between two whole numbers. -/
theorem Rounding.isWholeNear_pos (mode : Rounding) (retained rest unit : Nat) (h0 : 0 < rest) (h1 : rest < unit) :
    mode.isWholeNear (retained + rest / unit : ℚ) (mode.chosen false retained rest unit : Nat) := by
  have hunit : (0 : ℚ) < unit := by exact_mod_cast h0.trans h1
  have hpos : (0 : ℚ) < rest / unit := div_pos (by exact_mod_cast h0) hunit
  have hlt : (rest / unit : ℚ) < 1 := (div_lt_one hunit).2 (by exact_mod_cast h1)
  have hhalf : unit ≤ 2 * rest ↔ (1 : ℚ) / 2 ≤ rest / unit := by
    rw [div_le_div_iff₀ two_pos hunit]
    norm_cast
    omega
  have hmore : unit < 2 * rest ↔ (1 : ℚ) / 2 < rest / unit := by
    rw [div_lt_div_iff₀ two_pos hunit]
    norm_cast
    omega
  have htie : 2 * rest = unit ↔ (rest / unit : ℚ) = 1 / 2 := by
    rw [div_eq_div_iff hunit.ne' two_ne_zero]
    norm_cast
    omega
  have hretained : (0 : ℚ) ≤ retained := by positivity
  generalize (rest / unit : ℚ) = f at *
  have hnonneg : (0 : ℚ) ≤ retained + f := by linarith
  cases mode with
  | truncate =>
    simp only [Rounding.isWholeNear, Rounding.chosen, Rounding.choosesNext, if_pos hnonneg]
    exact (Int.floor_eq_iff.2 ⟨by push_cast; linarith, by push_cast; linarith⟩).symm
  | halfUp =>
    simp only [Rounding.isWholeNear, Rounding.chosen, Rounding.choosesNext, if_pos hnonneg, decide_eq_true_eq, hhalf]
    split_ifs with h
    · exact (Int.floor_eq_iff.2 ⟨by push_cast; linarith, by push_cast; linarith⟩).symm
    · exact (Int.floor_eq_iff.2 ⟨by push_cast; linarith, by push_cast; linarith⟩).symm
  | halfEven =>
    simp only [Rounding.isWholeNear, Rounding.chosen, Rounding.choosesNext, Bool.or_eq_true, Bool.and_eq_true,
      decide_eq_true_eq, hmore, htie]
    split_ifs with h
    · rw [abs_of_nonpos (by push_cast; linarith)]
      push_cast
      rcases h with h | ⟨h, hodd⟩
      · exact ⟨by linarith, fun heq => by linarith⟩
      · exact ⟨by linarith, fun _ => by exact_mod_cast (Nat.odd_iff.2 hodd).add_one⟩
    · obtain ⟨hle, htied⟩ := not_or.1 h
      rw [abs_of_nonneg (by push_cast; linarith)]
      push_cast
      refine ⟨by linarith, fun heq => ?_⟩
      have hnotOdd : ¬retained % 2 = 1 := fun hodd => htied ⟨by linarith, hodd⟩
      exact_mod_cast Nat.not_odd_iff_even.1 fun hodd => hnotOdd (Nat.odd_iff.1 hodd)
  | ceiling =>
    simp only [Rounding.isWholeNear, Rounding.chosen, Rounding.choosesNext, Bool.not_false, if_true]
    exact (Int.ceil_eq_iff.2 ⟨by push_cast; linarith, by push_cast; linarith⟩).symm
  | floor =>
    simp only [Rounding.isWholeNear, Rounding.chosen, Rounding.choosesNext, Bool.false_eq_true, if_false]
    exact (Int.floor_eq_iff.2 ⟨by push_cast; linarith, by push_cast; linarith⟩).symm

/-- The mode whose direction is the opposite one: CEILING and FLOOR change places. -/
def Rounding.mirror : Rounding → Rounding
  | .ceiling => .floor
  | .floor => .ceiling
  | mode => mode

theorem Rounding.choosesNext_negative (mode : Rounding) (retained rest unit : Nat) :
    mode.choosesNext true retained rest unit = mode.mirror.choosesNext false retained rest unit := by
  cases mode <;> rfl

/-- R24's table is symmetric about 0. -/
theorem Rounding.isWholeNear_neg (mode : Rounding) {x : ℚ} {k : Int} (hx : 0 < x)
    (h : mode.mirror.isWholeNear x k) : mode.isWholeNear (-x) (-k) := by
  have hneg : ¬0 ≤ -x := by linarith
  cases mode with
  | truncate =>
    simp only [Rounding.mirror, Rounding.isWholeNear, if_pos hx.le] at h
    simp only [Rounding.isWholeNear, if_neg hneg, Int.ceil_neg, h]
  | halfUp =>
    simp only [Rounding.mirror, Rounding.isWholeNear, if_pos hx.le] at h
    simp only [Rounding.isWholeNear, if_neg hneg, ← neg_add', Int.ceil_neg, h]
  | halfEven =>
    obtain ⟨hle, htie⟩ := h
    have habs : |-x - ((-k : Int) : ℚ)| = |x - k| := by
      rw [← abs_neg]
      push_cast
      ring_nf
    simp only [Rounding.isWholeNear, habs]
    exact ⟨hle, fun heq => (htie heq).neg⟩
  | ceiling =>
    simp only [Rounding.mirror, Rounding.isWholeNear] at h
    simp only [Rounding.isWholeNear, Int.ceil_neg, h]
  | floor =>
    simp only [Rounding.mirror, Rounding.isWholeNear] at h
    simp only [Rounding.isWholeNear, Int.floor_neg, h]

theorem roundRatio_of_rest_zero (mode : Rounding) (number : Int) (unit : Nat) (h : number.natAbs % unit = 0) :
    roundRatio mode number unit = ⟨signed (decide (number < 0)) (number.natAbs / unit), false⟩ := by
  simp only [roundRatio, if_pos h]

theorem roundRatio_of_rest_pos (mode : Rounding) (number : Int) (unit : Nat) (h : number.natAbs % unit ≠ 0) :
    roundRatio mode number unit =
      ⟨signed (decide (number < 0)) (mode.chosen (decide (number < 0)) (number.natAbs / unit) (number.natAbs % unit) unit),
        true⟩ := by
  simp only [roundRatio, if_neg h]
  rfl

theorem signed_natAbs (number : Int) : signed (decide (number < 0)) number.natAbs = number := by
  by_cases h : number < 0
  · simp only [signed, h, decide_true, if_true]
    omega
  · simp only [signed, h, decide_false, Bool.false_eq_true, if_false]
    omega

/-- A ratio by its sign, its whole part and its rest. -/
theorem ratio_eq (number : Int) (unit : Nat) (h : 0 < unit) :
    (number : ℚ) / unit = if number < 0 then -((number.natAbs / unit : Nat) + (number.natAbs % unit : Nat) / unit : ℚ)
      else (number.natAbs / unit : Nat) + (number.natAbs % unit : Nat) / unit := by
  have hunit : (unit : ℚ) ≠ 0 := by positivity
  have hmagnitude : ((number.natAbs / unit : Nat) + (number.natAbs % unit : Nat) / unit : ℚ) = number.natAbs / unit := by
    rw [eq_div_iff hunit, add_mul, div_mul_cancel₀ _ hunit]
    exact_mod_cast Nat.div_add_mod' number.natAbs unit
  rw [hmagnitude]
  split_ifs with hneg
  · rw [← neg_div, Nat.cast_natAbs, abs_of_neg hneg]
    push_cast
    rw [neg_neg]
  · rw [Nat.cast_natAbs, abs_of_nonneg (not_lt.1 hneg)]

/-- No whole number lies between two that follow one another. -/
theorem ne_intCast_of_between (n : Nat) {f : ℚ} (h0 : 0 < f) (h1 : f < 1) (k : Int) : (n + f : ℚ) ≠ k := by
  intro h
  have hlow : ((n : Int) : ℚ) < k := by push_cast; linarith
  have hhigh : (k : ℚ) < ((n + 1 : Int) : ℚ) := by push_cast; linarith
  have hlow' := Int.cast_lt.1 hlow
  have hhigh' := Int.cast_lt.1 hhigh
  omega

/-- R23 to R25: the rounded ratio, and INEXACT. -/
theorem roundRatio_spec (mode : Rounding) (number : Int) (unit : Nat) (h : 0 < unit) :
    mode.isWholeNear ((number : ℚ) / unit) (roundRatio mode number unit).coef ∧
      ((roundRatio mode number unit).inexact = true ↔ (number : ℚ) / unit ≠ (roundRatio mode number unit).coef) := by
  by_cases hrest : number.natAbs % unit = 0
  · have hwhole : (number : ℚ) / unit = (roundRatio mode number unit).coef := by
      rw [ratio_eq number unit h, roundRatio_of_rest_zero mode number unit hrest, hrest]
      generalize number.natAbs / unit = n
      by_cases hneg : number < 0 <;> simp [signed, hneg]
    rw [hwhole]
    refine ⟨mode.isWholeNear_intCast _, ?_⟩
    simp [roundRatio_of_rest_zero mode number unit hrest]
  · have hpos : 0 < number.natAbs % unit := Nat.pos_of_ne_zero hrest
    have hlt : number.natAbs % unit < unit := Nat.mod_lt _ h
    have hfpos : (0 : ℚ) < (number.natAbs % unit : Nat) / unit := by positivity
    have hflt : ((number.natAbs % unit : Nat) / unit : ℚ) < 1 :=
      (div_lt_one (by exact_mod_cast h)).2 (by exact_mod_cast hlt)
    have hbetween (k : Int) := ne_intCast_of_between (number.natAbs / unit) hfpos hflt k
    rw [ratio_eq number unit h, roundRatio_of_rest_pos mode number unit hrest]
    by_cases hneg : number < 0
    · simp only [hneg, decide_true, if_true, signed, true_iff]
      refine ⟨mode.isWholeNear_neg (by positivity) ?_, fun heq => hbetween _ (neg_injective (heq.trans (Int.cast_neg _)))⟩
      rw [Rounding.chosen, Rounding.choosesNext_negative]
      exact mode.mirror.isWholeNear_pos _ _ _ hpos hlt
    · simp only [hneg, decide_false, if_false, signed, Bool.false_eq_true, true_iff]
      exact ⟨mode.isWholeNear_pos _ _ _ hpos hlt, hbetween _⟩

/-- R23: a value at a scale not below its own is not rounded. -/
theorem roundTo_spec (mode : Rounding) (v : Decimal) (s : Nat) :
    mode.isWholeNear (v.value * 10 ^ s) (roundTo mode v s).coef ∧
      ((roundTo mode v s).inexact = true ↔ v.value * 10 ^ s ≠ (roundTo mode v s).coef) := by
  unfold roundTo
  split_ifs with h
  · have hvalue : v.value * 10 ^ s = v.coefAt s := by
      rw [← v.coefAt_div s h, div_mul_cancel₀ _ (by positivity)]
    rw [hvalue]
    exact ⟨mode.isWholeNear_intCast _, by simp⟩
  · have hpow : (10 : ℚ) ^ v.scale = 10 ^ (v.scale - s) * 10 ^ s := by
      rw [← pow_add, Nat.sub_add_cancel (by omega)]
    have hvalue : v.value * 10 ^ s = (v.coef : ℚ) / (10 ^ (v.scale - s) : Nat) := by
      rw [Decimal.value, hpow]
      push_cast
      field_simp
    rw [hvalue]
    exact roundRatio_spec mode v.coef _ (by positivity)

/-- R29: the quotient as the ratio of two whole numbers. -/
theorem quotient_eq (x y : Decimal) (s : Nat) (hy : y.coef ≠ 0) :
    x.value / y.value * 10 ^ s =
      ((if y.coef < 0 then -(x.coef * 10 ^ (s + y.scale)) else x.coef * 10 ^ (s + y.scale) : Int) : ℚ) /
        (y.coef.natAbs * 10 ^ x.scale : Nat) := by
  have hcoef : (y.coef : ℚ) ≠ 0 := by exact_mod_cast hy
  rw [Decimal.value, Decimal.value, pow_add]
  split_ifs with hneg
  · have habs : (y.coef.natAbs : ℚ) = -y.coef := by
      rw [Nat.cast_natAbs, abs_of_neg hneg]
      push_cast
      rfl
    push_cast
    rw [habs]
    field_simp
  · have habs : (y.coef.natAbs : ℚ) = y.coef := by
      rw [Nat.cast_natAbs, abs_of_nonneg (not_lt.1 hneg)]
    push_cast
    rw [habs]
    field_simp

/-- Settles O49: values by `roundTo_spec`, quotients as the ratio of `quotient_eq`. -/
theorem roundingFollowsTheNumberLine : Obligations.RoundingFollowsTheNumberLine := by
  refine ⟨roundTo_spec, fun mode x y s hy => ?_⟩
  rw [quotient_eq x y s hy]
  exact roundRatio_spec mode _ _ (by positivity)

/-! ### The checks of a destination -/

/-- R26: at most n − s digits before the point are at most n digits in all. -/
theorem fits_iff (n s : Nat) (c : Int) (h : s ≤ n) : fits n s c = true ↔ c.natAbs < 10 ^ n := by
  rw [fits, decide_eq_true_eq, Nat.div_lt_iff_lt_mul (by positivity), ← pow_add, Nat.sub_add_cancel h]

theorem inBinary64_iff (c : Int) :
    inBinary64 c = false ↔ c < -9223372036854775808 ∨ 9223372036854775807 < c := by
  rw [inBinary64, Bool.and_eq_false_iff, decide_eq_false_iff_not, decide_eq_false_iff_not, not_le, not_le]

/-- R27: the fit check first, then the check of the format. -/
theorem Place.check_memory (f : MemField) (c : Int) :
    (Place.memory f).check c =
      if ¬fits f.digits f.scale c then some .overflow
      else if f.format = .unsignedPacked ∧ c < 0 then some .unsignedNegative
      else if f.format = .binary64 ∧ (c < -9223372036854775808 ∨ 9223372036854775807 < c) then some .overflow
      else none := by
  simp only [← inBinary64_iff]
  cases hfits : fits f.digits f.scale c with
  | false => simp [Place.check, hfits]
  | true =>
    cases hformat : f.format with
    | binary64 => cases hrange : inBinary64 c <;> simp [Place.check, hfits, hformat, hrange]
    | _ => simp [Place.check, hfits, hformat]

/-- Settles O50. -/
theorem destinationChecks : Obligations.DestinationChecks :=
  ⟨fits_iff, fun _ _ _ _ => rfl, Place.check_memory⟩

end Sys2Proof.Machine
end

section
/-! What the computation of an iteration delivers, and which source decides its fault (R8, R19, R27 to R32, R38). -/

namespace Sys2Proof.Machine

/-! ### Deliveries -/

theorem deliver_of_fault (dest : Dest) (r : Rounded) {k : FaultKind} (h : dest.place.check r.coef = some k) :
    deliver dest r = .error ⟨k, dest.index⟩ := by
  rw [deliver, h]

theorem deliver_of_pass (dest : Dest) (r : Rounded) (h : dest.place.check r.coef = none) :
    deliver dest r = .ok ⟨dest, r.coef⟩ := by
  rw [deliver, h]

/-- R21, R22: the operation on the values of its sources, for the four operations with an exact result. -/
theorem computeStep_exact (st : Step) (x y : Source) (w : Dest) (vx vy exact : Decimal)
    (value : Source → Except IterFault Decimal) (hx : value x = .ok vx) (hy : value y = .ok vy)
    (h : (st.work = .move x w ∧ exact = vx) ∨ (st.work = .add x y w ∧ exact = vx.add vy) ∨
      (st.work = .subtract x y w ∧ exact = vx.sub vy) ∨ (st.work = .multiply x y w ∧ exact = vx.mul vy)) :
    computeStep st value = deliverExact st exact w := by
  rcases h with ⟨hwork, rfl⟩ | ⟨hwork, rfl⟩ | ⟨hwork, rfl⟩ | ⟨hwork, rfl⟩
  · rw [computeStep, hwork]
    simp only [hx]
    rfl
  all_goals
    rw [computeStep, hwork]
    simp only [hx, hy]
    rfl

/-- Settles O52: the exact result is delivered where W's checks pass. -/
theorem arithmeticDelivers : Obligations.ArithmeticDelivers := by
  intro st x y w vx vy exact value hx hy hwork r
  rw [computeStep_exact st x y w vx vy exact value hx hy hwork, deliverExact, classOf_intCast]
  refine ⟨fun k hfault => ?_, fun hpass => ?_⟩
  · rw [deliver_of_fault w r hfault]
    rfl
  · rw [deliver_of_pass w r hpass]
    rfl

/-- R28, R32: a divisor that is not zero leads to the quotient of the adjusted operands. -/
theorem computeStep_divide (st : Step) (x y : Source) (z : Option Dest) (w : Dest) (vx vy : Decimal)
    (value : Source → Except IterFault Decimal) (hwork : st.work = .divide x y z w) (hx : value x = .ok vx)
    (hy : value y = .ok vy) :
    computeStep st value =
      if vy.coef = 0 then .error ⟨.divideByZero, y.index⟩ else divideValues st vx vy z w := by
  rw [computeStep, hwork]
  simp only [hx, hy]
  rfl

/-- R32: NEGATE acts on the dividend, ABSOLUTE on both operands. -/
theorem adjustOperands_eq (flag : ResultFlag) (x y : Decimal) :
    adjustOperands flag x y =
      (if flag = .negate then x.neg else if flag = .absolute then x.abs else x, if flag = .absolute then y.abs else y) := by
  cases flag <;> rfl

/-- R30, R31: what the rounded quotient leaves of the dividend. -/
theorem remainder_value (x y : Decimal) (q : Int) (scale : Nat) :
    (x.sub (y.mul ⟨q, scale⟩)).value = x.value - y.value * (q / 10 ^ scale) ∧
      (x.sub (y.mul ⟨q, scale⟩)).scale = max x.scale (y.scale + scale) :=
  ⟨by rw [Decimal.sub_value, Decimal.mul_value]; rfl, rfl⟩

/-- Settles O51: W is checked before Z, and Z stands first among the deliveries. -/
theorem divideDelivers : Obligations.DivideDelivers := by
  intro st x y z w vx vy value hwork hx hy
  rw [computeStep_divide st x y z w vx vy value hwork hx hy]
  refine ⟨fun hzero => if_pos hzero, fun hnonzero => ?_⟩
  intro ax ay q
  rw [if_neg hnonzero, divideValues, adjustOperands_eq]
  refine ⟨fun k hfault => ?_, fun hpass hz => ?_, fun zd hpass hz => ?_⟩
  · show (deliver w q >>= _) = _
    rw [deliver_of_fault w q hfault]
    rfl
  · show (deliver w q >>= _) = _
    rw [deliver_of_pass w q hpass, hz, classOf_intCast]
    rfl
  · obtain ⟨hvalue, hscale⟩ := remainder_value ax ay q.coef w.place.scale
    refine ⟨_, hvalue, hscale, ?_⟩
    intro r
    rw [hz]
    refine ⟨fun k hfault => ?_, fun hpassZ => ?_⟩
    · show (deliver w q >>= fun dw => deliver zd r >>= _) = _
      rw [deliver_of_pass w q hpass, deliver_of_fault zd r hfault]
      rfl
    · show (deliver w q >>= fun dw => deliver zd r >>= _) = _
      rw [deliver_of_pass w q hpass, deliver_of_pass zd r hpassZ, classOf_intCast]
      rfl

/-! ### The first source that fails -/

section
variable {value : Source → Except IterFault Decimal} {before after : List Source} {src : Source} {f : IterFault}

theorem readOne_first_failure {x : Source} {k : Decimal → Except IterFault Computed} (h : [x] = before ++ src :: after)
    (hsrc : value src = .error f) : (value x >>= k) = .error f := by
  obtain ⟨rfl, hrest⟩ : before = [] ∧ [x] = src :: after := by
    cases before with
    | nil => exact ⟨rfl, h⟩
    | cons b before => simp at h
  cases hrest
  rw [hsrc]
  rfl

theorem readTwo_first_failure {x y : Source} {k : Decimal → Decimal → Except IterFault Computed}
    (h : [x, y] = before ++ src :: after) (hbefore : ∀ b ∈ before, ∃ v, value b = .ok v) (hsrc : value src = .error f) :
    (value x >>= fun vx => value y >>= k vx) = .error f := by
  cases before with
  | nil =>
    cases h
    rw [hsrc]
    rfl
  | cons b before =>
    obtain ⟨rfl, hrest⟩ := List.cons.inj h
    obtain ⟨v, hv⟩ := hbefore x List.mem_cons_self
    rw [hv]
    exact readOne_first_failure hrest hsrc

theorem readThree_first_failure {x y z : Source} {k : Decimal → Decimal → Decimal → Except IterFault Computed}
    (h : [x, y, z] = before ++ src :: after) (hbefore : ∀ b ∈ before, ∃ v, value b = .ok v)
    (hsrc : value src = .error f) :
    (value x >>= fun vx => value y >>= fun vy => value z >>= k vx vy) = .error f := by
  cases before with
  | nil =>
    cases h
    rw [hsrc]
    rfl
  | cons b before =>
    obtain ⟨rfl, hrest⟩ := List.cons.inj h
    obtain ⟨v, hv⟩ := hbefore x List.mem_cons_self
    rw [hv]
    exact readTwo_first_failure hrest (fun b hb => hbefore b (.tail _ hb)) hsrc

end

/-- R38: sources are read in reference order, and the first that fails decides the fault. -/
theorem computeStep_first_failure (st : Step) (value : Source → Except IterFault Decimal) (before after : List Source)
    (src : Source) (f : IterFault) (hsources : st.work.sources = before ++ src :: after)
    (hbefore : ∀ b ∈ before, ∃ v, value b = .ok v) (hsrc : value src = .error f) : computeStep st value = .error f := by
  unfold computeStep
  cases hwork : st.work with
  | move x w =>
    rw [hwork] at hsources
    exact readOne_first_failure hsources hsrc
  | check x y z =>
    rw [hwork] at hsources
    exact readThree_first_failure hsources hbefore hsrc
  | _ =>
    rw [hwork] at hsources
    exact readTwo_first_failure hsources hbefore hsrc

end Sys2Proof.Machine
end

section
/-! The ends of transactions: which of them are taken, and what one that is taken becomes (R131, R132, R136, R180). -/

namespace Sys2Proof.Machine

/-! ### Whether the device acts -/

theorem State.acts_of_released (s : State) (hr : s.control.rst = false) (hw : s.control.resetWait = false) :
    s.acts = true := by
  rw [State.acts, State.takesCommands, hr, hw]
  rfl

theorem State.acts_of_held (s : State) (h : s.control.rst = true ∨ s.control.resetWait = true) : s.acts = false := by
  rw [State.acts, State.takesCommands]
  rcases h with h | h
  · simp [h]
  · simp [h]

/-! ### Responses -/

theorem State.respondOk_none (s : State) (isFor : Purpose → Bool) (host : HostWrites) (act : Transaction → State → State)
    (h : s.port.outstanding = none) : s.respondOk isFor host act = s := by
  rw [State.respondOk, h]

theorem State.respondFail_none (s : State) (isFor : Purpose → Bool) (kind : FailKind)
    (h : s.port.outstanding = none) : s.respondFail isFor kind = s := by
  rw [State.respondFail, h]

theorem State.respondOk_acted (s : State) {isFor : Purpose → Bool} (host : HostWrites)
    (act : Transaction → State → State) {tr : Transaction} (hwait : s.control.resetWait = false)
    (hport : s.port.outstanding = some tr) (hfor : isFor tr.purpose = true) :
    s.respondOk isFor host act = s.portFreed (act tr (s.endedOk host tr)) := by
  rw [State.respondOk, hport]
  dsimp only
  rw [if_pos hfor, hwait, if_neg Bool.false_ne_true]

theorem State.respondOk_waiting (s : State) {isFor : Purpose → Bool} (host : HostWrites)
    (act : Transaction → State → State) {tr : Transaction} (hwait : s.control.resetWait = true)
    (hport : s.port.outstanding = some tr) (hfor : isFor tr.purpose = true) :
    s.respondOk isFor host act = s.endedOk host tr := by
  rw [State.respondOk, hport]
  dsimp only
  rw [if_pos hfor, if_pos hwait]

theorem State.respondFail_routed (s : State) {isFor : Purpose → Bool} (kind : FailKind) {tr : Transaction}
    (hwait : s.control.resetWait = false) (hport : s.port.outstanding = some tr) (hfor : isFor tr.purpose = true) :
    s.respondFail isFor kind = s.portFreed ((s.endedFailed tr).routeFailure kind tr) := by
  rw [State.respondFail, hport]
  dsimp only
  rw [if_pos hfor, hwait, if_neg Bool.false_ne_true]

theorem State.respondFail_waiting (s : State) {isFor : Purpose → Bool} (kind : FailKind) {tr : Transaction}
    (hwait : s.control.resetWait = true) (hport : s.port.outstanding = some tr) (hfor : isFor tr.purpose = true) :
    s.respondFail isFor kind = s.endedFailed tr := by
  rw [State.respondFail, hport]
  dsimp only
  rw [if_pos hfor, if_pos hwait]

/-! ### Memory and the port at a transaction's end -/

theorem State.endedOk_read (s : State) (host : HostWrites) {tr : Transaction} {n : Nat} (h : tr.transfer = .read n) :
    s.endedOk host tr = { s with port.outstanding := none, memory := Memory.hostWrote s.memory host } := by
  rw [State.endedOk, h]

theorem State.endedOk_write (s : State) {tr : Transaction} {bytes : List Byte} (h : tr.transfer = .write bytes) :
    s.endedOk [] tr = { s with port.outstanding := none, memory := Memory.writeBytes s.memory tr.address bytes } := by
  rw [State.endedOk, h]
  rfl

theorem State.endedFailed_read (s : State) {tr : Transaction} {n : Nat} (h : tr.transfer = .read n) :
    s.endedFailed tr = { s with port.outstanding := none } := by
  rw [State.endedFailed, State.unsureWrite, h]

theorem State.dataOf_read (s : State) {tr : Transaction} {n : Nat} (h : tr.transfer = .read n) :
    s.dataOf tr = Memory.readBytes s.memory tr.address n := by
  rw [State.dataOf, h]

/-- A failed transaction frees the port, and memory and the counter of the free value may change (R131). -/
theorem State.endedFailed_frame (s : State) (tr : Transaction) :
    s.endedFailed tr = { s with
      port.outstanding := none, memory := (s.endedFailed tr).memory, freeCount := (s.endedFailed tr).freeCount } := by
  obtain ⟨_, _, h, _⟩ := s.endedFailed_eq tr
  rw [h]

theorem State.endedFailed_mayLeave (s : State) (tr : Transaction) : tr.mayLeave s.memory (s.endedFailed tr).memory :=
  s.unsureWrite_mayLeave tr

/-- R131: a byte that no outstanding write covers is as before. -/
theorem Transaction.mayLeave_other {tr : Transaction} {before after : Memory} (h : tr.mayLeave before after) {a : Nat}
    (ha : ∀ bytes, tr.transfer = .write bytes → ¬(tr.address ≤ a ∧ a < tr.address + bytes.length)) :
    Memory.read after a = Memory.read before a := by
  unfold Transaction.mayLeave at h
  cases htransfer : tr.transfer with
  | read n =>
    rw [htransfer] at h
    exact congrArg (Memory.read · a) h
  | write bytes =>
    rw [htransfer] at h
    exact h.1 a (by have := ha bytes htransfer; omega)

/-- R131: a byte of the write is as before or as written. -/
theorem Transaction.mayLeave_same {tr : Transaction} {before after : Memory} (h : tr.mayLeave before after)
    (hwf : Memory.wf before) {bytes : List Byte} (htransfer : tr.transfer = .write bytes) (i : Nat) (hi : i < bytes.length) :
    Memory.read after (tr.address + i) = Memory.read before (tr.address + i) ∨
      Memory.read after (tr.address + i) = bytes[i] := by
  unfold Transaction.mayLeave at h
  rw [htransfer] at h
  exact h.2 hwf i hi

/-! ### The port with nobody waiting -/

/-- A transaction's end that leaves no block at work leaves the port free. -/
theorem State.portFreed_idle (before s : State) (hw : s.writer = .resetValue) (hl : s.control.loader = none)
    (hi : s.intake.activity = .idle) (h0 : s.unit0.activity = .idle) (h1 : s.unit1.activity = .idle) :
    before.portFreed s = s := by
  have hbuffer : s.writer.buffer = [] := by rw [hw]; rfl
  have hjoin : { s with writer.joining := [] } = s := by
    have : s.writer = { s.writer with joining := [] } := by rw [hw]; rfl
    rw [← this]
  have hnone : s.discardHead.joiners = [] := by
    rw [s.discardHead_nil hbuffer]
    exact s.joiners_nil (by rw [hw]; rfl)
  rw [State.portFreed_granted before s (by rw [hnone]; exact Nat.not_lt_zero _), hjoin]
  exact s.arbitrate_idle hbuffer hl hi h0 h1

end Sys2Proof.Machine
end

section
/-! The two resets (R179, R180). -/

namespace Sys2Proof.Machine

/-- R131, R179: memory at a line reset, of which an outstanding write may have taken bytes. -/
def State.atLineReset (s : State) : State :=
  match s.port.outstanding with
  | none => s
  | some tr => s.unsureWrite tr

theorem exec_lineReset (s : State) : exec .lineReset s = .next (s.atLineReset.resetBlocks 0#32 true) := rfl

theorem State.atLineReset_pending (s : State) : s.atLineReset.pending = s.pending := by
  unfold State.atLineReset
  split
  · rfl
  · rename_i tr _
    obtain ⟨_, _, h, _⟩ := s.unsureWrite_eq tr
    rw [h]

theorem State.atLineReset_other (s : State) (a : Nat)
    (ha : ∀ tr bytes, s.port.outstanding = some tr → tr.transfer = .write bytes →
      ¬(tr.address ≤ a ∧ a < tr.address + bytes.length)) :
    Memory.read s.atLineReset.memory a = Memory.read s.memory a := by
  unfold State.atLineReset
  cases hport : s.port.outstanding with
  | none => rfl
  | some tr => exact Transaction.mayLeave_other (s.unsureWrite_mayLeave tr) fun bytes => ha tr bytes hport

theorem State.atLineReset_same (s : State) (hwf : Memory.wf s.memory) (tr : Transaction) (bytes : List Byte) (i : Nat)
    (hport : s.port.outstanding = some tr) (htransfer : tr.transfer = .write bytes) (hi : i < bytes.length) :
    Memory.read s.atLineReset.memory (tr.address + i) = Memory.read s.memory (tr.address + i) ∨
      Memory.read s.atLineReset.memory (tr.address + i) = bytes[i] := by
  unfold State.atLineReset
  rw [hport]
  exact Transaction.mayLeave_same (s.unsureWrite_mayLeave tr) hwf htransfer i hi

/-- R179: no register write takes effect under RST. -/
theorem State.registerWritten_asserted (s : State) (effect : State → State) (h : s.control.rst = true) :
    s.registerWritten effect = s := by
  rw [State.registerWritten, if_pos h]

theorem exec_postArrival_untaken (n : Slot) (p : Priority) (s : State)
    (h : s.control.rst = true ∨ s.control.resetWait = true) : exec (.postArrival n p) s = .next s := by
  have htakes : s.takesCommands = false := s.acts_of_held h
  refine congrArg Host.Outcome.next (if_neg ?_)
  rw [htakes]
  exact Bool.false_ne_true

/-- Settles O5: the reset values are those of `State.resetBlocks`, memory that of `State.atLineReset`. -/
theorem lineReset : Obligations.LineReset := by
  refine ⟨fun s => ⟨_, exec_lineReset s, ?_, s.atLineReset_other, s.atLineReset_same⟩, fun _ => rfl, fun s c hrst hc => ?_⟩
  · rw [← s.atLineReset_pending]
    rfl
  · have hheld : s.control.rst = true ∨ s.control.resetWait = true := .inl hrst
    rcases hc with hc | ⟨n, p, rfl⟩ | rfl | rfl | rfl | rfl | ⟨v, rfl⟩ | ⟨v, rfl⟩
    · exact exec_command_untaken c s hheld hc
    · exact exec_postArrival_untaken n p s hheld
    all_goals exact congrArg Host.Outcome.next (s.registerWritten_asserted _ hrst)

/-! ### The wait of a command reset -/

/-- The acts of the blocks, which stand still under RST and in the wait of a command reset (R179, R180). -/
def isBlockAct : Instr → Bool
  | .sweepBegin | .takeBegin | .nullTakeBegin | .takenEntryAppend | .intakeCompletionAppend | .jobStart | .jobResume
  | .parkRequest | .dispatcherCompletionAppend | .iterationIssue _ | .unitCompletionAppend _ | .unitAbortArrival _
  | .enterStopped => true
  | _ => false

theorem State.admits_held (s : State) (a : Appender) (n : Nat) (h : s.acts = false) : s.admits a n = false := by
  rw [State.admits, h]
  rfl

theorem exec_blockAct_held (c : Instr) (s : State) (h : s.acts = false) (hc : isBlockAct c = true) :
    exec c s = .next s := by
  have hassigns : s.assigns = false := by rw [State.assigns, h]; rfl
  cases c with
  | sweepBegin => exact congrArg Host.Outcome.next (if_neg (by simp [State.sweepMayBegin, h]))
  | takeBegin => exact congrArg Host.Outcome.next (if_neg (by simp [State.takeMayBegin, h]))
  | nullTakeBegin => exact congrArg Host.Outcome.next (if_neg (by simp [State.nullTakeMayBegin, h]))
  | unitAbortArrival => exact congrArg Host.Outcome.next (if_neg (by simp [h]))
  | enterStopped => exact congrArg Host.Outcome.next (if_neg (by simp [State.drained, h]))
  | takenEntryAppend | intakeCompletionAppend | dispatcherCompletionAppend =>
    refine congrArg Host.Outcome.next ?_
    split
    · rfl
    · exact if_neg (by simp [s.admits_held _ _ h])
  | jobStart =>
    have hnone : s.startable = none := by rw [State.startable, hassigns]; rfl
    exact congrArg Host.Outcome.next (by rw [hnone])
  | jobResume =>
    have hnone : s.resumable = none := by rw [State.resumable, hassigns]; rfl
    exact congrArg Host.Outcome.next (by rw [hnone])
  | parkRequest =>
    have hnone : s.parkTarget = none := by rw [State.parkTarget, hassigns]; rfl
    exact congrArg Host.Outcome.next (by rw [hnone])
  | iterationIssue =>
    refine congrArg Host.Outcome.next ?_
    split
    · split
      · exact if_neg (by simp [State.mayIssue, h])
      · rfl
    all_goals rfl
  | unitCompletionAppend =>
    refine congrArg Host.Outcome.next ?_
    split
    · exact if_neg (by simp [s.admits_held _ _ h])
    all_goals rfl
  | _ => cases hc

/-- R180: the reset values with CONFIG ADDRESS and the level of RST kept. -/
theorem State.resetBlocks_eq (s : State) (address : Word) (rst : Bool) :
    s.resetBlocks address rst = { State.reset with
      pending := s.pending, control.rst := rst, control.configAddress := address
      memory := s.memory, freeCount := s.freeCount } := rfl

/-- Settles O6: what acts stand still is `exec_blockAct_held`, what a transaction leaves is `State.respondFail_waiting` and
`State.respondOk_waiting`. -/
theorem commandReset : Obligations.CommandReset := by
  refine ⟨fun s hr hw => congrArg Host.Outcome.next (s.command_accepted _ _ hr hw rfl),
    fun s hwait => ⟨fun c hc => ?_, fun tr hport => ?_, fun tr bytes hport hpurpose htransfer => ?_, fun hport => ?_,
      fun tr hport => ?_⟩⟩
  · have hheld : s.control.rst = true ∨ s.control.resetWait = true := .inr hwait
    have hact (h : isBlockAct c = true) : exec c s = .next s := exec_blockAct_held c s (s.acts_of_held hheld) h
    rcases hc with hc | ⟨n, p, rfl⟩ | hc
    · exact exec_command_untaken c s hheld hc
    · exact exec_postArrival_untaken n p s hheld
    · refine hact ?_
      rcases hc with rfl | rfl | rfl | rfl | rfl | rfl | rfl | rfl | rfl | ⟨u, rfl⟩ | ⟨u, rfl⟩ | ⟨u, rfl⟩ | rfl <;> rfl
  · refine ⟨_, rfl, ?_⟩
    rw [State.respondFail_waiting s .timeout hwait hport rfl]
    exact ⟨s.endedFailed_frame tr, s.endedFailed_mayLeave tr⟩
  · refine congrArg Host.Outcome.next ?_
    rw [State.respondOk_waiting s [] _ hwait hport (by rw [hpurpose]; rfl), State.endedOk_write s htransfer]
  · rw [exec_commandResetComplete s hwait hport, State.resetBlocks_eq]
  · refine congrArg Host.Outcome.next (if_neg ?_)
    rw [hport]
    simp

end Sys2Proof.Machine
end

section
/-! Failures routed by their requester, and HALTED (R132, R136, R175). -/

namespace Sys2Proof.Machine

/-- HALTED leaves nothing at work: the port stays free. -/
theorem State.portFreed_halt (before s : State) (r : FaultReport) (hl : s.control.loader = none) :
    before.portFreed (s.halt r) = s.halt r := by
  rw [State.halt_eq]
  exact State.portFreed_idle before _ rfl hl rfl rfl rfl

/-- R136: the reports of the requesters whose failure is fatal. -/
def Purpose.fatalReport (kind : FailKind) : Purpose → Option FaultReport
  | .sweep n | .takeBlock0 n | .nullTake n => some (.fatalIntake n 0 kind)
  | .takeBlock n b => some (.fatalIntake n b kind)
  | .stateWord n | .doneWord n => some (.fatalWriter n false kind)
  | .resultArea n => some (.fatalWriter n true kind)
  | .config _ | .source _ | .destination => none

theorem State.routeFailure_fatal (s : State) (kind : FailKind) (tr : Transaction) {r : FaultReport}
    (h : tr.purpose.fatalReport kind = some r) : s.routeFailure kind tr = s.halt r := by
  unfold State.routeFailure
  cases hpurpose : tr.purpose <;> rw [hpurpose] at h <;> cases h <;> rfl

theorem State.routeFailure_source (s : State) (kind : FailKind) {tr : Transaction} {u : UnitId}
    (h : tr.purpose = .source u) : s.routeFailure kind tr = if tr.abandoned then s else s.fetchFailed u := by
  rw [State.routeFailure, h]

theorem State.routeFailure_destination (s : State) (kind : FailKind) {tr : Transaction} (h : tr.purpose = .destination) :
    s.routeFailure kind tr = s.destinationFailed := by
  rw [State.routeFailure, h]

/-- A timeout that is fatal. -/
theorem exec_responseTimeout_fatal (s : State) {tr : Transaction} {r : FaultReport} (hwait : s.control.resetWait = false)
    (hport : s.port.outstanding = some tr) (hrecord : s.control.faultRecord = none)
    (hreport : tr.purpose.fatalReport .timeout = some r) :
    ∃ t, exec .responseTimeout s = .next t ∧ t.control.state = .halted ∧ t.control.faultRecord = some r := by
  refine ⟨_, rfl, ?_⟩
  rw [State.respondFail_routed s .timeout hwait hport rfl, State.routeFailure_fatal _ _ _ hreport,
    State.portFreed_control, State.halt_eq]
  refine ⟨rfl, ?_⟩
  show some ((s.endedFailed tr).control.faultRecord.getD r) = some r
  rw [State.endedFailed_control, hrecord]
  rfl

/-- R132: with no transaction outstanding no response comes about. -/
theorem exec_response_none (s : State) (h : s.port.outstanding = none) (c : Instr) (host : HostWrites)
    (hc : c = .responseTimeout ∨ c = .loaderReadDone host ∨ c = .configReadBusError ∨ c = .sweepReadDone host ∨
      c = .takeBlock0ReadDone host ∨ c = .takeBlockReadDone host ∨ c = .nullTakeReadDone host ∨ c = .intakeBusError ∨
      c = .fetchReadDone host ∨ c = .fetchBusError ∨ c = .stateWriteDone ∨ c = .destinationWriteDone ∨
      c = .destinationWriteFail ∨ c = .resultAreaWriteDone ∨ c = .doneWriteDone ∨ c = .writerFatalBus) :
    exec c s = .next s := by
  have hok (isFor : Purpose → Bool) (host : HostWrites) (act : Transaction → State → State) :
      (.next (s.respondOk isFor host act) : Host.Outcome State Fault Refusal) = .next s :=
    congrArg Host.Outcome.next (s.respondOk_none isFor host act h)
  have hfail (isFor : Purpose → Bool) (kind : FailKind) :
      (.next (s.respondFail isFor kind) : Host.Outcome State Fault Refusal) = .next s :=
    congrArg Host.Outcome.next (s.respondFail_none isFor kind h)
  rcases hc with rfl | rfl | rfl | rfl | rfl | rfl | rfl | rfl | rfl | rfl | rfl | rfl | rfl | rfl | rfl | rfl
  · exact hfail _ _
  · exact hok _ _ _
  · exact hfail _ _
  · exact hok _ _ _
  · exact hok _ _ _
  · exact hok _ _ _
  · exact hok _ _ _
  · exact hfail _ _
  · exact hok _ _ _
  · exact hfail _ _
  · exact hok _ _ _
  · exact hok _ _ _
  · exact hfail _ _
  · exact hok _ _ _
  · exact hok _ _ _
  · exact hfail _ _

/-- Settles O23: the routes are `State.routeFailure` by the purpose; a fetch's and a destination's do not look at how the
transaction failed. -/
theorem responsesAndTimeouts : Obligations.ResponsesAndTimeouts := by
  refine ⟨fun s tr hwait hport => ⟨fun b hpurpose n htransfer => ?_, fun u hpurpose => ?_, fun hpurpose => ?_,
    fun n area harea hrecord => ?_, fun n b hb hrecord => ?_⟩, fun s => ⟨rfl, exec_response_none s⟩⟩
  · refine congrArg Host.Outcome.next ?_
    rw [State.respondFail_routed s .timeout hwait hport rfl, State.endedFailed_read s htransfer, State.routeFailure,
      hpurpose]
    rfl
  · refine congrArg Host.Outcome.next ?_
    rw [State.respondFail_routed s .timeout hwait hport rfl,
      State.respondFail_routed s .error hwait hport (by rw [hpurpose]; rfl), State.routeFailure_source _ _ hpurpose,
      State.routeFailure_source _ _ hpurpose]
  · refine congrArg Host.Outcome.next ?_
    rw [State.respondFail_routed s .timeout hwait hport rfl,
      State.respondFail_routed s .error hwait hport (by rw [hpurpose]; rfl), State.routeFailure_destination _ _ hpurpose,
      State.routeFailure_destination _ _ hpurpose]
  · refine exec_responseTimeout_fatal s hwait hport hrecord ?_
    rcases harea with ⟨rfl, hpurpose | hpurpose⟩ | ⟨rfl, hpurpose⟩
    all_goals
      rw [hpurpose]
      rfl
  · refine exec_responseTimeout_fatal s hwait hport hrecord ?_
    rcases hb with ⟨hpurpose, rfl⟩ | ⟨hpurpose, rfl⟩ | hpurpose | ⟨hpurpose, rfl⟩
    all_goals
      rw [hpurpose]
      rfl

/-- R175: a fatal failure halts the device, with the transaction's own bytes of memory open. -/
theorem State.respondFail_fatal (s : State) {isFor : Purpose → Bool} {tr : Transaction} {r : FaultReport}
    (hwait : s.control.resetWait = false) (hport : s.port.outstanding = some tr) (hl : s.control.loader = none)
    (hfor : isFor tr.purpose = true) (hreport : tr.purpose.fatalReport .error = some r) :
    s.respondFail isFor .error = (s.endedFailed tr).halt r := by
  rw [State.respondFail_routed s .error hwait hport hfor, State.routeFailure_fatal _ _ _ hreport]
  exact State.portFreed_halt s _ r (by rw [State.endedFailed_control, hl])

/-- Settles O34: the failure is `State.respondFail_fatal`, the halted state `State.halt_eq`. -/
theorem fatalFailureHalts : Obligations.FatalFailureHalts := by
  intro s tr c r hwait hport hl hc
  have hhalts : exec c s = .next ((s.endedFailed tr).halt r) := by
    rcases hc with ⟨rfl, n, b, rfl, hb⟩ | ⟨rfl, n, area, rfl, harea⟩
    · refine congrArg Host.Outcome.next (State.respondFail_fatal s hwait hport hl ?_ ?_)
      all_goals
        rcases hb with ⟨hpurpose, rfl⟩ | ⟨hpurpose, rfl⟩ | hpurpose | ⟨hpurpose, rfl⟩ <;> rw [hpurpose] <;> rfl
    · refine congrArg Host.Outcome.next (State.respondFail_fatal s hwait hport hl ?_ ?_)
      all_goals
        rcases harea with ⟨rfl, hpurpose | hpurpose⟩ | ⟨rfl, hpurpose⟩ <;> rw [hpurpose] <;> rfl
  refine ⟨_, hhalts, ?_⟩
  rw [State.halt_eq, State.endedFailed_frame]
  exact ⟨rfl, rfl, rfl, rfl, rfl, rfl, rfl, rfl, rfl, rfl, s.endedFailed_mayLeave tr⟩

end Sys2Proof.Machine
end

section
/-! The failure of a fetcher's read (R38, R111, R116, R118). -/

namespace Sys2Proof.Machine

/-- R111: the sources read so far are decoded, and the failed one counts as a bus error. -/
theorem State.fetchFailed_fetching (s : State) (u : UnitId) {job : Job} {step done : Nat} {r : FieldRead}
    {rs : List FieldRead} {got : List (Nat × List Byte)} {st : Step}
    (hactivity : (s.unit u).activity = .iterating job step done (.fetching (r :: rs) got))
    (hst : job.image.steps[step]? = some st) :
    s.fetchFailed u =
      s.computed u job step done st (computeStep st (sourceValue (s.unit u).cells got (some r.index))) := by
  rw [State.fetchFailed, hactivity]
  dsimp only
  rw [hst]

/-- R116: the end of a job in its unit, written out. -/
theorem State.finishJob_present (s : State) (u : UnitId) (job : Job) (how : JobEnd) (step done : Nat) :
    s.finishJob u job how step done = State.present (s.setUnit u { s.unit u with
      parkMark := false
      activity := .ending ⟨job.ticket, job.slot, job.tag, job.priority,
        ⟨how, step, done, (s.unit u).seen, (s.unit u).last⟩⟩ }) (.unit u) := rfl

theorem State.computed_error (s : State) (u : UnitId) (job : Job) (step done : Nat) (st : Step) (f : IterFault) :
    s.computed u job step done st (.error f) = s.finishJob u job (.faulted f.kind (some f.index)) step done := rfl

/-- The source whose read failed gives a bus error, whatever its content would be (R111). -/
theorem sourceValue_failed (cells : Cells) (got : List (Nat × List Byte)) (src : Source) (f : MemField)
    (h : src.operand = .memory f) : sourceValue cells got (some src.index) src = .error ⟨.busError, src.index⟩ := by
  rw [sourceValue, h]
  exact if_pos rfl

@[simp] theorem State.unit_outstanding (s : State) (o : Option Transaction) (u : UnitId) :
    State.unit { s with port.outstanding := o } u = s.unit u := by
  cases u <;> rfl

/-- A source's failed read: its own fault, or that of the first source before it that does not decode, ends the job. -/
theorem exec_fetchBusError_fault (s : State) {u : UnitId} {job : Job} {step done n : Nat} {r : FieldRead}
    {rs : List FieldRead} {got : List (Nat × List Byte)} {st : Step} {before after : List Source} {src : Source}
    {fault : IterFault} {tr : Transaction} (hwait : s.control.resetWait = false) (hport : s.port.outstanding = some tr)
    (hpurpose : tr.purpose = .source u) (habandoned : tr.abandoned = false) (htransfer : tr.transfer = .read n)
    (hactivity : (s.unit u).activity = .iterating job step done (.fetching (r :: rs) got))
    (hst : job.image.steps[step]? = some st) (hsources : st.work.sources = before ++ src :: after)
    (hbefore : ∀ b ∈ before, ∃ v, sourceValue (s.unit u).cells got (some r.index) b = .ok v)
    (hsrc : sourceValue (s.unit u).cells got (some r.index) src = .error fault) :
    exec .fetchBusError s = .next (s.portFreed (State.present
      (State.setUnit { s with port.outstanding := none } u { s.unit u with
        parkMark := false
        activity := .ending ⟨job.ticket, job.slot, job.tag, job.priority,
          ⟨.faulted fault.kind (some fault.index), step, done, (s.unit u).seen, (s.unit u).last⟩⟩ }) (.unit u))) := by
  refine congrArg Host.Outcome.next ?_
  rw [State.respondFail_routed s .error hwait hport (by rw [hpurpose]; rfl), State.endedFailed_read s htransfer,
    State.routeFailure_source _ _ hpurpose, habandoned, if_neg Bool.false_ne_true,
    State.fetchFailed_fetching { s with port.outstanding := none } u hactivity hst]
  have hcompute : computeStep st (sourceValue (s.unit u).cells got (some r.index)) = .error fault :=
    computeStep_first_failure st _ before after src fault hsources hbefore hsrc
  show s.portFreed (State.computed _ u job step done st (computeStep st (sourceValue (s.unit u).cells got _))) = _
  rw [hcompute, State.computed_error, State.finishJob_present, State.unit_outstanding]

/-- Settles O53: `computeStep_first_failure`, and the end that its fault gives the job. -/
theorem firstFailureDecides : Obligations.FirstFailureDecides := by
  refine ⟨computeStep_first_failure, ?_, ?_, ?_⟩
  · intro s u job step done n r rs got st before src after f tr hwait hport hpurpose habandoned htransfer hactivity hst
      hsources hindex hoperand hbefore
    have hfails : sourceValue (s.unit u).cells got (some r.index) src = .error ⟨.busError, r.index⟩ := by
      rw [← hindex]
      exact sourceValue_failed _ _ src f hoperand
    rw [exec_fetchBusError_fault s hwait hport hpurpose habandoned htransfer hactivity hst hsources hbefore hfails]
  · intro s u job step done n r rs got st before src after fault tr hwait hport hpurpose habandoned htransfer hactivity hst
      hsources hbefore hsrc
    rw [exec_fetchBusError_fault s hwait hport hpurpose habandoned htransfer hactivity hst hsources hbefore hsrc]
  · intro s u n tr hwait hport hpurpose habandoned htransfer
    refine congrArg Host.Outcome.next ?_
    rw [State.respondFail_routed s .error hwait hport (by rw [hpurpose]; rfl), State.endedFailed_read s htransfer,
      State.routeFailure_source _ _ hpurpose, habandoned, if_pos rfl]

end Sys2Proof.Machine
end

section
/-! Intake: the begins of a sweep, a take and a null take, and the ends of their reads (R67 to R73, R79). -/

namespace Sys2Proof.Machine

/-! ### Begins -/

theorem Intake.markerAtHead_iff (i : Intake) :
    i.markerAtHead = true ↔ ∃ e rest, i.urgent = e :: rest ∧ e.source = .abort := by
  unfold Intake.markerAtHead
  cases i.urgent with
  | nil => simp
  | cons e rest => simp

theorem State.sweepMayBegin_iff (s : State) :
    s.sweepMayBegin = true ↔
      s.acts = true ∧ s.intake.activity = .idle ∧ s.intake.sweepDue = true ∧ s.control.state = .running := by
  simp only [State.sweepMayBegin, Bool.and_eq_true, decide_eq_true_eq, and_assoc]

theorem State.takeMayBegin_iff (s : State) :
    s.takeMayBegin = true ↔
      s.acts = true ∧ s.intake.activity = .idle ∧ s.intake.sweepDue = false ∧ s.control.state = .running ∧
        s.dispatcher.staged = none ∧ s.intake.markerAtHead = false ∧ ¬(s.intake.urgent = [] ∧ s.intake.normal = []) := by
  simp only [State.takeMayBegin, Bool.and_eq_true, decide_eq_true_eq, Bool.not_eq_true', Option.isNone_iff_eq_none,
    Bool.and_eq_false_imp, List.isEmpty_iff, List.isEmpty_eq_false_iff, not_and, and_assoc, ne_eq]

theorem State.nullTakeMayBegin_iff (s : State) :
    s.nullTakeMayBegin = true ↔
      s.acts = true ∧ s.intake.activity = .idle ∧ s.intake.sweepDue = false ∧
        (s.control.state = .running ∨ s.control.state = .draining) ∧ s.intake.markerAtHead = true := by
  simp only [State.nullTakeMayBegin, Bool.and_eq_true, decide_eq_true_eq, Bool.not_eq_true', Bool.or_eq_true, and_assoc]

theorem Intake.markerAtHead_cons {i : Intake} {e : PendingEntry} {rest : List PendingEntry} (h : i.urgent = e :: rest) :
    i.markerAtHead = decide (e.source = .abort) := by
  rw [Intake.markerAtHead, h]

theorem Intake.beginTake_normal {i : Intake} {e : PendingEntry} {rest : List PendingEntry} (hurgent : i.urgent = [])
    (hnormal : i.normal = e :: rest) :
    i.beginTake = { i with normal := rest, activity := .taking (.ofEntry e) } := by
  obtain ⟨urgent, normal, activity, sweepDue, sweepTimer, takeCounter⟩ := i
  cases hurgent
  cases hnormal
  rfl

/-- Settles O26: each begin by the conditions of its act. -/
theorem takeBegins : Obligations.TakeBegins := by
  refine ⟨fun s => ⟨fun h => ?_, fun h => ?_, fun h => ?_⟩, fun s e rest hr hw hidle hdue => ⟨?_, ?_, ?_⟩⟩
  · refine congrArg Host.Outcome.next (if_neg ?_)
    rw [State.takeMayBegin_iff]
    rintro ⟨-, hidle, hdue, hstate, hstaged, hmarker, hsome⟩
    rcases h with h | h | h | h | h | h
    · exact h hidle
    · exact Bool.false_ne_true (hdue.symm.trans h)
    · exact h hstate
    · exact h hstaged
    · exact Bool.false_ne_true (hmarker.symm.trans ((Intake.markerAtHead_iff _).2 h))
    · exact hsome h
  · refine congrArg Host.Outcome.next (if_neg ?_)
    rw [State.nullTakeMayBegin_iff]
    rintro ⟨-, hidle, hdue, hstate, hmarker⟩
    rcases h with h | h | ⟨hnr, hnd⟩ | h
    · exact h hidle
    · exact Bool.false_ne_true (hdue.symm.trans h)
    · exact hstate.elim hnr hnd
    · obtain ⟨e, rest, hurgent, habort⟩ := (Intake.markerAtHead_iff _).1 hmarker
      exact h e rest hurgent habort
  · refine congrArg Host.Outcome.next (if_neg ?_)
    rw [State.sweepMayBegin_iff]
    rintro ⟨-, hidle, hdue, hstate⟩
    rcases h with h | h | h
    · exact h hidle
    · exact Bool.false_ne_true (h.symm.trans hdue)
    · exact h hstate
  · intro hstate hstaged hurgent habort
    have hbegin : s.takeMayBegin = true := s.takeMayBegin_iff.2 ⟨s.acts_of_released hr hw, hidle, hdue, hstate, hstaged,
      (Intake.markerAtHead_cons hurgent).trans (decide_eq_false habort), fun h => by rw [hurgent] at h; cases h.1⟩
    refine congrArg Host.Outcome.next ((if_pos hbegin).trans ?_)
    rw [Intake.beginTake, hurgent]
    rfl
  · intro hstate hstaged hurgent hnormal
    have hmarker : s.intake.markerAtHead = false := by rw [Intake.markerAtHead, hurgent]
    have hbegin : s.takeMayBegin = true := s.takeMayBegin_iff.2 ⟨s.acts_of_released hr hw, hidle, hdue, hstate, hstaged,
      hmarker, fun h => by rw [hnormal] at h; cases h.2⟩
    refine congrArg Host.Outcome.next ((if_pos hbegin).trans ?_)
    rw [Intake.beginTake_normal hurgent hnormal]
    rfl
  · intro hstate hurgent habort
    have hbegin : s.nullTakeMayBegin = true := s.nullTakeMayBegin_iff.2 ⟨s.acts_of_released hr hw, hidle, hdue, hstate,
      (Intake.markerAtHead_cons hurgent).trans (decide_eq_true habort)⟩
    refine congrArg Host.Outcome.next ((if_pos hbegin).trans ?_)
    rw [Intake.beginNullTake, hurgent]
    rfl

/-! ### What a read of block 0 shows -/

/-- The record that a read of 64 bytes begins holds those bytes. -/
theorem Memory.read_readBytes (m : Memory) (a n i : Nat) (h : i < n) :
    Memory.read (Memory.writeBytes [] 0 (Memory.readBytes m a n)) i = Memory.read m (a + i) := by
  have hi : i < (Memory.readBytes m a n).length := by simpa [Memory.readBytes] using h
  have hread := Memory.read_writeBytes_same Memory.wf_nil 0 (Memory.readBytes m a n) i hi
  rw [Nat.zero_add] at hread
  rw [hread]
  simp [Memory.readBytes]

theorem recordState_posted_iff (m : Memory) (a : Nat) :
    recordState (Memory.writeBytes [] 0 (Memory.readBytes m a 64)) = postedCode ↔ Memory.read m a = 1#8 := by
  rw [recordState, Memory.read_readBytes m a 64 0 (by omega), Nat.add_zero, ← BitVec.toNat_inj]
  rfl

theorem recordPriority_urgent_iff (m : Memory) (a : Nat) :
    recordPriority (Memory.writeBytes [] 0 (Memory.readBytes m a 64)) = 1 ↔ Memory.read m (a + 1) = 1#8 := by
  rw [recordPriority, Memory.read_readBytes m a 64 1 (by omega), ← BitVec.toNat_inj]
  rfl

/-- Settles O27: each end of a read by what its block shows. -/
theorem takeReads : Obligations.TakeReads := by
  refine ⟨fun s host item tr hwait hport hpurpose htransfer hactivity => ?_,
    fun s host item block later tr hwait hport hpurpose htransfer hactivity hphase => ?_,
    fun s host item tr hwait hport hpurpose htransfer hactivity => ?_⟩
  · have hend (t : State) (h : State.takeRead0 { s with port.outstanding := none, memory := Memory.hostWrote s.memory host }
        (Memory.readBytes (Memory.hostWrote s.memory host) tr.address 64) = t) :
        exec (.takeBlock0ReadDone host) s = .next (s.portFreed t) := by
      refine congrArg Host.Outcome.next ?_
      rw [State.respondOk_acted s host _ hwait hport (by rw [hpurpose]; rfl), State.endedOk_read s host htransfer,
        State.dataOf_read _ htransfer, h]
    refine ⟨fun hstale => hend _ ?_, fun hposted reason hreject => hend _ ?_, fun hposted hheader block later hblocks =>
      hend _ ?_⟩
    · rw [State.takeRead0, hactivity]
      exact if_pos (mt (recordState_posted_iff _ _).1 hstale)
    · rw [State.takeRead0, hactivity]
      dsimp only
      rw [if_neg (not_not_intro ((recordState_posted_iff _ _).2 hposted)), hreject]
      rfl
    · rw [State.takeRead0, hactivity]
      dsimp only
      rw [if_neg (not_not_intro ((recordState_posted_iff _ _).2 hposted)), hheader]
      dsimp only
      rw [hblocks]
  · have hend (t : State) (h : State.takeRead { s with port.outstanding := none, memory := Memory.hostWrote s.memory host }
        (Memory.readBytes (Memory.hostWrote s.memory host) tr.address 64) = t) :
        exec (.takeBlockReadDone host) s = .next (s.portFreed t) := by
      refine congrArg Host.Outcome.next ?_
      rw [State.respondOk_acted s host _ hwait hport (by rw [hpurpose]; rfl), State.endedOk_read s host htransfer,
        State.dataOf_read _ htransfer, h]
    refine ⟨fun next rest hlater => hend _ ?_, fun hlater => hend _ ?_⟩
    all_goals
      rw [State.takeRead, hactivity]
      dsimp only
      rw [hphase, hlater]
      rfl
  · have hend (t : State) (h : State.nullTakeRead { s with port.outstanding := none, memory := Memory.hostWrote s.memory host }
        (Memory.readBytes (Memory.hostWrote s.memory host) tr.address 64) = t) :
        exec (.nullTakeReadDone host) s = .next (s.portFreed t) := by
      refine congrArg Host.Outcome.next ?_
      rw [State.respondOk_acted s host _ hwait hport (by rw [hpurpose]; rfl), State.endedOk_read s host htransfer,
        State.dataOf_read _ htransfer, h]
    refine ⟨fun hstale => hend _ ?_, fun hposted => hend _ ?_⟩
    · rw [State.nullTakeRead, hactivity]
      exact if_pos (mt (recordState_posted_iff _ _).1 hstale)
    · rw [State.nullTakeRead, hactivity]
      exact if_neg (not_not_intro ((recordState_posted_iff _ _).2 hposted))

/-! ### Sweeps -/

theorem State.sweepEntry_read (s : State) (m : Memory) (a : Nat) (k : Slot) :
    s.sweepEntry k (Memory.writeBytes [] 0 (Memory.readBytes m a 64)) =
      if Memory.read m a = 1#8 ∧ k ∉ s.heldSlots then
        some ⟨k, if Memory.read m (a + 1) = 1#8 then .urgent else .normal, .sweep⟩
      else none := by
  rw [State.sweepEntry]
  simp only [recordState_posted_iff, recordPriority_urgent_iff, Bool.and_eq_true, decide_eq_true_eq, State.holds,
    Bool.not_eq_true', List.contains_eq_mem, decide_eq_false_iff_not]

/-- R69: the lists after a sweep read of a slot, found POSTED and not held or not, with its priority. -/
def Intake.swept (i : Intake) (k : Slot) (found urgent : Bool) : Intake :=
  if found then
    if urgent then { i with urgent := i.urgent ++ [⟨k, .urgent, .sweep⟩] }
    else { i with normal := i.normal ++ [⟨k, .normal, .sweep⟩] }
  else i

theorem nextSlot_of_lt {count : Nat} {k next : Slot} (hnext : next.val = k.val + 1) (h : next.val < count) :
    nextSlot count k = some next := by
  have h64 : k.val + 1 < 64 := hnext ▸ next.isLt
  rw [nextSlot, dif_pos h64, if_pos (hnext ▸ h)]
  exact congrArg some (Fin.ext hnext.symm)

theorem nextSlot_of_last {count : Nat} {k : Slot} (h : k.val + 1 = count) : nextSlot count k = none := by
  rw [nextSlot]
  split_ifs
  · omega
  · rfl
  · rfl

/-- A sweep read in RUNNING. -/
theorem State.sweepRead_running (s : State) (m : Memory) (a : Nat) {k : Slot} {c : Configuration}
    (hactivity : s.intake.activity = .sweeping k) (hstate : s.control.state = .running)
    (hconfig : s.control.config = some c) :
    s.sweepRead (Memory.readBytes m a 64) =
      (let lists := s.intake.swept k (Memory.read m a = 1#8 ∧ k ∉ s.heldSlots : Bool) (Memory.read m (a + 1) = 1#8 : Bool)
       match nextSlot c.slotCount k with
       | some next => { s with intake := { lists with activity := .sweeping next } }
       | none => { s with intake := { lists with
           activity := .idle
           sweepTimer := if c.sweepInterval = 0 then none else some c.sweepInterval } }) := by
  have hcount : s.slotCount = c.slotCount := by rw [State.slotCount, hconfig]
  have hperiod : s.sweepPeriod = if c.sweepInterval = 0 then none else some c.sweepInterval := by
    rw [State.sweepPeriod, hconfig]
  rw [State.sweepRead, hactivity]
  dsimp only
  rw [if_pos hstate, hcount, hperiod, State.sweepEntry_read, Intake.swept]
  by_cases hfound : Memory.read m a = 1#8 ∧ k ∉ s.heldSlots
  · by_cases hurgent : Memory.read m (a + 1) = 1#8
    · simp only [hfound, hurgent, Intake.append]
      cases nextSlot c.slotCount k <;> rfl
    · simp only [hfound, hurgent, Intake.append]
      cases nextSlot c.slotCount k <;> rfl
  · simp only [hfound]
    cases nextSlot c.slotCount k <;> rfl

/-- Settles O25: `State.sweepRead_running`, with the next slot or none. -/
theorem sweepReadsEverySlot : Obligations.SweepReadsEverySlot := by
  refine ⟨fun s hr hw hidle hdue hstate => ?_, fun s host k tr c hwait hport hpurpose htransfer hactivity hconfig => ?_⟩
  · have hbegin : s.sweepMayBegin = true := s.sweepMayBegin_iff.2 ⟨s.acts_of_released hr hw, hidle, hdue, hstate⟩
    exact congrArg Host.Outcome.next (if_pos hbegin)
  · have hend (t : State) (h : State.sweepRead { s with port.outstanding := none, memory := Memory.hostWrote s.memory host }
        (Memory.readBytes (Memory.hostWrote s.memory host) tr.address 64) = t) :
        exec (.sweepReadDone host) s = .next (s.portFreed t) := by
      refine congrArg Host.Outcome.next ?_
      rw [State.respondOk_acted s host _ hwait hport (by rw [hpurpose]; rfl), State.endedOk_read s host htransfer,
        State.dataOf_read _ htransfer, h]
    have hread (hstate : s.control.state = .running) :=
      State.sweepRead_running { s with port.outstanding := none, memory := Memory.hostWrote s.memory host }
        (Memory.hostWrote s.memory host) tr.address hactivity hstate hconfig
    refine ⟨fun hstate => hend _ ?_, fun hstate next hnext hlt => hend _ ?_, fun hstate hlast => hend _ ?_⟩
    · rw [State.sweepRead, hactivity]
      exact if_neg hstate
    · rw [hread hstate, nextSlot_of_lt hnext hlt]
      rfl
    · rw [hread hstate, nextSlot_of_last hlast]
      rfl

end Sys2Proof.Machine
end

section
/-! ABORT SLOT (R173): the marker for a pending entry (R78), and the places that hold a slot (R80, R96 to R98, R118, R120). -/

namespace Sys2Proof.Machine

/-! ### An abort in a unit (R118, R120, R121) -/

/-- The outstanding read of the unit's iteration is abandoned, another transaction is not. -/
theorem State.abandonFetch_outstanding (s : State) (u : UnitId) :
    ∃ o, s.abandonFetch u = { s with port.outstanding := o } ∧
      (∀ tr, s.port.outstanding = some tr → tr.purpose = .source u → o = some { tr with abandoned := true }) ∧
      ((∀ tr, s.port.outstanding = some tr → tr.purpose ≠ .source u) → o = s.port.outstanding) := by
  unfold State.abandonFetch
  cases hport : s.port.outstanding with
  | none =>
    have hself : s = { s with port.outstanding := none } := by rw [← hport]
    exact ⟨none, hself, nofun, fun _ => rfl⟩
  | some tr =>
    by_cases hpurpose : tr.purpose = .source u
    · exact ⟨_, if_pos hpurpose, fun _ htr _ => Option.some.inj htr ▸ rfl, fun h => absurd hpurpose (h tr rfl)⟩
    · refine ⟨some tr, (if_neg hpurpose).trans ?_, fun _ htr h => absurd (Option.some.inj htr ▸ h) hpurpose, fun _ => rfl⟩
      rw [← hport]

theorem State.abortUnit_iterating (s : State) (u : UnitId) {job : Job} {step done : Nat} {phase : IterPhase}
    (h : (s.unit u).activity = .iterating job step done phase) :
    ∃ o, s.abortUnit u = State.present (State.setUnit { s with port.outstanding := o } u { s.unit u with
        parkMark := false
        activity := .ending ⟨job.ticket, job.slot, job.tag, job.priority,
          ⟨.aborted, step, done, (s.unit u).seen, (s.unit u).last⟩⟩ }) (.unit u) ∧
      (∀ tr, s.port.outstanding = some tr → tr.purpose = .source u → o = some { tr with abandoned := true }) ∧
      ((∀ tr, s.port.outstanding = some tr → tr.purpose ≠ .source u) → o = s.port.outstanding) := by
  obtain ⟨o, habandon, hsome, hother⟩ := s.abandonFetch_outstanding u
  refine ⟨o, ?_, hsome, hother⟩
  rw [State.abortUnit, h]
  dsimp only
  rw [habandon, State.finishJob_present, State.unit_outstanding]

theorem State.abortUnit_ending (s : State) (u : UnitId) {item : CompletionItem} (h : (s.unit u).activity = .ending item) :
    s.abortUnit u = s.setUnit u { s.unit u with
      activity := .ending { item with info := { item.info with how := .aborted } } } := by
  rw [State.abortUnit, h]

theorem State.abortUnit_idle (s : State) (u : UnitId) (h : (s.unit u).activity = .idle) : s.abortUnit u = s := by
  rw [State.abortUnit, h]

theorem exec_unitAbortArrival (s : State) (u : UnitId) (hr : s.control.rst = false) (hw : s.control.resetWait = false)
    (h : (s.unit u).abortDue = true) :
    exec (.unitAbortArrival u) s = .next ((s.setUnit u { s.unit u with abortDue := false }).abortUnit u) := by
  refine congrArg Host.Outcome.next (if_pos ?_)
  rw [s.acts_of_released hr hw, h]
  rfl

/-- Settles O42: the unit, its abort no longer on its way, takes it by its activity. -/
theorem abortReachesTheUnit : Obligations.AbortReachesTheUnit := by
  intro s u hr hw hdue
  have hunit : ((s.setUnit u { s.unit u with abortDue := false }).unit u).activity = (s.unit u).activity := by
    rw [State.setUnit_unit_same]
  rw [exec_unitAbortArrival s u hr hw hdue]
  refine ⟨fun h => ?_, fun item h => ?_, fun job step done phase h => ?_⟩
  · rw [State.abortUnit_idle _ u (hunit.trans h)]
  · rw [State.abortUnit_ending _ u (hunit.trans h), State.setUnit_unit_same, State.setUnit_setUnit]
  · obtain ⟨o, habort, hsome, hother⟩ := State.abortUnit_iterating _ u (hunit.trans h)
    rw [State.setUnit_port] at hsome hother
    refine ⟨o, ?_, hsome, hother⟩
    rw [habort, State.setUnit_unit_same]
    cases u <;> rfl

/-! ### The command -/

theorem exec_abortSlot (s : State) (n : Slot) (hr : s.control.rst = false) (hw : s.control.resetWait = false)
    (hstate : s.control.state = .running ∨ s.control.state = .draining) :
    exec (.abortSlot n) s = .next ((s.answer .accepted).abortSlot n) :=
  congrArg Host.Outcome.next (s.command_accepted _ _ hr hw (by simpa using hstate))

theorem State.answer_self {s : State} {o : CommandOutcome} (h : s.control.outcome = o) : s.answer o = s := by
  subst h
  rfl

theorem Intake.hasMarker_iff (i : Intake) (n : Slot) :
    i.hasMarker n = true ↔ ∃ e ∈ i.urgent, e.slot = n ∧ e.source = .abort := by
  rw [Intake.hasMarker, List.any_eq_true]
  simp only [Bool.and_eq_true, decide_eq_true_eq]

/-! ### A pending entry (R78) -/

/-- With no slot twice on the lists, an entry is the only one of its slot. -/
theorem Intake.eq_of_slot_eq {i : Intake} (h : i.pendingSlots.Nodup) {d e : PendingEntry}
    (hd : d ∈ i.urgent ++ i.normal) (he : e ∈ i.urgent ++ i.normal) (hslot : d.slot = e.slot) : d = e := by
  rw [Intake.pendingSlots, ← List.map_append] at h
  exact List.inj_on_of_nodup_map h hd he hslot

/-- With no slot twice on a list, the entry is taken from where it stands. -/
theorem takeEntry_of_nodup {e : PendingEntry} {before after : List PendingEntry}
    (h : ((before ++ e :: after).map (·.slot)).Nodup) :
    takeEntry e.slot (before ++ e :: after) = some (e, before ++ after) := by
  refine (takeEntry_eq_some_iff _ _ _ _).2 ⟨before, after, rfl, rfl, rfl, fun d hd hslot => ?_⟩
  rw [List.map_append, List.nodup_append] at h
  exact h.2.2 d.slot (List.mem_map_of_mem hd) e.slot (List.mem_map_of_mem List.mem_cons_self) hslot

theorem takeEntry_eq_none {n : Slot} {es : List PendingEntry} (h : ∀ e ∈ es, e.slot ≠ n) : takeEntry n es = none := by
  cases htake : takeEntry n es with
  | none => rfl
  | some r =>
    obtain ⟨before, after, hes, -, hslot, -⟩ := (takeEntry_eq_some_iff n es r.1 r.2).1 htake
    exact absurd hslot (h r.1 (by rw [hes]; simp))

theorem State.abortSlot_ordinary (s : State) (n : Slot) (ha : s.control.outcome = .accepted)
    (h : s.intake.hasOrdinary n = true) : s.abortSlot n = { s with intake := s.intake.placeMarker n } := by
  rw [State.abortSlot, if_pos h]
  exact State.answer_self ha

theorem State.abortSlot_marker (s : State) (n : Slot) (ha : s.control.outcome = .accepted)
    (hordinary : ¬s.intake.hasOrdinary n = true) (h : s.intake.hasMarker n = true) : s.abortSlot n = s := by
  rw [State.abortSlot, if_neg hordinary, if_pos h]
  exact State.answer_self ha

/-- Settles O12: the entry is the only one of its slot, so `takeEntry_of_nodup` finds it where it stands. -/
theorem abortMarkerReplacesTheEntry : Obligations.AbortMarkerReplacesTheEntry := by
  rintro s n e before after hr hw hstate hnodup rfl
  rw [exec_abortSlot s e.slot hr hw hstate]
  have hurgentNodup : (s.intake.urgent.map (·.slot)).Nodup := (List.nodup_append.1 hnodup).1
  have hnormalNodup : (s.intake.normal.map (·.slot)).Nodup := (List.nodup_append.1 hnodup).2.1
  refine ⟨fun hsource hurgent => ?_, fun hsource hnormal => ?_, fun hsource hurgent => ?_⟩
  · have hordinary : s.intake.hasOrdinary e.slot = true :=
      (Intake.hasOrdinary_iff _ _).2 ⟨e, by rw [hurgent]; simp, rfl, hsource⟩
    rw [hurgent] at hurgentNodup
    rw [State.abortSlot_ordinary (s.answer .accepted) e.slot rfl hordinary, State.answer_intake, Intake.placeMarker, hurgent,
      takeEntry_of_nodup hurgentNodup]
    rfl
  · have he : e ∈ s.intake.urgent ++ s.intake.normal := by rw [hnormal]; simp
    have hordinary : s.intake.hasOrdinary e.slot = true := (Intake.hasOrdinary_iff _ _).2 ⟨e, he, rfl, hsource⟩
    have hurgent : takeEntry e.slot s.intake.urgent = none := takeEntry_eq_none fun d hd hslot =>
      (List.nodup_append.1 hnodup).2.2 d.slot (List.mem_map_of_mem hd) e.slot
        (List.mem_map_of_mem (by rw [hnormal]; simp)) hslot
    rw [hnormal] at hnormalNodup
    rw [State.abortSlot_ordinary (s.answer .accepted) e.slot rfl hordinary, State.answer_intake, Intake.placeMarker, hurgent,
      hnormal, takeEntry_of_nodup hnormalNodup]
    rfl
  · have he : e ∈ s.intake.urgent := by rw [hurgent]; simp
    have hordinary : ¬s.intake.hasOrdinary e.slot = true := by
      rw [Intake.hasOrdinary_iff]
      rintro ⟨d, hd, hslot, hds⟩
      rw [Intake.eq_of_slot_eq hnodup hd (List.mem_append_left _ he) hslot] at hds
      exact hds hsource
    have hmarker : s.intake.hasMarker e.slot = true := (Intake.hasMarker_iff _ _).2 ⟨e, he, rfl, hsource⟩
    rw [State.abortSlot_marker (s.answer .accepted) e.slot rfl hordinary hmarker]
    rfl

/-! ### The places beyond the lists -/

/-- R173: the slot is on a list, or in the place of a job that can take an abort. -/
def State.abortable (s : State) (n : Slot) : Prop :=
  s.intake.hasOrdinary n = true ∨ s.intake.hasMarker n = true ∨ s.intake.itemSlot? = some n ∨
    s.dispatcher.staged.any (·.job.slot = n) = true ∨ s.dispatcher.parked.any (·.job.slot = n) = true ∨
    s.unit0.slot? = some n ∨ s.unit1.slot? = some n

/-- What no abort touches. -/
def State.sameBesidesJobs (s t : State) : Prop :=
  t.control = s.control ∧ t.writer.buffer = s.writer.buffer ∧ t.notifier = s.notifier ∧ t.memory = s.memory

theorem State.endStaged_besides (s : State) : s.sameBesidesJobs s.endStaged := by
  obtain ⟨_, _, _, h⟩ := s.endStaged_eq
  rw [h]
  exact ⟨rfl, rfl, rfl, rfl⟩

theorem State.endParked_besides (s : State) (how : JobEnd) (p : ParkedJob) : s.sameBesidesJobs (s.endParked how p) := by
  obtain ⟨_, _, _, h, _⟩ := s.endParked_eq how p
  rw [h]
  exact ⟨rfl, rfl, rfl, rfl⟩

theorem State.abortUnit_besides (s : State) (u : UnitId) : s.sameBesidesJobs (s.abortUnit u) := by
  obtain ⟨_, _, _, h, _⟩ := s.abortUnit_eq u
  rw [h]
  cases u <;> exact ⟨rfl, rfl, rfl, rfl⟩

/-- R173: an abort is accepted where the slot can take it, and answered else by whether a completion is on its way. -/
theorem State.abortSlot_answer (s : State) (n : Slot) :
    (s.abortable n ∧ ∃ t, s.abortSlot n = t.answer .accepted ∧ s.sameBesidesJobs t) ∨
    (¬s.abortable n ∧ s.abortSlot n =
      s.answer (if n ∈ s.writer.completionSlots then CommandOutcome.notActive else .notFound)) := by
  have same {t : State} (h : t = s) : s.sameBesidesJobs t := h ▸ ⟨rfl, rfl, rfl, rfl⟩
  unfold State.abortSlot State.abortable
  by_cases hordinary : s.intake.hasOrdinary n = true
  · exact .inl ⟨.inl hordinary, _, if_pos hordinary, rfl, rfl, rfl, rfl⟩
  rw [if_neg hordinary]
  by_cases hmarker : s.intake.hasMarker n = true
  · exact .inl ⟨.inr (.inl hmarker), _, if_pos hmarker, rfl, rfl, rfl, rfl⟩
  rw [if_neg hmarker]
  by_cases hitem : s.intake.itemSlot? = some n
  · exact .inl ⟨.inr (.inr (.inl hitem)), _, if_pos hitem, rfl, rfl, rfl, rfl⟩
  rw [if_neg hitem]
  by_cases hstaged : s.dispatcher.staged.any (·.job.slot = n) = true
  · exact .inl ⟨.inr (.inr (.inr (.inl hstaged))), _, if_pos hstaged, s.endStaged_besides⟩
  rw [if_neg hstaged]
  cases hparked : s.dispatcher.parked.find? (·.job.slot = n) with
  | some p =>
    have hany : s.dispatcher.parked.any (·.job.slot = n) = true :=
      List.any_eq_true.2 ⟨p, List.mem_of_find?_eq_some hparked,
        List.find?_some (p := fun q : ParkedJob => decide (q.job.slot = n)) hparked⟩
    exact .inl ⟨.inr (.inr (.inr (.inr (.inl hany)))), _, rfl, s.endParked_besides _ p⟩
  | none =>
    have hany : ¬s.dispatcher.parked.any (·.job.slot = n) = true := by
      rw [List.any_eq_true]
      rintro ⟨p, hp, hslot⟩
      exact List.find?_eq_none.1 hparked p hp hslot
    by_cases hunit0 : s.unit0.slot? = some n
    · exact .inl ⟨.inr (.inr (.inr (.inr (.inr (.inl hunit0))))), _, if_pos hunit0, s.abortUnit_besides _⟩
    by_cases hunit1 : s.unit1.slot? = some n
    · exact .inl ⟨.inr (.inr (.inr (.inr (.inr (.inr hunit1))))), _, (if_neg hunit0).trans (if_pos hunit1),
        s.abortUnit_besides _⟩
    refine .inr ⟨fun h => ?_, ?_⟩
    · rcases h with h | h | h | h | h | h | h
      exacts [hordinary h, hmarker h, hitem h, hstaged h, hany h, hunit0 h, hunit1 h]
    · dsimp only
      rw [if_neg hunit0, if_neg hunit1]
      by_cases hdone : n ∈ s.writer.completionSlots
      · rw [if_pos hdone, if_pos (List.contains_iff_mem.2 hdone)]
      · rw [if_neg hdone, if_neg (mt List.contains_iff_mem.1 hdone)]

/-- A slot on no list is sought in the other places. -/
theorem Intake.not_hasOrdinary_hasMarker {i : Intake} {n : Slot} (hlists : n ∉ i.pendingSlots) :
    ¬i.hasOrdinary n = true ∧ ¬i.hasMarker n = true := by
  rw [Intake.mem_pendingSlots] at hlists
  rw [Intake.hasOrdinary_iff, Intake.hasMarker_iff]
  exact ⟨fun ⟨e, he, hslot, _⟩ => hlists ⟨e, he, hslot⟩,
    fun ⟨e, he, hslot, _⟩ => hlists ⟨e, List.mem_append_left _ he, hslot⟩⟩

theorem Dispatcher.staged_any_false {d : Dispatcher} {n : Slot} (h : ∀ st, d.staged = some st → st.job.slot ≠ n) :
    ¬d.staged.any (·.job.slot = n) = true := by
  cases hd : d.staged with
  | none => exact Bool.false_ne_true
  | some st => exact fun hst => h st hd (of_decide_eq_true hst)

section
variable (s : State) (n : Slot) (ha : s.control.outcome = .accepted) (hlists : n ∉ s.intake.pendingSlots)
include ha hlists

theorem State.abortSlot_item (hitem : s.intake.itemSlot? = some n) :
    s.abortSlot n = { s with intake.activity := markAborted s.intake.activity } := by
  obtain ⟨hordinary, hmarker⟩ := Intake.not_hasOrdinary_hasMarker hlists
  rw [State.abortSlot, if_neg hordinary, if_neg hmarker, if_pos hitem]
  exact State.answer_self ha

theorem State.abortSlot_staged (hitem : s.intake.itemSlot? ≠ some n) {st : StagedJob}
    (hstaged : s.dispatcher.staged = some st) (hst : st.job.slot = n) : s.abortSlot n = s.endStaged := by
  obtain ⟨hordinary, hmarker⟩ := Intake.not_hasOrdinary_hasMarker hlists
  have hany : s.dispatcher.staged.any (·.job.slot = n) = true := by
    rw [hstaged]
    exact decide_eq_true hst
  rw [State.abortSlot, if_neg hordinary, if_neg hmarker, if_neg hitem, if_pos hany]
  exact State.answer_self (s.endStaged_control ▸ ha)

variable (hitem : s.intake.itemSlot? ≠ some n) (hstaged : ∀ st, s.dispatcher.staged = some st → st.job.slot ≠ n)
include hitem hstaged

theorem State.abortSlot_parked {before after : List ParkedJob} {p : ParkedJob}
    (hparked : s.dispatcher.parked = before ++ p :: after) (hbefore : ∀ q ∈ before, q.job.slot ≠ n)
    (hp : p.job.slot = n) : s.abortSlot n = s.endParked .aborted p := by
  have hfind : s.dispatcher.parked.find? (·.job.slot = n) = some p :=
    List.find?_eq_some_iff_append.2 ⟨decide_eq_true hp, before, after, hparked, fun q hq => by simpa using hbefore q hq⟩
  obtain ⟨hordinary, hmarker⟩ := Intake.not_hasOrdinary_hasMarker hlists
  rw [State.abortSlot, if_neg hordinary, if_neg hmarker, if_neg hitem, if_neg (Dispatcher.staged_any_false hstaged), hfind]
  exact State.answer_self ((s.endParked_control _ p).symm ▸ ha)

theorem State.abortSlot_unit (hparked : ∀ p ∈ s.dispatcher.parked, p.job.slot ≠ n) {u : UnitId}
    (hother : u = .unit1 → s.unit0.slot? ≠ some n) (hslot : (s.unit u).slot? = some n) :
    s.abortSlot n = s.abortUnit u := by
  have hfind : s.dispatcher.parked.find? (·.job.slot = n) = none :=
    List.find?_eq_none.2 fun p hp => by simpa using hparked p hp
  obtain ⟨hordinary, hmarker⟩ := Intake.not_hasOrdinary_hasMarker hlists
  rw [State.abortSlot, if_neg hordinary, if_neg hmarker, if_neg hitem, if_neg (Dispatcher.staged_any_false hstaged), hfind]
  cases u with
  | unit0 => exact (if_pos hslot).trans (State.answer_self ((s.abortUnit_control _).symm ▸ ha))
  | unit1 =>
    exact (if_neg (hother rfl)).trans ((if_pos hslot).trans (State.answer_self ((s.abortUnit_control _).symm ▸ ha)))

end

/-- Settles O11: the outcome is `State.abortSlot_answer`, the effect that of the place which holds the slot. -/
theorem abortSlotOutcome : Obligations.AbortSlotOutcome := by
  intro s n hr hw hstate
  have hexec := exec_abortSlot s n hr hw hstate
  refine ⟨⟨_, hexec, ?_⟩, fun hlists => ⟨fun item hactivity hslot => ?_, fun item hactivity hslot => ?_,
    fun hitem => ⟨fun st hstaged hslot => ⟨fun hending => ?_, fun hending => ?_⟩, fun hstaged =>
      ⟨fun before p after hparked hbefore hslot => ⟨fun hending => ?_, fun hending => ?_⟩,
        fun hparked u hother => ⟨fun item hactivity hslot => ?_, fun job step done phase hactivity hslot => ?_⟩⟩⟩⟩⟩
  · rcases (s.answer .accepted).abortSlot_answer n with ⟨hable, t, heq, hcontrol, hbuffer, hnotifier, hmemory⟩ | ⟨hable, heq⟩
    · rw [heq]
      refine ⟨(t.answer_state _).trans (by rw [hcontrol, State.answer_state]), hbuffer, hnotifier, hmemory, ?_⟩
      rw [if_pos]
      · rfl
      · exact hable
    · rw [heq]
      refine ⟨rfl, rfl, rfl, rfl, ?_⟩
      rw [if_neg]
      · rw [State.answer_writer]
        by_cases hdone : n ∈ s.writer.completionSlots
        · rw [if_pos hdone, if_pos hdone]
          rfl
        · rw [if_neg hdone, if_neg hdone]
          rfl
      · exact hable
  · have hitem : s.intake.itemSlot? = some n := (Intake.itemSlot?_eq_some_iff _ _).2 ⟨item, .inl hactivity, hslot⟩
    rw [hexec, State.abortSlot_item (s.answer .accepted) n rfl hlists hitem, State.answer_intake, hactivity]
    rfl
  · have hitem : s.intake.itemSlot? = some n := (Intake.itemSlot?_eq_some_iff _ _).2 ⟨item, .inr hactivity, hslot⟩
    rw [hexec, State.abortSlot_item (s.answer .accepted) n rfl hlists hitem, State.answer_intake, hactivity]
    show Host.Outcome.next { s.answer .accepted with intake.activity := .nullTake item } = _
    rw [← hactivity]
    rfl
  · rw [hexec, State.abortSlot_staged (s.answer .accepted) n rfl hlists hitem hstaged hslot, State.endStaged,
      State.answer_dispatcher, hstaged]
    exact congrArg Host.Outcome.next (if_pos hending)
  · rw [hexec, State.abortSlot_staged (s.answer .accepted) n rfl hlists hitem hstaged hslot, State.endStaged,
      State.answer_dispatcher, hstaged]
    dsimp only
    rw [if_neg (Bool.eq_false_iff.1 hending), ← hslot]
    rfl
  · rw [hexec, State.abortSlot_parked (s.answer .accepted) n rfl hlists hitem hstaged hparked hbefore hslot, State.endParked,
      if_pos hending]
    rfl
  · rw [hexec, State.abortSlot_parked (s.answer .accepted) n rfl hlists hitem hstaged hparked hbefore hslot, State.endParked,
      if_neg (Bool.eq_false_iff.1 hending), ← hslot]
    rfl
  · have hunit : (s.unit u).slot? = some n := (CalcUnit.slot?_eq_some_iff _ _).2 (.inr ⟨item, hactivity, hslot⟩)
    rw [hexec, State.abortSlot_unit (s.answer .accepted) n rfl hlists hitem hstaged hparked hother (u := u)
      (by cases u <;> exact hunit), State.abortUnit_ending (s.answer .accepted) u (by cases u <;> exact hactivity)]
    cases u <;> rfl
  · have hunit : (s.unit u).slot? = some n :=
      (CalcUnit.slot?_eq_some_iff _ _).2 (.inl ⟨job, step, done, phase, hactivity, hslot⟩)
    rw [hexec, State.abortSlot_unit (s.answer .accepted) n rfl hlists hitem hstaged hparked hother (u := u)
      (by cases u <;> exact hunit)]
    obtain ⟨o, habort, hsome, hnone⟩ := State.abortUnit_iterating (s.answer .accepted) u
      (by cases u <;> exact hactivity)
    refine ⟨o, ?_, hsome, hnone⟩
    rw [habort, hslot]
    cases u <;> rfl

end Sys2Proof.Machine
end

section
/-! Loading (R155, R164 to R168), the ends of writes (R140 to R145), and the drain (R82, R170 to R172). -/

namespace Sys2Proof.Machine

/-! ### START -/

theorem State.loaderRequest_some (s : State) {l : Loader} (h : s.control.loader = some l) :
    s.loaderRequest = some ⟨.config l.block, l.address.toNat + 64 * l.block.val, .read 64, false⟩ := by
  rw [State.loaderRequest, h]
  rfl

/-- With no entry in the buffer the Loader gets the free port. -/
theorem State.arbitrate_loader (s : State) {l : Loader} (hr : s.control.rst = false) (hw : s.control.resetWait = false)
    (hl : s.control.loader = some l) (hport : s.port.outstanding = none) (hb : s.writer.buffer = [])
    (hj : s.writer.joining = []) :
    s.arbitrate = { s with
      port.outstanding := some ⟨.config l.block, l.address.toNat + 64 * l.block.val, .read 64, false⟩ } := by
  have hwriter : s.writerRequest = none := by
    rw [State.writerRequest, hb]
    cases s.control.config <;> rfl
  have hchoice : s.arbiterChoice = some ⟨.config l.block, l.address.toNat + 64 * l.block.val, .read 64, false⟩ := by
    rw [State.arbiterChoice, hwriter, s.loaderRequest_some hl]
    rfl
  rw [State.arbitrate, if_pos (s.acts_of_released hr hw), s.discardHead_nil hb, State.grant, hport, hj, hchoice]
  rfl

theorem loadAddressValid_eq_true (a : Word) (h64 : a.toNat % 64 = 0) (hend : a.toNat + 191 ≤ 0xFFFFFFFF) :
    loadAddressValid a = true := by
  rw [loadAddressValid, Bool.and_eq_true, decide_eq_true_eq, decide_eq_true_eq, Config.configBlockBytes,
    Config.addressSpace]
  omega

theorem State.beginLoad_of_valid (s : State) (h : loadAddressValid s.control.configAddress = true) :
    s.beginLoad = State.arbitrate { s with
      control.state := .loading, control.config := none
      control.loader := some ⟨s.control.configAddress, 0, []⟩ } := by
  unfold State.beginLoad
  dsimp only
  rw [if_pos h]

/-! ### The three reads -/

/-- R155: T and H taken in, FINISH by the new T, and the timer afresh for a queue that holds an entry. -/
theorem Notifier.load_eq (n : Notifier) (threshold holdoff : Nat) :
    n.load threshold holdoff = { n with
      threshold := threshold, holdoff := holdoff
      flags.finish := n.flags.finish || decide (threshold ≤ n.harvest.length)
      holdoffTimer := if n.harvest ≠ [] ∧ holdoff ≠ 0 then some holdoff else none } := by
  by_cases hreached : threshold ≤ n.harvest.length
  all_goals
    by_cases hempty : n.harvest = []
    · rw [hempty] at hreached
      simp_all [Notifier.load, Notifier.reached]
    · by_cases hholdoff : holdoff = 0
      · simp [Notifier.load, Notifier.reached, Notifier.startTimer, hreached, hempty, hholdoff]
      · simp [Notifier.load, Notifier.reached, Notifier.startTimer, hreached, hempty, hholdoff]

/-- R165: a block that is not the last leaves the next one to read. -/
theorem State.loaderRead_next (s : State) (data : List Byte) {l : Loader} (hl : s.control.loader = some l)
    (next : Fin 3) (h : l.block.val + 1 = next.val) :
    s.loaderRead data = { s with
      control.loader := some ⟨l.address, next, Memory.writeBytes l.copy (64 * l.block.val) data⟩ } := by
  obtain ⟨k, hk⟩ := next
  cases h
  rw [State.loaderRead, hl]
  exact dif_pos hk

/-- R166: after the last block the checks decide. -/
theorem State.loaderRead_last (s : State) (data : List Byte) {l : Loader} (hl : s.control.loader = some l)
    (h : ¬l.block.val + 1 < 3) :
    s.loaderRead data =
      match checkConfiguration l.address (Memory.writeBytes l.copy (64 * l.block.val) data) with
      | some f => s.loadFailed (.configInvalid f)
      | none => s.loadSucceeded (blockConfiguration (Memory.writeBytes l.copy (64 * l.block.val) data)) := by
  rw [State.loaderRead, hl]
  exact dif_neg h

/-- Settles O8: START by its load address, a read's end by the block read and, at the last, by the checks. -/
theorem loadReadsThreeBlocks : Obligations.LoadReadsThreeBlocks := by
  refine ⟨fun s hr hw hstate => ⟨fun h64 hend => ⟨?_, fun hport hb hj => ?_⟩, fun haddress => ?_⟩,
    fun s host l tr hwait hport hpurpose htransfer hl => ⟨fun hblock => ?_, fun hblock => ?_, fun hblock f hcheck => ?_,
      fun hblock hcheck => ?_, ?_⟩⟩
  · rw [exec_start s hr hw hstate, State.beginLoad_of_valid (s.answer .accepted) (loadAddressValid_eq_true _ h64 hend)]
    rfl
  · have hgrant := State.arbitrate_loader { s with
      control.outcome := .accepted, control.state := .loading, control.config := none
      control.loader := some ⟨s.control.configAddress, 0, []⟩ } hr hw rfl hport hb hj
    rw [exec_start s hr hw hstate, State.beginLoad_of_valid (s.answer .accepted) (loadAddressValid_eq_true _ h64 hend)]
    exact congrArg Host.Outcome.next hgrant
  · rw [exec_start s hr hw hstate, State.beginLoad_of_invalid (s.answer .accepted) (loadAddressValid_eq_false _ haddress)]
    rfl
  all_goals
    have hend (t : State) (h : State.loaderRead { s with port.outstanding := none, memory := Memory.hostWrote s.memory host }
        (Memory.readBytes (Memory.hostWrote s.memory host) tr.address 64) = t) :
        exec (.loaderReadDone host) s = .next (s.portFreed t) := by
      refine congrArg Host.Outcome.next ?_
      rw [State.respondOk_acted s host _ hwait hport (by rw [hpurpose]; rfl), State.endedOk_read s host htransfer,
        State.dataOf_read _ htransfer, h]
    have hnext := State.loaderRead_next { s with port.outstanding := none, memory := Memory.hostWrote s.memory host }
      (Memory.readBytes (Memory.hostWrote s.memory host) tr.address 64) hl
    have hlast := State.loaderRead_last { s with port.outstanding := none, memory := Memory.hostWrote s.memory host }
      (Memory.readBytes (Memory.hostWrote s.memory host) tr.address 64) hl
  · exact hend _ (hnext 1 (by rw [hblock]; rfl))
  · exact hend _ (hnext 2 (by rw [hblock]; rfl))
  · refine hend _ ((hlast (by rw [hblock]; decide)).trans ?_)
    rw [hcheck]
    rfl
  · refine hend _ ((hlast (by rw [hblock]; decide)).trans ?_)
    rw [hcheck]
    dsimp only
    rw [State.loadSucceeded, Notifier.load_eq]
  · refine congrArg Host.Outcome.next ?_
    rw [State.respondFail_routed s .error hwait hport (by rw [hpurpose]; rfl), State.endedFailed_read s htransfer,
      State.routeFailure, hpurpose]
    rfl

/-! ### The ends of writes -/

/-- R156: the entry joins the queue, FINISH follows the count, and the first entry starts the timer. -/
theorem Notifier.append_eq (n : Notifier) (e : HarvestEntry) :
    n.append e = { n with
      harvest := n.harvest ++ [e]
      flags.finish := n.flags.finish || decide (n.threshold ≤ n.harvest.length + 1)
      holdoffTimer := if n.harvest = [] ∧ n.holdoff ≠ 0 then some n.holdoff else n.holdoffTimer } := by
  by_cases hempty : n.harvest = []
  · by_cases hone : n.threshold ≤ 1
    all_goals
      by_cases hholdoff : n.holdoff = 0
      · simp [Notifier.append, Notifier.reached, Notifier.startTimer, hempty, hone, hholdoff]
      · simp [Notifier.append, Notifier.reached, Notifier.startTimer, hempty, hone, hholdoff]
  · by_cases hreached : n.threshold ≤ n.harvest.length + 1
    · simp [Notifier.append, Notifier.reached, hempty, hreached]
    · simp [Notifier.append, Notifier.reached, hempty, hreached]

theorem State.jobDone_completion (s : State) {item : CompletionItem} {area : Bool} {rest : List WriterEntry}
    (h : s.writer.buffer = .completion item area :: rest) :
    s.jobDone = State.presentTaken { s with
      writer.buffer := rest
      writer.table := s.writer.table.filter fun r => r.ticket ≠ item.ticket
      dispatcher.outstanding := s.dispatcher.outstanding.erase item.ticket
      dispatcher.freed := s.dispatcher.freed.take s.dispatcher.available
      notifier := s.notifier.append ⟨item.slot, s.writer.writtenStatus item, item.tag⟩ } := by
  rw [State.jobDone, h]
  rfl

/-- Settles O45: each end of a write by the entry at the head of the buffer. -/
theorem writesEndOk : Obligations.WritesEndOk := by
  refine ⟨fun s tr bytes rest hwait hport htransfer =>
      ⟨fun n t k p tag hpurpose hb => congrArg Host.Outcome.next ?_,
        fun t i j w hpurpose hb => congrArg Host.Outcome.next ?_⟩,
    fun s tr bytes item area rest hwait hport htransfer hb =>
      ⟨fun n hpurpose => congrArg Host.Outcome.next ?_, fun n hpurpose => congrArg Host.Outcome.next ?_⟩,
    fun _ _ => rfl⟩
  all_goals
    rw [State.respondOk_acted s [] _ hwait hport (by rw [hpurpose]; rfl), State.endedOk_write s htransfer]
  · rw [State.stateWritten, hb]
  · rw [State.destinationWritten, hb]
    rfl
  · rw [State.areaWritten, hb]
  · have hdone := State.jobDone_completion
      { s with port.outstanding := none, memory := Memory.writeBytes s.memory tr.address bytes } hb
    rw [hdone, Notifier.append_eq]

/-! ### The drain -/

/-- R82: only a sweep ends, and only one whose read is not in flight. -/
theorem State.endSweep_cases (s : State) :
    ((∀ k, s.intake.activity ≠ .sweeping k) → s.endSweep = s.intake.activity) ∧
    ∀ k, s.intake.activity = .sweeping k →
      ((∃ tr j, s.port.outstanding = some tr ∧ tr.purpose = .sweep j) → s.endSweep = .sweeping k) ∧
      ((∀ tr j, s.port.outstanding = some tr → tr.purpose ≠ .sweep j) → s.endSweep = .idle) := by
  refine ⟨fun h => ?_, fun k hactivity => ⟨?_, fun h => ?_⟩⟩
  · rw [State.endSweep]
    cases hactivity : s.intake.activity with
    | sweeping k => exact absurd hactivity (h k)
    | _ => rfl
  · rintro ⟨⟨purpose, address, transfer, abandoned⟩, j, hport, rfl⟩
    rw [State.endSweep, hactivity, hport]
  · rw [State.endSweep, hactivity]
    dsimp only
    split
    · rename_i hport
      exact absurd rfl (h _ _ hport)
    · rfl

theorem Intake.reportsIdle_iff (i : Intake) :
    i.reportsIdle = true ↔ i.activity = .idle ∧ ∀ e ∈ i.urgent, e.source ≠ .abort := by
  simp [Intake.reportsIdle]

theorem CalcUnit.isIdle_iff (c : CalcUnit) : c.isIdle = true ↔ c.activity = .idle := by
  cases h : c.activity <;> simp [CalcUnit.isIdle, h]

theorem State.dispatcherEmpty_iff (s : State) :
    s.dispatcherEmpty = true ↔ s.dispatcher.staged = none ∧ s.dispatcher.parked = [] ∧ s.unit0.activity = .idle ∧
      s.unit1.activity = .idle ∧ s.dispatcher.items = [] := by
  simp only [State.dispatcherEmpty, Bool.and_eq_true, Option.isNone_iff_eq_none, List.isEmpty_iff, CalcUnit.isIdle_iff,
    and_assoc]

theorem State.drained_iff (s : State) (hr : s.control.rst = false) (hw : s.control.resetWait = false)
    (hstate : s.control.state = .draining ∨ s.control.state = .aborting) :
    s.drained = true ↔ s.intake.activity = .idle ∧ (∀ e ∈ s.intake.urgent, e.source ≠ .abort) ∧
      s.dispatcher.staged = none ∧ s.dispatcher.parked = [] ∧ s.unit0.activity = .idle ∧ s.unit1.activity = .idle ∧
      s.dispatcher.items = [] ∧ s.writer.buffer = [] := by
  simp only [State.drained, Bool.and_eq_true, Bool.or_eq_true, decide_eq_true_eq, State.dispatcherEmpty_iff,
    Intake.reportsIdle_iff, List.isEmpty_iff, and_assoc, s.acts_of_released hr hw, hstate, true_and]

/-- Settles O9: the drain's sweep is `State.endSweep_cases`, its end `State.drained_iff`. -/
theorem drainBeginsAndCompletes : Obligations.DrainBeginsAndCompletes := by
  refine ⟨fun s hr hw hstate => ⟨s.endSweep, ?_, s.endSweep_cases⟩, fun s hr hw hstate => ?_⟩
  · exact congrArg Host.Outcome.next (s.command_accepted _ _ hr hw (decide_eq_true hstate))
  · have hdrained := s.drained_iff hr hw hstate
    split_ifs with h
    · exact congrArg Host.Outcome.next (if_pos (hdrained.2 h))
    · exact congrArg Host.Outcome.next (if_neg (mt hdrained.1 h))

end Sys2Proof.Machine
end

section
/-! The registers: the fields of their words (11.2, R184, R185), the HARVEST read (R150), and bus accesses (R183). -/

namespace Sys2Proof.Machine

/-! ### Fields of a word -/

/-- A word of a field and lower fields: the fields do not overlap, so their join is a sum. -/
theorem toNat_or_lower {hi lo : Word} {a b : Nat} (p k : Nat) (hhi : hi.toNat = 2 ^ (p + k) * a) (hlo : lo.toNat = 2 ^ p * b)
    (hb : b < 2 ^ k) : (hi ||| lo).toNat = 2 ^ p * (2 ^ k * a + b) := by
  have hlt : 2 ^ p * b < 2 ^ (p + k) := by
    rw [Nat.pow_add]
    exact Nat.mul_lt_mul_of_pos_left hb (Nat.two_pow_pos p)
  rw [BitVec.toNat_or, hhi, hlo, ← Nat.two_pow_add_eq_or_of_lt hlt, Nat.pow_add]
  ring

/-- The next field down, of k bits at position p. -/
theorem toNat_or_field {hi : Word} {a v : Nat} (p k : Nat) (hhi : hi.toNat = 2 ^ (p + k) * a) (hv : v < 2 ^ k)
    (hpk : p + k ≤ 32) : (hi ||| field v p).toNat = 2 ^ p * (2 ^ k * a + v) := by
  refine toNat_or_lower p k hhi (toNat_field v p ?_) hv
  calc v * 2 ^ p < 2 ^ k * 2 ^ p := Nat.mul_lt_mul_of_pos_right hv (Nat.two_pow_pos p)
    _ = 2 ^ (p + k) := by rw [Nat.pow_add, Nat.mul_comm]
    _ ≤ 2 ^ 32 := Nat.pow_le_pow_right (by omega) hpk

theorem toNat_extractLsb' (w : Word) (start len : Nat) : (w.extractLsb' start len).toNat = w.toNat / 2 ^ start % 2 ^ len := by
  rw [BitVec.extractLsb'_toNat, Nat.shiftRight_eq_div_pow]

theorem getLsbD_of_toNat {w : Word} {i : Nat} {b : Bool} (h : w.toNat / 2 ^ i % 2 = b.toNat) : w.getLsbD i = b := by
  rw [BitVec.getLsbD, Nat.testBit_eq_decide_div_mod_eq, h]
  cases b <;> rfl

/-- 11.2: the four flag bits as a number. -/
theorem CauseBits.toNat_word (c : CauseBits) :
    c.word.toNat = 2 ^ 4 * (8 * c.fault.toNat + 4 * c.halted.toNat + 2 * c.stopped.toNat + c.finish.toNat) := by
  obtain ⟨finish, stopped, halted, fault⟩ := c
  revert finish stopped halted fault
  decide

theorem State.unitsBusy_lt (s : State) : s.unitsBusy < 4 := by
  have h0 := Bool.toNat_lt (!s.unit0.isIdle)
  have h1 := Bool.toNat_lt (!s.unit1.isIdle)
  unfold State.unitsBusy
  omega

/-- 11.2: the fields of STATUS, each below its width, as one number. -/
theorem State.toNat_readStatus (s : State) (hharvest : s.notifier.harvest.length ≤ 64) (hbuffer : s.writer.buffer.length ≤ 8)
    (hparked : s.dispatcher.parked.length ≤ 2) (hpending : s.pendingCount ≤ 64) :
    s.readStatus.toNat = 2 ^ 24 * s.notifier.harvest.length + 2 ^ 20 * s.writer.buffer.length +
      2 ^ 18 * s.dispatcher.parked.length + 2 ^ 16 * s.unitsBusy + 2 ^ 8 * s.pendingCount +
      2 ^ 4 * (8 * s.notifier.flags.fault.toNat + 4 * s.notifier.flags.halted.toNat +
        2 * s.notifier.flags.stopped.toNat + s.notifier.flags.finish.toNat) + s.control.state.code := by
  have hcode := s.control.state.code_lt
  have hbusy := s.unitsBusy_lt
  have hfault := Bool.toNat_lt s.notifier.flags.fault
  have hhalted := Bool.toNat_lt s.notifier.flags.halted
  have hstopped := Bool.toNat_lt s.notifier.flags.stopped
  have hfinish := Bool.toNat_lt s.notifier.flags.finish
  have h24 := toNat_field s.notifier.harvest.length 24 (by omega)
  have h20 := toNat_or_field 20 4 (v := s.writer.buffer.length) h24 (by omega) (by omega)
  have h18 := toNat_or_field 18 2 (v := s.dispatcher.parked.length) h20 (by omega) (by omega)
  have h16 := toNat_or_field 16 2 (v := s.unitsBusy) h18 (by omega) (by omega)
  have h8 := toNat_or_field 8 8 (v := s.pendingCount) h16 (by omega) (by omega)
  have h4 := toNat_or_lower 4 4 h8 s.notifier.flags.toNat_word (by omega)
  have h0 := toNat_or_field 0 4 (v := s.control.state.code) h4 (by omega) (by omega)
  rw [State.readStatus, h0]
  ring

/-- R185: the fields of a filled record, each below its width, as one number. -/
theorem State.toNat_readFault (s : State) {r : FaultReport} (h : s.control.faultRecord = some r)
    (hkind : r.fields.kind < 16) (hrequester : r.fields.requester < 4) (hslot : r.fields.slot < 64)
    (hposition : r.fields.position < 32) (hdetail : r.fields.detail < 16) (hcode : r.fields.fieldCode < 256) :
    s.readFault.toNat = 2 ^ 31 + 2 ^ 30 * s.control.more.toNat + 2 ^ 26 * r.fields.kind + 2 ^ 24 * r.fields.requester +
      2 ^ 18 * r.fields.slot + 2 ^ 13 * r.fields.position + 2 ^ 8 * r.fields.detail + r.fields.fieldCode := by
  have hmore := Bool.toNat_lt s.control.more
  have h31 := toNat_field 1 31 (by omega)
  have h30 := toNat_or_field 30 1 (v := s.control.more.toNat) h31 (by omega) (by omega)
  have h26 := toNat_or_field 26 4 (v := r.fields.kind) h30 (by omega) (by omega)
  have h24 := toNat_or_field 24 2 (v := r.fields.requester) h26 (by omega) (by omega)
  have h18 := toNat_or_field 18 6 (v := r.fields.slot) h24 (by omega) (by omega)
  have h13 := toNat_or_field 13 5 (v := r.fields.position) h18 (by omega) (by omega)
  have h8 := toNat_or_field 8 5 (v := r.fields.detail) h13 (by omega) (by omega)
  have h0 := toNat_or_field 0 8 (v := r.fields.fieldCode) h8 (by omega) (by omega)
  rw [State.readFault, h]
  dsimp only
  rw [h0]
  ring

/-- What FAULT reads as, by the fields' values. -/
def faultReads (w : Word) (more : Bool) (f : FaultFields) : Prop :=
  w.getLsbD 31 = true ∧ w.getLsbD 30 = more ∧ (w.extractLsb' 26 4).toNat = f.kind ∧
  (w.extractLsb' 24 2).toNat = f.requester ∧ (w.extractLsb' 18 6).toNat = f.slot ∧
  (w.extractLsb' 13 5).toNat = f.position ∧ w.getLsbD 12 = false ∧ (w.extractLsb' 8 4).toNat = f.detail ∧
  (w.extractLsb' 0 8).toNat = f.fieldCode

theorem State.readFault_reads (s : State) {r : FaultReport} (h : s.control.faultRecord = some r)
    {kind requester slot position detail code : Nat} (hfields : r.fields = ⟨kind, requester, slot, position, detail, code⟩)
    (hkind : kind < 16) (hrequester : requester < 4) (hslot : slot < 64) (hposition : position < 32) (hdetail : detail < 16)
    (hcode : code < 256) :
    faultReads (s.readRegister .fault) s.control.more ⟨kind, requester, slot, position, detail, code⟩ := by
  have hmore := Bool.toNat_lt s.control.more
  have hword := s.toNat_readFault h (by rwa [hfields]) (by rwa [hfields]) (by rwa [hfields]) (by rwa [hfields])
    (by rwa [hfields]) (by rwa [hfields])
  rw [hfields] at hword
  refine ⟨getLsbD_of_toNat ?_, getLsbD_of_toNat ?_, ?_, ?_, ?_, ?_, getLsbD_of_toNat ?_, ?_, ?_⟩
  all_goals
    simp only [toNat_extractLsb', State.readRegister, hword, Bool.toNat_true, Bool.toNat_false]
    omega

theorem RefusalReason.code_lt (r : RefusalReason) : r.code < 16 := by cases r <;> decide

theorem PendingSource.code_lt (p : PendingSource) : p.code < 16 := by cases p <;> decide

theorem FailKind.code_lt (k : FailKind) : k.code < 16 := by cases k <;> decide

theorem CalcUnit.busy_toNat (c : CalcUnit) : (!c.isIdle).toNat = if c.activity = .idle then 0 else 1 := by
  rw [CalcUnit.isIdle]
  cases c.activity <;> rfl

theorem CauseBits.word_mask (c : CauseBits) : c.word &&& 0xFFFFFF0F#32 = 0#32 := by
  obtain ⟨finish, stopped, halted, fault⟩ := c
  revert finish stopped halted fault
  decide

theorem ConfigField.code_lt (f : ConfigField) : f.code < 256 := by cases f <;> norm_num [ConfigField.code]

theorem faultReads_config (s : State) {f : ConfigField} (h : s.control.faultRecord = some (.configInvalid f))
    (hk : f.windowIndex < 8) : faultReads (s.readRegister .fault) s.control.more ⟨3, 1, 0, 0, f.windowIndex, f.code⟩ :=
  s.readFault_reads h rfl (by decide) (by decide) (by decide) (by decide) (Nat.lt_trans hk (by decide)) f.code_lt

/-- Settles O21: each register's fields from its word as a number, and the codes by their lists. -/
theorem registerLayouts : Obligations.RegisterLayouts := by
  refine ⟨fun s hharvest hbuffer hparked hpending => ?_, fun s => ?_, fun s r h => ?_, rfl, rfl, rfl, rfl, rfl, rfl⟩
  · have hcode := s.control.state.code_lt
    have hbusy := s.unitsBusy_lt
    have hfault := Bool.toNat_lt s.notifier.flags.fault
    have hhalted := Bool.toNat_lt s.notifier.flags.halted
    have hstopped := Bool.toNat_lt s.notifier.flags.stopped
    have hfinish := Bool.toNat_lt s.notifier.flags.finish
    have hword := s.toNat_readStatus hharvest hbuffer hparked hpending
    have hcount : s.pendingCount ≤ 64 := hpending
    refine ⟨?_, ?_, ?_, ?_, ?_, getLsbD_of_toNat ?_, getLsbD_of_toNat ?_, getLsbD_of_toNat ?_, getLsbD_of_toNat ?_, ?_,
      getLsbD_of_toNat ?_, getLsbD_of_toNat ?_, getLsbD_of_toNat ?_⟩
    case refine_5 =>
      show _ = s.pendingCount
      simp only [toNat_extractLsb', State.readRegister, hword]
      omega
    all_goals
      simp only [toNat_extractLsb', State.readRegister, hword, Bool.toNat_false]
      omega
  · have hcode := s.control.state.code_lt
    have houtcome := s.control.outcome.code_lt
    have hword := s.readControl_toNat
    refine ⟨s.readControl_fields.1, s.readControl_fields.2, BitVec.eq_of_toNat_eq ?_, BitVec.eq_of_toNat_eq ?_,
      s.control.enables.word_mask, rfl, rfl, fun hnone => ?_, ?_⟩
    · show (s.readControl.extractLsb' 3 5).toNat = 0
      rw [toNat_extractLsb', hword]
      omega
    · show (s.readControl.extractLsb' 11 21).toNat = 0
      rw [toNat_extractLsb', hword]
      omega
    · rw [State.readRegister, State.readFault, hnone]
    · rw [State.unitsBusy, CalcUnit.busy_toNat, CalcUnit.busy_toNat]
  · cases r with
    | postRefused n reason =>
      exact s.readFault_reads h rfl (by decide) (by decide) n.isLt (by decide) reason.code_lt (by decide)
    | stalePost n source =>
      exact s.readFault_reads h rfl (by decide) (by decide) n.isLt (by decide) source.code_lt (by decide)
    | configInvalid f =>
      cases f with
      | windowRights k => exact fun hk => faultReads_config s h hk
      | windowLength k => exact fun hk => faultReads_config s h hk
      | windowBase k => exact fun hk => faultReads_config s h hk
      | _ => exact faultReads_config s h (by decide)
    | configBusError b kind =>
      exact s.readFault_reads h rfl (by decide) (by decide) (by decide) (show 4 * b.val < 32 by omega) kind.code_lt (by decide)
    | fatalIntake n b kind =>
      exact fun hb => s.readFault_reads h rfl (by decide) (by decide) n.isLt (show 4 * b < 32 by omega) kind.code_lt (by decide)
    | fatalWriter n area kind =>
      exact s.readFault_reads h rfl (by decide) (by decide) n.isLt (by cases area <;> decide) kind.code_lt (by decide)

/-! ### The HARVEST word -/

theorem JobStatus.code_lt (j : JobStatus) : j.code < 8 := by cases j <;> decide

theorem toNat_harvestWordOf (e : HarvestEntry) (rest : List HarvestEntry) :
    (harvestWordOf (e :: rest)).toNat = 2 ^ 31 + 2 ^ 24 * e.status.code + 2 ^ 16 * e.slot.val + e.tag.toNat := by
  have hcode := e.status.code_lt
  have h31 := toNat_field 1 31 (by omega)
  have h24 := toNat_or_field 24 7 (v := e.status.code) h31 (by omega) (by omega)
  have h16 := toNat_or_field 16 8 (v := e.slot.val) h24 (by omega) (by omega)
  have h0 := toNat_or_field 0 16 (v := e.tag.toNat) h16 e.tag.isLt (by omega)
  rw [harvestWordOf, h0]
  ring

theorem laneValue_whole (w : Word) : laneValue w .whole = w := by
  show (w.extractLsb' 0 32).setWidth 32 = w
  rw [BitVec.extractLsb'_eq_self, BitVec.setWidth_eq]

/-- R64: the places of a slot before the harvest queue. -/
def State.heldBeforeHarvest (s : State) : List Slot :=
  s.intake.pendingSlots ++ s.intake.itemSlot?.toList ++ (s.dispatcher.staged.map (·.job.slot)).toList ++
  s.unit0.slot?.toList ++ s.unit1.slot?.toList ++ s.dispatcher.parked.map (·.job.slot) ++ s.writer.completionSlots

theorem State.heldSlots_eq (s : State) : s.heldSlots = s.heldBeforeHarvest ++ s.notifier.harvest.map (·.slot) := rfl

theorem exec_harvestRead (s : State) (lanes : Lanes) :
    exec (.harvestRead lanes) s = .next { s with
      control.harvestWord := laneValue (harvestWordOf s.notifier.harvest) lanes
      notifier.harvest := s.notifier.harvest.tail } := rfl

/-- Settles O16: the word's fields by `toNat_harvestWordOf`. -/
theorem harvestReadTakesTheHead : Obligations.HarvestReadTakesTheHead := by
  refine ⟨fun s e rest h => ⟨harvestWordOf (e :: rest), ?_, fun lanes => ?_, ?_⟩, fun s lanes h => ?_,
    fun s lanes v c hc => ?_, rfl, fun s lanes t ht => ?_⟩
  · rw [exec_harvestRead, h, laneValue_whole]
    rfl
  · rw [exec_harvestRead, h]
    rfl
  · have hcode := e.status.code_lt
    have htag := e.tag.isLt
    have hword := toNat_harvestWordOf e rest
    refine ⟨getLsbD_of_toNat ?_, ?_, ?_, BitVec.eq_of_toNat_eq ?_, BitVec.eq_of_toNat_eq ?_, BitVec.eq_of_toNat_eq ?_,
      fun hnodup => ?_⟩
    case refine_7 =>
      rw [State.heldSlots_eq, h] at hnodup
      exact (List.nodup_cons.1 (List.nodup_middle.1 hnodup)).1
    case refine_5 =>
      show _ = 0
      rw [toNat_extractLsb', hword]
      omega
    case refine_6 =>
      show _ = 0
      rw [toNat_extractLsb', hword]
      omega
    all_goals
      simp only [toNat_extractLsb', hword, Bool.toNat_true]
      omega
  · rw [exec_harvestRead, h]
    have hzero : laneValue (harvestWordOf []) lanes = 0#32 := by
      simp [laneValue, harvestWordOf]
    rw [hzero, List.tail_nil, ← h]
  · have hwrite : registerWrite .harvest lanes v = [.ignoredRegisterWrite .harvest lanes v] := by
      simp [registerWrite]
    rw [hwrite, List.mem_singleton] at hc
    rw [hc]
    rfl
  · cases ht
    exact ⟨rfl, rfl, rfl⟩

/-! ### Bus accesses -/

theorem registerWrite_ignored (r : Register) (lanes : Lanes) (v : Word)
    (h : lanes ≠ ⟨0, 3⟩ ∨ r = .ident ∨ r = .harvest ∨ r = .fault) :
    registerWrite r lanes v = [.ignoredRegisterWrite r lanes v] := by
  rcases h with h | rfl | rfl | rfl
  · exact registerWrite_narrow r lanes v h
  all_goals simp [registerWrite]

theorem controlWrite_code (v : Word) : (v.setWidth 4 : BitVec 4).toNat = v.toNat % 16 := BitVec.toNat_setWidth ..

/-- 11.2: codes 0 and 7 to 15 name no command. -/
theorem controlWrite_of_unnamed (v : Word) (h : v.toNat % 16 = 0 ∨ 7 ≤ v.toNat % 16) :
    controlWrite v = .unnamedCommandCode (v.setWidth 4) := by
  have hcode := controlWrite_code v
  unfold controlWrite
  dsimp only
  split
  case h_7 => rfl
  all_goals omega

theorem registerWrite_post (v : Word) :
    ∃ n p, registerWrite .post .whole v = [.postArrival n p] ∧ n.val = v.toNat % 64 ∧
      (p = .urgent ↔ v.getLsbD 8 = true) := by
  refine ⟨_, _, rfl, ?_, ?_⟩
  · show (v.extractLsb' 0 6).toNat = _
    rw [toNat_extractLsb']
    omega
  · cases v.getLsbD 8 <;> simp

theorem accessWidth_bytes_le (width : AccessWidth) : width.bytes ≤ 4 := by cases width <;> decide

section
variable {offset : Fin 32} {width : AccessWidth}

/-- An access within one register is one of that register. -/
theorem bus_one {lanes : Lanes} (hf : lanes.first.val = offset.val % 4)
    (hl : lanes.last.val + 1 = offset.val % 4 + width.bytes) :
    (∀ v, busWrite offset width v = registerWrite (registerAt offset) lanes v) ∧
    busReadCommands offset width = registerRead (registerAt offset) lanes ∧
    ∀ s : State, s.busRead offset width = laneValue (s.readRegister (registerAt offset)) lanes := by
  have hparts := accessParts_one offset width lanes hf hl
  refine ⟨fun v => ?_, ?_, fun s => ?_⟩
  · rw [busWrite, hparts, List.flatMap_singleton]
  · rw [busReadCommands, hparts, List.flatMap_singleton]
  · rw [State.busRead, hparts, List.foldr_cons, List.foldr_nil, BitVec.zero_shiftLeft, BitVec.or_zero]

/-- An access past the window's end is a narrow one of the last register. -/
theorem bus_end {lower : Lanes} (hn : 28 ≤ offset.val) (hf : lower.first.val = offset.val % 4) (hl : lower.last = 3)
    (hc : 4 < offset.val % 4 + width.bytes) :
    (∀ v, busWrite offset width v = registerWrite (registerAt offset) lower v) ∧
    busReadCommands offset width = registerRead (registerAt offset) lower ∧
    ∀ s : State, s.busRead offset width = laneValue (s.readRegister (registerAt offset)) lower := by
  have hparts := accessParts_end offset width lower hn hf hl hc
  refine ⟨fun v => ?_, ?_, fun s => ?_⟩
  · rw [busWrite, hparts, List.flatMap_singleton]
  · rw [busReadCommands, hparts, List.flatMap_singleton]
  · rw [State.busRead, hparts, List.foldr_cons, List.foldr_nil, BitVec.zero_shiftLeft, BitVec.or_zero]

/-- An access that runs on is a narrow one of each of two registers. -/
theorem bus_two {next : Fin 32} {lower upper : Lanes} (hn : next.val = offset.val + 4)
    (hf : lower.first.val = offset.val % 4) (hl : lower.last = 3) (hu : upper.first = 0)
    (hc : upper.last.val + 5 = offset.val % 4 + width.bytes) :
    (∀ v, busWrite offset width v =
      registerWrite (registerAt offset) lower v ++ registerWrite (registerAt next) upper v) ∧
    busReadCommands offset width = registerRead (registerAt offset) lower ++ registerRead (registerAt next) upper ∧
    ∀ s : State, s.busRead offset width = laneValue (s.readRegister (registerAt offset)) lower |||
      laneValue (s.readRegister (registerAt next)) upper <<< (8 * lower.count) := by
  have hparts := accessParts_two offset next width lower upper hn hf hl hu hc
  refine ⟨fun v => ?_, ?_, fun s => ?_⟩
  · rw [busWrite, hparts, List.flatMap_cons, List.flatMap_singleton]
  · rw [busReadCommands, hparts, List.flatMap_cons, List.flatMap_singleton]
  · rw [State.busRead, hparts, List.foldr_cons, List.foldr_cons, List.foldr_nil, BitVec.zero_shiftLeft, BitVec.or_zero]

end

theorem registerAt_last (offset : Fin 32) (h : 28 ≤ offset.val) : registerAt offset = .interruptEnable := by
  revert offset
  decide

/-- Settles O20: writes by register and code, accesses by the parts that `bus_one`, `bus_two` and `bus_end` give them. -/
theorem registerWritesTakeTheirFields : Obligations.RegisterWritesTakeTheirFields := by
  refine ⟨fun r lanes v s h => ⟨registerWrite_ignored r lanes v h, rfl⟩, registerWrite_post, fun _ => rfl, fun _ => rfl,
    fun v => ⟨controlWrite v, rfl, ?_, ?_, ?_, ?_, ?_, ?_, fun h => ⟨_, controlWrite_of_unnamed v h⟩⟩, rfl, rfl,
    fun r lanes => by cases r <;> rfl, fun offset width => ?_⟩
  case refine_4 =>
    intro h
    refine ⟨(v.extractLsb' 8 6).toFin, ?_, toNat_extractLsb' v 8 6⟩
    simp only [controlWrite, controlWrite_code, h]
  case refine_7 =>
    have hbytes := accessWidth_bytes_le width
    refine ⟨by revert offset; decide, fun lanes hf hl => ?_, fun hlong lower hf hl => ⟨fun next upper hn hu hc => ?_,
      fun hn => ?_⟩⟩
    · obtain ⟨hwrite, hread, hvalue⟩ := bus_one hf hl
      refine ⟨hwrite, hread, fun s => ?_⟩
      rw [hvalue, laneValue_eq _ lanes _ _ hf hl]
    · obtain ⟨hwrite, hread, hvalue⟩ := bus_two hn hf hl hu hc
      have hlower : lower ≠ .whole := by
        rintro rfl
        have : (0 : Nat) = offset.val % 4 := hf
        omega
      have hupper : upper ≠ .whole := by
        rintro rfl
        have : 3 + 5 = offset.val % 4 + width.bytes := hc
        omega
      have hlast : lower.last.val + 1 = offset.val % 4 + (4 - offset.val % 4) := by
        rw [hl]
        show 4 = _
        omega
      have hcount : lower.count = 4 - offset.val % 4 := by
        rw [Lanes.count]
        omega
      refine ⟨fun v => ?_, hread, fun s => ?_⟩
      · rw [hwrite, registerWrite_narrow _ _ _ hlower, registerWrite_narrow _ _ _ hupper]
        rfl
      · rw [hvalue, hcount, laneValue_eq _ lower _ _ hf hlast,
          laneValue_eq _ upper 0 (offset.val % 4 + width.bytes - 4) (by rw [hu]; rfl) (by omega)]
    · obtain ⟨hwrite, hread, hvalue⟩ := bus_end hn hf hl hlong
      have hlower : lower ≠ .whole := by
        rintro rfl
        have : (0 : Nat) = offset.val % 4 := hf
        omega
      have hlast : lower.last.val + 1 = offset.val % 4 + (4 - offset.val % 4) := by
        rw [hl]
        show 4 = _
        omega
      refine ⟨fun v => ?_, ?_, fun s => ?_⟩
      · rw [hwrite, registerWrite_narrow _ _ _ hlower]
      · rw [hread, registerAt_last offset hn]
        rfl
      · rw [hvalue, laneValue_eq _ lower _ _ hf hlast]
  all_goals
    intro h
    simp only [controlWrite, controlWrite_code, h]

end Sys2Proof.Machine
end

section
/-! The Loader's checks of a configuration block (R125, R126, R166, 11.4). -/

namespace Sys2Proof.Machine

/-! ### Little-endian fields -/

/-- Two little-endian bytes as a number. -/
theorem Memory.number_two (m : Memory) (a : Nat) :
    Memory.number m a 2 = (Memory.read m a).toNat + 256 * (Memory.read m (a + 1)).toNat := by
  simp [Memory.number, Memory.readBytes, List.range_succ, leNat]

/-- Four little-endian bytes as a number. -/
theorem Memory.number_four (m : Memory) (a : Nat) :
    Memory.number m a 4 = (Memory.read m a).toNat + 256 * (Memory.read m (a + 1)).toNat +
      65536 * ((Memory.read m (a + 2)).toNat + 256 * (Memory.read m (a + 3)).toNat) := by
  simp [Memory.number, Memory.readBytes, List.range_succ, leNat]
  omega

/-- A word takes the four bytes without loss. -/
theorem toNat_ofNat_number (m : Memory) (a : Nat) :
    (BitVec.ofNat 32 (Memory.number m a 4)).toNat = (Memory.read m a).toNat + 256 * (Memory.read m (a + 1)).toNat +
      65536 * ((Memory.read m (a + 2)).toNat + 256 * (Memory.read m (a + 2 + 1)).toNat) := by
  have h0 := (Memory.read m a).isLt
  have h1 := (Memory.read m (a + 1)).isLt
  have h2 := (Memory.read m (a + 2)).isLt
  have h3 := (Memory.read m (a + 3)).isLt
  rw [BitVec.toNat_ofNat, Memory.number_four, Nat.mod_eq_of_lt (by omega)]

theorem blockConfiguration_windows_length (copy : Memory) :
    (blockConfiguration copy).windows.length = blockWindowCount copy := by
  simp [blockConfiguration]

theorem blockConfiguration_window {copy : Memory} {k : Nat} {w : Window}
    (h : (blockConfiguration copy).windows[k]? = some w) : w = blockWindow copy k := by
  rw [blockConfiguration, List.getElem?_map] at h
  obtain ⟨i, hi, rfl⟩ := Option.map_eq_some_iff.1 h
  obtain ⟨_, hk⟩ := List.getElem?_eq_some_iff.1 hi
  rw [List.getElem_range] at hk
  rw [hk]

/-! ### Windows -/

/-- R125: a window without any right. -/
def Window.noRights (w : Window) : Prop := w.read = false ∧ w.write = false

/-- R125: a window without a byte, or past the end of the address space. -/
def Window.badLength (w : Window) : Prop := w.length.toNat = 0 ∨ 0xFFFFFFFF < w.base.toNat + w.length.toNat - 1

/-- The last byte of the slot table. -/
def Configuration.lastByte (c : Configuration) : Nat := c.slotBase.toNat + 512 * c.slotCount - 1

/-- R126: a WRITE window that shares a byte with the slot table. -/
def Configuration.overTable (c : Configuration) (w : Window) : Prop :=
  w.write = true ∧ w.base.toNat ≤ c.lastByte ∧ c.slotBase.toNat ≤ w.base.toNat + w.length.toNat - 1

theorem windowFault_of_noRights (k : Nat) {w : Window} (h : w.noRights) : windowFault k w = some (.windowRights k) := by
  obtain ⟨hread, hwrite⟩ := h
  rw [windowFault, hread, hwrite]
  rfl

theorem Window.badLength_iff (w : Window) : w.badLength ↔ w.length = 0#32 ∨ Config.addressSpace < w.base.toNat + w.length.toNat := by
  rw [Window.badLength, ← BitVec.toNat_inj, Config.addressSpace]
  show _ ↔ w.length.toNat = 0 ∨ _
  have := w.base.isLt
  omega

theorem windowFault_rights (k : Nat) {w : Window} (h : ¬w.noRights) :
    windowFault k w =
      if w.length = 0#32 then some (.windowLength k)
      else if Config.addressSpace < w.base.toNat + w.length.toNat then some (.windowLength k)
      else none := by
  rw [windowFault, if_neg]
  simpa [Window.noRights] using h

theorem windowFault_of_badLength (k : Nat) {w : Window} (hrights : ¬w.noRights) (h : w.badLength) :
    windowFault k w = some (.windowLength k) := by
  rw [windowFault_rights k hrights]
  rcases w.badLength_iff.1 h with h | h
  · rw [if_pos h]
  · split_ifs
    · rfl
    · rfl

theorem windowFault_eq_none_iff (k : Nat) (w : Window) : windowFault k w = none ↔ ¬w.noRights ∧ ¬w.badLength := by
  by_cases hrights : w.noRights
  · simp [windowFault_of_noRights k hrights, hrights]
  by_cases hlength : w.badLength
  · simp [windowFault_of_badLength k hrights hlength, hlength]
  · have h := mt w.badLength_iff.2 hlength
    rw [windowFault_rights k hrights, if_neg fun h0 => h (.inl h0), if_neg fun h1 => h (.inr h1)]
    exact iff_of_true rfl ⟨hrights, hlength⟩

/-- Of a table and a window that each have a byte, sharing one is R126's order of their ends. -/
theorem windowOverTable_eq (c : Configuration) (k : Nat) {w : Window} [Decidable (c.overTable w)] (hc : 1 ≤ c.slotCount)
    (hw : ¬w.badLength) : windowOverTable c k w = if c.overTable w then some (.windowBase k) else none := by
  have hlength : w.length.toNat ≠ 0 := fun h => hw (.inl h)
  have hiff : (w.write && rangesOverlap w.base.toNat w.length.toNat c.slotBase.toNat (Config.slotBytes * c.slotCount)) =
      true ↔ c.overTable w := by
    rw [Configuration.overTable, Configuration.lastByte, Bool.and_eq_true, rangesOverlap, Bool.and_eq_true,
      decide_eq_true_eq, decide_eq_true_eq, Config.slotBytes]
    exact and_congr_right fun _ => by omega
  rw [windowOverTable]
  exact if_congr hiff rfl rfl

/-- The first window whose check fails names the fault. -/
theorem firstWindowFault_at (check : Nat → Window → Option ConfigField) (i : Nat) {ws : List Window} {k : Nat} {w : Window}
    {f : ConfigField} (hw : ws[k]? = some w) (hbefore : ∀ j, ∀ v ∈ ws.take k, check j v = none)
    (hf : check (i + k) w = some f) : firstWindowFault check i ws = some f := by
  induction ws generalizing i k with
  | nil => cases hw
  | cons v ws ih =>
    rw [firstWindowFault]
    cases k with
    | zero =>
      obtain rfl : v = w := Option.some.inj hw
      rw [show check i v = some f from hf]
    | succ k =>
      rw [hbefore i v (by simp)]
      refine ih (i + 1) hw (fun j u hu => hbefore j u (by simp [hu])) ?_
      rwa [Nat.add_assoc, Nat.add_comm 1 k]

theorem firstWindowFault_eq_none_iff {check : Nat → Window → Option ConfigField} {P : Window → Prop} (i : Nat)
    {ws : List Window} (h : ∀ j, ∀ v ∈ ws, check j v = none ↔ P v) :
    firstWindowFault check i ws = none ↔ ∀ v ∈ ws, P v := by
  induction ws generalizing i with
  | nil => exact iff_of_true rfl nofun
  | cons v ws ih =>
    rw [firstWindowFault, List.forall_mem_cons, ← ih (i + 1) fun j u hu => h j u (.tail _ hu), ← h i v List.mem_cons_self]
    cases check i v with
    | none => simp
    | some f => simp

/-! ### The order of the checks -/

/-- R166: the checks of the fields, in their order. -/
def fieldFault (copy : Memory) : Option ConfigField :=
  let c := blockConfiguration copy
  if Memory.number copy 0 4 ≠ 1 then some .version
  else if c.slotBase.toNat % 512 ≠ 0 then some .slotTableBase
  else if c.slotCount = 0 ∨ 64 < c.slotCount ∨ 0xFFFFFFFF < c.slotBase.toNat + 512 * c.slotCount - 1 then some .slotCount
  else if 1000 < c.sweepInterval then some .sweepInterval
  else if c.threshold = 0 ∨ c.slotCount < c.threshold then some .finishThreshold
  else if 65535 < c.holdoff then some .finishHoldoff
  else if 8 < c.windows.length then some .windowCount
  else none

theorem fieldFault_eq_none_iff (copy : Memory) :
    let c := blockConfiguration copy
    fieldFault copy = none ↔
      Memory.number copy 0 4 = 1 ∧ c.slotBase.toNat % 512 = 0 ∧ 1 ≤ c.slotCount ∧ c.slotCount ≤ 64 ∧
      c.lastByte ≤ 0xFFFFFFFF ∧ c.sweepInterval ≤ 1000 ∧ 1 ≤ c.threshold ∧ c.threshold ≤ c.slotCount ∧
      c.holdoff ≤ 65535 ∧ c.windows.length ≤ 8 := by
  unfold fieldFault Configuration.lastByte
  dsimp only
  split_ifs <;> simp <;> omega

/-- The block lies over the slot table. -/
def blockOverTable (a : Word) (c : Configuration) : Bool :=
  rangesOverlap a.toNat Config.configBlockBytes c.slotBase.toNat (Config.slotBytes * c.slotCount)

/-- A check made first decides when it fails. -/
theorem some_ite_or {p : Prop} [Decidable p] (f : ConfigField) (x y : Option ConfigField) :
    (if p then some f else x).or y = if p then some f else x.or y := by
  split_ifs
  · rfl
  · rfl

/-- R166: the fields, then the windows, then the windows and the block against the table. -/
theorem checkConfiguration_eq (a : Word) (copy : Memory) :
    let c := blockConfiguration copy
    checkConfiguration a copy =
      (fieldFault copy).or ((firstWindowFault windowFault 0 c.windows).or
        ((firstWindowFault (windowOverTable c) 0 c.windows).or
          (if blockOverTable a c then some .slotTableBase else none))) := by
  have hcount (c : Configuration) :
      (c.slotCount = 0 ∨ 64 < c.slotCount ∨ 0xFFFFFFFF < c.slotBase.toNat + 512 * c.slotCount - 1) ↔
        (c.slotCount = 0 ∨ 64 < c.slotCount) ∨ 2 ^ 32 < c.slotBase.toNat + 512 * c.slotCount := by
    omega
  unfold checkConfiguration fieldFault blockOverTable
  simp only [hcount, ← blockConfiguration_windows_length, Config.slotBytes, Config.addressSpace, ite_or, some_ite_or,
    Option.none_or]
  cases firstWindowFault windowFault 0 (blockConfiguration copy).windows with
  | some f => rfl
  | none => cases firstWindowFault (windowOverTable (blockConfiguration copy)) 0 (blockConfiguration copy).windows <;> rfl

theorem blockOverTable_iff (a : Word) {c : Configuration} (hc : 1 ≤ c.slotCount) :
    blockOverTable a c = true ↔ a.toNat ≤ c.lastByte ∧ c.slotBase.toNat ≤ a.toNat + 191 := by
  rw [blockOverTable, rangesOverlap, Bool.and_eq_true, decide_eq_true_eq, decide_eq_true_eq, Configuration.lastByte,
    Config.slotBytes, Config.configBlockBytes]
  omega

/-- A copy whose fields pass: the windows, then the windows and the block against the table. -/
theorem checkConfiguration_of_fields (a : Word) (copy : Memory) (h : fieldFault copy = none) :
    let c := blockConfiguration copy
    checkConfiguration a copy = (firstWindowFault windowFault 0 c.windows).or
      ((firstWindowFault (windowOverTable c) 0 c.windows).or
        (if blockOverTable a c then some .slotTableBase else none)) := by
  dsimp only
  rw [checkConfiguration_eq, h, Option.none_or]

theorem firstWindowFault_windowFault (ws : List Window) :
    firstWindowFault windowFault 0 ws = none ↔ ∀ w ∈ ws, ¬w.noRights ∧ ¬w.badLength :=
  firstWindowFault_eq_none_iff 0 fun j v _ => windowFault_eq_none_iff j v

theorem windowOverTable_eq_none_iff {c : Configuration} (k : Nat) {w : Window} (hc : 1 ≤ c.slotCount)
    (hw : ¬w.badLength) : windowOverTable c k w = none ↔ ¬c.overTable w := by
  classical
  rw [windowOverTable_eq c k hc hw]
  split_ifs with h
  · exact iff_of_false nofun (not_not_intro h)
  · exact iff_of_true rfl h

theorem windowOverTable_of_over {c : Configuration} (k : Nat) {w : Window} (hc : 1 ≤ c.slotCount) (hw : ¬w.badLength)
    (h : c.overTable w) : windowOverTable c k w = some (.windowBase k) := by
  classical
  rw [windowOverTable_eq c k hc hw, if_pos h]

/-- The windows that pass R125 leave the checks against the table. -/
theorem firstWindowFault_overTable {c : Configuration} (hc : 1 ≤ c.slotCount)
    (hwindows : ∀ w ∈ c.windows, ¬w.noRights ∧ ¬w.badLength) :
    firstWindowFault (windowOverTable c) 0 c.windows = none ↔ ∀ w ∈ c.windows, ¬c.overTable w :=
  firstWindowFault_eq_none_iff 0 fun j v hv => windowOverTable_eq_none_iff j hc (hwindows v hv).2

theorem Window.not_noRights_iff (w : Window) : ¬w.noRights ↔ w.read = true ∨ w.write = true := by
  rw [Window.noRights, not_and_or, Bool.not_eq_false, Bool.not_eq_false]

/-- A copy passes when its fields, its windows and the table's place pass. -/
theorem checkConfiguration_eq_none_iff (a : Word) (copy : Memory) :
    let c := blockConfiguration copy
    checkConfiguration a copy = none ↔
      fieldFault copy = none ∧ (∀ w ∈ c.windows, ¬w.noRights ∧ ¬w.badLength) ∧ (∀ w ∈ c.windows, ¬c.overTable w) ∧
        ¬(a.toNat ≤ c.lastByte ∧ c.slotBase.toNat ≤ a.toNat + 191) := by
  dsimp only
  rw [checkConfiguration_eq, Option.or_eq_none_iff]
  refine and_congr_right fun hfields => ?_
  obtain ⟨-, -, hc, -⟩ := (fieldFault_eq_none_iff copy).1 hfields
  rw [Option.or_eq_none_iff, firstWindowFault_windowFault]
  refine and_congr_right fun hwindows => ?_
  rw [Option.or_eq_none_iff, firstWindowFault_overTable hc hwindows, ← blockOverTable_iff a hc]
  refine and_congr_right fun _ => ?_
  split_ifs with hblock
  · exact iff_of_false nofun (not_not_intro hblock)
  · exact iff_of_true rfl hblock

/-- Settles O24: the fields by their bytes, a pass by `checkConfiguration_eq_none_iff`, a failure by the order of
`checkConfiguration_of_fields`. -/
theorem configurationChecks : Obligations.ConfigurationChecks := by
  refine ⟨fun copy => ⟨?_, rfl, rfl, blockConfiguration_windows_length copy, Memory.number_two copy 12, ?_,
    fun k w hw => ?_⟩, fun a copy => ⟨?_, fun f hf => ?_, fun hfields => ⟨fun k w hw hbefore => ⟨fun hrights => ?_,
      fun hrights hlength => ?_⟩, fun hwindows => ⟨fun k w hw hbefore hover => ?_, fun hnone hlow hhigh => ?_⟩⟩⟩⟩
  · exact toNat_ofNat_number copy 4
  · exact Memory.number_four copy 16
  · rw [blockConfiguration_window hw]
    exact ⟨toNat_ofNat_number copy _, toNat_ofNat_number copy _, rfl, rfl⟩
  · have hpass := checkConfiguration_eq_none_iff a copy
    have hfields := fieldFault_eq_none_iff copy
    dsimp only at hpass hfields ⊢
    rw [hpass, hfields]
    generalize blockConfiguration copy = c
    constructor
    · rintro ⟨⟨h1, h2, h3, h4, h5, h6, h7, h8, h9, h10⟩, hwindows, hover, hblock⟩
      refine ⟨h1, h2, h3, h4, h5, h6, h7, h8, h9, h10, fun w hw => ?_, ?_⟩
      · obtain ⟨hrights, hlength⟩ := hwindows w hw
        have hnot := hover w hw
        rw [Window.badLength] at hlength
        refine ⟨w.not_noRights_iff.1 hrights, by omega, by omega, fun hwrite => ?_⟩
        rw [Configuration.overTable, not_and] at hnot
        have hends := hnot hwrite
        rw [Configuration.lastByte] at hends
        omega
      · rw [Configuration.lastByte] at hblock
        omega
    · rintro ⟨h1, h2, h3, h4, h5, h6, h7, h8, h9, h10, hwindows, hblock⟩
      refine ⟨⟨h1, h2, h3, h4, h5, h6, h7, h8, h9, h10⟩, fun w hw => ?_, fun w hw => ?_, ?_⟩
      · obtain ⟨hrights, hlength, hend, -⟩ := hwindows w hw
        refine ⟨w.not_noRights_iff.2 hrights, ?_⟩
        rw [Window.badLength]
        omega
      · obtain ⟨-, -, -, hends⟩ := hwindows w hw
        rintro ⟨hwrite, hlow, hhigh⟩
        have := hends hwrite
        rw [Configuration.lastByte] at hlow
        omega
      · rw [Configuration.lastByte]
        omega
  · have heq := checkConfiguration_eq a copy
    rw [heq, show fieldFault copy = some f from hf, Option.some_or]
  · rw [checkConfiguration_of_fields a copy hfields, firstWindowFault_at windowFault 0 hw
      (fun j v hv => (windowFault_eq_none_iff j v).2 (hbefore v hv)) (windowFault_of_noRights _ hrights), Nat.zero_add]
    rfl
  · rw [checkConfiguration_of_fields a copy hfields, firstWindowFault_at windowFault 0 hw
      (fun j v hv => (windowFault_eq_none_iff j v).2 (hbefore v hv)) (windowFault_of_badLength _ hrights hlength),
      Nat.zero_add]
    rfl
  all_goals
    obtain ⟨-, -, hc, -⟩ := (fieldFault_eq_none_iff copy).1 hfields
    rw [checkConfiguration_of_fields a copy hfields, (firstWindowFault_windowFault _).2 hwindows, Option.none_or]
  · have hbad (v : Window) (hv : v ∈ (blockConfiguration copy).windows) : ¬v.badLength := (hwindows v hv).2
    have hname : windowOverTable (blockConfiguration copy) (0 + k) w = some (.windowBase k) := by
      rw [windowOverTable_of_over _ hc (hbad w (List.mem_of_getElem? hw)) hover, Nat.zero_add]
    rw [firstWindowFault_at _ 0 hw (fun j v hv => (windowOverTable_eq_none_iff j hc
      (hbad v (List.mem_of_mem_take hv))).2 (hbefore v hv)) hname]
    rfl
  · rw [(firstWindowFault_overTable hc hwindows).2 hnone, Option.none_or, if_pos ((blockOverTable_iff a hc).2 ⟨hlow, hhigh⟩)]

end Sys2Proof.Machine
end

section
/-! The checks of a job record (R51 to R56): header, operand entries and step entries. -/

namespace Sys2Proof.Machine

/-! ### Entries read in turn -/

/-- The first entry that fails is named. -/
theorem readAll_of_failure {α : Type} {readOne : Nat → Option α} (i : Nat) {count j : Nat} (hj : j < count)
    (hfails : readOne (i + j) = none) (hbefore : ∀ k < j, readOne (i + k) ≠ none) :
    readAll readOne i count = .error (i + j) := by
  induction count generalizing i j with
  | zero => cases hj
  | succ count ih =>
    rw [readAll]
    cases j with
    | zero => rw [show readOne i = none from hfails]; rfl
    | succ j =>
      obtain ⟨a, ha⟩ := Option.ne_none_iff_exists'.1 (hbefore 0 (Nat.zero_lt_succ j))
      have hrest : readAll readOne (i + 1) count = .error (i + 1 + j) :=
        ih (i + 1) (Nat.lt_of_succ_lt_succ hj) (by rwa [Nat.add_assoc, Nat.add_comm 1 j])
          fun k hk => by
            rw [Nat.add_assoc, Nat.add_comm 1 k]
            exact hbefore (k + 1) (Nat.succ_lt_succ hk)
      rw [show readOne i = some a from ha, hrest, Nat.add_assoc, Nat.add_comm 1 j]

theorem readAll_of_all {α : Type} {readOne : Nat → Option α} (i : Nat) (as : List α)
    (h : ∀ j < as.length, readOne (i + j) = as[j]?) : readAll readOne i as.length = .ok as := by
  induction as generalizing i with
  | nil => rfl
  | cons a as ih =>
    have hrest : readAll readOne (i + 1) as.length = .ok as := ih (i + 1) fun j hj => by
      rw [Nat.add_assoc, Nat.add_comm 1 j, h (j + 1) (Nat.succ_lt_succ hj), List.getElem?_cons_succ]
    rw [List.length_cons, readAll, show readOne i = some a from h 0 (Nat.zero_lt_succ _), hrest]

/-! ### The order of rejection (R56) -/

theorem judgeRecord_of_header {r : Memory} {reason : RejectReason} (h : rejectHeader r = some reason) :
    judgeRecord r = .rejected reason none := by
  rw [judgeRecord, h]

/-- Only the header's checks name no index. -/
theorem rejectHeader_iff (r : Memory) (reason : RejectReason) :
    rejectHeader r = some reason ↔ judgeRecord r = .rejected reason none := by
  refine ⟨judgeRecord_of_header, fun h => ?_⟩
  cases hheader : rejectHeader r with
  | some other =>
    rw [judgeRecord_of_header hheader] at h
    cases h
    rfl
  | none =>
    rw [judgeRecord, hheader] at h
    dsimp only at h
    split at h
    · cases h
    · split at h
      · cases h
      · cases h

theorem judgeRecord_of_operand {r : Memory} (hheader : rejectHeader r = none) {j : Nat} (hj : j < recordOperands r)
    (hfails : readOperand r j = none) (hbefore : ∀ i < j, readOperand r i ≠ none) :
    judgeRecord r = .rejected .badOperand (some j) := by
  have hall := readAll_of_failure (readOne := readOperand r) 0 hj (by rwa [Nat.zero_add])
    fun k hk => by rw [Nat.zero_add]; exact hbefore k hk
  rw [judgeRecord, hheader, hall, Nat.zero_add]

theorem readAll_operands {r : Memory} {operands : List Operand} (hlength : operands.length = recordOperands r)
    (hall : ∀ j, j < recordOperands r → readOperand r j = operands[j]?) :
    readAll (readOperand r) 0 (recordOperands r) = .ok operands := by
  rw [← hlength]
  refine readAll_of_all 0 operands fun j hj => ?_
  rw [Nat.zero_add]
  exact hall j (hlength ▸ hj)

/-- Settles O29: R56's order is that of the model's checks, entries in turn by `readAll_of_failure` and `readAll_of_all`. -/
theorem rejectionNamesTheFirstFailure : Obligations.RejectionNamesTheFirstFailure := by
  refine fun r => ⟨⟨rfl, rfl, ?_, rfl, rfl, rfl, rfl⟩, rejectHeader_iff r, fun hversion => ?_, fun hversion hcount => ?_,
    fun hversion hsteps1 hsteps16 hoperands => ⟨fun hpriority => ?_, fun hpriority => ?_⟩⟩
  · have h2 := (Memory.read r 2).isLt
    have h3 := (Memory.read r (2 + 1)).isLt
    rw [recordTag, BitVec.toNat_ofNat, Memory.number_two, Nat.mod_eq_of_lt (by omega)]
  · refine judgeRecord_of_header ?_
    rw [rejectHeader, if_pos hversion]
  · refine judgeRecord_of_header ?_
    rw [rejectHeader, if_neg (not_not_intro hversion)]
    split_ifs
    · rfl
    · rfl
    · omega
    · omega
  · refine judgeRecord_of_header ?_
    rw [rejectHeader, if_neg (not_not_intro hversion), if_neg (by omega), if_neg (by omega), if_pos hpriority]
  · have hheader : rejectHeader r = none := by
      rw [rejectHeader, if_neg (not_not_intro hversion), if_neg (by omega), if_neg (by omega), if_neg (by omega)]
    refine ⟨fun j => judgeRecord_of_operand hheader, fun operands hlength hall => ?_⟩
    have hread := readAll_operands hlength hall
    refine ⟨fun m hm hfails hbefore => ?_, fun steps hsteps hstep => ?_⟩
    · have hfirst := readAll_of_failure (readOne := readStep r operands) 0 hm (by rwa [Nat.zero_add])
        fun k hk => by rw [Nat.zero_add]; exact hbefore k hk
      rw [judgeRecord, hheader, hread]
      dsimp only
      rw [hfirst, Nat.zero_add]
    · have hfull : readAll (readStep r operands) 0 (recordSteps r) = .ok steps := by
        rw [← hsteps]
        refine readAll_of_all 0 steps fun m hm => ?_
        rw [Nat.zero_add]
        exact hstep m (hsteps ▸ hm)
      rw [judgeRecord, hheader, hread]
      dsimp only
      rw [hfull]

/-! ### Operand entries (R53, R54) -/

theorem descriptorValid_iff (limit n s : Nat) : descriptorValid limit n s = true ↔ 1 ≤ n ∧ n ≤ limit ∧ s ≤ n := by
  simp only [descriptorValid, Bool.and_eq_true, decide_eq_true_eq, and_assoc]

theorem formatOfCode_cases (code : Nat) :
    (formatOfCode code = none ∧ (code = 0 ∨ 4 < code)) ∨
    ∃ format, formatOfCode code = some format ∧ 1 ≤ code ∧ code ≤ 4 ∧ (format = .binary64 ↔ code = 4) ∧
      [FieldFormat.packed, .unsignedPacked, .text, .binary64][code - 1]? = some format := by
  rcases code with _ | _ | _ | _ | _ | code
  · exact .inl ⟨rfl, .inl rfl⟩
  · exact .inr ⟨.packed, rfl, by decide⟩
  · exact .inr ⟨.unsignedPacked, rfl, by decide⟩
  · exact .inr ⟨.text, rfl, by decide⟩
  · exact .inr ⟨.binary64, rfl, by decide⟩
  · exact .inl ⟨rfl, .inr (by omega)⟩

/-- A MEMORY entry fails, or is the field that its bytes spell. -/
theorem readMemoryEntry_cases (r : Memory) (at_ n s : Nat) :
    let code := (Memory.read r (at_ + 1)).toNat
    let bad := (code = 0 ∨ 4 < code) ∨ n = 0 ∨ 63 < n ∨ n < s ∨ (code = 4 ∧ n ≠ 19)
    (bad ∧ readMemoryEntry r at_ n s = none) ∨
    (¬bad ∧ ∃ format, [FieldFormat.packed, .unsignedPacked, .text, .binary64][code - 1]? = some format ∧
      readMemoryEntry r at_ n s = some (.memory ⟨format, n, s, BitVec.ofNat 32 (Memory.number r (at_ + 4) 4),
        BitVec.ofNat 16 (Memory.number r (at_ + 8) 2)⟩)) := by
  dsimp only
  rw [readMemoryEntry]
  rcases formatOfCode_cases (Memory.read r (at_ + 1)).toNat with ⟨hnone, hcode⟩ | ⟨format, hsome, h1, h4, h64, hget⟩
  · exact .inl ⟨.inl hcode, by rw [hnone]⟩
  · rw [hsome]
    dsimp only
    by_cases hvalid : 1 ≤ n ∧ n ≤ 63 ∧ s ≤ n
    · rw [(descriptorValid_iff 63 n s).2 hvalid]
      by_cases hdigits : format = .binary64 ∧ n ≠ 19
      · exact .inl ⟨.inr (.inr (.inr (.inr ⟨h64.1 hdigits.1, hdigits.2⟩))), by rw [if_neg (by simp), if_pos hdigits]⟩
      · have hcode : ¬((Memory.read r (at_ + 1)).toNat = 4 ∧ n ≠ 19) := fun h => hdigits ⟨h64.2 h.1, h.2⟩
        exact .inr ⟨by omega, format, hget, by rw [if_neg (by simp), if_neg hdigits]⟩
    · refine .inl ⟨by omega, if_pos ?_⟩
      rw [Bool.not_eq_true', ← Bool.not_eq_true, descriptorValid_iff]
      exact hvalid

theorem readCellEntry_cases (r : Memory) (at_ n s : Nat) :
    let index := (Memory.read r (at_ + 4)).toNat
    let bad := n = 0 ∨ 63 < n ∨ n < s ∨ 7 < index
    (bad ∧ readCellEntry r at_ n s = none) ∨
    (¬bad ∧ ∃ i : Fin 8, readCellEntry r at_ n s = some (.cell i n s) ∧ i.val = index) := by
  dsimp only
  rw [readCellEntry]
  by_cases hvalid : 1 ≤ n ∧ n ≤ 63 ∧ s ≤ n
  · rw [(descriptorValid_iff 63 n s).2 hvalid, if_neg (by simp)]
    by_cases hindex : (Memory.read r (at_ + 4)).toNat < 8
    · exact .inr ⟨by omega, ⟨_, hindex⟩, dif_pos hindex, rfl⟩
    · exact .inl ⟨by omega, dif_neg hindex⟩
  · refine .inl ⟨by omega, if_pos ?_⟩
    rw [Bool.not_eq_true', ← Bool.not_eq_true, descriptorValid_iff]
    exact hvalid

theorem readLiteralEntry_cases (r : Memory) (at_ n s : Nat) :
    let content := readPacked n (Memory.readBytes r (at_ + 8) (n / 2 + 1))
    let bad := n = 0 ∨ 15 < n ∨ n < s ∨ ∃ fault, content = .error fault
    (bad ∧ readLiteralEntry r at_ n s = none) ∨
    (¬bad ∧ ∃ c, content = .ok c ∧ readLiteralEntry r at_ n s = some (.literal ⟨c, s⟩)) := by
  dsimp only
  rw [readLiteralEntry]
  by_cases hvalid : 1 ≤ n ∧ n ≤ 15 ∧ s ≤ n
  · rw [(descriptorValid_iff 15 n s).2 hvalid, if_neg (by simp)]
    cases readPacked n (Memory.readBytes r (at_ + 8) (n / 2 + 1)) with
    | error fault => exact .inl ⟨.inr (.inr (.inr ⟨fault, rfl⟩)), rfl⟩
    | ok c =>
      refine .inr ⟨?_, c, rfl, rfl⟩
      rintro (h | h | h | ⟨_, h⟩)
      · omega
      · omega
      · omega
      · cases h
  · refine .inl ⟨?_, if_pos ?_⟩
    · by_contra hbad
      simp only [not_or] at hbad
      omega
    · rw [Bool.not_eq_true', ← Bool.not_eq_true, descriptorValid_iff]
      exact hvalid

section
variable {r : Memory} {j : Nat}

theorem readOperand_memory (h : (Memory.read r (16 + 16 * j)).toNat = 1) :
    readOperand r j = readMemoryEntry r (16 + 16 * j) (Memory.read r (16 + 16 * j + 2)).toNat
      (Memory.read r (16 + 16 * j + 3)).toNat := by
  simp only [readOperand, h]

theorem readOperand_cell (h : (Memory.read r (16 + 16 * j)).toNat = 2) :
    readOperand r j = readCellEntry r (16 + 16 * j) (Memory.read r (16 + 16 * j + 2)).toNat
      (Memory.read r (16 + 16 * j + 3)).toNat := by
  simp only [readOperand, h]

theorem readOperand_literal (h : (Memory.read r (16 + 16 * j)).toNat = 3) :
    readOperand r j = readLiteralEntry r (16 + 16 * j) (Memory.read r (16 + 16 * j + 2)).toNat
      (Memory.read r (16 + 16 * j + 3)).toNat := by
  simp only [readOperand, h]

theorem readOperand_other (h1 : (Memory.read r (16 + 16 * j)).toNat ≠ 1) (h2 : (Memory.read r (16 + 16 * j)).toNat ≠ 2)
    (h3 : (Memory.read r (16 + 16 * j)).toNat ≠ 3) : readOperand r j = none := by
  unfold readOperand
  dsimp only
  split
  · contradiction
  · contradiction
  · contradiction
  · rfl

end

/-- Two little-endian bytes as a 16-bit word. -/
theorem toNat_ofNat_number_two (m : Memory) (a : Nat) :
    (BitVec.ofNat 16 (Memory.number m a 2)).toNat = (Memory.read m a).toNat + 256 * (Memory.read m (a + 1)).toNat := by
  have h0 := (Memory.read m a).isLt
  have h1 := (Memory.read m (a + 1)).isLt
  rw [BitVec.toNat_ofNat, Memory.number_two, Nat.mod_eq_of_lt (by omega)]

/-- Settles O30: the entry by its kind, each kind by the two cases of its own lemma. -/
theorem operandEntryChecks : Obligations.OperandEntryChecks := by
  intro r j
  by_cases h1 : (Memory.read r (16 + 16 * j)).toNat = 1
  · rw [readOperand_memory h1]
    rcases readMemoryEntry_cases r (16 + 16 * j) (Memory.read r (16 + 16 * j + 2)).toNat
      (Memory.read r (16 + 16 * j + 3)).toNat with ⟨hbad, heq⟩ | ⟨hgood, format, hformat, heq⟩
    · rw [heq]
      exact ⟨iff_of_true rfl (.inr (.inl ⟨h1, hbad⟩)), fun h => absurd rfl h⟩
    · rw [heq]
      refine ⟨iff_of_false nofun ?_, fun _ => ⟨fun _ => ⟨_, rfl, rfl, rfl, hformat, ?_, toNat_ofNat_number_two r _⟩,
        fun h2 => ?_, fun h3 => ?_⟩⟩
      · rintro (h | ⟨-, h⟩ | ⟨h, -⟩ | ⟨h, -⟩)
        · exact h.1 h1
        · exact hgood h
        · exact absurd (h1.symm.trans h) (by decide)
        · exact absurd (h1.symm.trans h) (by decide)
      · refine (toNat_ofNat_number r _).trans ?_
        simp only [Nat.add_assoc, Nat.reduceAdd]
        omega
      · exact absurd (h1.symm.trans h2) (by decide)
      · exact absurd (h1.symm.trans h3) (by decide)
  by_cases h2 : (Memory.read r (16 + 16 * j)).toNat = 2
  · rw [readOperand_cell h2]
    rcases readCellEntry_cases r (16 + 16 * j) (Memory.read r (16 + 16 * j + 2)).toNat
      (Memory.read r (16 + 16 * j + 3)).toNat with ⟨hbad, heq⟩ | ⟨hgood, i, heq, hi⟩
    · rw [heq]
      exact ⟨iff_of_true rfl (.inr (.inr (.inl ⟨h2, hbad⟩))), fun h => absurd rfl h⟩
    · rw [heq]
      refine ⟨iff_of_false nofun ?_, fun _ => ⟨fun h => absurd h h1, fun _ => ⟨i, rfl, hi⟩, fun h3 => ?_⟩⟩
      · rintro (h | ⟨h, -⟩ | ⟨-, h⟩ | ⟨h, -⟩)
        · exact h.2.1 h2
        · exact h1 h
        · exact hgood h
        · exact absurd (h2.symm.trans h) (by decide)
      · exact absurd (h2.symm.trans h3) (by decide)
  by_cases h3 : (Memory.read r (16 + 16 * j)).toNat = 3
  · rw [readOperand_literal h3]
    rcases readLiteralEntry_cases r (16 + 16 * j) (Memory.read r (16 + 16 * j + 2)).toNat
      (Memory.read r (16 + 16 * j + 3)).toNat with ⟨hbad, heq⟩ | ⟨hgood, c, hcontent, heq⟩
    · rw [heq]
      exact ⟨iff_of_true rfl (.inr (.inr (.inr ⟨h3, hbad⟩))), fun h => absurd rfl h⟩
    · rw [heq]
      refine ⟨iff_of_false nofun ?_, fun _ => ⟨fun h => absurd h h1, fun h => absurd h h2, fun _ => ⟨c, hcontent, rfl⟩⟩⟩
      rintro (h | ⟨h, -⟩ | ⟨h, -⟩ | ⟨-, h⟩)
      · exact h.2.2 h3
      · exact h1 h
      · exact h2 h
      · exact hgood h
  · rw [readOperand_other h1 h2 h3]
    exact ⟨iff_of_true rfl (.inl ⟨h1, h2, h3⟩), fun h => absurd rfl h⟩

end Sys2Proof.Machine
end

section
/-! The step entries of a job record (R19, R20, R22, R55). -/

namespace Sys2Proof.Machine

/-! ### References (R19, R20) -/

/-- The reference names a LITERAL entry. -/
def namesLiteral (operands : List Operand) (ref : Nat) : Prop := ∃ v, operands[ref]? = some (.literal v)

/-- The operand entry of a destination. -/
def Place.entry : Place → Operand
  | .memory f => .memory f
  | .cell i n s => .cell i n s

/-- The source is the operand entry that the reference names. -/
def Source.namedBy (x : Source) (operands : List Operand) (ref : Nat) : Prop :=
  x.index = ref ∧ operands[ref]? = some x.operand

/-- The destination is the operand entry that the reference names. -/
def Dest.namedBy (w : Dest) (operands : List Operand) (ref : Nat) : Prop :=
  w.index = ref ∧ operands[ref]? = some w.place.entry

theorem sourceRef_eq_none_iff (operands : List Operand) (ref : Nat) :
    sourceRef operands ref = none ↔ ¬ref < operands.length := by
  rw [sourceRef, Option.map_eq_none_iff, List.getElem?_eq_none_iff, Nat.not_lt]

theorem sourceRef_namedBy {operands : List Operand} {ref : Nat} {x : Source} (h : sourceRef operands ref = some x) :
    x.namedBy operands ref := by
  obtain ⟨o, ho, rfl⟩ := Option.map_eq_some_iff.1 h
  exact ⟨rfl, ho⟩

theorem destRef_eq_none_iff (operands : List Operand) (ref : Nat) :
    destRef operands ref = none ↔ ¬ref < operands.length ∨ namesLiteral operands ref := by
  rw [destRef, namesLiteral, Nat.not_lt, ← List.getElem?_eq_none_iff]
  cases operands[ref]? with
  | none => simp
  | some o => cases o <;> simp

theorem destRef_namedBy {operands : List Operand} {ref : Nat} {w : Dest} (h : destRef operands ref = some w) :
    w.namedBy operands ref := by
  rw [destRef] at h
  split at h
  · rename_i f hf
    cases h
    exact ⟨rfl, hf⟩
  · rename_i i n s hc
    cases h
    exact ⟨rfl, hc⟩
  · cases h
  · cases h

theorem remainderRef_eq_none_iff (operands : List Operand) (ref wRef : Nat) :
    remainderRef operands ref wRef = none ↔
      ref ≠ 0xFF ∧ (¬ref < operands.length ∨ namesLiteral operands ref ∨ ref = wRef) := by
  rw [remainderRef, noReference]
  split_ifs with hnone hw
  · simp [hnone]
  · exact iff_of_true rfl ⟨hnone, .inr (.inr hw)⟩
  · rw [Option.map_eq_none_iff, destRef_eq_none_iff]
    simp [hnone, hw]

theorem remainderRef_none {operands : List Operand} {ref wRef : Nat} (h : remainderRef operands ref wRef = some none) :
    ref = 0xFF := by
  rw [remainderRef, noReference] at h
  split_ifs at h with hnone hw
  · exact hnone
  · simp at h

theorem remainderRef_some {operands : List Operand} {ref wRef : Nat} {z : Dest}
    (h : remainderRef operands ref wRef = some (some z)) : z.namedBy operands ref := by
  rw [remainderRef] at h
  split_ifs at h
  · cases h
  · obtain ⟨d, hd, hz⟩ := Option.map_eq_some_iff.1 h
    cases hz
    exact destRef_namedBy hd

/-! ### Operations -/

/-- The operation is the code's, on the operand entries that the references it uses name (R19, R20). -/
def Work.namedBy (operands : List Operand) (code x y z w : Nat) : Work → Prop
  | .move a d => code = 1 ∧ a.namedBy operands x ∧ d.namedBy operands w
  | .add a b d => code = 2 ∧ a.namedBy operands x ∧ b.namedBy operands y ∧ d.namedBy operands w
  | .subtract a b d => code = 3 ∧ a.namedBy operands x ∧ b.namedBy operands y ∧ d.namedBy operands w
  | .multiply a b d => code = 4 ∧ a.namedBy operands x ∧ b.namedBy operands y ∧ d.namedBy operands w
  | .divide a b none d => code = 5 ∧ z = 0xFF ∧ a.namedBy operands x ∧ b.namedBy operands y ∧ d.namedBy operands w
  | .divide a b (some c) d =>
    code = 5 ∧ a.namedBy operands x ∧ b.namedBy operands y ∧ c.namedBy operands z ∧ d.namedBy operands w
  | .compare a b => code = 6 ∧ a.namedBy operands x ∧ b.namedBy operands y
  | .check a b c => code = 7 ∧ a.namedBy operands x ∧ b.namedBy operands y ∧ c.namedBy operands z

theorem workOf_namedBy {operands : List Operand} {code x y z w : Nat} {work : Work}
    (h : workOf operands code x y z w = some work) : work.namedBy operands code x y z w := by
  unfold workOf at h
  split at h
  all_goals simp only [Option.bind_eq_bind, Option.bind_eq_some_iff, Option.pure_def, Option.some.injEq,
    reduceCtorEq] at h
  · obtain ⟨a, ha, d, hd, rfl⟩ := h
    exact ⟨rfl, sourceRef_namedBy ha, destRef_namedBy hd⟩
  · obtain ⟨a, ha, b, hb, d, hd, rfl⟩ := h
    exact ⟨rfl, sourceRef_namedBy ha, sourceRef_namedBy hb, destRef_namedBy hd⟩
  · obtain ⟨a, ha, b, hb, d, hd, rfl⟩ := h
    exact ⟨rfl, sourceRef_namedBy ha, sourceRef_namedBy hb, destRef_namedBy hd⟩
  · obtain ⟨a, ha, b, hb, d, hd, rfl⟩ := h
    exact ⟨rfl, sourceRef_namedBy ha, sourceRef_namedBy hb, destRef_namedBy hd⟩
  · obtain ⟨a, ha, b, hb, c, hc, d, hd, rfl⟩ := h
    cases c with
    | none => exact ⟨rfl, remainderRef_none hc, sourceRef_namedBy ha, sourceRef_namedBy hb, destRef_namedBy hd⟩
    | some c =>
      exact ⟨rfl, sourceRef_namedBy ha, sourceRef_namedBy hb, remainderRef_some hc, destRef_namedBy hd⟩
  · obtain ⟨a, ha, b, hb, rfl⟩ := h
    exact ⟨rfl, sourceRef_namedBy ha, sourceRef_namedBy hb⟩
  · obtain ⟨a, ha, b, hb, c, hc, rfl⟩ := h
    exact ⟨rfl, sourceRef_namedBy ha, sourceRef_namedBy hb, sourceRef_namedBy hc⟩

section
variable {α β γ δ ε : Type} (a : Option α) (b : Option β) (c : Option γ) (d : Option δ)

theorem bind_two_eq_none_iff (f : α → β → ε) :
    (do return f (← a) (← b) : Option ε) = none ↔ a = none ∨ b = none := by
  cases a <;> cases b <;> simp

theorem bind_three_eq_none_iff (f : α → β → γ → ε) :
    (do return f (← a) (← b) (← c) : Option ε) = none ↔ a = none ∨ b = none ∨ c = none := by
  cases a with
  | none => simp
  | some a => simpa using bind_two_eq_none_iff b c (f a)

theorem bind_four_eq_none_iff (f : α → β → γ → δ → ε) :
    (do return f (← a) (← b) (← c) (← d) : Option ε) = none ↔ a = none ∨ b = none ∨ c = none ∨ d = none := by
  cases a with
  | none => simp
  | some a => simpa using bind_three_eq_none_iff b c d (f a)

end

/-- An operation has no meaning when its code names none, or a reference that it uses names nothing. -/
theorem workOf_eq_none_iff_refs (operands : List Operand) (code x y z w : Nat) :
    workOf operands code x y z w = none ↔
      (code = 0 ∨ 7 < code) ∨ sourceRef operands x = none ∨ (code ≠ 1 ∧ sourceRef operands y = none) ∨
      (code = 7 ∧ sourceRef operands z = none) ∨ (1 ≤ code ∧ code ≤ 5 ∧ destRef operands w = none) ∨
      (code = 5 ∧ remainderRef operands z w = none) := by
  unfold workOf
  split
  · rw [bind_two_eq_none_iff]
    simp
  · rw [bind_three_eq_none_iff]
    simp
  · rw [bind_three_eq_none_iff]
    simp
  · rw [bind_three_eq_none_iff]
    simp
  · rw [bind_four_eq_none_iff]
    simp [or_comm (a := remainderRef operands z w = none)]
  · rw [bind_two_eq_none_iff]
    simp
  · rw [bind_three_eq_none_iff]
    simp
  · rename_i h1 h2 h3 h4 h5 h6 h7
    simp only [imp_false] at h1 h2 h3 h4 h5 h6 h7
    exact iff_of_true rfl (.inl (by omega))

/-! ### The other fields (R22, R24, R55) -/

theorem roundingOfCode_cases (code : Nat) :
    (roundingOfCode code = none ∧ 4 < code) ∨
    ∃ mode, roundingOfCode code = some mode ∧ code ≤ 4 ∧
      [Rounding.truncate, .halfUp, .halfEven, .ceiling, .floor][code]? = some mode := by
  rcases code with _ | _ | _ | _ | _ | code
  · exact .inr ⟨.truncate, rfl, by decide⟩
  · exact .inr ⟨.halfUp, rfl, by decide⟩
  · exact .inr ⟨.halfEven, rfl, by decide⟩
  · exact .inr ⟨.ceiling, rfl, by decide⟩
  · exact .inr ⟨.floor, rfl, by decide⟩
  · exact .inl ⟨rfl, by omega⟩

theorem flagOfByte_eq_none_iff (b : Byte) :
    flagOfByte b = none ↔ b.getLsbD 0 = true ∧ b.getLsbD 1 = true := by
  rw [flagOfByte]
  cases b.getLsbD 0 <;> cases b.getLsbD 1 <;> simp

theorem flagOfByte_eq_some {b : Byte} {flag : ResultFlag} (h : flagOfByte b = some flag) :
    (flag = .negate ↔ b.getLsbD 0 = true) ∧ (flag = .absolute ↔ b.getLsbD 1 = true) := by
  rw [flagOfByte] at h
  cases hb0 : b.getLsbD 0 <;> cases hb1 : b.getLsbD 1 <;> rw [hb0, hb1] at h <;> cases h <;> simp

/-- The low four bits of a byte are clear exactly when it names the empty set (11.5). -/
theorem OutcomeSet.ofByte_eq_empty_iff (b : Byte) : OutcomeSet.ofByte b = .empty ↔ b.toNat % 16 = 0 := by
  simp only [OutcomeSet.ofByte, OutcomeSet.empty, OutcomeSet.mk.injEq, BitVec.getLsbD, Nat.testBit_eq_decide_div_mod_eq,
    decide_eq_false_iff_not]
  omega

theorem stopActionOf_eq_none_iff (stopSet : OutcomeSet) (code : Nat) :
    stopActionOf stopSet code = none ↔ ¬stopSet = .empty ∧ code ≠ 1 ∧ code ≠ 2 := by
  rw [stopActionOf]
  split_ifs <;> simp [*]

theorem stopActionOf_eq_some {stopSet : OutcomeSet} {code : Nat} {action : StopAction}
    (h : stopActionOf stopSet code = some action) (hset : stopSet ≠ .empty) :
    (code = 1 → action = .endJob) ∧ (code = 2 → action = .endRepeat) := by
  rw [stopActionOf, if_neg hset] at h
  constructor
  · rintro rfl
    exact (Option.some.inj h).symm
  · rintro rfl
    exact (Option.some.inj h).symm

/-- Only COMPARE and CHECK look at the flag (R22). -/
theorem flagAllowed_iff {operands : List Operand} {code x y z w : Nat} {work : Work} (flag : ResultFlag)
    (h : work.namedBy operands code x y z w) :
    flagAllowed work flag = true ↔ ((code = 6 ∨ code = 7) → flag = .plain) := by
  cases work with
  | divide a b c d =>
    cases c <;> obtain ⟨rfl, -⟩ := h <;> simp [flagAllowed]
  | _ =>
    obtain ⟨rfl, -⟩ := h
    simp [flagAllowed]

theorem ResultFlag.eq_plain_iff (flag : ResultFlag) : flag = .plain ↔ flag ≠ .negate ∧ flag ≠ .absolute := by
  cases flag <;> decide

/-! ### Step entries -/

section
variable (r : Memory) (operands : List Operand) (m : Nat)

/-- The byte of the step entry at an offset. -/
def stepByte (k : Nat) : Nat := (Memory.read r (208 + 16 * m + k)).toNat

/-- What a step entry's fields spell, each by itself (R55). -/
theorem readStep_eq_some_iff (st : Step) :
    readStep r operands m = some st ↔
      workOf operands (stepByte r m 0) (stepByte r m 8) (stepByte r m 9) (stepByte r m 10) (stepByte r m 11) =
        some st.work ∧
      roundingOfCode (stepByte r m 1) = some st.mode ∧ flagOfByte (Memory.read r (208 + 16 * m + 2)) = some st.flag ∧
      st.stopSet = OutcomeSet.ofByte (Memory.read r (208 + 16 * m + 3)) ∧
      stopActionOf st.stopSet (stepByte r m 4) = some st.stopAction ∧
      st.repeats = Memory.number r (208 + 16 * m + 6) 2 ∧ flagAllowed st.work st.flag = true ∧ 1 ≤ st.repeats ∧
      st.repeats ≤ 4096 := by
  obtain ⟨work, mode, flag, stopSet, stopAction, repeats⟩ := st
  unfold readStep stepByte
  dsimp only
  constructor
  · intro h
    split at h
    · rename_i hwork hmode hflag haction
      split_ifs at h with hallowed
      cases h
      simp only [Bool.and_eq_true, decide_eq_true_eq] at hallowed
      exact ⟨hwork, hmode, hflag, rfl, haction, rfl, hallowed.1.1, hallowed.1.2, hallowed.2⟩
    · cases h
  · rintro ⟨hwork, hmode, hflag, rfl, haction, rfl, hallowed, h1, h4096⟩
    rw [hwork, hmode, hflag, haction]
    dsimp only
    rw [if_pos]
    simp only [Bool.and_eq_true, decide_eq_true_eq]
    exact ⟨⟨hallowed, h1⟩, h4096⟩

/-- A step entry fails where one of its fields does, or its flag is not one for its operation (R22, R55). -/
theorem readStep_eq_none_iff :
    readStep r operands m = none ↔
      workOf operands (stepByte r m 0) (stepByte r m 8) (stepByte r m 9) (stepByte r m 10) (stepByte r m 11) = none ∨
      roundingOfCode (stepByte r m 1) = none ∨ flagOfByte (Memory.read r (208 + 16 * m + 2)) = none ∨
      ((stepByte r m 0 = 6 ∨ stepByte r m 0 = 7) ∧ ((Memory.read r (208 + 16 * m + 2)).getLsbD 0 = true ∨
        (Memory.read r (208 + 16 * m + 2)).getLsbD 1 = true)) ∨
      stopActionOf (OutcomeSet.ofByte (Memory.read r (208 + 16 * m + 3))) (stepByte r m 4) = none ∨
      Memory.number r (208 + 16 * m + 6) 2 = 0 ∨ 4096 < Memory.number r (208 + 16 * m + 6) 2 := by
  constructor
  · intro h
    by_contra hpasses
    simp only [not_or] at hpasses
    obtain ⟨hW, hR, hF, hplain, hA, h0, h4096⟩ := hpasses
    obtain ⟨work, hwork⟩ := Option.ne_none_iff_exists'.1 hW
    obtain ⟨mode, hmode⟩ := Option.ne_none_iff_exists'.1 hR
    obtain ⟨flag, hflag⟩ := Option.ne_none_iff_exists'.1 hF
    obtain ⟨action, haction⟩ := Option.ne_none_iff_exists'.1 hA
    have hallowed : flagAllowed work flag = true := (flagAllowed_iff flag (workOf_namedBy hwork)).2 fun hcode =>
      flag.eq_plain_iff.2 ⟨fun hn => hplain ⟨hcode, .inl ((flagOfByte_eq_some hflag).1.1 hn)⟩,
        fun hn => hplain ⟨hcode, .inr ((flagOfByte_eq_some hflag).2.1 hn)⟩⟩
    have hsome := (readStep_eq_some_iff r operands m ⟨work, mode, flag, _, action, _⟩).2
      ⟨hwork, hmode, hflag, rfl, haction, rfl, hallowed, Nat.one_le_iff_ne_zero.2 h0, Nat.le_of_not_lt h4096⟩
    rw [h] at hsome
    cases hsome
  · intro h
    cases hread : readStep r operands m with
    | none => rfl
    | some st =>
      obtain ⟨hwork, hmode, hflag, hset, haction, hrepeats, hallowed, h1, h4096⟩ :=
        (readStep_eq_some_iff r operands m st).1 hread
      rw [hset] at haction
      rw [hwork, hmode, hflag, haction, ← hrepeats] at h
      rcases h with h | h | h | ⟨hcode, hbits⟩ | h | h | h
      · cases h
      · cases h
      · cases h
      · have hplain := (flagAllowed_iff st.flag (workOf_namedBy hwork)).1 hallowed hcode
        obtain ⟨hnegate, habsolute⟩ := flagOfByte_eq_some hflag
        rw [hplain] at hnegate habsolute
        rcases hbits with hbit | hbit
        · cases hnegate.2 hbit
        · cases habsolute.2 hbit
      · cases h
      · omega
      · omega

end

/-- Settles O31: a step entry is read exactly when each of its fields is, by `readStep_eq_some_iff`. -/
theorem stepEntryChecks : Obligations.StepEntryChecks := by
  intro r operands m _
  refine ⟨?_, fun st hst => ?_⟩
  · have hmode : roundingOfCode (stepByte r m 1) = none ↔ 4 < stepByte r m 1 := by
      rcases roundingOfCode_cases (stepByte r m 1) with ⟨hnone, hcode⟩ | ⟨mode, hsome, hcode, -⟩
      · exact iff_of_true hnone hcode
      · exact iff_of_false (by rw [hsome]; nofun) (Nat.not_lt.2 hcode)
    rw [readStep_eq_none_iff, workOf_eq_none_iff_refs, sourceRef_eq_none_iff, sourceRef_eq_none_iff, sourceRef_eq_none_iff,
      destRef_eq_none_iff, remainderRef_eq_none_iff, hmode, flagOfByte_eq_none_iff, stopActionOf_eq_none_iff,
      OutcomeSet.ofByte_eq_empty_iff]
    unfold stepByte namesLiteral
    dsimp only
    constructor
    · rintro ((h | h | h | h | h | h) | h | h | h | h | h | h)
      exacts [.inl h, .inr (.inr (.inr (.inr (.inr (.inr (.inl h)))))),
        .inr (.inr (.inr (.inr (.inr (.inr (.inr (.inl h))))))),
        .inr (.inr (.inr (.inr (.inr (.inr (.inr (.inr (.inl h)))))))),
        .inr (.inr (.inr (.inr (.inr (.inr (.inr (.inr (.inr (.inl h))))))))),
        .inr (.inr (.inr (.inr (.inr (.inr (.inr (.inr (.inr (.inr (.inl h)))))))))),
        .inr (.inl h), .inr (.inr (.inl h)), .inr (.inr (.inr (.inl h))),
        .inr (.inr (.inr (.inr (.inr (.inr (.inr (.inr (.inr (.inr (.inr h)))))))))),
        .inr (.inr (.inr (.inr (.inl h)))), .inr (.inr (.inr (.inr (.inr (.inl h)))))]
    · rintro (h | h | h | h | h | h | h | h | h | h | h | h)
      exacts [.inl (.inl h), .inr (.inl h), .inr (.inr (.inl h)), .inr (.inr (.inr (.inl h))),
        .inr (.inr (.inr (.inr (.inr (.inl h))))), .inr (.inr (.inr (.inr (.inr (.inr h))))),
        .inl (.inr (.inl h)), .inl (.inr (.inr (.inl h))), .inl (.inr (.inr (.inr (.inl h)))),
        .inl (.inr (.inr (.inr (.inr (.inl h))))), .inl (.inr (.inr (.inr (.inr (.inr h))))),
        .inr (.inr (.inr (.inr (.inl h))))]
  · obtain ⟨hwork, hmode, hflag, hset, haction, hrepeats, -, -, -⟩ := (readStep_eq_some_iff r operands m st).1 hst
    refine ⟨?_, (flagOfByte_eq_some hflag).1, (flagOfByte_eq_some hflag).2, hset, fun hstop => ?_, ?_, ?_⟩
    · rcases roundingOfCode_cases (stepByte r m 1) with ⟨hnone, -⟩ | ⟨mode, hsome, -, hget⟩
      · rw [hnone] at hmode
        cases hmode
      · rw [hsome] at hmode
        cases hmode
        exact hget
    · refine stopActionOf_eq_some haction ?_
      rw [hset]
      exact mt (OutcomeSet.ofByte_eq_empty_iff _).1 hstop
    · rw [hrepeats, Memory.number_two]
    · have hnamed := workOf_namedBy hwork
      cases hw : st.work with
      | divide a b c d =>
        rw [hw] at hnamed
        cases c <;> exact hnamed
      | _ =>
        rw [hw] at hnamed
        exact hnamed

end Sys2Proof.Machine
end

section
/-! The result area of a completion (R58 to R61, R143, 11.5). -/

namespace Sys2Proof.Machine

/-- Little-endian bytes read back as the number, modulo what they hold. -/
theorem leNat_leBytes (n v : Nat) : leNat (leBytes n v) = v % 256 ^ n := by
  induction n generalizing v with
  | zero => simp [leBytes, leNat, Nat.mod_one]
  | succ n ih =>
    rw [leBytes, leNat, ih, BitVec.toNat_ofNat, Nat.pow_succ' (m := 256), Nat.mod_mul (x := v) (a := 256)]

theorem leNat_leBytes_of_lt {n v : Nat} (h : v < 256 ^ n) : leNat (leBytes n v) = v := by
  rw [leNat_leBytes, Nat.mod_eq_of_lt h]

theorem Writer.failure?_of_record {w : Writer} {t : Ticket} {r : TicketRecord} (h : w.record? t = some r) :
    w.failure? t = r.failure := by
  rw [Writer.failure?, h]
  rfl

theorem Writer.resultArea_of_record {w : Writer} {item : CompletionItem} {r : TicketRecord}
    (h : w.record? item.ticket = some r) :
    w.resultArea item = resultAreaBytes (composeEnd item.info r.failure).1 (composeEnd item.info r.failure).2 item.ticket
      r.count item.tag := by
  rw [Writer.resultArea, Writer.failure?_of_record h, h]

/-- A failure changes neither the outcomes seen nor the last one. -/
theorem composeEnd_outcomes (info : EndInfo) (failure : Option (Nat × Nat)) :
    (composeEnd info failure).1.seen = info.seen ∧ (composeEnd info failure).1.last = info.last := by
  unfold composeEnd
  cases failure with
  | none => exact ⟨rfl, rfl⟩
  | some f => cases info.how <;> exact ⟨rfl, rfl⟩

/-- Settles O47: the codes by their lists, the record by the table's search, the bytes by their places. -/
theorem resultAreaComposed : Obligations.ResultAreaComposed := by
  refine ⟨rfl, rfl, rfl, fun _ _ _ _ => ⟨rfl, rfl, rfl, rfl, rfl, rfl, rfl, rfl⟩, rfl, fun o => ?_, rfl, fun x => ?_,
    fun _ => rfl, fun info p i h => ?_, fun info p i h => ?_, fun w t => ⟨fun r h => ?_, fun ⟨r, hr, ht⟩ => ?_, fun h => ?_⟩,
    fun w item r h hstep hiterations hcount => ?_⟩
  · obtain ⟨negative, zero, positive, inexact⟩ := o
    revert negative zero positive inexact
    decide
  · obtain ⟨sign, inexact⟩ := x
    cases sign <;> cases inexact <;> rfl
  · rw [composeEnd]
    cases hhow : info.how with
    | aborted => rw [hhow] at h; simp [JobEnd.status] at h
    | rejected => rw [hhow] at h; simp [JobEnd.status] at h
    | _ => rfl
  · rw [composeEnd, h]
  · have hticket := List.find?_some h
    exact ⟨List.mem_of_find?_eq_some h, of_decide_eq_true hticket, Writer.failure?_of_record h⟩
  · refine Option.isSome_iff_exists.1 (List.find?_isSome.2 ⟨r, hr, decide_eq_true ht⟩)
  · rw [Writer.failure?, h]
    rfl
  · have hlost := item.ticket.isLt
    have htag := item.tag.isLt
    obtain ⟨hseen, hlast⟩ := composeEnd_outcomes item.info r.failure
    dsimp only
    rw [Writer.resultArea_of_record h, ← hseen, ← hlast]
    generalize composeEnd item.info r.failure = composed
    refine ⟨rfl, rfl, rfl, rfl, rfl, fun hi => leNat_leBytes_of_lt (n := 2) (by omega), rfl, rfl, rfl,
      leNat_leBytes_of_lt (n := 4) (by omega), leNat_leBytes_of_lt (n := 4) (by omega),
      leNat_leBytes_of_lt (n := 2) (by omega), fun k hk => ?_⟩
    rcases hk with ⟨h9, h12⟩ | ⟨h22, h48⟩
    · have hpart : ((resultAreaBytes composed.1 composed.2 item.ticket r.count item.tag).drop 9).take 3 =
          List.replicate 3 0#8 := rfl
      obtain ⟨j, rfl⟩ := Nat.exists_eq_add_of_le h9
      rw [← List.getElem?_drop, ← List.getElem?_take_of_lt (show j < 3 by omega), hpart, List.getElem?_replicate,
        if_pos (by omega)]
    · have htail : (resultAreaBytes composed.1 composed.2 item.ticket r.count item.tag).drop 22 =
          List.replicate 26 0#8 := rfl
      obtain ⟨j, rfl⟩ := Nat.exists_eq_add_of_le h22
      rw [← List.getElem?_drop, htail, List.getElem?_replicate, if_pos (by omega)]

end Sys2Proof.Machine
end

section
/-! Fields read and written: PACKED, UNSIGNED PACKED, TEXT and BINARY64 (R4 to R8, R10 to R13, 11.6). -/

namespace Sys2Proof.Machine

/-! ### Reading PACKED and UNSIGNED PACKED -/

/-- R4, R11: a PACKED field of an even number of digits begins with a pad nibble. -/
def packedPad (n : Nat) : Nat := if n % 2 = 0 then 1 else 0

theorem packedPad_eq (n : Nat) : packedPad n = (decide (n % 2 = 0)).toNat := by
  rw [packedPad]
  by_cases h : n % 2 = 0
  · rw [if_pos h, decide_eq_true h]
    rfl
  · rw [if_neg h, decide_eq_false h]
    rfl

/-- R8: the pad of a PACKED field is not 0, or a digit is above 9. -/
def packedInvalid (n : Nat) (bytes : List Byte) : Prop :=
  (n % 2 = 0 ∧ nibbleAt bytes 0 ≠ 0) ∨ ∃ k, k < n ∧ 9 < nibbleAt bytes (packedPad n + k)

/-- The number that the digit nibbles from one on spell. -/
def nibblesNumber (n first : Nat) (bytes : List Byte) : Nat :=
  ∑ k ∈ Finset.range n, nibbleAt bytes (first + k) * 10 ^ (n - 1 - k)

theorem cast_nibblesNumber (n first : Nat) (bytes : List Byte) :
    (nibblesNumber n first bytes : Int) =
      ∑ k ∈ Finset.range n, (nibbleAt bytes (first + k) : Int) * 10 ^ (n - 1 - k) := by
  rw [nibblesNumber]
  push_cast
  rfl

/-- The nibbles before the last. -/
theorem nibbles_dropLast_getD (bytes : List Byte) (k : Nat) (h : k + 1 < 2 * bytes.length) :
    (nibbles bytes).dropLast.getD k 0 = nibbleAt bytes k := by
  rw [← nibbles_getD, List.getD_eq_getElem?_getD, List.getD_eq_getElem?_getD, List.getElem?_dropLast, nibbles_length,
    if_pos (by omega)]

theorem nibbles_getLastD (bytes : List Byte) : (nibbles bytes).getLastD 0 = nibbleAt bytes (2 * bytes.length - 1) := by
  rw [← nibbles_getD, ← nibbles_length, List.getLastD_eq_getLast?, List.getLast?_eq_getElem?, List.getD_eq_getElem?_getD]

/-- R4, R8: the sign nibble is judged first, then the pad and the digits. -/
theorem readPacked_eq (n : Nat) (bytes : List Byte) (hlen : bytes.length = n / 2 + 1) :
    let sign := nibbleAt bytes (packedPad n + n)
    (sign ≤ 9 → readPacked n bytes = .error .invalidSign) ∧
    (9 < sign → packedInvalid n bytes → readPacked n bytes = .error .invalidDigit) ∧
    (9 < sign → ¬packedInvalid n bytes →
      readPacked n bytes = .ok (signed (sign = 0xB || sign = 0xD) (nibblesNumber n (packedPad n) bytes))) := by
  have hlast : (nibbles bytes).getLastD 0 = nibbleAt bytes (packedPad n + n) := by
    rw [nibbles_getLastD, hlen, packedPad]
    congr 1
    split_ifs <;> omega
  have hlength : (nibbles bytes).dropLast.length = n + (decide (n % 2 = 0)).toNat := by
    rw [List.length_dropLast, nibbles_length, hlen, ← packedPad_eq, packedPad]
    split_ifs <;> omega
  have hget (k : Nat) (hk : k < packedPad n + n) : (nibbles bytes).dropLast.getD k 0 = nibbleAt bytes k := by
    refine nibbles_dropLast_getD bytes k ?_
    rw [packedPad] at hk
    split_ifs at hk <;> omega
  obtain ⟨hinvalid, hvalid⟩ := packedDigits_eq (decide (n % 2 = 0)) (nibbles bytes).dropLast n hlength
  rw [← packedPad_eq] at hinvalid hvalid
  have hiff : packedInvalid n bytes ↔ (decide (n % 2 = 0) = true ∧ (nibbles bytes).dropLast.getD 0 0 ≠ 0) ∨
      ∃ k, k < n ∧ 9 < (nibbles bytes).dropLast.getD (packedPad n + k) 0 := by
    rw [decide_eq_true_eq]
    refine or_congr (and_congr_right fun hn => ?_) (exists_congr fun k => and_congr_right fun hk => ?_)
    · rw [hget 0 (by rw [packedPad, if_pos hn]; omega)]
    · rw [hget _ (by omega)]
  have hsum : ∑ k ∈ Finset.range n, (nibbles bytes).dropLast.getD (packedPad n + k) 0 * 10 ^ (n - 1 - k) =
      nibblesNumber n (packedPad n) bytes :=
    Finset.sum_congr rfl fun k hk => by rw [hget _ (by have := Finset.mem_range.1 hk; omega)]
  unfold readPacked
  dsimp only
  rw [hlast]
  refine ⟨fun h => if_pos h, fun h hi => ?_, fun h hi => ?_⟩
  · rw [if_neg (Nat.not_le.2 h), hinvalid (hiff.1 hi)]
  · rw [if_neg (Nat.not_le.2 h), hvalid (mt hiff.2 hi), hsum]

/-- R8: the pad of an UNSIGNED PACKED field is not 0, or a digit is above 9. -/
def unsignedInvalid (n : Nat) (bytes : List Byte) : Prop :=
  (n % 2 = 1 ∧ nibbleAt bytes 0 ≠ 0) ∨ ∃ k, k < n ∧ 9 < nibbleAt bytes (n % 2 + k)

/-- R5, R8: the pad and the digits are judged. -/
theorem readUnsignedPacked_eq (n : Nat) (bytes : List Byte) (hlen : bytes.length = (n + 1) / 2) :
    (unsignedInvalid n bytes → readUnsignedPacked n bytes = .error .invalidDigit) ∧
    (¬unsignedInvalid n bytes → readUnsignedPacked n bytes = .ok (nibblesNumber n (n % 2) bytes)) := by
  have hpad : (decide (n % 2 = 1)).toNat = n % 2 := by
    rcases Nat.mod_two_eq_zero_or_one n with h | h <;> rw [h] <;> rfl
  have hlength : (nibbles bytes).length = n + (decide (n % 2 = 1)).toNat := by
    rw [nibbles_length, hlen, hpad]
    omega
  obtain ⟨hinvalid, hvalid⟩ := packedDigits_eq (decide (n % 2 = 1)) (nibbles bytes) n hlength
  rw [hpad] at hinvalid hvalid
  simp only [nibbles_getD, decide_eq_true_eq] at hinvalid hvalid
  unfold readUnsignedPacked
  refine ⟨fun h => ?_, fun h => ?_⟩
  · rw [hinvalid h]
  · rw [hvalid h]
    rfl

/-! ### Reading TEXT and BINARY64 -/

/-- R8: a character that is no digit. -/
def textInvalid (digits : List Byte) : Prop := ∃ d ∈ digits, d.toNat < 0x30 ∨ 0x39 < d.toNat

theorem all_digits_iff (digits : List Byte) :
    digits.all (fun d => 0x30 ≤ d.toNat && d.toNat ≤ 0x39) = true ↔ ¬textInvalid digits := by
  simp only [textInvalid, List.all_eq_true, Bool.and_eq_true, decide_eq_true_eq, not_exists, not_and, not_or, Nat.not_lt]

/-- The number that digit characters spell. -/
theorem digitsValue_text (digits : List Byte) (h : ¬textInvalid digits) :
    ((digitsValue (digits.map fun d => d.toNat - 0x30) : Nat) : Int) =
      ∑ k ∈ Finset.range digits.length, (((digits.getD k 0).toNat : Int) - 0x30) * 10 ^ (digits.length - 1 - k) := by
  rw [digitsValue_eq_sum, List.length_map]
  push_cast
  refine Finset.sum_congr rfl fun k hk => ?_
  have hlt : k < digits.length := Finset.mem_range.1 hk
  have hdigit : ¬((digits.getD k 0).toNat < 0x30 ∨ 0x39 < (digits.getD k 0).toNat) := fun hbad =>
    h ⟨_, by rw [List.getD_eq_getElem _ _ hlt]; exact List.getElem_mem hlt, hbad⟩
  have hmap : (digits.map fun d => d.toNat - 0x30).getD k 0 = (digits.getD k 0).toNat - 0x30 := by
    rw [List.getD_eq_getElem _ _ (by rwa [List.length_map]), List.getElem_map, List.getD_eq_getElem _ _ hlt]
  rw [hmap, Nat.cast_sub (by omega)]
  rfl

/-- R6, R8: the sign character is judged first, then the digits. -/
theorem readText_eq (sign : Byte) (digits : List Byte) :
    (sign ≠ 0x2B#8 → sign ≠ 0x20#8 → sign ≠ 0x2D#8 → readText (sign :: digits) = .error .invalidSign) ∧
    (sign = 0x2B#8 ∨ sign = 0x20#8 ∨ sign = 0x2D#8 →
      (textInvalid digits → readText (sign :: digits) = .error .invalidDigit) ∧
      (¬textInvalid digits → readText (sign :: digits) =
        .ok (signed (sign = 0x2D#8) (digitsValue (digits.map fun d => d.toNat - 0x30))))) := by
  unfold readText
  dsimp only
  refine ⟨fun h1 h2 h3 => if_neg (by simp [h1, h2, h3]), fun hsign => ⟨fun h => ?_, fun h => ?_⟩⟩
  · rw [if_pos (by simpa [or_assoc] using hsign), if_neg (mt (all_digits_iff digits).1 (not_not_intro h))]
  · rw [if_pos (by simpa [or_assoc] using hsign), if_pos ((all_digits_iff digits).2 h)]

theorem leNat_eq_sum (bytes : List Byte) :
    leNat bytes = ∑ k ∈ Finset.range bytes.length, (bytes.getD k 0).toNat * 256 ^ k := by
  induction bytes with
  | nil => rfl
  | cons b bs ih =>
    rw [leNat, ih, List.length_cons, Finset.sum_range_succ', Finset.mul_sum, Nat.add_comm]
    simp only [List.getD_cons_succ, List.getD_cons_zero, pow_succ, pow_zero, Nat.mul_one]
    congr 1
    exact Finset.sum_congr rfl fun k _ => by ring

theorem leNat_lt (bytes : List Byte) : leNat bytes < 256 ^ bytes.length := by
  induction bytes with
  | nil => exact Nat.one_pos
  | cons b bs ih =>
    have hb := b.isLt
    rw [leNat, List.length_cons, Nat.pow_succ]
    omega

/-- R7: two's complement of 64 bits. -/
theorem readBinary64_eq (bytes : List Byte) (hlen : bytes.length = 8) :
    let number : Int := ∑ k ∈ Finset.range 8, ((bytes.getD k 0).toNat : Int) * 256 ^ k
    readBinary64 bytes = if number < 2 ^ 63 then number else number - 2 ^ 64 := by
  have hlt : leNat bytes < 2 ^ 64 := by
    have h := leNat_lt bytes
    rw [hlen] at h
    exact h
  have hnumber : (∑ k ∈ Finset.range 8, ((bytes.getD k 0).toNat : Int) * 256 ^ k) = (leNat bytes : Int) := by
    rw [leNat_eq_sum, hlen]
    push_cast
    rfl
  dsimp only
  rw [hnumber, readBinary64, BitVec.toInt_eq_toNat_cond, BitVec.toNat_ofNat, Nat.mod_eq_of_lt hlt]
  split_ifs <;> omega

/-! ### Writing -/

/-- The digits of a coefficient spell its last n digits. -/
theorem sum_digits (n c : Nat) :
    ∑ k ∈ Finset.range n, c / 10 ^ (n - 1 - k) % 10 * 10 ^ (n - 1 - k) = c % 10 ^ n := by
  rw [Finset.sum_range_reflect (fun j => c / 10 ^ j % 10 * 10 ^ j) n]
  induction n with
  | zero => simp [Nat.mod_one]
  | succ n ih => rw [Finset.sum_range_succ, ih, Nat.pow_succ, Nat.mod_mul, Nat.mul_comm]

/-- The nibbles of a PACKED destination: pad, digits, sign (R11). -/
def packedNibbles (n : Nat) (c : Int) : List Nat :=
  (if n % 2 = 0 then [0] else []) ++ digitsOf n c.natAbs ++ [if c < 0 then 0xD else 0xC]

/-- The nibbles of an UNSIGNED PACKED destination: pad, digits (R11). -/
def unsignedNibbles (n : Nat) (c : Int) : List Nat := (if n % 2 = 1 then [0] else []) ++ digitsOf n c.natAbs

/-- Digit k of n stands after the pad. -/
theorem getD_pad_digits (pad : List Nat) (n c k : Nat) (h : k < n) (rest : List Nat) :
    (pad ++ digitsOf n c ++ rest).getD (pad.length + k) 0 = c / 10 ^ (n - 1 - k) % 10 := by
  have hlt : k < (digitsOf n c).length := by rwa [digitsOf_length]
  rw [List.append_assoc, List.getD_append_right _ _ _ _ (Nat.le_add_right _ _), Nat.add_sub_cancel_left,
    List.getD_append _ _ _ _ hlt, digitsOf_getD n c k h]

/-- R11: a PACKED destination, nibble by nibble. -/
theorem writePacked_nibbles (n : Nat) (c : Int) :
    (writePacked n c).length = n / 2 + 1 ∧ (n % 2 = 0 → nibbleAt (writePacked n c) 0 = 0) ∧
    (∀ k, k < n → nibbleAt (writePacked n c) (packedPad n + k) = c.natAbs / 10 ^ (n - 1 - k) % 10) ∧
    nibbleAt (writePacked n c) (packedPad n + n) = if c < 0 then 0xD else 0xC := by
  have hpad : (if n % 2 = 0 then [0] else []).length = packedPad n := by
    rw [packedPad]
    split_ifs <;> rfl
  have hlength : (packedNibbles n c).length = 2 * (n / 2 + 1) := by
    simp only [packedNibbles, List.length_append, hpad, digitsOf_length, List.length_singleton]
    rw [packedPad]
    split_ifs <;> omega
  have hsmall : ∀ x ∈ packedNibbles n c, x < 16 := by
    intro x hx
    simp only [packedNibbles, List.mem_append, List.mem_singleton] at hx
    rcases hx with (hx | hx) | hx
    · split_ifs at hx with h
      · rw [List.mem_singleton.1 hx]; decide
      · cases hx
    · have := digitsOf_lt n c.natAbs x hx
      omega
    · rw [hx]
      split_ifs <;> decide
  obtain ⟨hbytes, hnibble⟩ := packNibbles_nibbleAt (n / 2 + 1) (packedNibbles n c) hlength hsmall
  refine ⟨hbytes, fun hn => ?_, fun k hk => ?_, ?_⟩
  · refine (hnibble 0).trans ?_
    rw [packedNibbles, if_pos hn]
    rfl
  · refine (hnibble _).trans ?_
    rw [← hpad]
    exact getD_pad_digits _ n c.natAbs k hk _
  · refine (hnibble _).trans ?_
    have hfront : ((if n % 2 = 0 then [0] else []) ++ digitsOf n c.natAbs).length = packedPad n + n := by
      rw [List.length_append, hpad, digitsOf_length]
    rw [packedNibbles, List.getD_append_right _ _ _ _ (by rw [hfront]), hfront, Nat.sub_self]
    rfl

/-- R11: an UNSIGNED PACKED destination, nibble by nibble. -/
theorem writeUnsignedPacked_nibbles (n : Nat) (c : Int) :
    (writeUnsignedPacked n c).length = (n + 1) / 2 ∧ (n % 2 = 1 → nibbleAt (writeUnsignedPacked n c) 0 = 0) ∧
    ∀ k, k < n → nibbleAt (writeUnsignedPacked n c) (n % 2 + k) = c.natAbs / 10 ^ (n - 1 - k) % 10 := by
  have hpad : (if n % 2 = 1 then [0] else []).length = n % 2 := by
    rcases Nat.mod_two_eq_zero_or_one n with h | h <;> rw [h] <;> rfl
  have hlength : (unsignedNibbles n c).length = 2 * ((n + 1) / 2) := by
    simp only [unsignedNibbles, List.length_append, hpad, digitsOf_length]
    omega
  have hsmall : ∀ x ∈ unsignedNibbles n c, x < 16 := by
    intro x hx
    rcases List.mem_append.1 hx with hx | hx
    · split_ifs at hx with h
      · rw [List.mem_singleton.1 hx]; decide
      · cases hx
    · have := digitsOf_lt n c.natAbs x hx
      omega
  obtain ⟨hbytes, hnibble⟩ := packNibbles_nibbleAt ((n + 1) / 2) (unsignedNibbles n c) hlength hsmall
  refine ⟨hbytes, fun hn => ?_, fun k hk => ?_⟩
  · refine (hnibble 0).trans ?_
    rw [unsignedNibbles, if_pos hn]
    rfl
  · refine (hnibble _).trans ?_
    have hget := getD_pad_digits (if n % 2 = 1 then [0] else []) n c.natAbs k hk []
    rwa [hpad, List.append_nil] at hget

theorem leBytes_length (n v : Nat) : (leBytes n v).length = n := by
  induction n generalizing v with
  | zero => rfl
  | succ n ih => rw [leBytes, List.length_cons, ih]

theorem leBytes_getD (n v k : Nat) (h : k < n) : ((leBytes n v).getD k 0).toNat = v / 256 ^ k % 256 := by
  induction n generalizing v k with
  | zero => cases h
  | succ n ih =>
    cases k with
    | zero => simp [leBytes]
    | succ k =>
      rw [leBytes, List.getD_cons_succ, ih (v / 256) k (Nat.lt_of_succ_lt_succ h), Nat.div_div_eq_div_mul, Nat.pow_succ']

/-- R13: byte k of the two's complement. -/
theorem writeBinary64_byte (c : Int) (k : Nat) (h : k < 8) :
    (((writeBinary64 c).getD k 0).toNat : Int) = c / 256 ^ k % 256 := by
  rw [writeBinary64, leBytes_getD 8 _ k h, BitVec.toNat_ofInt]
  have hnonneg : 0 ≤ c % 18446744073709551616 := Int.emod_nonneg _ (by decide)
  push_cast
  rw [Int.toNat_of_nonneg hnonneg]
  interval_cases k <;> omega

/-! ### Reading back -/

theorem readPacked_writePacked (n : Nat) (c : Int) (h : c.natAbs < 10 ^ n) : readPacked n (writePacked n c) = .ok c := by
  obtain ⟨hlength, hpad, hdigits, hsign⟩ := writePacked_nibbles n c
  obtain ⟨-, -, hread⟩ := readPacked_eq n (writePacked n c) hlength
  have hvalid : ¬packedInvalid n (writePacked n c) := by
    rintro (⟨hn, hne⟩ | ⟨k, hk, h9⟩)
    · exact hne (hpad hn)
    · rw [hdigits k hk] at h9
      omega
  have hnumber : nibblesNumber n (packedPad n) (writePacked n c) = c.natAbs := by
    rw [nibblesNumber, Finset.sum_congr rfl fun k hk => by rw [hdigits k (Finset.mem_range.1 hk)], sum_digits,
      Nat.mod_eq_of_lt h]
  rw [hsign] at hread
  rw [hread (by split_ifs <;> decide) hvalid, hnumber]
  refine congrArg Except.ok (Eq.trans ?_ (signed_natAbs c))
  congr 1
  by_cases hc : c < 0 <;> simp [hc]

theorem readUnsignedPacked_writeUnsignedPacked (n : Nat) (c : Int) (h : c.natAbs < 10 ^ n) (hc : 0 ≤ c) :
    readUnsignedPacked n (writeUnsignedPacked n c) = .ok c := by
  obtain ⟨hlength, hpad, hdigits⟩ := writeUnsignedPacked_nibbles n c
  have hvalid : ¬unsignedInvalid n (writeUnsignedPacked n c) := by
    rintro (⟨hn, hne⟩ | ⟨k, hk, h9⟩)
    · exact hne (hpad hn)
    · rw [hdigits k hk] at h9
      omega
  have hnumber : nibblesNumber n (n % 2) (writeUnsignedPacked n c) = c.natAbs := by
    rw [nibblesNumber, Finset.sum_congr rfl fun k hk => by rw [hdigits k (Finset.mem_range.1 hk)], sum_digits,
      Nat.mod_eq_of_lt h]
  rw [(readUnsignedPacked_eq n _ hlength).2 hvalid, hnumber, Int.natAbs_of_nonneg hc]

theorem digitsValue_digitsOf (n c : Nat) : digitsValue (digitsOf n c) = c % 10 ^ n := by
  rw [digitsValue_eq_sum, digitsOf_length, ← sum_digits]
  exact Finset.sum_congr rfl fun k hk => by rw [digitsOf_getD n c k (Finset.mem_range.1 hk)]

/-- The characters of digits are digits, and spell the same number. -/
theorem textDigits_digits (n c : Nat) :
    ¬textInvalid (textDigits n c) ∧ ((textDigits n c).map fun d => d.toNat - 0x30) = digitsOf n c := by
  have hchar (d : Nat) (hd : d ∈ digitsOf n c) : (BitVec.ofNat 8 (0x30 + d)).toNat = 0x30 + d := by
    have := digitsOf_lt n c d hd
    rw [BitVec.toNat_ofNat]
    omega
  constructor
  · rintro ⟨b, hb, hbad⟩
    obtain ⟨d, hd, rfl⟩ := List.mem_map.1 hb
    have := digitsOf_lt n c d hd
    rw [hchar d hd] at hbad
    omega
  · rw [textDigits, List.map_map]
    refine (List.map_congr_left fun d hd => ?_).trans (List.map_id _)
    show (BitVec.ofNat 8 (0x30 + d)).toNat - 0x30 = d
    rw [hchar d hd]
    omega

theorem readText_writeText (n : Nat) (c : Int) (h : c.natAbs < 10 ^ n) : readText (writeText n c) = .ok c := by
  obtain ⟨hvalid, hdigits⟩ := textDigits_digits n c.natAbs
  have hsign : (if c < 0 then 0x2D#8 else 0x2B#8) = 0x2B#8 ∨ (if c < 0 then 0x2D#8 else 0x2B#8) = 0x20#8 ∨
      (if c < 0 then 0x2D#8 else 0x2B#8) = 0x2D#8 := by
    split_ifs <;> decide
  refine (((readText_eq _ (textDigits n c.natAbs)).2 hsign).2 hvalid).trans ?_
  rw [hdigits, digitsValue_digitsOf, Nat.mod_eq_of_lt h]
  refine congrArg Except.ok (Eq.trans ?_ (signed_natAbs c))
  congr 1
  by_cases hc : c < 0 <;> simp [hc]

theorem readBinary64_writeBinary64 (c : Int) (hlow : -9223372036854775808 ≤ c) (hhigh : c ≤ 9223372036854775807) :
    readBinary64 (writeBinary64 c) = c := by
  rw [readBinary64, writeBinary64, leNat_leBytes_of_lt (n := 8) (BitVec.isLt _), BitVec.ofNat_toNat, BitVec.setWidth_eq,
    BitVec.toInt_ofInt_eq_self (by decide) (by simpa using hlow) (by norm_num; omega)]

/-! ### Fields -/

/-- The decimal of a field's coefficient at its scale (R8). -/
def atScale (s : Nat) (coef : Except FaultKind Int) : Except FaultKind Decimal := coef.map (⟨·, s⟩)

theorem readField_packed (n s : Nat) (bytes : List Byte) :
    readField .packed n s bytes = atScale s (readPacked n bytes) := by
  unfold readField
  dsimp only
  cases readPacked n bytes <;> rfl

theorem readField_unsignedPacked (n s : Nat) (bytes : List Byte) :
    readField .unsignedPacked n s bytes = atScale s (readUnsignedPacked n bytes) := by
  unfold readField
  dsimp only
  cases readUnsignedPacked n bytes <;> rfl

theorem readField_text (n s : Nat) (bytes : List Byte) : readField .text n s bytes = atScale s (readText bytes) := by
  unfold readField
  dsimp only
  cases readText bytes <;> rfl

theorem readField_binary64 (n s : Nat) (bytes : List Byte) :
    readField .binary64 n s bytes = .ok ⟨readBinary64 bytes, s⟩ := rfl

/-- What the checks of a memory destination let through (R26, R27). -/
theorem Place.check_memory_passes {f : MemField} {c : Int} (hscale : f.scale ≤ f.digits)
    (h : (Place.memory f).check c = none) :
    c.natAbs < 10 ^ f.digits ∧ (f.format = .unsignedPacked → 0 ≤ c) ∧
      (f.format = .binary64 → -9223372036854775808 ≤ c ∧ c ≤ 9223372036854775807) := by
  rw [Place.check_memory] at h
  split_ifs at h with hfits hsign hrange
  refine ⟨(fits_iff _ _ c hscale).1 hfits, fun hf => ?_, fun hf => ?_⟩
  · by_contra hneg
    exact hsign ⟨hf, by omega⟩
  · by_contra hout
    exact hrange ⟨hf, by omega⟩

/-- What was written reads back. -/
theorem readField_writeField (f : MemField) (c : Int) (hscale : f.scale ≤ f.digits) (h : (Place.memory f).check c = none) :
    readField f.format f.digits f.scale (writeField f.format f.digits c) = .ok ⟨c, f.scale⟩ ∧
      (writeField f.format f.digits c).length = f.size := by
  obtain ⟨hfits, hsign, hrange⟩ := Place.check_memory_passes hscale h
  rw [MemField.size]
  cases hf : f.format with
  | packed =>
    refine ⟨?_, (writePacked_nibbles f.digits c).1⟩
    rw [readField_packed, writeField, readPacked_writePacked _ c hfits]
    rfl
  | unsignedPacked =>
    refine ⟨?_, (writeUnsignedPacked_nibbles f.digits c).1⟩
    rw [readField_unsignedPacked, writeField, readUnsignedPacked_writeUnsignedPacked _ c hfits (hsign hf)]
    rfl
  | text =>
    refine ⟨?_, ?_⟩
    · rw [readField_text, writeField, readText_writeText _ c hfits]
      rfl
    · rw [writeField_text, List.length_cons, textDigits_length]
      rfl
  | binary64 =>
    obtain ⟨hlow, hhigh⟩ := hrange hf
    refine ⟨?_, leBytes_length 8 _⟩
    rw [readField_binary64, writeField, readBinary64_writeBinary64 c hlow hhigh]

/-- Settles O54: reading and writing are described nibble by nibble and byte by byte; reading back puts the two together. -/
theorem fieldReadsBackWhatWasWritten : Obligations.FieldReadsBackWhatWasWritten := by
  refine ⟨fun f c _ hscale _ h => readField_writeField f c hscale h, fun n s bytes _ hlen => ?_,
    fun n s bytes _ hlen => ?_, fun n s sign digits hlen => ?_, fun n s bytes hlen => ?_, fun n c _ => ?_⟩
  · obtain ⟨hsign, hinvalid, hvalid⟩ := readPacked_eq n bytes hlen
    have hnumber := cast_nibblesNumber n (packedPad n) bytes
    refine ⟨fun h => ?_, fun h hi => ?_, fun h hi => ?_, fun h hi => ?_⟩
    · rw [readField_packed, hsign h]
      rfl
    · rw [readField_packed, hinvalid h hi]
      rfl
    · have hs : nibbleAt bytes (packedPad n + n) = 0xA ∨ nibbleAt bytes (packedPad n + n) = 0xC ∨
          nibbleAt bytes (packedPad n + n) = 0xE ∨ nibbleAt bytes (packedPad n + n) = 0xF := h
      rw [readField_packed, hvalid (by omega) hi, signed, if_neg (by simp; omega), hnumber]
      rfl
    · have hs : nibbleAt bytes (packedPad n + n) = 0xB ∨ nibbleAt bytes (packedPad n + n) = 0xD := h
      rw [readField_packed, hvalid (by omega) hi, signed, if_pos (by simpa using hs), hnumber]
      rfl
  · obtain ⟨hinvalid, hvalid⟩ := readUnsignedPacked_eq n bytes hlen
    refine ⟨fun hi => ?_, fun hi => ?_⟩
    · rw [readField_unsignedPacked, hinvalid hi]
      rfl
    · rw [readField_unsignedPacked, hvalid hi, cast_nibblesNumber]
      rfl
  · obtain ⟨hother, hsigns⟩ := readText_eq sign digits
    subst hlen
    refine ⟨fun h1 h2 h3 => ?_, fun h hi => ?_, fun h hi => ?_, fun h hi => ?_⟩
    · rw [readField_text, hother h1 h2 h3]
      rfl
    · rw [readField_text, (hsigns h).1 hi]
      rfl
    · have hplus : decide (sign = 0x2D#8) = false := by rcases h with rfl | rfl <;> rfl
      rw [readField_text, (hsigns (h.imp_right .inl)).2 hi, hplus, signed, if_neg Bool.false_ne_true, digitsValue_text _ hi]
      rfl
    · rw [readField_text, (hsigns (.inr (.inr h))).2 hi, decide_eq_true h, signed, if_pos rfl, digitsValue_text _ hi]
      rfl
  · dsimp only
    rw [readField_binary64, readBinary64_eq bytes hlen]
  · exact ⟨writePacked_nibbles n c, writeUnsignedPacked_nibbles n c, leBytes_length 8 _, writeBinary64_byte c⟩

end Sys2Proof.Machine
end

section
/-! The appends that bring a take and a job's end into the writer buffer (R74 to R76, R96 to R98, R116, R138). -/

namespace Sys2Proof.Machine

/-! ### Presenting (R138) -/

theorem State.present_waiting (s : State) {a : Appender} (h : a ∈ s.writer.waiters) : s.present a = s :=
  if_pos (List.contains_iff_mem.2 h)

theorem State.present_new (s : State) {a : Appender} (h : a ∉ s.writer.waiters) :
    s.present a = { s with writer.waiters := s.writer.waiters ++ [a] } :=
  if_neg (mt List.contains_iff_mem.1 h)

/-- R74, R75: Intake presents once its checks are complete and the take counter is no outstanding ticket. -/
theorem State.presentTaken_judged (s : State) {item : IntakeItem} {v : Verdict}
    (hactivity : s.intake.activity = .taking item ∨ s.intake.activity = .nullTake item) (hphase : item.phase = .judged v) :
    s.presentTaken = if s.dispatcher.outstanding.contains s.intake.takeCounter then s else s.present .intake := by
  obtain ⟨slot, priority, source, aborted, record, phase⟩ := item
  cases hphase
  rcases hactivity with h | h
  all_goals
    rw [State.presentTaken, h]

theorem State.presentTaken_unjudged (s : State) {item : IntakeItem}
    (hactivity : s.intake.activity = .taking item ∨ s.intake.activity = .nullTake item) (hphase : ∀ v, item.phase ≠ .judged v) :
    s.presentTaken = s := by
  obtain ⟨slot, priority, source, aborted, record, phase⟩ := item
  rcases hactivity with h | h
  all_goals
    rw [State.presentTaken, h]
    cases phase with
    | judged v => exact absurd rfl (hphase v)
    | _ => rfl

theorem State.presentTaken_idle (s : State) (h : s.intake.activity = .idle ∨ ∃ k, s.intake.activity = .sweeping k) :
    s.presentTaken = s := by
  rcases h with h | ⟨k, h⟩
  all_goals rw [State.presentTaken, h]

/-! ### Appending -/

/-- An append of the earliest waiter ends its wait. -/
theorem State.append_head (s : State) {a : Appender} (h : s.writer.waiters.head? = some a) (entries : List WriterEntry) :
    s.append a entries = { s with
      writer.buffer := s.writer.buffer ++ entries, writer.waiters := s.writer.waiters.tail } := by
  rw [State.append, erase_head h]

theorem State.admits_of_head (s : State) {a : Appender} (hr : s.control.rst = false) (hw : s.control.resetWait = false)
    (hhead : s.writer.waiters.head? = some a) (hroom : s.writer.buffer.length < 8) : s.admits a 1 = true :=
  (s.admits_one a).2 ⟨s.acts_of_released hr hw, hhead, hroom⟩

theorem State.not_admits (s : State) {a : Appender} (h : s.writer.waiters.head? ≠ some a ∨ 8 ≤ s.writer.buffer.length) :
    ¬s.admits a 1 = true := by
  rw [State.admits_one]
  rintro ⟨-, hhead, hroom⟩
  rcases h with h | h
  · exact h hhead
  · omega

theorem Intake.judged?_eq (i : Intake) {item : IntakeItem} {v : Verdict}
    (hactivity : i.activity = .taking item ∨ i.activity = .nullTake item) (hphase : item.phase = .judged v) :
    i.judged? = some (item, v) := by
  rcases hactivity with h | h
  all_goals
    rw [Intake.judged?, h]
    dsimp only
    rw [hphase]

theorem Intake.handing?_eq (i : Intake) {item : IntakeItem} {t : Ticket} {v : Verdict}
    (hactivity : i.activity = .taking item ∨ i.activity = .nullTake item) (hphase : item.phase = .handing t v) :
    i.handing? = some (item, t, v) := by
  rcases hactivity with h | h
  all_goals
    rw [Intake.handing?, h]
    dsimp only
    rw [hphase]

theorem exec_takenEntryAppend (s : State) {item : IntakeItem} {v : Verdict} (hjudged : s.intake.judged? = some (item, v))
    (hadmits : s.admits .intake 1 = true) (hticket : s.intake.takeCounter ∉ s.dispatcher.outstanding) :
    exec .takenEntryAppend s =
      .next (((s.assignTicket item).handOver item s.intake.takeCounter v).appended .intake) := by
  refine congrArg Host.Outcome.next ?_
  rw [hjudged]
  refine if_pos ?_
  rw [hadmits, List.contains_eq_mem, decide_eq_false hticket]
  rfl

/-- The ticket's assignment with the TAKEN entry, of the earliest waiter. -/
theorem State.assignTicket_eq (s : State) (item : IntakeItem) (hhead : s.writer.waiters.head? = some .intake) :
    s.assignTicket item = { s with
      intake.takeCounter := s.intake.takeCounter + 1#32
      writer.buffer := s.writer.buffer ++ [.state s.intake.takeCounter item.slot item.priority (recordTag item.record)]
      writer.waiters := s.writer.waiters.tail
      writer.table := s.writer.table ++ [⟨s.intake.takeCounter, 0, none⟩]
      dispatcher.outstanding := s.dispatcher.outstanding ++ [s.intake.takeCounter] } := by
  rw [State.assignTicket, s.append_head hhead]

theorem State.handOver_valid (s : State) {item : IntakeItem} (ticket : Ticket) (image : JobImage)
    (h : item.aborted = false) : s.handOver item ticket (.valid image) = s.stage item ticket image := by
  obtain ⟨slot, priority, source, aborted, record, phase⟩ := item
  cases h
  rfl

/-- R76: what is not a valid job free of an abort gets a completion item. -/
theorem State.handOver_item (s : State) {item : IntakeItem} (ticket : Ticket) {v : Verdict}
    (h : item.aborted = true ∨ ∀ image, v ≠ .valid image) :
    s.handOver item ticket v =
      { s with intake.activity := s.intake.activity.inPhase (.handing ticket v) }.present .intake := by
  unfold State.handOver
  cases v with
  | valid image =>
    rcases h with h | h
    · rw [h]
    · exact absurd rfl (h image)
  | _ => rfl

/-- Settles O32: the ticket is `State.assignTicket_eq`, the hand-over staging or `State.handOver_item`. -/
theorem takenEntryAssignsTheTicket : Obligations.TakenEntryAssignsTheTicket := by
  refine ⟨fun s item v hr hw hactivity hphase hhead hroom hticket => ⟨fun image hv haborted => ?_, fun hitem => ?_⟩,
    fun s h => ?_, fun s item hactivity => ⟨fun v hphase => ⟨fun hticket => ?_, fun hticket => ?_⟩, fun hphase => ?_⟩,
    State.presentTaken_idle, fun s a => ⟨s.present_waiting, s.present_new⟩⟩
  · have hexec := exec_takenEntryAppend s (Intake.judged?_eq _ hactivity hphase) (s.admits_of_head hr hw hhead hroom) hticket
    rw [hexec, s.assignTicket_eq item hhead, hv, State.handOver_valid _ _ _ haborted]
    rfl
  · have hexec := exec_takenEntryAppend s (Intake.judged?_eq _ hactivity hphase) (s.admits_of_head hr hw hhead hroom) hticket
    refine ⟨s.intake.activity.inPhase (.handing s.intake.takeCounter v), ?_, fun h => ?_, fun h => ?_⟩
    · rw [hexec, s.assignTicket_eq item hhead, State.handOver_item _ _ hitem]
    · rw [h]
      rfl
    · rw [h]
      rfl
  · refine congrArg Host.Outcome.next ?_
    split
    · rfl
    · refine if_neg ?_
      rw [Bool.and_eq_true, State.admits_one]
      rintro ⟨⟨-, hhead, hroom⟩, hfree⟩
      rcases h with h | h | h
      · exact h hhead
      · omega
      · rw [List.contains_eq_mem, decide_eq_true h] at hfree
        cases hfree
  · rw [s.presentTaken_judged hactivity hphase, if_pos (List.contains_iff_mem.2 hticket)]
  · rw [s.presentTaken_judged hactivity hphase, if_neg (mt List.contains_iff_mem.1 hticket)]
  · exact s.presentTaken_unjudged hactivity hphase

/-! ### Completion items -/

theorem handedEnd_eq (aborted : Bool) (v : Verdict) :
    (∀ reason index, v = .rejected reason index → aborted = false → handedEnd aborted v = .rejected reason index) ∧
    ((aborted = true ∨ ∀ reason index, v ≠ .rejected reason index) → handedEnd aborted v = .aborted) := by
  constructor
  · rintro reason index rfl rfl
    rfl
  · intro h
    cases v with
    | rejected reason index =>
      rcases h with rfl | h
      · rfl
      · exact absurd rfl (h reason index)
    | _ => rfl

theorem Dispatcher.eligible_iff (d : Dispatcher) :
    d.eligible = true ↔ ∃ st, d.staged = some st ∧ st.ending = false ∧
      (st.job.image.fenced = true → d.outstanding.head? = some st.job.ticket) := by
  rw [Dispatcher.eligible]
  cases h : d.staged with
  | none => simp
  | some st => cases hf : st.job.image.fenced <;> simp [hf]

/-- Settles O33: each of the three appends by the item its block has, and the wait by `State.not_admits`. -/
theorem completionItemsAppended : Obligations.CompletionItemsAppended := by
  refine ⟨fun s item ticket v hr hw hactivity hphase hhead hroom =>
      ⟨handedEnd item.aborted v, ?_, handedEnd_eq item.aborted v⟩,
    fun s item rest hr hw hitems hhead hroom => ⟨fun hrest => ?_, fun hrest => ?_⟩,
    fun s u item hr hw hactivity hhead hroom => ?_, fun d => ⟨d.available_eq, d.eligible_iff⟩,
    fun s => ⟨fun h => ?_, fun h => ?_, fun u h => ?_⟩⟩
  · refine congrArg Host.Outcome.next ?_
    rw [Intake.handing?_eq _ hactivity hphase]
    dsimp only
    rw [if_pos (s.admits_of_head hr hw hhead hroom), s.append_head hhead]
    rfl
  · refine congrArg Host.Outcome.next ?_
    rw [hitems]
    dsimp only
    rw [if_pos (s.admits_of_head hr hw hhead hroom), s.append_head hhead, hrest]
    rfl
  · refine congrArg Host.Outcome.next ?_
    rw [hitems]
    dsimp only
    rw [if_pos (s.admits_of_head hr hw hhead hroom), s.append_head hhead, if_neg (mt List.isEmpty_iff.1 hrest)]
    rfl
  · refine congrArg Host.Outcome.next ?_
    rw [hactivity]
    dsimp only
    rw [if_pos (s.admits_of_head hr hw hhead hroom), s.append_head hhead]
    cases u <;> rfl
  · refine congrArg Host.Outcome.next ?_
    split
    · rfl
    · exact if_neg (s.not_admits h)
  · refine congrArg Host.Outcome.next ?_
    split
    · rfl
    · exact if_neg (s.not_admits h)
  · refine congrArg Host.Outcome.next ?_
    split
    · exact if_neg (s.not_admits h)
    · rfl
    · rfl

end Sys2Proof.Machine
end

section
/-! The Dispatcher's acts: the start, the park and the resumption of a job (R88 to R95, R100, R117). -/

namespace Sys2Proof.Machine

/-! ### The jobs available -/

theorem State.assigns_iff (s : State) : s.assigns = true ↔
    s.acts = true ∧ (s.control.state = .running ∨ s.control.state = .draining) := by
  simp only [State.assigns, Bool.and_eq_true, Bool.or_eq_true, decide_eq_true_eq]

theorem Dispatcher.urgentReady_iff (d : Dispatcher) :
    d.urgentReady = true ↔ ∃ st, d.staged = some st ∧ st.ending = false ∧ st.job.priority = .urgent ∧
      (st.job.image.fenced = true → d.outstanding.head? = some st.job.ticket) := by
  rw [Dispatcher.urgentReady, Bool.and_eq_true, Dispatcher.eligible_iff]
  constructor
  · rintro ⟨⟨st, hst, hending, hfenced⟩, hurgent⟩
    rw [hst] at hurgent
    exact ⟨st, hst, hending, of_decide_eq_true hurgent, hfenced⟩
  · rintro ⟨st, hst, hending, hurgent, hfenced⟩
    refine ⟨⟨st, hst, hending, hfenced⟩, ?_⟩
    rw [hst]
    exact decide_eq_true hurgent

/-- R90: the earlier of two parked jobs. -/
def Dispatcher.pickEarlier (d : Dispatcher) (best : Option ParkedJob) (p : ParkedJob) : Option ParkedJob :=
  match best with
  | none => some p
  | some b => if d.earlier p.job.ticket b.job.ticket then some p else some b

theorem Dispatcher.nextParked_eq (d : Dispatcher) :
    d.nextParked = (d.parked.filter (!·.ending)).foldl d.pickEarlier none := rfl

theorem Dispatcher.foldl_pickEarlier_some (d : Dispatcher) (ps : List ParkedJob) (b : ParkedJob) :
    ∃ r, ps.foldl d.pickEarlier (some b) = some r := by
  induction ps generalizing b with
  | nil => exact ⟨b, rfl⟩
  | cons p ps ih =>
    rw [List.foldl_cons, Dispatcher.pickEarlier]
    split_ifs
    · exact ih p
    · exact ih b

theorem Dispatcher.nextParked_eq_none_iff (d : Dispatcher) : d.nextParked = none ↔ ∀ p ∈ d.parked, p.ending = true := by
  have hempty : (∀ p ∈ d.parked, p.ending = true) ↔ d.parked.filter (!·.ending) = [] := by
    simp [List.filter_eq_nil_iff]
  rw [hempty, Dispatcher.nextParked_eq]
  cases d.parked.filter (!·.ending) with
  | nil => exact iff_of_true rfl rfl
  | cons p ps =>
    obtain ⟨r, hr⟩ := d.foldl_pickEarlier_some ps p
    exact iff_of_false (fun h => by rw [List.foldl_cons] at h; exact absurd (h.symm.trans hr) nofun) nofun

/-- A job earlier than every other is the pick. -/
theorem Dispatcher.foldl_pickEarlier_of_earliest (d : Dispatcher) {p : ParkedJob} (ps : List ParkedJob)
    (best : Option ParkedJob) (hmem : best = some p ∨ p ∈ ps)
    (hbest : ∀ b, best = some b → b = p ∨ d.earlier p.job.ticket b.job.ticket = true)
    (hps : ∀ q ∈ ps, q = p ∨ d.earlier p.job.ticket q.job.ticket = true) : ps.foldl d.pickEarlier best = some p := by
  have hlater {q : ParkedJob} (h : d.earlier p.job.ticket q.job.ticket = true) :
      ¬d.earlier q.job.ticket p.job.ticket = true := by
    simp only [Dispatcher.earlier, decide_eq_true_eq] at h ⊢
    omega
  induction ps generalizing best with
  | nil => exact hmem.resolve_right List.not_mem_nil
  | cons q ps ih =>
    have hrest : ∀ q ∈ ps, q = p ∨ d.earlier p.job.ticket q.job.ticket = true := fun q hq => hps q (.tail _ hq)
    rw [List.foldl_cons]
    rcases hps q List.mem_cons_self with rfl | hq
    · have hpick : d.pickEarlier best q = some q := by
        cases best with
        | none => rfl
        | some b =>
          rw [Dispatcher.pickEarlier]
          rcases hbest b rfl with rfl | hb
          · split_ifs <;> rfl
          · rw [if_pos hb]
      exact hpick ▸ ih _ (.inl rfl) (fun b hb => .inl (Option.some.inj hb).symm) hrest
    · cases best with
      | none =>
        refine ih _ (.inr ?_) (fun b hb => .inr (Option.some.inj hb ▸ hq)) hrest
        rcases hmem with h | h
        · cases h
        · rcases List.mem_cons.1 h with rfl | h
          · exact absurd hq (hlater hq)
          · exact h
      | some b =>
        rw [Dispatcher.pickEarlier]
        rcases hbest b rfl with rfl | hb
        · rw [if_neg (hlater hq)]
          exact ih _ (.inl rfl) (fun b hb => .inl (Option.some.inj hb).symm) hrest
        · have hin : p ∈ ps := by
            rcases hmem with h | h
            · cases h
              exact absurd hb (hlater hb)
            · rcases List.mem_cons.1 h with rfl | h
              · exact absurd hq (hlater hq)
              · exact h
          refine ih _ (.inr hin) (fun c hc => .inr ?_) hrest
          split_ifs at hc
          · exact Option.some.inj hc ▸ hq
          · exact Option.some.inj hc ▸ hb

end Sys2Proof.Machine
end

section
/-! The start of a staged job, the resumption of a parked one, and parking (R88 to R95, R100, R117). -/

namespace Sys2Proof.Machine

theorem Dispatcher.not_eligible_of_fenced (d : Dispatcher) {st : StagedJob} {t : Ticket} (hst : d.staged = some st)
    (hfenced : st.job.image.fenced = true) (hhead : d.outstanding.head? = some t) (ht : t ≠ st.job.ticket) :
    ¬d.eligible = true := by
  rw [Dispatcher.eligible_iff]
  rintro ⟨st', hst', -, hfirst⟩
  obtain rfl : st = st' := Option.some.inj (hst.symm.trans hst')
  exact ht (Option.some.inj (hhead.symm.trans (hfirst hfenced)))

theorem Dispatcher.eligible_of_urgentReady (d : Dispatcher) (h : d.urgentReady = true) : d.eligible = true :=
  (Bool.and_eq_true _ _ ▸ h : _ ∧ _).1

theorem State.assigns_of (s : State) (hr : s.control.rst = false) (hw : s.control.resetWait = false)
    (hstate : s.control.state = .running ∨ s.control.state = .draining) : s.assigns = true :=
  s.assigns_iff.2 ⟨s.acts_of_released hr hw, hstate⟩

/-! ### The unit served -/

theorem Dispatcher.settleFreed_nil (d : Dispatcher) (h : d.freed = []) : d.settleFreed.freed = [] := by
  rw [Dispatcher.settleFreed, h]
  exact List.take_nil

theorem Dispatcher.settleFreed_head (d : Dispatcher) {u : UnitId} {rest : List UnitId} (h : d.freed = u :: rest)
    (havailable : 0 < d.available) : d.settleFreed.freed = u :: rest.take (d.available - 1) := by
  obtain ⟨n, hn⟩ := Nat.exists_eq_succ_of_ne_zero havailable.ne'
  rw [Dispatcher.settleFreed, h, hn]
  rfl

theorem Dispatcher.available_pos (d : Dispatcher) (h : d.eligible = true ∨ ∃ p ∈ d.parked, p.ending = false) :
    0 < d.available := by
  rw [Dispatcher.available_eq]
  rcases h with h | ⟨p, hp, hending⟩
  · rw [if_pos h]
    omega
  · have hmem : p ∈ d.parked.filter fun p => !p.ending := List.mem_filter.2 ⟨hp, by rw [hending]; rfl⟩
    have := List.length_pos_of_mem hmem
    omega

theorem State.servedUnit_eq_none (s : State) (h0 : s.unit0.activity ≠ .idle) (h1 : s.unit1.activity ≠ .idle) :
    s.servedUnit = none := by
  have hbusy (u : UnitId) : ¬(s.unit u).isIdle = true := by
    rw [CalcUnit.isIdle_iff]
    cases u
    · exact h0
    · exact h1
  have hnone : (s.dispatcher.settleFreed.freed ++ [UnitId.unit0, UnitId.unit1]).filter (fun u => (s.unit u).isIdle) = [] :=
    List.filter_eq_nil_iff.2 fun u _ => hbusy u
  rw [State.servedUnit, hnone]
  rfl

/-- A freed unit for which a job is available is served first. -/
theorem State.servedUnit_freed (s : State) {u : UnitId} {rest : List UnitId} (h : s.dispatcher.freed = u :: rest)
    (hidle : (s.unit u).activity = .idle)
    (havailable : s.dispatcher.eligible = true ∨ ∃ p ∈ s.dispatcher.parked, p.ending = false) :
    s.servedUnit = some u := by
  rw [State.servedUnit, s.dispatcher.settleFreed_head h (s.dispatcher.available_pos havailable), List.cons_append,
    List.filter_cons_of_pos (p := fun u => (s.unit u).isIdle) ((s.unit u).isIdle_iff.2 hidle)]
  rfl

/-- Without a freed unit the idle one is served, Unit 0 before Unit 1. -/
theorem State.servedUnit_unit0 (s : State) (h : s.dispatcher.freed = []) (hidle : s.unit0.activity = .idle) :
    s.servedUnit = some .unit0 := by
  rw [State.servedUnit, s.dispatcher.settleFreed_nil h, List.nil_append,
    List.filter_cons_of_pos (p := fun u => (s.unit u).isIdle) ((s.unit .unit0).isIdle_iff.2 hidle)]
  rfl

theorem State.servedUnit_unit1 (s : State) (h : s.dispatcher.freed = []) (hbusy : s.unit0.activity ≠ .idle)
    (hidle : s.unit1.activity = .idle) : s.servedUnit = some .unit1 := by
  rw [State.servedUnit, s.dispatcher.settleFreed_nil h, List.nil_append,
    List.filter_cons_of_neg (p := fun u => (s.unit u).isIdle) (mt (s.unit .unit0).isIdle_iff.1 hbusy),
    List.filter_cons_of_pos (p := fun u => (s.unit u).isIdle) ((s.unit .unit1).isIdle_iff.2 hidle)]
  rfl

/-! ### Start -/

theorem State.startable_of (s : State) {st : StagedJob} (hassigns : s.assigns = true) (hst : s.dispatcher.staged = some st)
    (heligible : s.dispatcher.eligible = true)
    (hfirst : s.dispatcher.urgentReady = true ∨ s.dispatcher.nextParked = none) : s.startable = some st.job := by
  have hcond : (s.assigns && s.dispatcher.eligible &&
      (s.dispatcher.urgentReady || s.dispatcher.nextParked.isNone)) = true := by
    rcases hfirst with h | h <;> rw [hassigns, heligible, h] <;> simp
  rw [State.startable, if_pos hcond, hst]
  rfl

theorem State.startable_eq_none (s : State) (h : ¬s.assigns = true ∨ ¬s.dispatcher.eligible = true ∨
    ¬s.dispatcher.urgentReady = true ∧ s.dispatcher.nextParked ≠ none) : s.startable = none := by
  refine if_neg ?_
  simp only [Bool.and_eq_true, Bool.or_eq_true, Option.isNone_iff_eq_none]
  tauto

theorem exec_jobStart_none (s : State) (h : s.startable = none) : exec .jobStart s = .next s :=
  congrArg Host.Outcome.next (by rw [h])

theorem exec_jobStart_some (s : State) {job : Job} {u : UnitId} (hjob : s.startable = some job)
    (hserved : s.servedUnit = some u) :
    exec .jobStart s =
      .next ({ s with dispatcher.staged := none }.occupy u job 0 0 .zero .empty none).arbitrate :=
  congrArg Host.Outcome.next (by rw [hjob, hserved])

theorem State.resumable_eq_none (s : State) (h : ¬s.assigns = true ∨ s.dispatcher.urgentReady = true) :
    s.resumable = none := by
  refine if_neg ?_
  simp only [Bool.and_eq_true, Bool.not_eq_true']
  rintro ⟨hassigns, hready⟩
  rcases h with h | h
  · exact h hassigns
  · exact absurd (h.symm.trans hready) nofun

theorem exec_jobResume_none (s : State) (h : s.resumable = none) : exec .jobResume s = .next s :=
  congrArg Host.Outcome.next (by rw [h])

theorem exec_jobResume_some (s : State) {p : ParkedJob} {u : UnitId} (hp : s.resumable = some p)
    (hserved : s.servedUnit = some u) :
    exec .jobResume s = .next ({ s with dispatcher.parked := s.dispatcher.parked.erase p }.occupy u p.job p.step p.done
      p.cells p.seen p.last).arbitrate :=
  congrArg Host.Outcome.next (by rw [hp, hserved])

theorem State.parkTarget_eq_none (s : State) (h : ¬s.assigns = true ∨ ¬s.dispatcher.urgentReady = true) :
    s.parkTarget = none := by
  refine if_neg ?_
  simp only [Bool.and_eq_true]
  tauto

theorem exec_parkRequest_none (s : State) (h : s.parkTarget = none) : exec .parkRequest s = .next s :=
  congrArg Host.Outcome.next (by rw [h])

theorem exec_parkRequest_some (s : State) {u : UnitId} {t : Ticket} (h : s.parkTarget = some (u, t)) :
    exec .parkRequest s =
      .next ({ s with dispatcher.parkRequest := some (u, t) }.setUnit u ((s.unit u).requestPark t)) :=
  congrArg Host.Outcome.next (by rw [h])

/-- Settles O35: what `State.startable` and `State.servedUnit` answer decides the act. -/
theorem stagedJobStarts : Obligations.StagedJobStarts := by
  refine ⟨fun s st u hr hw hstate hst hending hfenced hfirst hserved => ?_,
    fun s => ⟨s.servedUnit_unit0, s.servedUnit_unit1, fun u rest => s.servedUnit_freed, s.servedUnit_eq_none⟩,
    fun s st t hst hfenced hhead ht => ?_, fun s st p hst hnormal hp hending => ?_, fun s hrun hdrain => ?_⟩
  · have heligible : s.dispatcher.eligible = true := s.dispatcher.eligible_iff.2 ⟨st, hst, hending, hfenced⟩
    have hturn : s.dispatcher.urgentReady = true ∨ s.dispatcher.nextParked = none :=
      hfirst.imp (fun h => s.dispatcher.urgentReady_iff.2 ⟨st, hst, hending, h, hfenced⟩)
        s.dispatcher.nextParked_eq_none_iff.2
    rw [exec_jobStart_some s (s.startable_of (s.assigns_of hr hw hstate) hst heligible hturn) hserved]
    cases u <;> rfl
  · have hnot := s.dispatcher.not_eligible_of_fenced hst hfenced hhead ht
    exact ⟨exec_jobStart_none s (s.startable_eq_none (.inr (.inl hnot))),
      exec_parkRequest_none s (s.parkTarget_eq_none (.inr (mt s.dispatcher.eligible_of_urgentReady hnot)))⟩
  · refine exec_jobStart_none s (s.startable_eq_none (.inr (.inr ⟨fun h => ?_, fun h => ?_⟩)))
    · obtain ⟨st', hst', -, hurgent, -⟩ := s.dispatcher.urgentReady_iff.1 h
      obtain rfl : st = st' := Option.some.inj (hst.symm.trans hst')
      exact absurd (hnormal.symm.trans hurgent) nofun
    · exact absurd (hending.symm.trans (s.dispatcher.nextParked_eq_none_iff.1 h p hp)) nofun
  · have hnot : ¬s.assigns = true := by
      rw [State.assigns_iff]
      tauto
    exact ⟨exec_jobStart_none s (s.startable_eq_none (.inl hnot)), exec_jobResume_none s (s.resumable_eq_none (.inl hnot)),
      exec_parkRequest_none s (s.parkTarget_eq_none (.inl hnot))⟩

/-! ### Resumption -/

theorem Dispatcher.nextParked_of_earliest (d : Dispatcher) {p : ParkedJob} (hp : p ∈ d.parked) (hending : p.ending = false)
    (hfirst : ∀ q ∈ d.parked, q.ending = false → q ≠ p →
      d.outstanding.idxOf p.job.ticket < d.outstanding.idxOf q.job.ticket) : d.nextParked = some p := by
  rw [Dispatcher.nextParked_eq]
  refine d.foldl_pickEarlier_of_earliest _ none (.inr (List.mem_filter.2 ⟨hp, by rw [hending]; rfl⟩)) nofun ?_
  intro q hq
  obtain ⟨hq, hqending⟩ := List.mem_filter.1 hq
  rw [Bool.not_eq_true'] at hqending
  exact (eq_or_ne q p).imp_right fun hne => decide_eq_true (hfirst q hq hqending hne)

/-- Settles O36: the earliest parked job is the pick, `Dispatcher.nextParked_of_earliest`. -/
theorem parkedJobResumes : Obligations.ParkedJobResumes := by
  refine ⟨fun s p u hr hw hstate hp hending _ hfirst hready hserved => ?_,
    fun s h => exec_jobResume_none s (s.resumable_eq_none (.inr h)), Dispatcher.urgentReady_iff⟩
  have hresumable : s.resumable = some p := by
    rw [State.resumable, s.assigns_of hr hw hstate, hready]
    exact s.dispatcher.nextParked_of_earliest hp hending hfirst
  rw [exec_jobResume_some s hresumable hserved]
  cases u <;> rfl

/-! ### Parking -/

/-- R92: of two units that run NORMAL jobs the one with the later ticket is named, else the one that runs a NORMAL job. -/
theorem State.unitToPark_of (s : State) {u other : UnitId} {ticket ticket' : Ticket} {priority : Priority}
    (hruns : (s.unit u).runs? = some (ticket, .normal)) (hne : other ≠ u)
    (hother : (s.unit other).runs? = some (ticket', priority))
    (hlater : priority = .normal →
      s.dispatcher.outstanding.idxOf ticket' < s.dispatcher.outstanding.idxOf ticket) :
    s.unitToPark = some (u, ticket) := by
  unfold State.unitToPark
  cases u with
  | unit0 =>
    cases other with
    | unit0 => exact absurd rfl hne
    | unit1 =>
      have h0 : s.unit0.runs? = some (ticket, .normal) := hruns
      have h1 : s.unit1.runs? = some (ticket', priority) := hother
      rw [h0, h1]
      cases priority with
      | normal =>
        refine if_neg fun h => ?_
        have := of_decide_eq_true h
        have := hlater rfl
        omega
      | urgent => rfl
  | unit1 =>
    cases other with
    | unit0 =>
      have h0 : s.unit0.runs? = some (ticket', priority) := hother
      have h1 : s.unit1.runs? = some (ticket, .normal) := hruns
      rw [h0, h1]
      cases priority with
      | normal => exact if_pos (decide_eq_true (hlater rfl))
      | urgent => rfl
    | unit1 => exact absurd rfl hne

theorem CalcUnit.requestPark_iterating (c : CalcUnit) {ticket : Ticket} {job : Job} {step done : Nat} {phase : IterPhase}
    (h : c.activity = .iterating job step done phase) (hruns : c.runs? = some (ticket, .normal)) :
    c.requestPark ticket = { c with parkMark := true } := by
  rw [CalcUnit.runs?, h] at hruns
  rw [CalcUnit.requestPark, h]
  obtain ⟨hticket, hpriority⟩ := Prod.mk.inj (Option.some.inj hruns)
  exact if_pos ⟨hticket, hpriority⟩

theorem CalcUnit.requestPark_ending (c : CalcUnit) {item : CompletionItem} (h : c.activity = .ending item)
    (ticket : Ticket) : c.requestPark ticket = c := by
  rw [CalcUnit.requestPark, h]

/-- Settles O37: the request by `State.unitToPark_of`, the park by `Dispatcher.unitFreed_parked`. -/
theorem parking : Obligations.Parking := by
  refine ⟨fun s st u ticket hr hw hstate hst hending hurgent hfenced hrequest hplaces hruns hother => ?_,
    fun s u job step done ticket hrequest => ?_⟩
  · obtain ⟨other, ticket', priority, hne, hother, hlater⟩ := hother
    have htarget : s.parkTarget = some (u, ticket) := by
      have hready : s.dispatcher.urgentReady = true := s.dispatcher.urgentReady_iff.2 ⟨st, hst, hending, hurgent, hfenced⟩
      rw [State.parkTarget, s.assigns_of hr hw hstate, hready, hrequest]
      exact (if_pos (decide_eq_true hplaces)).trans (s.unitToPark_of hruns hne hother hlater)
    refine ⟨fun job step done phase hactivity => ?_, fun item hactivity => ?_⟩
    · rw [exec_parkRequest_some s htarget, (s.unit u).requestPark_iterating hactivity hruns]
    · rw [exec_parkRequest_some s htarget, (s.unit u).requestPark_ending hactivity]
      cases u <;> rfl
  · have hfreed := s.dispatcher.unitFreed_parked u
      ⟨job, step, done, (s.unit u).cells, (s.unit u).seen, (s.unit u).last, false⟩ rfl
    have hanswered : (s.dispatcher.parkRequest.any (·.1 = u)) = true := by
      rw [hrequest]
      exact decide_eq_true rfl
    rw [if_pos hanswered] at hfreed
    refine ⟨fun hstate => ?_, fun hstate => ?_⟩
    · unfold State.park
      dsimp only
      rw [if_neg hstate, hfreed]
    · unfold State.park
      dsimp only
      rw [if_pos hstate, hfreed]
      cases u <;> rfl

end Sys2Proof.Machine
end

section
/-! ABORT ALL ends every job of the Dispatcher (R83, R96 to R100, R121, R171). -/

namespace Sys2Proof.Machine

/-! ### The order of the parked jobs -/

/-- R100: the order of two parked jobs by their tickets' places among the outstanding ones. -/
def Dispatcher.notAfter (d : Dispatcher) : ParkedJob → ParkedJob → Prop :=
  (fun p : ParkedJob => d.outstanding.idxOf p.job.ticket) ⁻¹'o (· ≤ ·)

theorem Dispatcher.notAfter_iff (d : Dispatcher) (p q : ParkedJob) :
    d.notAfter p q ↔ d.outstanding.idxOf p.job.ticket ≤ d.outstanding.idxOf q.job.ticket :=
  Iff.rfl

theorem Dispatcher.earlier_iff (d : Dispatcher) (p q : ParkedJob) :
    d.earlier q.job.ticket p.job.ticket = true ↔ ¬d.notAfter p q := by
  rw [Dispatcher.notAfter_iff, Dispatcher.earlier, decide_eq_true_iff, not_le]

theorem Dispatcher.perm_insertParked (d : Dispatcher) (p : ParkedJob) (ps : List ParkedJob) :
    (d.insertParked p ps).Perm (p :: ps) := by
  induction ps with
  | nil => exact .refl _
  | cons q ps ih =>
    rw [Dispatcher.insertParked]
    split_ifs
    · exact (ih.cons q).trans (.swap p q ps)
    · exact .refl _

theorem Dispatcher.pairwise_insertParked (d : Dispatcher) (p : ParkedJob) {ps : List ParkedJob}
    (h : ps.Pairwise d.notAfter) : (d.insertParked p ps).Pairwise d.notAfter := by
  induction ps with
  | nil => exact List.pairwise_singleton _ p
  | cons q ps ih =>
    obtain ⟨hq, hps⟩ := List.pairwise_cons.1 h
    rw [Dispatcher.insertParked]
    split_ifs with hearlier
    · refine List.pairwise_cons.2 ⟨fun r hr => ?_, ih hps⟩
      rcases List.mem_cons.1 ((d.perm_insertParked p ps).mem_iff.1 hr) with rfl | hr
      · exact (not_le.1 ((d.earlier_iff r q).1 hearlier)).le
      · exact hq r hr
    · have hpq : d.notAfter p q := not_not.1 (mt (d.earlier_iff p q).2 hearlier)
      refine List.pairwise_cons.2 ⟨fun r hr => ?_, h⟩
      rcases List.mem_cons.1 hr with rfl | hr
      · exact hpq
      · exact le_trans hpq (hq r hr)

theorem Dispatcher.perm_parkedInOrder (d : Dispatcher) : d.parkedInOrder.Perm d.parked := by
  rw [Dispatcher.parkedInOrder]
  induction d.parked with
  | nil => exact .refl _
  | cons p ps ih => exact (d.perm_insertParked p _).trans (ih.cons p)

theorem Dispatcher.pairwise_parkedInOrder (d : Dispatcher) : d.parkedInOrder.Pairwise d.notAfter := by
  rw [Dispatcher.parkedInOrder]
  induction d.parked with
  | nil => exact .nil
  | cons p ps ih => exact d.pairwise_insertParked p ih

/-! ### Ending the parked jobs -/

/-- R96: the item's job counts as aborted. -/
def CompletionItem.aborted (item : CompletionItem) : CompletionItem :=
  { item with info := { item.info with how := .aborted } }

/-- R97, R98: the completion item of a parked job that an abort ends at its parked position. -/
def ParkedJob.abortedItem (p : ParkedJob) : CompletionItem :=
  ⟨p.job.ticket, p.job.slot, p.job.tag, p.job.priority, ⟨.aborted, p.step, p.done, p.seen, p.last⟩⟩

/-- A waiting item after an abort of these parked jobs: that of one already ending becomes ABORTED. -/
def abortEnding (order : List ParkedJob) (item : CompletionItem) : CompletionItem :=
  if order.any fun p => p.ending && p.job.ticket = item.ticket then item.aborted else item

/-- A parked context after an abort of these parked jobs. -/
def markAll (order : List ParkedJob) (q : ParkedJob) : ParkedJob :=
  if order.any fun p => !p.ending && p.job.ticket = q.job.ticket then { q with ending := true } else q

/-- An item that is ABORTED stays as it is. -/
theorem abortEnding_of_aborted (order : List ParkedJob) {item : CompletionItem} (h : item.aborted = item) :
    abortEnding order item = item := by
  rw [abortEnding]
  split_ifs
  · exact h
  · rfl

theorem abortEnding_cons_ending (p : ParkedJob) (order : List ParkedJob) (h : p.ending = true) :
    (abortEnding order ∘ fun item => if item.ticket = p.job.ticket then item.aborted else item) =
      abortEnding (p :: order) := by
  funext item
  rw [Function.comp_apply]
  by_cases hticket : item.ticket = p.job.ticket
  · have hnow : abortEnding (p :: order) item = item.aborted := by
      rw [abortEnding, List.any_cons, h, hticket]
      simp
    rw [hnow, if_pos hticket, abortEnding_of_aborted order rfl]
  · rw [if_neg hticket, abortEnding, abortEnding, List.any_cons, h, decide_eq_false (Ne.symm hticket)]
    rfl

theorem abortEnding_cons_not_ending (p : ParkedJob) (order : List ParkedJob) (h : p.ending = false) :
    abortEnding (p :: order) = abortEnding order := by
  funext item
  rw [abortEnding, abortEnding, List.any_cons, h]
  rfl

theorem markAll_cons_ending (p : ParkedJob) (order : List ParkedJob) (h : p.ending = true) :
    markAll (p :: order) = markAll order := by
  funext q
  rw [markAll, markAll, List.any_cons, h]
  rfl

theorem markAll_cons_not_ending (p : ParkedJob) (order : List ParkedJob) (h : p.ending = false) :
    (markAll order ∘ fun q => if q.job.ticket = p.job.ticket then { q with ending := true } else q) =
      markAll (p :: order) := by
  funext q
  rw [Function.comp_apply]
  by_cases hticket : q.job.ticket = p.job.ticket
  · rw [if_pos hticket, markAll, markAll, List.any_cons, h, hticket]
    simp
  · rw [if_neg hticket, markAll, markAll, List.any_cons, h, decide_eq_false (Ne.symm hticket)]
    rfl

theorem State.endParked_ending (s : State) {p : ParkedJob} (h : p.ending = true) :
    s.endParked .aborted p = { s with dispatcher.items := s.dispatcher.items.map fun item =>
      if item.ticket = p.job.ticket then item.aborted else item } := by
  rw [State.endParked, if_pos h]
  rfl

theorem State.endParked_not_ending (s : State) {p : ParkedJob} (h : p.ending = false) :
    ∃ w, s.endParked .aborted p = { s with
      dispatcher.parked := markEnding p.job.ticket s.dispatcher.parked
      dispatcher.items := s.dispatcher.items ++ [p.abortedItem], writer.waiters := w } := by
  rw [State.endParked, if_neg (by rw [h]; nofun)]
  exact State.dispatcherItem_eq { s with dispatcher.parked := markEnding p.job.ticket s.dispatcher.parked } p.abortedItem

/-- Every parked job of the list is ended, in its order; only contexts' marks, items and waiters change. -/
theorem State.foldl_endParked_eq (s : State) (order : List ParkedJob) :
    ∃ w, order.foldl (State.endParked · .aborted) s = { s with
      dispatcher.parked := s.dispatcher.parked.map (markAll order)
      dispatcher.items := s.dispatcher.items.map (abortEnding order) ++
        (order.filter fun p => !p.ending).map ParkedJob.abortedItem
      writer.waiters := w } := by
  induction order generalizing s with
  | nil =>
    have hparked : s.dispatcher.parked.map (markAll []) = s.dispatcher.parked := List.map_id _
    have hitems : s.dispatcher.items.map (abortEnding []) = s.dispatcher.items := List.map_id _
    refine ⟨s.writer.waiters, ?_⟩
    rw [hparked, hitems, List.filter_nil, List.map_nil, List.append_nil]
    rfl
  | cons p order ih =>
    rw [List.foldl_cons]
    cases hending : p.ending with
    | true =>
      rw [s.endParked_ending hending]
      obtain ⟨w, hw⟩ := ih { s with dispatcher.items := s.dispatcher.items.map fun item =>
        if item.ticket = p.job.ticket then item.aborted else item }
      refine ⟨w, hw.trans ?_⟩
      rw [markAll_cons_ending p order hending, List.filter_cons_of_neg (by rw [hending]; nofun)]
      dsimp only
      rw [List.map_map, abortEnding_cons_ending p order hending]
    | false =>
      obtain ⟨w, hp⟩ := s.endParked_not_ending hending
      rw [hp]
      obtain ⟨w', hw⟩ := ih { s with
        dispatcher.parked := markEnding p.job.ticket s.dispatcher.parked
        dispatcher.items := s.dispatcher.items ++ [p.abortedItem], writer.waiters := w }
      refine ⟨w', hw.trans ?_⟩
      rw [abortEnding_cons_not_ending p order hending, List.filter_cons_of_pos (by rw [hending]; rfl)]
      dsimp only
      rw [markEnding, List.map_map, List.map_append, List.append_assoc, List.map_singleton,
        abortEnding_of_aborted order rfl, markAll_cons_not_ending p order hending]
      rfl

/-- All parked jobs are then marked ending. -/
theorem markAll_of_mem {order : List ParkedJob} {q : ParkedJob} (h : q ∈ order) :
    markAll order q = { q with ending := true } := by
  rw [markAll]
  split_ifs with hany
  · rfl
  · obtain ⟨job, step, done, cells, seen, last, ending⟩ := q
    cases ending with
    | true => rfl
    | false => exact absurd (List.any_eq_true.2 ⟨_, h, by simp⟩) hany

/-! ### The staged job -/

/-- R96: the completion item of a staged job that an abort ends. -/
def StagedJob.abortedItems (st : StagedJob) : List CompletionItem :=
  if st.ending then []
  else [⟨st.job.ticket, st.job.slot, st.job.tag, st.job.priority, ⟨.aborted, 0, 0, .empty, none⟩⟩]

theorem State.endStaged_none (s : State) (h : s.dispatcher.staged = none) : s.endStaged = s := by
  rw [State.endStaged, h]

theorem State.endStaged_some (s : State) {st : StagedJob} (h : s.dispatcher.staged = some st) :
    ∃ w, s.endStaged = { s with
      dispatcher.staged := some { st with ending := true }
      dispatcher.items := s.dispatcher.items ++ st.abortedItems, writer.waiters := w } := by
  rw [State.endStaged, h]
  obtain ⟨job, ending⟩ := st
  cases ending with
  | true =>
    refine ⟨s.writer.waiters, ?_⟩
    show s = _
    rw [← h, StagedJob.abortedItems, if_pos rfl, List.append_nil]
  | false =>
    exact State.dispatcherItem_eq { s with dispatcher.staged := some ⟨job, true⟩ }
      ⟨job.ticket, job.slot, job.tag, job.priority, .unrun .aborted⟩

/-- R96: the staged job is marked ending and its completion item, if it had none, stands last. -/
theorem State.endStaged_items (s : State) :
    ∃ w, s.endStaged = { s with
      dispatcher.staged := s.dispatcher.staged.map fun st => { st with ending := true }
      dispatcher.items := s.dispatcher.items ++ s.dispatcher.staged.elim [] StagedJob.abortedItems
      writer.waiters := w } := by
  cases h : s.dispatcher.staged with
  | none =>
    refine ⟨s.writer.waiters, ?_⟩
    rw [s.endStaged_none h, Option.map_none, Option.elim_none, List.append_nil, ← h]
  | some st => exact s.endStaged_some h

theorem StagedJob.aborted_of_mem {st : StagedJob} {item : CompletionItem} (h : item ∈ st.abortedItems) :
    item.aborted = item := by
  rw [StagedJob.abortedItems] at h
  split_ifs at h
  · cases h
  · rw [List.mem_singleton.1 h]
    rfl

theorem map_abortEnding_staged (order : List ParkedJob) (staged : Option StagedJob) :
    (staged.elim [] StagedJob.abortedItems).map (abortEnding order) = staged.elim [] StagedJob.abortedItems := by
  cases staged with
  | none => rfl
  | some st =>
    exact (List.map_congr_left fun item h => abortEnding_of_aborted order (st.aborted_of_mem h)).trans (List.map_id _)

/-! ### ABORT ALL -/

theorem abortEnding_parkedInOrder (d : Dispatcher) : abortEnding d.parkedInOrder = abortEnding d.parked := by
  have hany (f : ParkedJob → Bool) : d.parkedInOrder.any f = d.parked.any f := by
    rw [Bool.eq_iff_iff, List.any_eq_true, List.any_eq_true]
    simp only [d.perm_parkedInOrder.mem_iff]
  funext item
  rw [abortEnding, abortEnding, hany]

/-- The staged job's item comes first, then those of the parked jobs in order (R83, R100, R121). -/
theorem State.abortAll_eq (s : State) :
    ∃ w, s.abortAll = { s with
      control.state := .aborting
      intake := { s.intake with
        urgent := [], normal := [], sweepDue := false, sweepTimer := none, activity := markAborted s.endSweep }
      unit0 := { s.unit0 with abortDue := true }
      unit1 := { s.unit1 with abortDue := true }
      dispatcher.staged := s.dispatcher.staged.map fun st => { st with ending := true }
      dispatcher.parked := s.dispatcher.parked.map fun p => { p with ending := true }
      dispatcher.items := s.dispatcher.items.map (abortEnding s.dispatcher.parked) ++
        s.dispatcher.staged.elim [] StagedJob.abortedItems ++
        (s.dispatcher.parkedInOrder.filter fun p => !p.ending).map ParkedJob.abortedItem
      writer.waiters := w } := by
  have hmarked : s.dispatcher.parked.map (markAll s.dispatcher.parkedInOrder) =
      s.dispatcher.parked.map fun p => { p with ending := true } :=
    List.map_congr_left fun p hp => markAll_of_mem (s.dispatcher.perm_parkedInOrder.mem_iff.2 hp)
  rw [State.abortAll]
  obtain ⟨w, hstaged⟩ := State.endStaged_items { s with
    control.state := .aborting
    intake := { s.intake with
      urgent := [], normal := [], sweepDue := false, sweepTimer := none, activity := markAborted s.endSweep }
    unit0 := { s.unit0 with abortDue := true }
    unit1 := { s.unit1 with abortDue := true } }
  obtain ⟨w', hfold⟩ := State.foldl_endParked_eq { s with
    control.state := .aborting
    intake := { s.intake with
      urgent := [], normal := [], sweepDue := false, sweepTimer := none, activity := markAborted s.endSweep }
    unit0 := { s.unit0 with abortDue := true }
    unit1 := { s.unit1 with abortDue := true }
    dispatcher.staged := s.dispatcher.staged.map fun st => { st with ending := true }
    dispatcher.items := s.dispatcher.items ++ s.dispatcher.staged.elim [] StagedJob.abortedItems
    writer.waiters := w } s.dispatcher.parkedInOrder
  refine ⟨w', ?_⟩
  dsimp only at hfold ⊢
  rw [hstaged]
  dsimp only
  rw [hfold, hmarked, List.map_append, map_abortEnding_staged, abortEnding_parkedInOrder]

theorem exec_abortAll (s : State) (hr : s.control.rst = false) (hw : s.control.resetWait = false)
    (hstate : s.control.state = .running ∨ s.control.state = .draining) :
    exec .abortAll s = .next (s.answer .accepted).abortAll := by
  refine congrArg Host.Outcome.next (s.command_accepted _ _ hr hw ?_)
  rcases hstate with h | h <;> rw [h] <;> rfl

/-- Settles O10: every component is read off `State.abortAll_eq`. -/
theorem abortAllEndsEveryJob : Obligations.AbortAllEndsEveryJob := by
  intro s hr hw hstate
  obtain ⟨w, h⟩ := (s.answer .accepted).abortAll_eq
  obtain ⟨hkept, hsweep⟩ := s.endSweep_cases
  have hactivity : s.endSweep = (s.answer .accepted).endSweep := rfl
  refine ⟨_, exec_abortAll s hr hw hstate, ?_⟩
  rw [h, ← hactivity]
  refine ⟨rfl, rfl, rfl, rfl, rfl, rfl, fun item htaking => ?_, fun item hnull => ?_, fun hidle => ?_, fun k hk => ?_,
    fun st hst => ?_, fun hnone => ?_, rfl, ⟨s.dispatcher.parkedInOrder, s.dispatcher.perm_parkedInOrder,
      s.dispatcher.pairwise_parkedInOrder, ?_⟩, rfl, rfl, rfl, rfl, rfl, rfl, rfl, rfl, rfl⟩
  · show markAborted s.endSweep = _
    rw [hkept (by rw [htaking]; nofun), htaking]
    rfl
  · show markAborted s.endSweep = _
    rw [hkept (by rw [hnull]; nofun), hnull]
    rfl
  · show markAborted s.endSweep = _
    rw [hkept (by rw [hidle]; nofun), hidle]
    rfl
  · obtain ⟨hflight, hends⟩ := hsweep k hk
    refine ⟨fun hread => ?_, fun hread => ?_⟩
    · show markAborted s.endSweep = _
      rw [hflight hread]
      rfl
    · show markAborted s.endSweep = _
      rw [hends hread]
      rfl
  · show s.dispatcher.staged.map _ = _
    rw [hst]
    rfl
  · show s.dispatcher.staged.map _ = _
    rw [hnone]
    rfl
  · show s.dispatcher.items.map _ ++ s.dispatcher.staged.elim [] StagedJob.abortedItems ++ _ = _
    cases s.dispatcher.staged <;> rfl

end Sys2Proof.Machine
end

section
/-! How an iteration begins: its questions, its reads and the first refusal (R108 to R112, R116, R129). -/

namespace Sys2Proof.Machine

/-! ### The questions and the reads -/

def Source.isMemory (q : Source) : Bool := q.operand matches .memory _

theorem Source.isMemory_of_memory {q : Source} {f : MemField} (h : q.operand = .memory f) : q.isMemory = true := by
  rw [Source.isMemory, h]

theorem Source.isMemory_eq_false {q : Source} (h : ∀ f, q.operand ≠ .memory f) : q.isMemory = false := by
  rw [Source.isMemory]
  cases hoperand : q.operand with
  | memory f => exact absurd hoperand (h f)
  | _ => rfl

/-- R108, R110: the read question of a source at its place among the sources, asked at the entry's first reference. -/
def firstQuestion (sources : List Source) (i : Nat) (p : Source × Nat) : Option Question :=
  match p.1.operand with
  | .memory f =>
    if (sources.take p.2).any fun q => q.index = p.1.index && q.isMemory then none
    else some ⟨p.1.index, f.addressAt i, f.size, .read⟩
  | .cell _ _ _ | .literal _ => none

theorem firstQuestion_memory (sources : List Source) (i : Nat) {p : Source × Nat} {f : MemField}
    (h : p.1.operand = .memory f) :
    firstQuestion sources i p = if (sources.take p.2).any fun q => q.index = p.1.index && q.isMemory then none
      else some ⟨p.1.index, f.addressAt i, f.size, .read⟩ := by
  rw [firstQuestion, h]

theorem firstQuestion_other (sources : List Source) (i : Nat) {p : Source × Nat} (h : ∀ f, p.1.operand ≠ .memory f) :
    firstQuestion sources i p = none := by
  rw [firstQuestion]
  cases hoperand : p.1.operand with
  | memory f => exact absurd hoperand (h f)
  | _ => rfl

theorem memorySources_memory (seen : List Nat) {src : Source} {f : MemField} (rest : List Source)
    (h : src.operand = .memory f) :
    memorySources seen (src :: rest) = if seen.contains src.index then memorySources seen rest
      else (src.index, f) :: memorySources (src.index :: seen) rest := by
  rw [memorySources, h]

theorem memorySources_other (seen : List Nat) {src : Source} (rest : List Source) (h : ∀ f, src.operand ≠ .memory f) :
    memorySources seen (src :: rest) = memorySources seen rest := by
  rw [memorySources]
  cases hoperand : src.operand with
  | memory f => exact absurd hoperand (h f)
  | _ => rfl

/-- The read question of a memory source. -/
def readQuestion (i : Nat) (p : Nat × MemField) : Question := ⟨p.1, p.2.addressAt i, p.2.size, .read⟩

/-- The entries seen are the memory sources passed. -/
def seenIn (passed : List Source) (seen : List Nat) : Prop :=
  ∀ k, seen.contains k = passed.any fun q => q.index = k && q.isMemory

theorem seenIn.memory {passed : List Source} {seen : List Nat} (h : seenIn passed seen) {src : Source}
    (hsrc : src.isMemory = true) : seenIn (passed ++ [src]) (src.index :: seen) := by
  intro k
  rw [List.any_append, ← h k, List.any_cons, hsrc, List.contains_cons, Bool.or_comm, List.any_nil, Bool.or_false,
    Bool.and_true, Bool.beq_comm]
  rfl

theorem seenIn.again {passed : List Source} {seen : List Nat} (h : seenIn passed seen) {src : Source}
    (hsrc : seen.contains src.index = true ∨ src.isMemory = false) : seenIn (passed ++ [src]) seen := by
  intro k
  rw [List.any_append, ← h k, List.any_cons, List.any_nil, Bool.or_false]
  rcases hsrc with hsrc | hsrc
  · by_cases hk : src.index = k
    · rw [← hk, hsrc, Bool.true_or]
    · rw [decide_eq_false hk, Bool.false_and, Bool.or_false]
  · rw [hsrc, Bool.and_false, Bool.or_false]

theorem memorySources_questions (i : Nat) (rest passed : List Source) (seen : List Nat) (h : seenIn passed seen) :
    (memorySources seen rest).map (readQuestion i) =
      (rest.zipIdx passed.length).filterMap (firstQuestion (passed ++ rest) i) := by
  induction rest generalizing passed seen with
  | nil => rfl
  | cons src rest ih =>
    have hnext := fun (seen' : List Nat) (h' : seenIn (passed ++ [src]) seen') => ih (passed ++ [src]) seen' h'
    simp only [List.append_assoc, List.singleton_append, List.length_append, List.length_singleton] at hnext
    rw [List.zipIdx_cons, List.filterMap_cons]
    by_cases hmemory : ∃ f, src.operand = .memory f
    · obtain ⟨f, hf⟩ := hmemory
      rw [memorySources_memory seen rest hf, firstQuestion_memory _ i hf, List.take_left, ← h src.index]
      split_ifs with hseen
      · exact hnext seen (h.again (.inl hseen))
      · rw [List.map_cons, hnext _ (h.memory (Source.isMemory_of_memory hf))]
        rfl
    · have hother : ∀ f, src.operand ≠ .memory f := fun f hf => hmemory ⟨f, hf⟩
      rw [memorySources_other seen rest hother, firstQuestion_other _ i hother]
      exact hnext seen (h.again (.inr (Source.isMemory_eq_false hother)))

theorem memorySources_eq (sources : List Source) (i : Nat) :
    (memorySources [] sources).map (readQuestion i) = sources.zipIdx.filterMap (firstQuestion sources i) :=
  memorySources_questions i sources [] [] fun _ => rfl

/-- The write question of a destination. -/
def writeQuestion (i : Nat) (d : Dest) : Option Question :=
  match d.place with
  | .memory f => some ⟨d.index, f.addressAt i, f.size, .write⟩
  | .cell _ _ _ => none

theorem memoryDests_eq (dests : List Dest) (i : Nat) :
    ((memoryDests dests).map fun p => ⟨p.1, p.2.addressAt i, p.2.size, .write⟩) =
      dests.filterMap (writeQuestion i) := by
  induction dests with
  | nil => rfl
  | cons d rest ih =>
    rw [memoryDests, List.filterMap_cons, writeQuestion]
    cases d.place with
    | memory f => exact congrArg _ ih
    | cell _ _ _ => exact ih

theorem questions_eq (work : Work) (i : Nat) :
    questions work i = work.sources.zipIdx.filterMap (firstQuestion work.sources i) ++
      work.dests.filterMap (writeQuestion i) := by
  rw [← memorySources_eq, ← memoryDests_eq]
  rfl

/-- R110: the reads of one memory source, each in its block. -/
def blockReads (q : Question) : List FieldRead :=
  let lower := 64 - q.address % 64
  if q.size ≤ lower then [⟨q.index, q.address, q.size, q.address, q.size⟩]
  else [⟨q.index, q.address, q.size, q.address, lower⟩, ⟨q.index, q.address, q.size, q.address + lower, q.size - lower⟩]

theorem blockReads_eq (q : Question) :
    ((splitAtBlock q.address q.size).map fun part => ⟨q.index, q.address, q.size, part.1, part.2⟩) = blockReads q := by
  have hblock : q.address % Config.blockBytes + q.size ≤ Config.blockBytes ↔ q.size ≤ 64 - q.address % 64 := by
    show q.address % 64 + q.size ≤ 64 ↔ _
    omega
  unfold splitAtBlock blockReads
  dsimp only
  by_cases h : q.size ≤ 64 - q.address % 64
  · rw [if_pos h, if_pos (hblock.2 h)]
    rfl
  · rw [if_neg h, if_neg (mt hblock.1 h)]
    rfl

theorem fetchReads_eq (work : Work) (i : Nat) :
    fetchReads work i = (work.sources.zipIdx.filterMap (firstQuestion work.sources i)).flatMap blockReads := by
  rw [← memorySources_eq, List.flatMap_map]
  exact congrArg (List.flatMap · (memorySources [] work.sources)) (funext fun p => blockReads_eq (readQuestion i p))

/-! ### The first refusal -/

theorem firstRefused_accepted (windows : List Window) {before : List Question}
    (h : ∀ p ∈ before, windowsAccept windows p.access p.address p.size = true) :
    (before.find? fun q => !windowsAccept windows q.access q.address q.size) = none :=
  List.find?_eq_none.2 fun p hp => by rw [h p hp]; nofun

/-- Settles O39: the questions by `questions_eq` and `fetchReads_eq`, the begin by `State.beginIteration_unfold`. -/
theorem iterationBegins : Obligations.IterationBegins := by
  refine ⟨fun s => ⟨fun c hc => ?_, fun hnone => ?_⟩,
    fun x y z w v => ⟨rfl, rfl, rfl, rfl, fun _ => rfl, rfl, rfl, rfl, rfl, rfl, rfl, rfl, rfl, rfl, rfl⟩,
    fun work i => ⟨questions_eq work i, fetchReads_eq work i⟩,
    fun windows before after q hbefore => ⟨?_, fun hq => ?_⟩, fun s u job step done st hst => ⟨fun index hindex => ?_,
      fun hnone => ⟨fun r rs hreads => ?_, fun hreads => ?_⟩⟩⟩
  · rw [State.windows, hc]
  · rw [State.windows, hnone]
  · rw [firstRefused, firstRefused_accepted windows hbefore]
    rfl
  · rw [firstRefused, List.find?_append, firstRefused_accepted windows hbefore, Option.none_or,
      List.find?_cons_of_pos (by rw [Bool.not_eq_true'] ; exact Bool.not_eq_true _ ▸ hq)]
    rfl
  · rw [s.beginIteration_unfold, hst]
    dsimp only
    rw [hindex]
    rfl
  · rw [s.beginIteration_unfold, hst]
    dsimp only
    rw [hnone]
    dsimp only
    rw [hreads]
  · rw [s.beginIteration_unfold, hst]
    dsimp only
    rw [hnone]
    dsimp only
    rw [hreads]

end Sys2Proof.Machine
end

section
/-! The end of a fetcher's read (R8, R16, R18, R110 to R112, R116, R118). -/

namespace Sys2Proof.Machine

/-! ### What the read's end leads to -/

theorem State.fetchRead_last (s : State) {u : UnitId} (data : List Byte) {job : Job} {step done : Nat} {r : FieldRead}
    {got : List (Nat × List Byte)} {st : Step}
    (hactivity : (s.unit u).activity = .iterating job step done (.fetching [r] got))
    (hst : job.image.steps[step]? = some st) :
    s.fetchRead u data = s.computed u job step done st
      (computeStep st (sourceValue (s.unit u).cells (addRead got r.index data) none)) := by
  rw [State.fetchRead, hactivity]
  dsimp only
  rw [hst]

theorem State.fetchRead_more (s : State) {u : UnitId} (data : List Byte) {job : Job} {step done : Nat} {r : FieldRead}
    {rs : List FieldRead} {got : List (Nat × List Byte)}
    (hactivity : (s.unit u).activity = .iterating job step done (.fetching (r :: rs) got)) (hrs : rs ≠ []) :
    s.fetchRead u data = s.setUnit u { s.unit u with
      activity := .iterating job step done (.fetching rs (addRead got r.index data)) } := by
  cases rs with
  | nil => exact absurd rfl hrs
  | cons r2 rest => rw [State.fetchRead, hactivity]

theorem State.fetchEnded_source (s : State) {tr : Transaction} {u : UnitId} (h : tr.purpose = .source u) :
    s.fetchEnded tr = if tr.abandoned then s else s.fetchRead u (s.dataOf tr) := by
  rw [State.fetchEnded, h]

theorem exec_fetchReadDone (s : State) (host : HostWrites) {u : UnitId} {tr : Transaction} {n : Nat}
    (hwait : s.control.resetWait = false) (hport : s.port.outstanding = some tr) (hpurpose : tr.purpose = .source u)
    (htransfer : tr.transfer = .read n) :
    exec (.fetchReadDone host) s = .next (s.portFreed
      (if tr.abandoned then { s with port.outstanding := none, memory := Memory.hostWrote s.memory host }
      else State.fetchRead { s with port.outstanding := none, memory := Memory.hostWrote s.memory host } u
        (Memory.readBytes (Memory.hostWrote s.memory host) tr.address n))) := by
  refine congrArg Host.Outcome.next ?_
  rw [s.respondOk_acted host _ hwait hport (by rw [hpurpose]; rfl), s.endedOk_read host htransfer,
    State.fetchEnded_source _ hpurpose, State.dataOf_read _ htransfer]

@[simp] theorem State.unit_portMemory (s : State) (o : Option Transaction) (m : Memory) (u : UnitId) :
    State.unit { s with port.outstanding := o, memory := m } u = s.unit u := by
  cases u <;> rfl

/-! ### The computation's end -/

theorem State.computed_waits (s : State) (u : UnitId) (job : Job) (step done : Nat) (st : Step) {c : Computed}
    (h : (c.result done).writes ≠ []) :
    s.computed u job step done st (.ok c) = State.present (s.setUnit u { s.unit u with
      activity := .iterating job step done (.issuing (c.result done)) }) (.unit u) :=
  if_neg (mt List.isEmpty_iff.1 h)

theorem State.computed_issued (s : State) (u : UnitId) (job : Job) (step done : Nat) (st : Step) {c : Computed}
    (h : (c.result done).writes = []) :
    s.computed u job step done st (.ok c) = s.issue u job step done st (c.result done) :=
  if_pos (List.isEmpty_iff.2 h)

/-! ### Source values -/

theorem sourceValue_memory (cells : Cells) (got : List (Nat × List Byte)) {failed : Option Nat} {index : Nat}
    (f : MemField) (h : failed ≠ some index) :
    sourceValue cells got failed ⟨index, .memory f⟩ =
      (readField f.format f.digits f.scale (readBytesOf got index)).mapError (⟨·, index⟩) := by
  refine (if_neg h).trans ?_
  cases readField f.format f.digits f.scale (readBytesOf got index) <;> rfl

theorem readBytesOf_cons_same (k : Nat) (bytes : List Byte) (got : List (Nat × List Byte)) :
    readBytesOf ((k, bytes) :: got) k = bytes := by
  rw [readBytesOf, List.find?_cons_of_pos (by exact decide_eq_true rfl)]

theorem readBytesOf_cons_other {j k : Nat} (bytes : List Byte) (got : List (Nat × List Byte)) (h : j ≠ k) :
    readBytesOf ((j, bytes) :: got) k = readBytesOf got k := by
  rw [readBytesOf, List.find?_cons_of_neg (by simpa using h), ← readBytesOf]

/-- A further part stands behind the bytes read for its entry. -/
theorem readBytesOf_addRead (got : List (Nat × List Byte)) (index k : Nat) (bytes : List Byte) :
    readBytesOf (addRead got index bytes) k = if k = index then readBytesOf got k ++ bytes else readBytesOf got k := by
  induction got with
  | nil =>
    rw [addRead]
    split_ifs with h
    · rw [h, readBytesOf_cons_same]
      rfl
    · exact readBytesOf_cons_other bytes [] (Ne.symm h)
  | cons head rest ih =>
    obtain ⟨j, bs⟩ := head
    rw [addRead]
    by_cases hj : j = index
    · rw [if_pos hj]
      by_cases hk : k = index
      · rw [if_pos hk, hk, ← hj, readBytesOf_cons_same, readBytesOf_cons_same]
      · have hjk : j ≠ k := fun h => hk (h ▸ hj)
        rw [if_neg hk, readBytesOf_cons_other _ _ hjk, readBytesOf_cons_other _ _ hjk]
    · rw [if_neg hj]
      by_cases hjk : j = k
      · have hk : k ≠ index := fun h => hj (hjk.trans h)
        rw [if_neg hk, hjk, readBytesOf_cons_same, readBytesOf_cons_same]
      · rw [readBytesOf_cons_other _ _ hjk, readBytesOf_cons_other _ _ hjk, ih]

/-! ### Entries that join as the port becomes free (R138) -/

theorem State.entriesDue_issuing (s : State) {u : UnitId} {job : Job} {step done : Nat} {r : IterResult}
    (h : (s.unit u).activity = .iterating job step done (.issuing r)) : s.entriesDue (.unit u) = some r.writes.length := by
  rw [State.entriesDue, h]

theorem State.joiners_discardHead_length (s : State) :
    ∃ kept : List WriterEntry, kept.length ≤ s.writer.buffer.length ∧ s.discardHead.joiners =
      s.joinersOf (8 - kept.length) s.writer.waiters ∧ s.discardHead = { s with writer.buffer := kept } := by
  obtain ⟨dropped, kept, hbuffer, -, hdiscard⟩ := s.discardHead_eq
  refine ⟨kept, ?_, ?_, hdiscard⟩
  · rw [hbuffer, List.length_append]
    omega
  · rw [hdiscard]
    exact s.joinersOf_writer { s.writer with buffer := kept } _ _

/-- While one that waits becomes able to join, the port stays free for those who join. -/
theorem State.portFreed_joining (before s : State) (hacts : s.acts = true) (hnone : before.joiners = [])
    (hjoin : s.discardHead.joiners ≠ []) :
    ∃ kept, before.portFreed s = { s with writer.joining := s.discardHead.joiners, writer.buffer := kept } := by
  have hlength : before.joiners.length < s.discardHead.joiners.length := by
    rw [hnone]
    exact List.length_pos_iff.2 hjoin
  have hacts' : State.acts { s with writer.joining := s.discardHead.joiners } = true := hacts
  obtain ⟨-, kept, -, -, hkept⟩ := State.discardHead_eq { s with writer.joining := s.discardHead.joiners }
  refine ⟨kept, ?_⟩
  unfold State.portFreed
  dsimp only
  rw [if_pos hlength, State.arbitrate, if_pos hacts', State.grant_joining]
  · exact hkept
  · rw [hkept]
    exact hjoin

/-- The only waiter joins when its entries fit. -/
theorem State.joiners_issuing (s : State) {u : UnitId} {job : Job} {step done : Nat} {r : IterResult}
    (hactivity : (s.unit u).activity = .iterating job step done (.issuing r)) (hwaiters : s.writer.waiters = [.unit u])
    (hroom : s.writer.buffer.length + r.writes.length ≤ 8) : s.discardHead.joiners = [.unit u] := by
  obtain ⟨kept, hkept, hjoiners, -⟩ := s.joiners_discardHead_length
  have hfits : r.writes.length ≤ 8 - kept.length := by omega
  rw [hjoiners, hwaiters, State.joinersOf, s.entriesDue_issuing hactivity]
  exact if_pos hfits

theorem State.present_first (s : State) (a : Appender) (h : s.writer.waiters = []) :
    s.present a = { s with writer.waiters := [a] } := by
  rw [s.present_new (by rw [h]; exact List.not_mem_nil), h, List.nil_append]

/-- A computation whose entries have room waits for the issue act, and the port that is free stays so. -/
theorem State.portFreed_computed (before s : State) (u : UnitId) (job : Job) (step done : Nat) (st : Step) {c : Computed}
    (hacts : s.acts = true) (hport : s.port.outstanding = none) (hbefore : before.writer.waiters = [])
    (hwaiters : s.writer.waiters = []) (hwrites : (c.result done).writes ≠ [])
    (hroom : s.writer.buffer.length + (c.result done).writes.length ≤ 8) :
    let t := before.portFreed (s.computed u job step done st (.ok c))
    t.port.outstanding = none ∧ t.writer.waiters = [.unit u] ∧ t.writer.joining = [.unit u] ∧
      (t.unit u).activity = .iterating job step done (.issuing (c.result done)) := by
  intro t
  let issuing : CalcUnit := { s.unit u with activity := .iterating job step done (.issuing (c.result done)) }
  have hcomputed : s.computed u job step done st (.ok c) =
      { s.setUnit u issuing with writer := { (s.setUnit u issuing).writer with waiters := [.unit u] } } := by
    rw [s.computed_waits u job step done st hwrites, State.present_first _ _ (by rw [State.setUnit_writer, hwaiters])]
  have hunit (w : Writer) : State.unit { s.setUnit u issuing with writer := w } u = issuing := by
    cases u <;> rfl
  have hjoin : State.joiners (State.discardHead
      { s.setUnit u issuing with writer := { (s.setUnit u issuing).writer with waiters := [.unit u] } }) = [.unit u] :=
    State.joiners_issuing (r := c.result done) _ (by rw [hunit]) rfl (by rw [State.setUnit_writer]; exact hroom)
  obtain ⟨kept, hkept⟩ := State.portFreed_joining before
    { s.setUnit u issuing with writer := { (s.setUnit u issuing).writer with waiters := [.unit u] } }
    (by cases u <;> exact hacts) (before.joiners_nil hbefore) (by rw [hjoin]; nofun)
  have ht : t = _ := (congrArg before.portFreed hcomputed).trans hkept
  rw [hjoin] at ht
  rw [ht]
  refine ⟨?_, rfl, rfl, ?_⟩
  · show (s.setUnit u issuing).port.outstanding = none
    rw [State.setUnit_port, hport]
  · cases u <;> rfl

/-- Settles O40: the branches of `exec_fetchReadDone`, and `State.portFreed_computed` for entries that join. -/
theorem fetchReadEnds : Obligations.FetchReadEnds := by
  refine ⟨fun s host u job step done n r rs got st tr hwait hport hpurpose htransfer hactivity hst => ?_,
    fun cells got failed index => ⟨fun _ => rfl, fun _ _ _ => rfl, fun f => ⟨fun hfailed => ?_, fun hfailed => ?_⟩⟩,
    fun got index k bytes => ⟨rfl, readBytesOf_addRead got index k bytes⟩,
    fun s u job step done st => ⟨fun f => rfl, fun c =>
      ⟨s.computed_waits u job step done st, s.computed_issued u job step done st⟩⟩⟩
  · dsimp only
    have hexec := exec_fetchReadDone s host hwait hport hpurpose htransfer
    have hactivity' : (State.unit { s with port.outstanding := none, memory := Memory.hostWrote s.memory host } u).activity =
        .iterating job step done (.fetching (r :: rs) got) := by
      rw [State.unit_portMemory, hactivity]
    have hlast (habandoned : tr.abandoned = false) (hrs : rs = []) : exec (.fetchReadDone host) s = .next (s.portFreed
        (State.computed { s with port.outstanding := none, memory := Memory.hostWrote s.memory host } u job step done st
          (computeStep st (sourceValue (s.unit u).cells
            (addRead got r.index (Memory.readBytes (Memory.hostWrote s.memory host) tr.address n)) none)))) := by
      subst hrs
      rw [hexec, habandoned, if_neg Bool.false_ne_true, State.fetchRead_last _ _ hactivity' hst, State.unit_portMemory]
    refine ⟨fun habandoned => ?_, fun habandoned hrs => ?_, hlast,
      fun c habandoned hrs hr hcomputed hwrites hwaiters hroom => ?_⟩
    · rw [hexec, habandoned, if_pos rfl]
    · rw [hexec, habandoned, if_neg Bool.false_ne_true, State.fetchRead_more _ _ hactivity' hrs, State.unit_portMemory]
    · refine ⟨_, hlast habandoned hrs, ?_⟩
      rw [hcomputed]
      exact State.portFreed_computed s { s with port.outstanding := none, memory := Memory.hostWrote s.memory host } u job
        step done st (s.acts_of_released hr hwait) rfl hwaiters hwaiters hwrites hroom
  · rw [hfailed]
    exact sourceValue_failed cells got ⟨index, .memory f⟩ f rfl
  · rw [sourceValue_memory cells got f hfailed]
    refine ⟨fun v hv => ?_, fun kind hkind => ?_⟩
    · rw [hv]
      rfl
    · rw [hkind]
      rfl

end Sys2Proof.Machine
end

section
/-! The Memory Port's requests, its arbiter, and the entries that join at once (R109, R131 to R138, R140 to R144, R165). -/

namespace Sys2Proof.Machine

/-! ### What each requester waits with -/

theorem State.loaderRequest_none (s : State) (h : s.control.loader = none) : s.loaderRequest = none := by
  rw [State.loaderRequest, h]

/-- R109: a source waits while the buffer holds an entry of its ticket that shares a byte with its range. -/
theorem Writer.hazard_iff (w : Writer) (ticket : Ticket) (start size : Nat) :
    w.hazard ticket start size = true ↔ ∃ i j write, WriterEntry.destination ticket i j write ∈ w.buffer ∧
      write.address < start + size ∧ start < write.address + write.bytes.length := by
  rw [Writer.hazard, List.any_eq_true]
  constructor
  · rintro ⟨e, he, hshares⟩
    cases e with
    | destination t i j write =>
      simp only [Bool.and_eq_true, decide_eq_true_eq, rangesOverlap] at hshares
      obtain ⟨rfl, hbefore, hafter⟩ := hshares
      exact ⟨i, j, write, he, hbefore, hafter⟩
    | state t n p tag => cases hshares
    | completion item d => cases hshares
  · rintro ⟨i, j, write, he, hbefore, hafter⟩
    refine ⟨_, he, ?_⟩
    simp only [Bool.and_eq_true, decide_eq_true_eq, rangesOverlap]
    exact ⟨trivial, hbefore, hafter⟩

theorem State.fetchRequest_fetching (s : State) {u : UnitId} {job : Job} {step done : Nat} {r : FieldRead}
    {rs : List FieldRead} {got : List (Nat × List Byte)}
    (h : (s.unit u).activity = .iterating job step done (.fetching (r :: rs) got)) :
    s.fetchRequest u = if s.writer.hazard job.ticket r.rangeStart r.rangeSize then none
      else some ⟨.source u, r.address, .read r.size, false⟩ := by
  rw [State.fetchRequest, h]
  rfl

theorem State.intakeRequest_idle (s : State) (h : s.intake.activity = .idle) : s.intakeRequest = none := by
  rw [State.intakeRequest, h]
  cases s.control.config <;> rfl

theorem State.intakeRequest_sweeping (s : State) {c : Configuration} {n : Slot} (hc : s.control.config = some c)
    (h : s.intake.activity = .sweeping n) :
    s.intakeRequest = some ⟨.sweep n, c.slotAddress n, .read 64, false⟩ := by
  rw [State.intakeRequest, hc, h]
  rfl

theorem State.intakeRequest_taking (s : State) {c : Configuration} {item : IntakeItem} (hc : s.control.config = some c)
    (h : s.intake.activity = .taking item) : s.intakeRequest = Machine.takeRead c item := by
  rw [State.intakeRequest, hc, h]

theorem State.intakeRequest_nullTake (s : State) {c : Configuration} {item : IntakeItem} (hc : s.control.config = some c)
    (h : s.intake.activity = .nullTake item) :
    (item.phase = .block0 → s.intakeRequest = some ⟨.nullTake item.slot, c.slotAddress item.slot, .read 64, false⟩) ∧
    (item.phase ≠ .block0 → s.intakeRequest = none) := by
  rw [State.intakeRequest, hc, h]
  dsimp only
  cases item.phase with
  | block0 => exact ⟨fun _ => rfl, fun hne => absurd rfl hne⟩
  | further b later => exact ⟨nofun, fun _ => rfl⟩
  | judged v => exact ⟨nofun, fun _ => rfl⟩
  | handing t v => exact ⟨nofun, fun _ => rfl⟩

theorem takeRead_phase (c : Configuration) (item : IntakeItem) :
    (item.phase = .block0 → takeRead c item = some ⟨.takeBlock0 item.slot, c.slotAddress item.slot, .read 64, false⟩) ∧
    (∀ b later, item.phase = .further b later →
      takeRead c item = some ⟨.takeBlock item.slot b, c.slotAddress item.slot + 64 * b, .read 64, false⟩) ∧
    (∀ v, item.phase = .judged v → takeRead c item = none) ∧
    ∀ t v, item.phase = .handing t v → takeRead c item = none := by
  refine ⟨fun h => ?_, fun b later h => ?_, fun v h => ?_, fun t v h => ?_⟩
  all_goals
    rw [takeRead, h]
  all_goals rfl

theorem State.writerRequest_nil (s : State) (h : s.writer.buffer = []) : s.writerRequest = none := by
  rw [State.writerRequest, h]
  cases s.control.config <;> rfl

theorem State.writerRequest_cons (s : State) {c : Configuration} {e : WriterEntry} {rest : List WriterEntry}
    (hc : s.control.config = some c) (h : s.writer.buffer = e :: rest) : s.writerRequest = entryRequest c s.writer e := by
  rw [State.writerRequest, hc, h]

theorem entryRequest_destination (c : Configuration) (w : Writer) (t : Ticket) (i j : Nat) (write : DestWrite) :
    (w.failure? t = none →
      entryRequest c w (.destination t i j write) = some ⟨.destination, write.address, .write write.bytes, false⟩) ∧
    (w.failure? t ≠ none → entryRequest c w (.destination t i j write) = none) := by
  rw [entryRequest]
  cases w.failure? t with
  | none => exact ⟨fun _ => rfl, fun h => absurd rfl h⟩
  | some f => exact ⟨nofun, fun _ => rfl⟩

/-! ### The arbiter's choice (R134) -/

theorem State.arbiterChoice_demand (s : State) {tr : Transaction} (h : s.writerRequest = some tr)
    (hlevel : 6 ≤ s.writer.buffer.length) : s.arbiterChoice = some tr := by
  have hdemand : s.writerInDemand = true := decide_eq_true hlevel
  rw [State.arbiterChoice, h, hdemand]
  rfl

theorem State.arbiterChoice_calm (s : State) (h : s.writerRequest = none ∨ s.writer.buffer.length < 6) :
    s.arbiterChoice = s.loaderRequest.or (s.intakeRequest.or (s.fetchersRequest.or s.writerRequest)) := by
  refine if_neg ?_
  rw [Bool.and_eq_true]
  rintro ⟨hsome, hdemand⟩
  rcases h with h | h
  · rw [h] at hsome
    cases hsome
  · have : 6 ≤ s.writer.buffer.length := of_decide_eq_true hdemand
    omega

theorem State.fetchersRequest_both (s : State) {t0 t1 : Transaction} (h0 : s.fetchRequest .unit0 = some t0)
    (h1 : s.fetchRequest .unit1 = some t1) :
    s.fetchersRequest = if s.port.lastFetch = some .unit0 then some t1 else some t0 := by
  rw [State.fetchersRequest, h0, h1]

theorem State.fetchersRequest_one (s : State) (h : s.fetchRequest .unit0 = none ∨ s.fetchRequest .unit1 = none) :
    s.fetchersRequest = (s.fetchRequest .unit0).or (s.fetchRequest .unit1) := by
  rw [State.fetchersRequest]
  rcases h with h | h
  · rw [h]
    rfl
  · rw [h]
    cases s.fetchRequest .unit0 <;> rfl

theorem State.arbiterChoice_fetchers (s : State) (h : s.writerRequest = none ∨ s.writer.buffer.length < 6)
    (hl : s.loaderRequest = none) (hi : s.intakeRequest = none) :
    s.arbiterChoice = s.fetchersRequest.or s.writerRequest := by
  rw [s.arbiterChoice_calm h, hl, hi]
  rfl

/-! ### The Writer's discarding (R141) and the grant -/

theorem discardFailed_head (w : Writer) (entries : List WriterEntry) {t : Ticket} {i j : Nat} {write : DestWrite}
    {rest : List WriterEntry} (h : discardFailed w entries = .destination t i j write :: rest) : w.failure? t = none := by
  induction entries with
  | nil => cases h
  | cons e entries ih =>
    cases e with
    | destination t' i' j' write' =>
      rw [discardFailed] at h
      split_ifs at h with hfailed
      · exact ih h
      · cases h
        exact Option.not_isSome_iff_eq_none.1 hfailed
    | state t' n p tag => cases h
    | completion item d => cases h

theorem State.discardHead_own (s : State) {tr : Transaction} (hport : s.port.outstanding = some tr)
    (h : tr.purpose.isWriter = true) : s.discardHead = s := by
  refine if_pos ?_
  rw [hport]
  exact h

theorem State.discardHead_other (s : State) (h : ∀ tr, s.port.outstanding = some tr → tr.purpose.isWriter = false) :
    s.discardHead = { s with writer.buffer := discardFailed s.writer s.writer.buffer } := by
  refine if_neg ?_
  cases hport : s.port.outstanding with
  | none => nofun
  | some tr =>
    rw [Option.any_some, h tr hport]
    nofun

theorem State.grant_busy (s : State) {tr : Transaction} (h : s.port.outstanding = some tr) : s.grant = s := by
  refine if_pos ?_
  rw [h]
  rfl

theorem Purpose.isWriter_iff (p : Purpose) : p.isWriter = true ↔
    ∃ n, p = .stateWord n ∨ p = .destination ∨ p = .resultArea n ∨ p = .doneWord n := by
  cases p <;> simp [Purpose.isWriter]

/-- The arbiter acts on the discarded buffer, and the grant is of a port free for it. -/
theorem State.arbitrate_acting (s : State) (h : s.acts = true) : s.arbitrate = s.discardHead.grant :=
  if_pos h

theorem State.arbitrate_held (s : State) (h : s.control.rst = true ∨ s.control.resetWait = true) : s.arbitrate = s := by
  refine if_neg ?_
  rw [s.acts_of_held h]
  exact Bool.false_ne_true

theorem State.arbitrate_own (s : State) {tr : Transaction} (hport : s.port.outstanding = some tr)
    (h : tr.purpose.isWriter = true) : s.arbitrate = s := by
  rw [State.arbitrate, s.discardHead_own hport h, s.grant_busy hport]
  exact ite_self s

/-- While the port is taken, or while entries that joined are to be appended, it stays as it is. -/
theorem State.arbitrate_port (s : State)
    (h : (∃ tr, s.port.outstanding = some tr) ∨ s.writer.joining ≠ []) : s.arbitrate.port = s.port := by
  rw [State.arbitrate]
  split_ifs
  · obtain ⟨-, kept, -, -, hkept⟩ := s.discardHead_eq
    rw [hkept]
    rcases h with ⟨tr, hport⟩ | hjoining
    · rw [State.grant_busy { s with writer.buffer := kept } hport]
    · rw [State.grant_joining { s with writer.buffer := kept } hjoining]
  · rfl

theorem State.arbitrate_frame (s : State) (h : s.acts = true) :
    s.arbitrate = { s with port := s.arbitrate.port, writer.buffer := s.discardHead.writer.buffer } := by
  obtain ⟨-, kept, -, -, hkept⟩ := s.discardHead_eq
  rw [s.arbitrate_acting h, hkept, State.grant_eq]

theorem State.grant_lastFetch (s : State) (hport : s.port.outstanding = none) (hjoining : s.writer.joining = []) :
    (∀ tr u, s.arbiterChoice = some tr → tr.purpose = .source u → s.grant.port.lastFetch = some u) ∧
    ((∀ tr u, s.arbiterChoice = some tr → tr.purpose ≠ .source u) → s.grant.port.lastFetch = s.port.lastFetch) := by
  rw [State.grant, hport, hjoining]
  cases s.arbiterChoice with
  | none => exact ⟨nofun, fun _ => rfl⟩
  | some tr =>
    obtain ⟨purpose, address, transfer, abandoned⟩ := tr
    cases purpose with
    | source u =>
      refine ⟨fun tr v htr hv => ?_, fun h => absurd rfl (h _ u rfl)⟩
      cases htr
      cases hv
      rfl
    | _ =>
      refine ⟨fun tr v htr hv => ?_, fun _ => rfl⟩
      cases htr
      cases hv

/-! ### Who joins (R138) -/

/-- R138: those who join are the earliest waiters whose entries fit one after another. -/
theorem State.joinersOf_spec (s : State) (room : Nat) (waiters : List Appender) :
    ∃ rest, waiters = s.joinersOf room waiters ++ rest ∧ (∀ a ∈ s.joinersOf room waiters, s.entriesDue a ≠ none) ∧
      ((s.joinersOf room waiters).map fun a => (s.entriesDue a).getD 0).sum ≤ room ∧
      ∀ a more n, rest = a :: more → s.entriesDue a = some n →
        room < ((s.joinersOf room waiters).map fun a => (s.entriesDue a).getD 0).sum + n := by
  induction waiters generalizing room with
  | nil => exact ⟨[], rfl, nofun, Nat.zero_le _, nofun⟩
  | cons a waiters ih =>
    rw [State.joinersOf]
    cases hdue : s.entriesDue a with
    | none =>
      refine ⟨a :: waiters, rfl, nofun, Nat.zero_le _, fun b more n hb hn => ?_⟩
      cases hb
      exact absurd (hdue.symm.trans hn) nofun
    | some n =>
      dsimp only
      split_ifs with hroom
      · obtain ⟨rest, hrest, hdues, htaken, hnext⟩ := ih (room - n)
        refine ⟨rest, ?_, fun b hb => ?_, ?_, fun b more m hb hm => ?_⟩
        · rw [List.cons_append, ← hrest]
        · rcases List.mem_cons.1 hb with rfl | hb
          · rw [hdue]
            nofun
          · exact hdues b hb
        · rw [List.map_cons, List.sum_cons, hdue, Option.getD_some]
          omega
        · have := hnext b more m hb hm
          rw [List.map_cons, List.sum_cons, hdue, Option.getD_some]
          omega
      · refine ⟨a :: waiters, rfl, nofun, Nat.zero_le _, fun b more m hb hm => ?_⟩
        cases hb
        obtain rfl : n = m := Option.some.inj (hdue.symm.trans hm)
        rw [List.map_nil, List.sum_nil]
        omega

/-! ### What each appender has to append -/

theorem Intake.judged?_eq_none (i : Intake) {item : IntakeItem}
    (hactivity : i.activity = .taking item ∨ i.activity = .nullTake item)
    (hphase : ∀ v, item.phase ≠ .judged v) : i.judged? = none := by
  rcases hactivity with h | h
  all_goals
    rw [Intake.judged?, h]
    cases hitem : item.phase with
    | judged v => exact absurd hitem (hphase v)
    | _ => simp [hitem]

theorem Intake.handing?_eq_none (i : Intake) {item : IntakeItem}
    (hactivity : i.activity = .taking item ∨ i.activity = .nullTake item)
    (hphase : ∀ t v, item.phase ≠ .handing t v) : i.handing? = none := by
  rcases hactivity with h | h
  all_goals
    rw [Intake.handing?, h]
    cases hitem : item.phase with
    | handing t v => exact absurd hitem (hphase t v)
    | _ => simp [hitem]

theorem State.entriesDue_intake (s : State) :
    s.entriesDue .intake = if s.intake.handing?.isSome || s.intake.judged?.isSome &&
      !s.dispatcher.outstanding.contains s.intake.takeCounter then some 1 else none := rfl

theorem State.entriesDue_taking (s : State) {item : IntakeItem}
    (hactivity : s.intake.activity = .taking item ∨ s.intake.activity = .nullTake item) :
    (∀ t v, item.phase = .handing t v → s.entriesDue .intake = some 1) ∧
    (∀ v, item.phase = .judged v →
      s.entriesDue .intake = if s.intake.takeCounter ∈ s.dispatcher.outstanding then none else some 1) ∧
    (item.phase = .block0 ∨ (∃ b later, item.phase = .further b later) → s.entriesDue .intake = none) := by
  rw [State.entriesDue_intake]
  refine ⟨fun t v hphase => ?_, fun v hphase => ?_, fun hphase => ?_⟩
  · rw [Intake.handing?_eq _ hactivity hphase]
    rfl
  · rw [Intake.judged?_eq _ hactivity hphase, Intake.handing?_eq_none _ hactivity (by rw [hphase]; nofun),
      List.contains_eq_mem]
    by_cases hticket : s.intake.takeCounter ∈ s.dispatcher.outstanding
    · rw [decide_eq_true hticket, if_pos hticket]
      rfl
    · rw [decide_eq_false hticket, if_neg hticket]
      rfl
  · have hneither : (∀ v, item.phase ≠ .judged v) ∧ ∀ t v, item.phase ≠ .handing t v := by
      rcases hphase with h | ⟨b, later, h⟩ <;> rw [h] <;> exact ⟨nofun, nofun⟩
    rw [Intake.judged?_eq_none _ hactivity hneither.1, Intake.handing?_eq_none _ hactivity hneither.2]
    rfl

theorem State.entriesDue_intakeIdle (s : State) (h : s.intake.activity = .idle ∨ ∃ n, s.intake.activity = .sweeping n) :
    s.entriesDue .intake = none := by
  have hneither : s.intake.judged? = none ∧ s.intake.handing? = none := by
    rcases h with h | ⟨n, h⟩ <;> rw [Intake.judged?, Intake.handing?, h] <;> exact ⟨rfl, rfl⟩
  rw [State.entriesDue_intake, hneither.1, hneither.2]
  rfl

theorem State.entriesDue_dispatcher (s : State) :
    s.entriesDue .dispatcher = if s.dispatcher.items = [] then none else some 1 := by
  rw [State.entriesDue]
  cases s.dispatcher.items <;> rfl

theorem State.entriesDue_ending (s : State) {u : UnitId} {item : CompletionItem} (h : (s.unit u).activity = .ending item) :
    s.entriesDue (.unit u) = some 1 := by
  rw [State.entriesDue, h]

theorem State.entriesDue_unitNone (s : State) {u : UnitId} (h : (s.unit u).activity = .idle ∨
    ∃ job step done rs got, (s.unit u).activity = .iterating job step done (.fetching rs got)) :
    s.entriesDue (.unit u) = none := by
  rcases h with h | ⟨job, step, done, rs, got, h⟩ <;> rw [State.entriesDue, h]

end Sys2Proof.Machine
end

section
/-! The Port Arbiter (R109, R131 to R138). -/

namespace Sys2Proof.Machine

/-- R43, R44: the bytes of a state word. -/
theorem stateWordBytes_eq (code : Nat) (priority : Priority) (tag : Tag) :
    stateWordBytes code priority tag =
      [BitVec.ofNat 8 code, if priority = .urgent then 1#8 else 0#8, tag.extractLsb' 0 8, tag.extractLsb' 8 8] := by
  have hpriority : BitVec.ofNat 8 (priorityCode priority) = if priority = .urgent then 1#8 else 0#8 := by
    cases priority <;> rfl
  have hlow : BitVec.ofNat 8 tag.toNat = tag.extractLsb' 0 8 := by
    refine BitVec.eq_of_toNat_eq ?_
    rw [BitVec.extractLsb'_toNat, BitVec.toNat_ofNat, Nat.shiftRight_zero]
  have hhigh : BitVec.ofNat 8 (tag.toNat / 256) = tag.extractLsb' 8 8 := by
    refine BitVec.eq_of_toNat_eq ?_
    rw [BitVec.extractLsb'_toNat, BitVec.toNat_ofNat, Nat.shiftRight_eq_div_pow]
  rw [stateWordBytes, hpriority, leBytes, leBytes, leBytes, hlow, hhigh]
  rfl

theorem entryRequest_state (c : Configuration) (w : Writer) (t : Ticket) (n : Slot) (p : Priority) (tag : Tag) :
    entryRequest c w (.state t n p tag) = some ⟨.stateWord n, c.slotAddress n,
      .write [2#8, if p = .urgent then 1#8 else 0#8, tag.extractLsb' 0 8, tag.extractLsb' 8 8], false⟩ := by
  rw [entryRequest, stateWordBytes_eq]
  rfl

theorem entryRequest_done (c : Configuration) (w : Writer) (item : CompletionItem) :
    entryRequest c w (.completion item true) = some ⟨.doneWord item.slot, c.slotAddress item.slot,
      .write [3#8, if item.priority = .urgent then 1#8 else 0#8, item.tag.extractLsb' 0 8, item.tag.extractLsb' 8 8],
      false⟩ := by
  rw [entryRequest, stateWordBytes_eq]
  rfl

/-- R134: the fetcher granted last is remembered. -/
theorem State.arbitrate_lastFetch (s : State) (hacts : s.acts = true) (hport : s.port.outstanding = none)
    (hjoining : s.writer.joining = []) :
    (∀ tr u, s.discardHead.arbiterChoice = some tr → tr.purpose = .source u → s.arbitrate.port.lastFetch = some u) ∧
    ((∀ tr u, s.discardHead.arbiterChoice = some tr → tr.purpose ≠ .source u) →
      s.arbitrate.port.lastFetch = s.port.lastFetch) := by
  obtain ⟨-, kept, -, -, hkept⟩ := s.discardHead_eq
  rw [s.arbitrate_acting hacts, hkept]
  exact State.grant_lastFetch { s with writer.buffer := kept } hport hjoining

theorem State.arbitrate_choice (s : State) (hacts : s.acts = true) (hport : s.port.outstanding = none)
    (hjoining : s.writer.joining = []) : s.arbitrate.port.outstanding = s.discardHead.arbiterChoice := by
  obtain ⟨-, kept, -, -, hkept⟩ := s.discardHead_eq
  rw [s.arbitrate_acting hacts, hkept]
  exact State.grant_free { s with writer.buffer := kept } hport hjoining

/-- R141: no entry to be discarded stands at the head of what is kept. -/
theorem State.discardHead_head (s : State) (hother : ∀ tr, s.port.outstanding = some tr → tr.purpose.isWriter = false)
    {t : Ticket} {i j : Nat} {write : DestWrite} {rest : List WriterEntry}
    (h : s.discardHead.writer.buffer = .destination t i j write :: rest) : s.writer.failure? t = none := by
  rw [s.discardHead_other hother] at h
  exact discardFailed_head s.writer _ h

/-- Settles O43: the requests and the choice by the lemmas on each, the arbiter's act by those on `State.discardHead` and
`State.grant`. -/
theorem portArbiter : Obligations.PortArbiter := by
  refine ⟨fun s => ⟨fun tr => s.arbiterChoice_demand, fun hcalm => ⟨fun tr hl => ?_, fun hl tr hi => ?_, fun hl hi => ?_⟩,
      fun u job step done r rs got hactivity => ?_⟩,
    fun s => ⟨s.loaderRequest_none, fun l => s.loaderRequest_some, fun c hc => ?_⟩, fun s => ?_,
    fun s => ⟨fun before => ⟨_, rfl⟩, fun a => rfl, s.joinersOf_spec _ _⟩,
    fun s => ⟨fun item => s.entriesDue_taking, s.entriesDue_intakeIdle, s.entriesDue_dispatcher, fun u =>
      ⟨fun job step done r => s.entriesDue_issuing, fun item => s.entriesDue_ending, s.entriesDue_unitNone⟩⟩⟩
  · rw [s.arbiterChoice_calm hcalm, hl]
    rfl
  · rw [s.arbiterChoice_calm hcalm, hl, hi]
    rfl
  · have hchoice := s.arbiterChoice_fetchers hcalm hl hi
    refine ⟨fun t0 t1 h0 h1 => ⟨fun hlast => ?_, fun hlast => ?_⟩, fun t0 h0 h1 => ?_, fun t1 h0 h1 => ?_, fun h0 h1 => ?_⟩
    · rw [hchoice, s.fetchersRequest_both h0 h1, if_pos hlast]
      rfl
    · rw [hchoice, s.fetchersRequest_both h0 h1, if_neg hlast]
      rfl
    · rw [hchoice, s.fetchersRequest_one (.inr h1), h0]
      rfl
    · rw [hchoice, s.fetchersRequest_one (.inl h0), h0, h1]
      rfl
    · rw [hchoice, s.fetchersRequest_one (.inl h0), h0, h1]
      rfl
  · rw [s.fetchRequest_fetching hactivity, ← s.writer.hazard_iff]
    split_ifs with hhazard
    · exact ⟨iff_of_true rfl hhazard, nofun⟩
    · exact ⟨iff_of_false nofun hhazard, fun tr htr => (Option.some.inj htr).symm⟩
  · refine ⟨s.intakeRequest_idle, fun n => s.intakeRequest_sweeping hc, fun item hitem => ?_,
      fun item => s.intakeRequest_nullTake hc, s.writerRequest_nil, fun t n p tag rest h => ?_,
      fun t i j w rest h => ?_, fun item rest => ⟨fun h => ?_, fun h => ?_⟩⟩
    · rw [s.intakeRequest_taking hc hitem]
      exact takeRead_phase c item
    · rw [s.writerRequest_cons hc h, entryRequest_state]
      rfl
    · rw [s.writerRequest_cons hc h]
      exact entryRequest_destination c s.writer t i j w
    · rw [s.writerRequest_cons hc h]
      rfl
    · rw [s.writerRequest_cons hc h, entryRequest_done]
      rfl
  · refine ⟨fun tr hport => s.arbitrate_port (.inl ⟨tr, hport⟩),
      fun tr n hport hp => s.arbitrate_own hport (tr.purpose.isWriter_iff.2 ⟨n, hp⟩), s.arbitrate_held, ?_⟩
    cases hacts : s.acts with
    | false =>
      have hheld : ∀ P : Prop, s.control.rst = false → s.control.resetWait = false → P := fun P hr hw =>
        absurd (hacts.symm.trans (s.acts_of_released hr hw)) nofun
      have hself : s.arbitrate = s := if_neg (by rw [hacts]; exact Bool.false_ne_true)
      have hframe : s.arbitrate = { s with port := s.arbitrate.port, writer.buffer := s.writer.buffer } := by
        rw [hself]
      refine ⟨[], s.writer.buffer, rfl, List.forall_mem_nil _, hframe, fun hr hw => hheld _ hr hw,
        fun h => s.arbitrate_port (.inr h),
        fun hr hw => hheld _ hr hw, fun _ hr hw => hheld _ hr hw⟩
    | true =>
      obtain ⟨dropped, kept, hbuffer, hdropped, hkept⟩ := s.discardHead_eq
      have hframe := s.arbitrate_frame hacts
      have hchoice := s.arbitrate_choice hacts
      have hlast := s.arbitrate_lastFetch hacts
      rw [hkept] at hframe hchoice hlast
      dsimp only at hframe
      refine ⟨dropped, kept, hbuffer, hdropped, hframe, fun _ _ hother t i j w rest h => ?_,
        fun h => s.arbitrate_port (.inr h), fun _ _ before => ?_, fun hport _ _ hjoining =>
          ⟨hchoice hport hjoining, ?_⟩⟩
      · refine s.discardHead_head (fun tr hport => Bool.eq_false_iff.2 fun hwriter => ?_) (by rw [hkept]; exact h)
        obtain ⟨n, hp⟩ := tr.purpose.isWriter_iff.1 hwriter
        have := hother tr hport n
        tauto
      · rw [State.portFreed, hkept]
      · obtain ⟨hsource, hnone⟩ := hlast hport hjoining
        split
        · rename_i u _ _ _ heq
          exact hsource _ u heq rfl
        · rename_i hne
          exact hnone fun tr u htr hp => hne u tr.address tr.transfer tr.abandoned (by rw [htr, ← hp])

end Sys2Proof.Machine
end

section
/-! The issue of an iteration and what follows at its boundary (R15, R112 to R117, R134, R138). -/

namespace Sys2Proof.Machine

/-! ### The stop test and the boundary -/

theorem OutcomeSet.fires_iff (o : OutcomeSet) (x : IterOutcome) : o.fires x = true ↔
    (x.sign = .negative ∧ o.negative = true) ∨ (x.sign = .zero ∧ o.zero = true) ∨
      (x.sign = .positive ∧ o.positive = true) ∨ (x.inexact = true ∧ o.inexact = true) := by
  rw [OutcomeSet.fires, Bool.or_eq_true, Bool.and_eq_true, and_comm (a := o.inexact = true)]
  cases x.sign <;> simp [OutcomeSet.hasSign]

theorem sequence_endJob (image : JobImage) {st : Step} (step done : Nat) {o : IterOutcome}
    (hfires : st.stopSet.fires o = true) (haction : st.stopAction = .endJob) :
    sequence image st step done o = .ends .stopped := by
  rw [sequence, hfires, haction]
  rfl

theorem sequence_stepOver (image : JobImage) {st : Step} (step done : Nat) {o : IterOutcome}
    (h : (st.stopSet.fires o = true ∧ st.stopAction = .endRepeat) ∨ (¬st.stopSet.fires o = true ∧ st.repeats ≤ done)) :
    (step + 1 < image.steps.length → sequence image st step done o = .goesOn (step + 1) 0) ∧
    (image.steps.length ≤ step + 1 → sequence image st step done o = .ends .ok) := by
  have hgoes : ¬(st.stopSet.fires o && st.stopAction = .endJob) = true := by
    rw [Bool.and_eq_true, decide_eq_true_eq]
    rintro ⟨hfires, haction⟩
    rcases h with ⟨-, h⟩ | ⟨h, -⟩
    · exact absurd (h.symm.trans haction) nofun
    · exact h hfires
  have hover : (st.stopSet.fires o || st.repeats ≤ done) = true := by
    rw [Bool.or_eq_true, decide_eq_true_eq]
    exact h.imp And.left And.right
  rw [sequence, if_neg hgoes, if_pos hover]
  exact ⟨fun hnext => if_pos hnext, fun hlast => if_neg hlast.not_gt⟩

theorem sequence_again (image : JobImage) {st : Step} (step done : Nat) {o : IterOutcome}
    (hfires : ¬st.stopSet.fires o = true) (hrepeats : done < st.repeats) :
    sequence image st step done o = .goesOn step done := by
  rw [Bool.not_eq_true] at hfires
  rw [sequence, hfires, Bool.false_and, if_neg Bool.false_ne_true, Bool.false_or, if_neg]
  rw [decide_eq_true_eq]
  omega

/-- The state after the issue act's own effects: its entries in the buffer, its cells and outcome in the unit. -/
def State.issuedState (s : State) (u : UnitId) (job : Job) (step done : Nat) (r : IterResult) : State :=
  (s.append (.unit u) (r.writes.map (.destination job.ticket step done))).setUnit u ((s.unit u).issued r)

theorem State.issue_ends (s : State) (u : UnitId) (job : Job) (step done : Nat) {st : Step} {r : IterResult}
    {how : JobEnd} (h : sequence job.image st step (done + 1) r.outcome = .ends how) :
    s.issue u job step done st r = (s.issuedState u job step done r).finishJob u job how step (done + 1) := by
  unfold State.issue State.issueThen
  dsimp only
  rw [h, State.unit_append]
  rfl

theorem State.issue_goesOn (s : State) (u : UnitId) (job : Job) (step done : Nat) {st : Step} {r : IterResult}
    {step' done' : Nat} (h : sequence job.image st step (done + 1) r.outcome = .goesOn step' done') :
    s.issue u job step done st r =
      if (s.unit u).parkMark then (s.issuedState u job step done r).park u job step' done'
      else (s.issuedState u job step done r).beginIteration u job step' done' := by
  unfold State.issue State.issueThen
  dsimp only
  rw [h, State.unit_append]
  rfl

/-- R116: the job that the boundary ends, from the unit as the issue act leaves it. -/
theorem State.issuedState_finishJob (s : State) (u : UnitId) (job : Job) (step done : Nat) (r : IterResult)
    (how : JobEnd) :
    (s.issuedState u job step done r).finishJob u job how step (done + 1) =
      State.present ((s.issuedState u job step done r).setUnit u { (s.unit u).issued r with
        parkMark := false
        activity := .ending ⟨job.ticket, job.slot, job.tag, job.priority,
          ⟨how, step, done + 1, (s.unit u).seen.add r.outcome, some r.outcome⟩⟩ }) (.unit u) := by
  rw [State.finishJob_present, State.issuedState, State.setUnit_unit_same]
  rfl

/-! ### The grant after an issue -/

theorem State.runsTo_frame {s t : State} {u : UnitId} {job : Job} {entries : List WriterEntry}
    (h : s.runsTo u job entries t) : t.control = s.control ∧ t.port = s.port ∧
      t.writer.buffer = s.writer.buffer ++ entries ∧ t.writer.joining = s.writer.joining := by
  rcases h with ⟨c, w, rfl, -⟩ | ⟨parked, items, freed, w, c, rfl, -⟩ <;> cases u <;> exact ⟨rfl, rfl, rfl, rfl⟩

theorem State.acts_of_control {s t : State} (h : t.control = s.control) : t.acts = s.acts := by
  unfold State.acts State.takesCommands
  rw [h]

/-- An entry that the Writer waits with is not to be discarded. -/
theorem State.discardHead_of_request (s : State) {tr : Transaction} (h : s.writerRequest = some tr) : s.discardHead = s := by
  have hkept : discardFailed s.writer s.writer.buffer = s.writer.buffer := by
    cases hc : s.control.config with
    | none =>
      rw [State.writerRequest, hc] at h
      cases h
    | some c =>
      cases hbuffer : s.writer.buffer with
      | nil => rfl
      | cons e rest =>
        rw [s.writerRequest_cons hc hbuffer] at h
        cases e with
        | destination t i j write =>
          refine if_neg fun hfailed => ?_
          rw [entryRequest, if_pos hfailed] at h
          cases h
        | _ => rfl
  rw [State.discardHead, hkept]
  exact ite_self s

theorem State.writerRequest_joining (s : State) (joining : List Appender) :
    State.writerRequest { s with writer.joining := joining } = s.writerRequest := by
  unfold State.writerRequest
  cases s.control.config with
  | none => rfl
  | some c =>
    cases s.writer.buffer with
    | nil => rfl
    | cons e rest => cases e <;> rfl

theorem State.arbiterChoice_joining (s : State) (joining : List Appender) :
    State.arbiterChoice { s with writer.joining := joining } = s.arbiterChoice := by
  unfold State.arbiterChoice
  rw [State.writerRequest_joining]
  rfl

/-- R134, R135: the Writer is granted in demand, or when it alone waits. -/
theorem State.arbiterChoice_writer (s : State) {tr : Transaction} (h : s.writerRequest = some tr)
    (hgranted : 6 ≤ s.writer.buffer.length ∨ (s.loaderRequest = none ∧ s.intakeRequest = none ∧
      s.fetchRequest .unit0 = none ∧ s.fetchRequest .unit1 = none)) : s.arbiterChoice = some tr := by
  by_cases hlevel : 6 ≤ s.writer.buffer.length
  · exact s.arbiterChoice_demand h hlevel
  · obtain ⟨hl, hi, h0, h1⟩ := hgranted.resolve_left hlevel
    rw [s.arbiterChoice_fetchers (.inr (not_le.1 hlevel)) hl hi, s.fetchersRequest_one (.inl h0), h0, h1]
    exact h

/-- The port that no other entries hold back is granted with the appender's entries in the buffer. -/
theorem State.appended_granted (s : State) (a : Appender) {tr : Transaction} (hacts : s.acts = true)
    (hport : s.port.outstanding = none) (hjoining : s.writer.joining = [] ∨ s.writer.joining = [a])
    (hrequest : s.writerRequest = some tr) (hchoice : s.arbiterChoice = some tr) :
    (State.appended a s).port.outstanding = some tr := by
  have hempty : s.writer.joining.erase a = [] := by
    rcases hjoining with h | h
    · rw [h]
      rfl
    · rw [h, List.erase_cons_head]
  have hself : State.discardHead { s with writer.joining := [] } = { s with writer.joining := [] } :=
    State.discardHead_of_request _ ((s.writerRequest_joining []).trans hrequest)
  rw [State.appended, hempty, State.arbitrate_choice { s with writer.joining := [] } hacts hport rfl, hself,
    State.arbiterChoice_joining, hchoice]

/-! ### The entries of a delivery (R15, R112) -/

theorem destWrites_whole {a : Nat} {bytes : List Byte} (h : bytes.length ≤ 64 - a % 64) :
    destWrites a bytes = [⟨a, bytes⟩] := by
  have hblock : a % Config.blockBytes + bytes.length ≤ Config.blockBytes := by
    show a % 64 + bytes.length ≤ 64
    omega
  rw [destWrites, splitAtBlock, if_pos hblock]

theorem destWrites_split {a : Nat} {bytes : List Byte} (h : 64 - a % 64 < bytes.length) :
    destWrites a bytes = [⟨a, bytes.take (64 - a % 64)⟩, ⟨a + (64 - a % 64), bytes.drop (64 - a % 64)⟩] := by
  have hblock : ¬a % Config.blockBytes + bytes.length ≤ Config.blockBytes := by
    show ¬a % 64 + bytes.length ≤ 64
    omega
  have hlower : a + (64 - a % 64) - a = 64 - a % 64 := Nat.add_sub_cancel_left ..
  rw [destWrites, splitAtBlock, if_neg hblock]
  dsimp only [Config.blockBytes]
  rw [hlower]

theorem Delivery.memory (d : Delivery) (i : Nat) {f : MemField} (h : d.dest.place = .memory f) :
    d.cellWrite = none ∧ d.writes i = destWrites (f.addressAt i) (writeField f.format f.digits d.coef) := by
  rw [Delivery.cellWrite, Delivery.writes, h]
  exact ⟨rfl, rfl⟩

theorem Delivery.cell (d : Delivery) (i : Nat) {index : Fin 8} {n scale : Nat} (h : d.dest.place = .cell index n scale) :
    d.writes i = [] ∧ d.cellWrite = some (index, ⟨d.coef, scale⟩) := by
  rw [Delivery.cellWrite, Delivery.writes, h]
  exact ⟨rfl, rfl⟩

/-! ### The issue act -/

theorem exec_iterationIssue (s : State) {u : UnitId} {job : Job} {step done : Nat} {st : Step} {r : IterResult}
    (hactivity : (s.unit u).activity = .iterating job step done (.issuing r)) (hst : job.image.steps[step]? = some st) :
    exec (.iterationIssue u) s =
      .next (if s.mayIssue u r then State.appended (.unit u) (s.issue u job step done st r) else s) := by
  refine congrArg Host.Outcome.next ?_
  rw [hactivity]
  dsimp only
  rw [hst]

theorem State.mayIssue_iff (s : State) (u : UnitId) (r : IterResult) (hacts : s.acts = true) : s.mayIssue u r = true ↔
    r.writes = [] ∨ s.writer.waiters.head? = some (.unit u) ∧ s.writer.buffer.length + r.writes.length ≤ 8 := by
  rw [State.mayIssue, hacts, Bool.true_and, Bool.or_eq_true, List.isEmpty_iff, State.admits_iff, hacts]
  simp

/-- Settles O41: the act by `exec_iterationIssue`, the boundary by the cases of `sequence`, the entries by `destWrites`. -/
theorem iterationIssues : Obligations.IterationIssues := by
  refine ⟨fun s u job step done st r hr hw hactivity hst => ?_, fun s u job step done st r => ?_, fun o x => rfl,
    fun c d i => ⟨rfl, fun index n scale h => d.cell i h, fun f hf => ?_⟩⟩
  · have hexec := exec_iterationIssue s hactivity hst
    have hacts := s.acts_of_released hr hw
    have hissues (h : r.writes = [] ∨
        s.writer.waiters.head? = some (.unit u) ∧ s.writer.buffer.length + r.writes.length ≤ 8) :
        exec (.iterationIssue u) s = .next (State.appended (.unit u) (s.issue u job step done st r)) :=
      hexec.trans (congrArg Host.Outcome.next (if_pos ((s.mayIssue_iff u r hacts).2 h)))
    refine ⟨hissues, fun hwrites hwaits => ?_, fun tr hhead hroom hport hjoining => ?_⟩
    · refine hexec.trans (congrArg Host.Outcome.next (if_neg (mt (s.mayIssue_iff u r hacts).1 ?_)))
      rintro (h | ⟨hhead, hroom⟩)
      · exact hwrites h
      · rcases hwaits with h | h
        · exact h hhead
        · omega
    · intro s1 hrequest hgranted
      obtain ⟨hcontrol, hport1, hbuffer1, hjoining1⟩ := State.runsTo_frame (s.issue_runs u job step done st r)
      have hlength : s1.writer.buffer.length = s.writer.buffer.length + r.writes.length := by
        rw [hbuffer1, List.length_append, List.length_map]
      refine ⟨_, hissues (.inr ⟨hhead, hroom⟩), State.appended_granted s1 (.unit u) ?_ ?_ ?_ hrequest ?_⟩
      · exact (State.acts_of_control hcontrol).trans hacts
      · rw [hport1, hport]
      · rw [hjoining1]
        exact hjoining
      · exact s1.arbiterChoice_writer hrequest (hlength ▸ hgranted)
  · intro seen c s1 fires ended goesOn
    have hfires : st.stopSet.fires r.outcome = true ↔ fires := st.stopSet.fires_iff r.outcome
    have hends {how : JobEnd} (h : sequence job.image st step (done + 1) r.outcome = .ends how) :
        s.issue u job step done st r = ended how :=
      (s.issue_ends u job step done h).trans (s.issuedState_finishJob u job step done r how)
    have hgoes {step' done' : Nat} (h : sequence job.image st step (done + 1) r.outcome = .goesOn step' done') :
        s.issue u job step done st r = goesOn step' done' := s.issue_goesOn u job step done h
    refine ⟨fun hf haction => hends (sequence_endJob job.image step (done + 1) (hfires.2 hf) haction), fun hover => ?_,
      fun hf hrepeats => hgoes (sequence_again job.image step (done + 1) (mt hfires.1 hf) hrepeats)⟩
    obtain ⟨hnext, hlast⟩ := sequence_stepOver job.image step (done + 1)
      (hover.imp (And.imp_left hfires.2) (And.imp_left (mt hfires.1)))
    exact ⟨fun h => hgoes (hnext h), fun h => hends (hlast h)⟩
  · obtain ⟨hcell, hwrites⟩ := d.memory i hf
    refine ⟨hcell, fun hwhole => ?_, fun hsplit => ?_⟩
    · rw [hwrites, destWrites_whole hwhole]
    · rw [hwrites, destWrites_split hsplit]

end Sys2Proof.Machine
end

section
/-! A failed destination write: the record, the report and the end of its job (R98, R119, R131, R142). -/

namespace Sys2Proof.Machine

/-! ### The report to the units -/

/-- The unit iterates a job of the ticket. -/
def CalcUnit.iterates (c : CalcUnit) (t : Ticket) : Bool :=
  match c.activity with
  | .iterating job _ _ _ => decide (job.ticket = t)
  | .idle | .ending _ => false

/-- R119: a unit after a bus-error report for a ticket. -/
def CalcUnit.reported (c : CalcUnit) (t : Ticket) : CalcUnit :=
  match c.activity with
  | .iterating job step done _ =>
    if job.ticket = t then { c with
      parkMark := false
      activity := .ending ⟨job.ticket, job.slot, job.tag, job.priority,
        ⟨.faulted .busError none, step, done, c.seen, c.last⟩⟩ }
    else c
  | .idle | .ending _ => c

/-- R138: the waiters after an appender presents, or does not. -/
def presented (waiters : List Appender) (a : Appender) (presents : Bool) : List Appender :=
  if presents ∧ a ∉ waiters then waiters ++ [a] else waiters

theorem CalcUnit.reported_iterating (c : CalcUnit) {t : Ticket} {job : Job} {step done : Nat} {phase : IterPhase}
    (h : c.activity = .iterating job step done phase) (ht : job.ticket = t) :
    c.reported t = { c with
      parkMark := false
      activity := .ending ⟨job.ticket, job.slot, job.tag, job.priority,
        ⟨.faulted .busError none, step, done, c.seen, c.last⟩⟩ } := by
  rw [CalcUnit.reported, h]
  exact if_pos ht

theorem CalcUnit.reported_other (c : CalcUnit) {t : Ticket}
    (h : ∀ job step done phase, c.activity = .iterating job step done phase → job.ticket ≠ t) : c.reported t = c := by
  rw [CalcUnit.reported]
  cases hactivity : c.activity with
  | iterating job step done phase => exact if_neg (h job step done phase hactivity)
  | _ => rfl

theorem CalcUnit.iterates_other (c : CalcUnit) {t : Ticket}
    (h : ∀ job step done phase, c.activity = .iterating job step done phase → job.ticket ≠ t) : c.iterates t = false := by
  rw [CalcUnit.iterates]
  cases hactivity : c.activity with
  | iterating job step done phase => exact decide_eq_false (h job step done phase hactivity)
  | _ => rfl

theorem State.present_presented (s : State) (a : Appender) :
    s.present a = { s with writer.waiters := presented s.writer.waiters a true } := by
  by_cases h : a ∈ s.writer.waiters
  · rw [s.present_waiting h, presented, if_neg (by tauto)]
  · rw [s.present_new h, presented, if_pos ⟨rfl, h⟩]

theorem presented_false (waiters : List Appender) (a : Appender) : presented waiters a false = waiters :=
  if_neg (by simp)

theorem State.abandonFetch_free (s : State) (u : UnitId) (h : s.port.outstanding = none) : s.abandonFetch u = s := by
  rw [State.abandonFetch, h]

/-- With the port free the report reaches the unit only, which presents its completion item (R119). -/
theorem State.reportToUnit_free (s : State) (u : UnitId) (t : Ticket) (hport : s.port.outstanding = none) :
    s.reportToUnit u t = State.setUnit { s with
      writer.waiters := presented s.writer.waiters (.unit u) ((s.unit u).iterates t) } u ((s.unit u).reported t) := by
  by_cases h : ∃ job step done phase, (s.unit u).activity = .iterating job step done phase ∧ job.ticket = t
  · obtain ⟨job, step, done, phase, hactivity, ht⟩ := h
    have hiterates : (s.unit u).iterates t = true := by
      rw [CalcUnit.iterates, hactivity]
      exact decide_eq_true ht
    rw [State.reportToUnit, hactivity]
    dsimp only
    rw [if_pos ht, s.abandonFetch_free u hport, State.finishJob_present, State.present_presented,
      CalcUnit.reported_iterating _ hactivity ht, hiterates]
    cases u <;> rfl
  · have hother : ∀ job step done phase, (s.unit u).activity = .iterating job step done phase → job.ticket ≠ t :=
      fun job step done phase hactivity ht => h ⟨job, step, done, phase, hactivity, ht⟩
    have hself : s.reportToUnit u t = s := by
      rw [State.reportToUnit]
      cases hactivity : (s.unit u).activity with
      | iterating job step done phase => exact if_neg (hother job step done phase hactivity)
      | _ => rfl
    rw [hself, CalcUnit.reported_other _ hother, CalcUnit.iterates_other _ hother, presented_false]
    cases u <;> rfl

/-! ### The whole report -/

/-- The waiters after the report has reached both units. -/
def State.unitsPresented (s : State) (t : Ticket) : List Appender :=
  presented (presented s.writer.waiters (.unit .unit0) (s.unit0.iterates t)) (.unit .unit1) (s.unit1.iterates t)

/-- Both units after the report. -/
def State.unitsReported (s : State) (t : Ticket) : State :=
  { s with unit0 := s.unit0.reported t, unit1 := s.unit1.reported t, writer.waiters := s.unitsPresented t }

theorem State.reportToUnits (s : State) (t : Ticket) (hport : s.port.outstanding = none) :
    (s.reportToUnit .unit0 t).reportToUnit .unit1 t = s.unitsReported t := by
  rw [s.reportToUnit_free .unit0 t hport, State.reportToUnit_free _ .unit1 t (by exact hport)]
  rfl

theorem ticket_of_find? {parked : List ParkedJob} {t : Ticket} {p : ParkedJob}
    (h : parked.find? (·.job.ticket = t) = some p) : p.job.ticket = t := by
  simpa using List.find?_some h

theorem State.busErrorReport_ending (s : State) {t : Ticket} (hport : s.port.outstanding = none)
    (h : ∀ p ∈ s.dispatcher.parked, p.job.ticket = t → p.ending = true) : s.busErrorReport t = s.unitsReported t := by
  rw [State.busErrorReport, s.reportToUnits t hport]
  split
  · rfl
  · rename_i p hp
    have hending : p.ending = true := h p (List.mem_of_find?_eq_some hp) (ticket_of_find? hp)
    rw [State.endParked, if_pos hending, if_neg nofun]

/-- R98: the report ends a parked job of the ticket at its parked position. -/
theorem State.busErrorReport_parked (s : State) {t : Ticket} {p : ParkedJob} (hport : s.port.outstanding = none)
    (hp : p ∈ s.dispatcher.parked) (ht : p.job.ticket = t) (hending : p.ending = false)
    (honly : ∀ q ∈ s.dispatcher.parked, q.job.ticket = t → q = p) :
    s.busErrorReport t = { s.unitsReported t with
      dispatcher := { s.dispatcher with
        parked := s.dispatcher.parked.map fun q => if q.job.ticket = t then { q with ending := true } else q
        items := s.dispatcher.items ++ [⟨p.job.ticket, p.job.slot, p.job.tag, p.job.priority,
          ⟨.faulted .busError none, p.step, p.done, p.seen, p.last⟩⟩] }
      writer.waiters := presented (s.unitsPresented t) .dispatcher true } := by
  rw [State.busErrorReport, s.reportToUnits t hport]
  have hfind : (s.unitsReported t).dispatcher.parked.find? (·.job.ticket = t) = some p := by
    cases hfound : s.dispatcher.parked.find? (·.job.ticket = t) with
    | none => exact absurd (decide_eq_true ht) (List.find?_eq_none.1 hfound p hp)
    | some q =>
      have hq := honly q (List.mem_of_find?_eq_some hfound) (ticket_of_find? hfound)
      exact hfound.trans (congrArg some hq)
  rw [hfind]
  dsimp only
  rw [State.endParked, hending, if_neg Bool.false_ne_true, State.dispatcherItem, State.present_presented, ht]
  rfl

/-! ### The failed write -/

/-- The state in which the report is sent (R142). -/
def State.failureRecorded (s : State) (t : Ticket) (i j : Nat) (rest : List WriterEntry) : State :=
  { s with writer := { s.writer with
      table := s.writer.table.map fun r => if r.ticket = t then { r with failure := some (r.failure.getD (i, j)) } else r
      buffer := rest.filter fun e => !e.isDestinationOf t } }

theorem State.destinationFailed_eq (s : State) {t : Ticket} {i j : Nat} {w : DestWrite} {rest : List WriterEntry}
    (h : s.writer.buffer = .destination t i j w :: rest) :
    s.destinationFailed = (s.failureRecorded t i j rest).busErrorReport t := by
  have hfailure (r : TicketRecord) : r.failure.or (some (i, j)) = some (r.failure.getD (i, j)) := by
    cases r.failure <;> rfl
  rw [State.destinationFailed, h]
  dsimp only [Writer.updateRecord]
  simp only [hfailure]
  rfl

theorem exec_destinationWriteFail (s : State) {tr : Transaction} {t : Ticket} {i j : Nat} {w : DestWrite}
    {rest : List WriterEntry} (hwait : s.control.resetWait = false) (hport : s.port.outstanding = some tr)
    (hpurpose : tr.purpose = .destination) (hbuffer : s.writer.buffer = .destination t i j w :: rest) :
    exec .destinationWriteFail s =
      .next (s.portFreed (((s.endedFailed tr).failureRecorded t i j rest).busErrorReport t)) := by
  refine congrArg Host.Outcome.next ?_
  have hkept : (s.endedFailed tr).writer = s.writer := by rw [s.endedFailed_frame tr]
  rw [s.respondFail_routed .error hwait hport (by rw [hpurpose]; rfl), State.routeFailure_destination _ _ hpurpose,
    State.destinationFailed_eq _ (by rw [hkept]; exact hbuffer)]

/-- Beside the units the report changes contexts' marks, items and waiters. -/
theorem State.busErrorReport_frame (s : State) (t : Ticket) (hport : s.port.outstanding = none) :
    ∃ parked items w, s.busErrorReport t = { s.unitsReported t with
      dispatcher := { s.dispatcher with parked := parked, items := items }, writer := { s.writer with waiters := w } } := by
  rw [State.busErrorReport, s.reportToUnits t hport]
  split
  · exact ⟨_, _, _, rfl⟩
  · rename_i p _
    obtain ⟨parked, items, w, h, -⟩ := (s.unitsReported t).endParked_eq (.faulted .busError none) p
    exact ⟨parked, items, w, h⟩

theorem State.unit_unitsReported (s : State) (t : Ticket) (u : UnitId) :
    (s.unitsReported t).unit u = (s.unit u).reported t := by
  cases u <;> rfl

/-- Settles O46: the act by `exec_destinationWriteFail`, the report by `State.busErrorReport_frame` and its two cases. -/
theorem destinationFailureRecorded : Obligations.DestinationFailureRecorded := by
  intro s tr t i j w rest hwait hport hpurpose hbuffer
  have hexec := exec_destinationWriteFail s hwait hport hpurpose hbuffer
  have hleave := s.endedFailed_mayLeave tr
  have hended := s.endedFailed_frame tr
  generalize (s.endedFailed tr).memory = memory at hleave hended
  generalize (s.endedFailed tr).freeCount = freeCount at hended
  rw [hended] at hexec
  refine ⟨_, hexec, ?_⟩
  let r := State.failureRecorded
    { s with port.outstanding := none, memory := memory, freeCount := freeCount } t i j rest
  have hunit (u : UnitId) : r.unit u = s.unit u := by
    cases u <;> rfl
  obtain ⟨parked, items, waiters, hframe⟩ := r.busErrorReport_frame t rfl
  have hreported (u : UnitId) : (r.busErrorReport t).unit u = (s.unit u).reported t := by
    rw [hframe, ← hunit u, ← r.unit_unitsReported t u]
    cases u <;> rfl
  have hkept : (rest.filter fun e => !e.isDestinationOf t) = r.writer.buffer := rfl
  refine ⟨?_, ?_, ?_, ?_, ?_, ?_, ?_, fun u h => ?_, fun u job step done phase h ht => ?_, fun h => ?_,
    fun p hp ht hending honly => ?_⟩
  · rw [hframe]
    rfl
  · rw [hframe]
    refine hkept.symm.trans (List.filter_congr fun e _ => ?_)
    cases e with
    | destination t' i' j' w' => exact (decide_not (p := t' = t)).symm
    | _ => rfl
  · rw [hframe]
    rfl
  · rw [hframe]
    rfl
  · rw [hframe]
    rfl
  · rw [hframe]
    rfl
  · rw [hframe]
    exact hleave
  · exact (hreported u).trans (CalcUnit.reported_other _ h)
  · exact (hreported u).trans (CalcUnit.reported_iterating _ h ht)
  · rw [r.busErrorReport_ending rfl h]
    exact ⟨rfl, rfl⟩
  · rw [r.busErrorReport_parked rfl hp ht hending honly]
    exact ⟨rfl, rfl⟩

end Sys2Proof.Machine
end
